-- ==== Sys2Proof/Word.lean ====
section
/-! DEFINITION. The widths the spec gives its values (00_scope.md R6, R7; 10_state.md R26, R32). -/

namespace Sys2Proof

/-- One byte of memory (20_memory.md R60). -/
abbrev Byte := BitVec 8

/-- A 32-bit value: an instruction word (R92), the low half of a register (R27). -/
abbrev Word := BitVec 32

/-- A 64-bit value: a stored register (R26, R32). An `XLEN`-bit value of 32-bit mode is held
zero-extended in one (log 16). -/
abbrev DWord := BitVec 64

/-- A register index, a 5-bit field (R110): 0 to 31 by construction. -/
abbrev Reg := BitVec 5

/-- A raw 12-bit immediate: natural order in formats I and S (R103, R104), encoded order in format B (R105). -/
abbrev Imm12 := BitVec 12

/-- A raw 20-bit immediate: format U (R106), or format J in encoded order (R107). -/
abbrev Imm20 := BitVec 20

/-- A raw 5-bit shift amount (R108). -/
abbrev Shamt := BitVec 5

/-- A rounding-mode selector, the field `p` (R340). -/
abbrev Rm := BitVec 3

/-- A control register address (R109). -/
abbrev CsrAddr := BitVec 12

/-- The 5-bit unsigned immediate of the CSR-immediate instructions (R109). -/
abbrev Zimm := BitVec 5

end Sys2Proof
end

