-- ==== Sys2Proof/Syntax.lean ====
section
/-! DEFINITION. The instructions: one constructor per row of spec/opcode_table.json, in catalog order.
Operands stand in assembler order (destination first) and hold the raw unsigned fields the extractor produces
(41_extractor.md R143, R144); an immediate keeps the encoded bit order of its format (30_encoding.md R103 to R109). -/

namespace Sys2Proof

/-- The 161 instructions of the reference catalog (R3, R22, R111). -/
inductive Instr where
  /-- `ADD` (add), R180. -/
  | add (rd rs1 rs2 : Reg)
  /-- `SUB` (subtract), R181. -/
  | sub (rd rs1 rs2 : Reg)
  /-- `SLL` (shift left logical), R182. -/
  | sll (rd rs1 rs2 : Reg)
  /-- `SLT` (set if less than, signed), R183. -/
  | slt (rd rs1 rs2 : Reg)
  /-- `SLTU` (set if less than, unsigned), R184. -/
  | sltu (rd rs1 rs2 : Reg)
  /-- `XOR` (bitwise exclusive or), R185. -/
  | xor (rd rs1 rs2 : Reg)
  /-- `SRL` (shift right logical), R186. -/
  | srl (rd rs1 rs2 : Reg)
  /-- `SRA` (shift right arithmetic), R187. -/
  | sra (rd rs1 rs2 : Reg)
  /-- `OR` (bitwise or), R188. -/
  | or (rd rs1 rs2 : Reg)
  /-- `AND` (bitwise and), R189. -/
  | and (rd rs1 rs2 : Reg)
  /-- `MUL` (multiply, low half), R190. -/
  | mul (rd rs1 rs2 : Reg)
  /-- `MULH` (multiply, high half, signed by signed), R191. -/
  | mulh (rd rs1 rs2 : Reg)
  /-- `MULHSU` (multiply, high half, signed by unsigned), R192. -/
  | mulhsu (rd rs1 rs2 : Reg)
  /-- `MULHU` (multiply, high half, unsigned by unsigned), R193. -/
  | mulhu (rd rs1 rs2 : Reg)
  /-- `DIV` (divide, signed), R194. -/
  | div (rd rs1 rs2 : Reg)
  /-- `DIVU` (divide, unsigned), R195. -/
  | divu (rd rs1 rs2 : Reg)
  /-- `REM` (remainder, signed), R196. -/
  | rem (rd rs1 rs2 : Reg)
  /-- `REMU` (remainder, unsigned), R197. -/
  | remu (rd rs1 rs2 : Reg)
  /-- `ADDW` (add word), R198. -/
  | addw (rd rs1 rs2 : Reg)
  /-- `SUBW` (subtract word), R199. -/
  | subw (rd rs1 rs2 : Reg)
  /-- `SLLW` (shift left logical word), R200. -/
  | sllw (rd rs1 rs2 : Reg)
  /-- `SRLW` (shift right logical word), R201. -/
  | srlw (rd rs1 rs2 : Reg)
  /-- `SRAW` (shift right arithmetic word), R202. -/
  | sraw (rd rs1 rs2 : Reg)
  /-- `MULW` (multiply word), R203. -/
  | mulw (rd rs1 rs2 : Reg)
  /-- `DIVW` (divide word, signed), R204. -/
  | divw (rd rs1 rs2 : Reg)
  /-- `DIVUW` (divide word, unsigned), R205. -/
  | divuw (rd rs1 rs2 : Reg)
  /-- `REMW` (remainder word, signed), R206. -/
  | remw (rd rs1 rs2 : Reg)
  /-- `REMUW` (remainder word, unsigned), R207. -/
  | remuw (rd rs1 rs2 : Reg)
  /-- `ADDI` (add immediate), R208. -/
  | addi (rd rs1 : Reg) (imm : Imm12)
  /-- `SLTI` (set if less than immediate, signed), R209. -/
  | slti (rd rs1 : Reg) (imm : Imm12)
  /-- `SLTIU` (set if less than immediate, unsigned), R210. -/
  | sltiu (rd rs1 : Reg) (imm : Imm12)
  /-- `XORI` (exclusive or immediate), R211. -/
  | xori (rd rs1 : Reg) (imm : Imm12)
  /-- `ORI` (or immediate), R212. -/
  | ori (rd rs1 : Reg) (imm : Imm12)
  /-- `ANDI` (and immediate), R213. -/
  | andi (rd rs1 : Reg) (imm : Imm12)
  /-- `SLLI` (shift left logical immediate, amount 0 to 31), R214. -/
  | slli (rd rs1 : Reg) (shamt : Shamt)
  /-- `SRLI` (shift right logical immediate, amount 0 to 31), R215. -/
  | srli (rd rs1 : Reg) (shamt : Shamt)
  /-- `SRAI` (shift right arithmetic immediate, amount 0 to 31), R216. -/
  | srai (rd rs1 : Reg) (shamt : Shamt)
  /-- `SLLI_HI` (shift left logical immediate, amount 32 to 63), R217. -/
  | slliHi (rd rs1 : Reg) (shamt : Shamt)
  /-- `SRLI_HI` (shift right logical immediate, amount 32 to 63), R218. -/
  | srliHi (rd rs1 : Reg) (shamt : Shamt)
  /-- `SRAI_HI` (shift right arithmetic immediate, amount 32 to 63), R219. -/
  | sraiHi (rd rs1 : Reg) (shamt : Shamt)
  /-- `ADDIW` (add immediate word), R220. -/
  | addiw (rd rs1 : Reg) (imm : Imm12)
  /-- `SLLIW` (shift left logical immediate word), R221. -/
  | slliw (rd rs1 : Reg) (shamt : Shamt)
  /-- `SRLIW` (shift right logical immediate word), R222. -/
  | srliw (rd rs1 : Reg) (shamt : Shamt)
  /-- `SRAIW` (shift right arithmetic immediate word), R223. -/
  | sraiw (rd rs1 : Reg) (shamt : Shamt)
  /-- `LUI` (load upper immediate), R224. -/
  | lui (rd : Reg) (imm : Imm20)
  /-- `AUIPC` (add upper immediate to pc), R225. -/
  | auipc (rd : Reg) (imm : Imm20)
  /-- `LB` (load byte, signed), R265. -/
  | lb (rd rs1 : Reg) (imm : Imm12)
  /-- `LH` (load halfword, signed), R266. -/
  | lh (rd rs1 : Reg) (imm : Imm12)
  /-- `LW` (load word, signed), R267. -/
  | lw (rd rs1 : Reg) (imm : Imm12)
  /-- `LBU` (load byte, unsigned), R268. -/
  | lbu (rd rs1 : Reg) (imm : Imm12)
  /-- `LHU` (load halfword, unsigned), R269. -/
  | lhu (rd rs1 : Reg) (imm : Imm12)
  /-- `LWU` (load word, unsigned), R270. -/
  | lwu (rd rs1 : Reg) (imm : Imm12)
  /-- `LD` (load doubleword), R271. -/
  | ld (rd rs1 : Reg) (imm : Imm12)
  /-- `SB` (store byte), R272. -/
  | sb (rs1 rs2 : Reg) (imm : Imm12)
  /-- `SH` (store halfword), R273. -/
  | sh (rs1 rs2 : Reg) (imm : Imm12)
  /-- `SW` (store word), R274. -/
  | sw (rs1 rs2 : Reg) (imm : Imm12)
  /-- `SD` (store doubleword), R275. -/
  | sd (rs1 rs2 : Reg) (imm : Imm12)
  /-- `BEQ` (branch if equal), R284. -/
  | beq (rs1 rs2 : Reg) (imm : Imm12)
  /-- `BNE` (branch if not equal), R285. -/
  | bne (rs1 rs2 : Reg) (imm : Imm12)
  /-- `BLT` (branch if less than, signed), R286. -/
  | blt (rs1 rs2 : Reg) (imm : Imm12)
  /-- `BGE` (branch if greater than or equal, signed), R287. -/
  | bge (rs1 rs2 : Reg) (imm : Imm12)
  /-- `BLTU` (branch if less than, unsigned), R288. -/
  | bltu (rs1 rs2 : Reg) (imm : Imm12)
  /-- `BGEU` (branch if greater than or equal, unsigned), R289. -/
  | bgeu (rs1 rs2 : Reg) (imm : Imm12)
  /-- `JAL` (jump and link), R290. -/
  | jal (rd : Reg) (imm : Imm20)
  /-- `JALR` (jump and link register), R291. -/
  | jalr (rd rs1 : Reg) (imm : Imm12)
  /-- `LR.W` (load reserved, word), R308. -/
  | lrW (rd rs1 : Reg) (aq rl : BitVec 1)
  /-- `SC.W` (store conditional, word), R309. -/
  | scW (rd rs1 rs2 : Reg) (aq rl : BitVec 1)
  /-- `AMOSWAP.W` (atomic swap, word), R310. -/
  | amoswapW (rd rs1 rs2 : Reg) (aq rl : BitVec 1)
  /-- `AMOADD.W` (atomic add, word), R311. -/
  | amoaddW (rd rs1 rs2 : Reg) (aq rl : BitVec 1)
  /-- `AMOXOR.W` (atomic exclusive or, word), R312. -/
  | amoxorW (rd rs1 rs2 : Reg) (aq rl : BitVec 1)
  /-- `AMOAND.W` (atomic and, word), R313. -/
  | amoandW (rd rs1 rs2 : Reg) (aq rl : BitVec 1)
  /-- `AMOOR.W` (atomic or, word), R314. -/
  | amoorW (rd rs1 rs2 : Reg) (aq rl : BitVec 1)
  /-- `AMOMIN.W` (atomic minimum, signed, word), R315. -/
  | amominW (rd rs1 rs2 : Reg) (aq rl : BitVec 1)
  /-- `AMOMAX.W` (atomic maximum, signed, word), R316. -/
  | amomaxW (rd rs1 rs2 : Reg) (aq rl : BitVec 1)
  /-- `AMOMINU.W` (atomic minimum, unsigned, word), R317. -/
  | amominuW (rd rs1 rs2 : Reg) (aq rl : BitVec 1)
  /-- `AMOMAXU.W` (atomic maximum, unsigned, word), R318. -/
  | amomaxuW (rd rs1 rs2 : Reg) (aq rl : BitVec 1)
  /-- `LR.D` (load reserved, doubleword), R319. -/
  | lrD (rd rs1 : Reg) (aq rl : BitVec 1)
  /-- `SC.D` (store conditional, doubleword), R320. -/
  | scD (rd rs1 rs2 : Reg) (aq rl : BitVec 1)
  /-- `AMOSWAP.D` (atomic swap, doubleword), R321. -/
  | amoswapD (rd rs1 rs2 : Reg) (aq rl : BitVec 1)
  /-- `AMOADD.D` (atomic add, doubleword), R322. -/
  | amoaddD (rd rs1 rs2 : Reg) (aq rl : BitVec 1)
  /-- `AMOXOR.D` (atomic exclusive or, doubleword), R323. -/
  | amoxorD (rd rs1 rs2 : Reg) (aq rl : BitVec 1)
  /-- `AMOAND.D` (atomic and, doubleword), R324. -/
  | amoandD (rd rs1 rs2 : Reg) (aq rl : BitVec 1)
  /-- `AMOOR.D` (atomic or, doubleword), R325. -/
  | amoorD (rd rs1 rs2 : Reg) (aq rl : BitVec 1)
  /-- `AMOMIN.D` (atomic minimum, signed, doubleword), R326. -/
  | amominD (rd rs1 rs2 : Reg) (aq rl : BitVec 1)
  /-- `AMOMAX.D` (atomic maximum, signed, doubleword), R327. -/
  | amomaxD (rd rs1 rs2 : Reg) (aq rl : BitVec 1)
  /-- `AMOMINU.D` (atomic minimum, unsigned, doubleword), R328. -/
  | amominuD (rd rs1 rs2 : Reg) (aq rl : BitVec 1)
  /-- `AMOMAXU.D` (atomic maximum, unsigned, doubleword), R329. -/
  | amomaxuD (rd rs1 rs2 : Reg) (aq rl : BitVec 1)
  /-- `FLW` (load single-precision value), R354. -/
  | flw (rd rs1 : Reg) (imm : Imm12)
  /-- `FSW` (store single-precision value), R355. -/
  | fsw (rs1 rs2 : Reg) (imm : Imm12)
  /-- `FMADD.S` (fused multiply-add, single), R356. -/
  | fmaddS (rd rs1 rs2 rs3 : Reg) (rm : Rm)
  /-- `FMSUB.S` (fused multiply-subtract, single), R357. -/
  | fmsubS (rd rs1 rs2 rs3 : Reg) (rm : Rm)
  /-- `FNMSUB.S` (negated fused multiply-subtract, single), R358. -/
  | fnmsubS (rd rs1 rs2 rs3 : Reg) (rm : Rm)
  /-- `FNMADD.S` (negated fused multiply-add, single), R359. -/
  | fnmaddS (rd rs1 rs2 rs3 : Reg) (rm : Rm)
  /-- `FADD.S` (add, single), R360. -/
  | faddS (rd rs1 rs2 : Reg) (rm : Rm)
  /-- `FSUB.S` (subtract, single), R361. -/
  | fsubS (rd rs1 rs2 : Reg) (rm : Rm)
  /-- `FMUL.S` (multiply, single), R362. -/
  | fmulS (rd rs1 rs2 : Reg) (rm : Rm)
  /-- `FDIV.S` (divide, single), R363. -/
  | fdivS (rd rs1 rs2 : Reg) (rm : Rm)
  /-- `FSQRT.S` (square root, single), R364. -/
  | fsqrtS (rd rs1 : Reg) (rm : Rm)
  /-- `FSGNJ.S` (sign injection, single), R365. -/
  | fsgnjS (rd rs1 rs2 : Reg)
  /-- `FSGNJN.S` (sign injection, negated, single), R366. -/
  | fsgnjnS (rd rs1 rs2 : Reg)
  /-- `FSGNJX.S` (sign injection, exclusive or, single), R367. -/
  | fsgnjxS (rd rs1 rs2 : Reg)
  /-- `FMIN.S` (minimum, single), R368. -/
  | fminS (rd rs1 rs2 : Reg)
  /-- `FMAX.S` (maximum, single), R369. -/
  | fmaxS (rd rs1 rs2 : Reg)
  /-- `FEQ.S` (compare equal, single), R370. -/
  | feqS (rd rs1 rs2 : Reg)
  /-- `FLT.S` (compare less than, single), R371. -/
  | fltS (rd rs1 rs2 : Reg)
  /-- `FLE.S` (compare less than or equal, single), R372. -/
  | fleS (rd rs1 rs2 : Reg)
  /-- `FCLASS.S` (classify, single), R373. -/
  | fclassS (rd rs1 : Reg)
  /-- `FCVT.W.S` (convert single to signed 32-bit integer), R374. -/
  | fcvtWS (rd rs1 : Reg) (rm : Rm)
  /-- `FCVT.S.W` (convert signed 32-bit integer to single), R375. -/
  | fcvtSW (rd rs1 : Reg) (rm : Rm)
  /-- `FCVT.WU.S` (convert single to unsigned 32-bit integer), R376. -/
  | fcvtWuS (rd rs1 : Reg) (rm : Rm)
  /-- `FCVT.S.WU` (convert unsigned 32-bit integer to single), R377. -/
  | fcvtSWu (rd rs1 : Reg) (rm : Rm)
  /-- `FCVT.L.S` (convert single to signed 64-bit integer), R378. -/
  | fcvtLS (rd rs1 : Reg) (rm : Rm)
  /-- `FCVT.S.L` (convert signed 64-bit integer to single), R379. -/
  | fcvtSL (rd rs1 : Reg) (rm : Rm)
  /-- `FCVT.LU.S` (convert single to unsigned 64-bit integer), R380. -/
  | fcvtLuS (rd rs1 : Reg) (rm : Rm)
  /-- `FCVT.S.LU` (convert unsigned 64-bit integer to single), R381. -/
  | fcvtSLu (rd rs1 : Reg) (rm : Rm)
  /-- `FMV.X.W` (move single bits to integer register), R382. -/
  | fmvXW (rd rs1 : Reg)
  /-- `FMV.W.X` (move integer register bits to single), R383. -/
  | fmvWX (rd rs1 : Reg)
  /-- `FLD` (load double-precision value), R393. -/
  | fld (rd rs1 : Reg) (imm : Imm12)
  /-- `FSD` (store double-precision value), R394. -/
  | fsd (rs1 rs2 : Reg) (imm : Imm12)
  /-- `FMADD.D` (fused multiply-add, double), R395. -/
  | fmaddD (rd rs1 rs2 rs3 : Reg) (rm : Rm)
  /-- `FMSUB.D` (fused multiply-subtract, double), R396. -/
  | fmsubD (rd rs1 rs2 rs3 : Reg) (rm : Rm)
  /-- `FNMSUB.D` (negated fused multiply-subtract, double), R397. -/
  | fnmsubD (rd rs1 rs2 rs3 : Reg) (rm : Rm)
  /-- `FNMADD.D` (negated fused multiply-add, double), R398. -/
  | fnmaddD (rd rs1 rs2 rs3 : Reg) (rm : Rm)
  /-- `FADD.D` (add, double), R399. -/
  | faddD (rd rs1 rs2 : Reg) (rm : Rm)
  /-- `FSUB.D` (subtract, double), R400. -/
  | fsubD (rd rs1 rs2 : Reg) (rm : Rm)
  /-- `FMUL.D` (multiply, double), R401. -/
  | fmulD (rd rs1 rs2 : Reg) (rm : Rm)
  /-- `FDIV.D` (divide, double), R402. -/
  | fdivD (rd rs1 rs2 : Reg) (rm : Rm)
  /-- `FSQRT.D` (square root, double), R403. -/
  | fsqrtD (rd rs1 : Reg) (rm : Rm)
  /-- `FSGNJ.D` (sign injection, double), R404. -/
  | fsgnjD (rd rs1 rs2 : Reg)
  /-- `FSGNJN.D` (sign injection, negated, double), R405. -/
  | fsgnjnD (rd rs1 rs2 : Reg)
  /-- `FSGNJX.D` (sign injection, exclusive or, double), R406. -/
  | fsgnjxD (rd rs1 rs2 : Reg)
  /-- `FMIN.D` (minimum, double), R407. -/
  | fminD (rd rs1 rs2 : Reg)
  /-- `FMAX.D` (maximum, double), R408. -/
  | fmaxD (rd rs1 rs2 : Reg)
  /-- `FEQ.D` (compare equal, double), R409. -/
  | feqD (rd rs1 rs2 : Reg)
  /-- `FLT.D` (compare less than, double), R410. -/
  | fltD (rd rs1 rs2 : Reg)
  /-- `FLE.D` (compare less than or equal, double), R411. -/
  | fleD (rd rs1 rs2 : Reg)
  /-- `FCLASS.D` (classify, double), R412. -/
  | fclassD (rd rs1 : Reg)
  /-- `FCVT.W.D` (convert double to signed 32-bit integer), R413. -/
  | fcvtWD (rd rs1 : Reg) (rm : Rm)
  /-- `FCVT.D.W` (convert signed 32-bit integer to double), R414. -/
  | fcvtDW (rd rs1 : Reg) (rm : Rm)
  /-- `FCVT.WU.D` (convert double to unsigned 32-bit integer), R415. -/
  | fcvtWuD (rd rs1 : Reg) (rm : Rm)
  /-- `FCVT.D.WU` (convert unsigned 32-bit integer to double), R416. -/
  | fcvtDWu (rd rs1 : Reg) (rm : Rm)
  /-- `FCVT.L.D` (convert double to signed 64-bit integer), R417. -/
  | fcvtLD (rd rs1 : Reg) (rm : Rm)
  /-- `FCVT.D.L` (convert signed 64-bit integer to double), R418. -/
  | fcvtDL (rd rs1 : Reg) (rm : Rm)
  /-- `FCVT.LU.D` (convert double to unsigned 64-bit integer), R419. -/
  | fcvtLuD (rd rs1 : Reg) (rm : Rm)
  /-- `FCVT.D.LU` (convert unsigned 64-bit integer to double), R420. -/
  | fcvtDLu (rd rs1 : Reg) (rm : Rm)
  /-- `FCVT.S.D` (convert double to single), R421. -/
  | fcvtSD (rd rs1 : Reg) (rm : Rm)
  /-- `FCVT.D.S` (convert single to double), R422. -/
  | fcvtDS (rd rs1 : Reg) (rm : Rm)
  /-- `FMV.X.D` (move double bits to integer register), R423. -/
  | fmvXD (rd rs1 : Reg)
  /-- `FMV.D.X` (move integer register bits to double), R424. -/
  | fmvDX (rd rs1 : Reg)
  /-- `FENCE` (memory fence), R440. -/
  | fence (rd rs1 : Reg) (fm pred succ : BitVec 4)
  /-- `FENCE.I` (instruction-fetch fence), R441. -/
  | fenceI (rd rs1 : Reg) (imm : Imm12)
  /-- `ECALL` (environment call), R442. -/
  | ecall
  /-- `EBREAK` (breakpoint), R443. -/
  | ebreak
  /-- `URET` (return from user-level trap), R446. -/
  | uret
  /-- `WFI` (wait for interrupt), R444. -/
  | wfi
  /-- `CSRRW` (atomic read and write CSR), R448. -/
  | csrrw (rd : Reg) (csr : CsrAddr) (rs1 : Reg)
  /-- `CSRRS` (atomic read and set bits in CSR), R449. -/
  | csrrs (rd : Reg) (csr : CsrAddr) (rs1 : Reg)
  /-- `CSRRC` (atomic read and clear bits in CSR), R450. -/
  | csrrc (rd : Reg) (csr : CsrAddr) (rs1 : Reg)
  /-- `CSRRWI` (atomic read and write CSR, immediate), R451. -/
  | csrrwi (rd : Reg) (csr : CsrAddr) (zimm : Zimm)
  /-- `CSRRSI` (atomic read and set bits in CSR, immediate), R452. -/
  | csrrsi (rd : Reg) (csr : CsrAddr) (zimm : Zimm)
  /-- `CSRRCI` (atomic read and clear bits in CSR, immediate), R453. -/
  | csrrci (rd : Reg) (csr : CsrAddr) (zimm : Zimm)
  deriving DecidableEq, Repr

end Sys2Proof
end

