-- ==== Sys2Proof/WellFormed.lean ====
section
/-! DEFINITION. Which instructions a configuration can hold: register indices and selectors are in range by
their types (R110, R158), so the one condition left is the width mode (R112, R151). -/

namespace Sys2Proof

/-- `requires64BitMode` of the instruction's descriptor: the 41 instructions of R112. -/
def Instr.requires64 : Instr → Bool
  | .add _ _ _ => false
  | .sub _ _ _ => false
  | .sll _ _ _ => false
  | .slt _ _ _ => false
  | .sltu _ _ _ => false
  | .xor _ _ _ => false
  | .srl _ _ _ => false
  | .sra _ _ _ => false
  | .or _ _ _ => false
  | .and _ _ _ => false
  | .mul _ _ _ => false
  | .mulh _ _ _ => false
  | .mulhsu _ _ _ => false
  | .mulhu _ _ _ => false
  | .div _ _ _ => false
  | .divu _ _ _ => false
  | .rem _ _ _ => false
  | .remu _ _ _ => false
  | .addw _ _ _ => true
  | .subw _ _ _ => true
  | .sllw _ _ _ => true
  | .srlw _ _ _ => true
  | .sraw _ _ _ => true
  | .mulw _ _ _ => true
  | .divw _ _ _ => true
  | .divuw _ _ _ => true
  | .remw _ _ _ => true
  | .remuw _ _ _ => true
  | .addi _ _ _ => false
  | .slti _ _ _ => false
  | .sltiu _ _ _ => false
  | .xori _ _ _ => false
  | .ori _ _ _ => false
  | .andi _ _ _ => false
  | .slli _ _ _ => false
  | .srli _ _ _ => false
  | .srai _ _ _ => false
  | .slliHi _ _ _ => true
  | .srliHi _ _ _ => true
  | .sraiHi _ _ _ => true
  | .addiw _ _ _ => true
  | .slliw _ _ _ => true
  | .srliw _ _ _ => true
  | .sraiw _ _ _ => true
  | .lui _ _ => false
  | .auipc _ _ => false
  | .lb _ _ _ => false
  | .lh _ _ _ => false
  | .lw _ _ _ => false
  | .lbu _ _ _ => false
  | .lhu _ _ _ => false
  | .lwu _ _ _ => true
  | .ld _ _ _ => true
  | .sb _ _ _ => false
  | .sh _ _ _ => false
  | .sw _ _ _ => false
  | .sd _ _ _ => true
  | .beq _ _ _ => false
  | .bne _ _ _ => false
  | .blt _ _ _ => false
  | .bge _ _ _ => false
  | .bltu _ _ _ => false
  | .bgeu _ _ _ => false
  | .jal _ _ => false
  | .jalr _ _ _ => false
  | .lrW _ _ _ _ => false
  | .scW _ _ _ _ _ => false
  | .amoswapW _ _ _ _ _ => false
  | .amoaddW _ _ _ _ _ => false
  | .amoxorW _ _ _ _ _ => false
  | .amoandW _ _ _ _ _ => false
  | .amoorW _ _ _ _ _ => false
  | .amominW _ _ _ _ _ => false
  | .amomaxW _ _ _ _ _ => false
  | .amominuW _ _ _ _ _ => false
  | .amomaxuW _ _ _ _ _ => false
  | .lrD _ _ _ _ => true
  | .scD _ _ _ _ _ => true
  | .amoswapD _ _ _ _ _ => true
  | .amoaddD _ _ _ _ _ => true
  | .amoxorD _ _ _ _ _ => true
  | .amoandD _ _ _ _ _ => true
  | .amoorD _ _ _ _ _ => true
  | .amominD _ _ _ _ _ => true
  | .amomaxD _ _ _ _ _ => true
  | .amominuD _ _ _ _ _ => true
  | .amomaxuD _ _ _ _ _ => true
  | .flw _ _ _ => false
  | .fsw _ _ _ => false
  | .fmaddS _ _ _ _ _ => false
  | .fmsubS _ _ _ _ _ => false
  | .fnmsubS _ _ _ _ _ => false
  | .fnmaddS _ _ _ _ _ => false
  | .faddS _ _ _ _ => false
  | .fsubS _ _ _ _ => false
  | .fmulS _ _ _ _ => false
  | .fdivS _ _ _ _ => false
  | .fsqrtS _ _ _ => false
  | .fsgnjS _ _ _ => false
  | .fsgnjnS _ _ _ => false
  | .fsgnjxS _ _ _ => false
  | .fminS _ _ _ => false
  | .fmaxS _ _ _ => false
  | .feqS _ _ _ => false
  | .fltS _ _ _ => false
  | .fleS _ _ _ => false
  | .fclassS _ _ => false
  | .fcvtWS _ _ _ => false
  | .fcvtSW _ _ _ => false
  | .fcvtWuS _ _ _ => false
  | .fcvtSWu _ _ _ => false
  | .fcvtLS _ _ _ => true
  | .fcvtSL _ _ _ => true
  | .fcvtLuS _ _ _ => true
  | .fcvtSLu _ _ _ => true
  | .fmvXW _ _ => false
  | .fmvWX _ _ => false
  | .fld _ _ _ => false
  | .fsd _ _ _ => false
  | .fmaddD _ _ _ _ _ => false
  | .fmsubD _ _ _ _ _ => false
  | .fnmsubD _ _ _ _ _ => false
  | .fnmaddD _ _ _ _ _ => false
  | .faddD _ _ _ _ => false
  | .fsubD _ _ _ _ => false
  | .fmulD _ _ _ _ => false
  | .fdivD _ _ _ _ => false
  | .fsqrtD _ _ _ => false
  | .fsgnjD _ _ _ => false
  | .fsgnjnD _ _ _ => false
  | .fsgnjxD _ _ _ => false
  | .fminD _ _ _ => false
  | .fmaxD _ _ _ => false
  | .feqD _ _ _ => false
  | .fltD _ _ _ => false
  | .fleD _ _ _ => false
  | .fclassD _ _ => false
  | .fcvtWD _ _ _ => false
  | .fcvtDW _ _ _ => false
  | .fcvtWuD _ _ _ => false
  | .fcvtDWu _ _ _ => false
  | .fcvtLD _ _ _ => true
  | .fcvtDL _ _ _ => true
  | .fcvtLuD _ _ _ => true
  | .fcvtDLu _ _ _ => true
  | .fcvtSD _ _ _ => false
  | .fcvtDS _ _ _ => false
  | .fmvXD _ _ => true
  | .fmvDX _ _ => true
  | .fence _ _ _ _ _ => false
  | .fenceI _ _ _ => false
  | .ecall => false
  | .ebreak => false
  | .uret => false
  | .wfi => false
  | .csrrw _ _ _ => false
  | .csrrs _ _ _ => false
  | .csrrc _ _ _ => false
  | .csrrwi _ _ _ => false
  | .csrrsi _ _ _ => false
  | .csrrci _ _ _ => false

/-- An instruction is well formed in a width mode when its descriptor is enabled there (R151). -/
def Instr.wellFormed (m64 : Bool) (i : Instr) : Bool := !i.requires64 || m64

end Sys2Proof
end

