-- ==== Sys2Proof/Decode.lean ====
section
/-! DEFINITION. The decode block: the Bit-Pattern Matcher (40_matcher.md), the Operand Extractor
(41_extractor.md), the Dispatch Table and its arbiter (42_dispatch.md), the 161-row reference catalog
(spec/opcode_table.json), and an encoder written from the same descriptors. -/

namespace Sys2Proof

/-! ### Bit templates -/

/-- Why a template is refused when the catalog is built (R132); never an outcome of `decode`. -/
inductive TemplateError where
  /-- Other than 32 bit positions once white space is removed. -/
  | wrongLength (n : Nat)
  deriving DecidableEq, Repr

/-- The white space a template may hold (R132). -/
def isBlank (c : Char) : Bool := c == ' ' || c == '\t' || c == '\n' || c == '\r'

/-- The significant characters of a template, the one for bit 31 first (R90). -/
def significant (template : String) : List Char := template.toList.filter (fun c => !isBlank c)

/-- The mask and match bits of the characters `cs`, the last of which stands for bit 0 (R131). -/
def maskMatch : List Char → Nat × Nat
  | [] => (0, 0)
  | c :: cs =>
    let (mask, value) := maskMatch cs
    let b := 2 ^ cs.length
    if c == '0' then (mask + b, value)
    else if c == '1' then (mask + b, value + b)
    else (mask, value)

/-- The pair `(mask, match)` of the significant characters of a template, or the construction error (R131, R132). -/
def compileChars (cs : List Char) : Except TemplateError (Word × Word) :=
  if cs.length = 32 then
    let (mask, value) := maskMatch cs
    .ok (BitVec.ofNat 32 mask, BitVec.ofNat 32 value)
  else .error (.wrongLength cs.length)

/-- `compile` of R130 to R132. -/
def compile (template : String) : Except TemplateError (Word × Word) := compileChars (significant template)

/-- `matches` of R133. -/
def accepts (w mask value : Word) : Bool := (w &&& mask) == value

/-! ### Operand fields -/

/-- The bit numbers `hi`, `hi - 1`, …, `lo`. -/
def bits (hi lo : Nat) : List Nat := (List.range (hi + 1 - lo)).map (hi - ·)

/-- An operand field (R21): its letter, its bit numbers from the most significant down, and the note for the
handler whether the value is sign-extended there (R144). -/
structure Field where
  letter : Char
  positions : List Nat
  isSignExtended : Bool := false
  deriving DecidableEq, Repr

/-- Put bit number `b` at the end of letter `c`'s list, or open a list for it after the others (R141). -/
def addPosition (c : Char) (b : Nat) : List (Char × List Nat) → List (Char × List Nat)
  | [] => [(c, [b])]
  | (d, ps) :: rest => if c == d then (d, ps ++ [b]) :: rest else (d, ps) :: addPosition c b rest

/-- The scan of R141 from the left: `cs` are the characters still to read, `found` the fields so far. -/
def scanFields : List Char → List (Char × List Nat) → List (Char × List Nat)
  | [], found => found
  | c :: cs, found =>
    if c == '0' || c == '1' then scanFields cs found
    else scanFields cs (addPosition c cs.length found)

/-- `fields` of R141: one entry per letter, in order of first appearance (R142). -/
def fieldsOf (template : String) : List (Char × List Nat) := scanFields (significant template) []

/-- The value of the field with these positions (R143): the first is the most significant bit. -/
def gather (w : Word) (positions : List Nat) : Nat :=
  positions.foldl (fun v p => 2 * v + (w.getLsbD p).toNat) 0

/-- `extract` of R140 to R143: raw unsigned values, one per distinct letter, in first-appearance order. -/
def extract (w : Word) (template : String) : List Nat := (fieldsOf template).map fun f => gather w f.2

/-- The bits a value puts at these positions: the inverse of `gather`, for the encoder. -/
def scatter : List Nat → Nat → Word
  | [], _ => 0
  | p :: ps, v => (if v.testBit ps.length then 1#32 <<< p else 0) ||| scatter ps v

/-! ### Semantic Handlers -/

/-- The Semantic Handlers (R159) whose rules the spec gives: "one handler per instruction", in the order of
spec/opcode_table.json. -/
inductive Handler where
  | add | sub | sll | slt | sltu | xor | srl | sra
  | or | and | mul | mulh | mulhsu | mulhu | div | divu
  | rem | remu | addw | subw | sllw | srlw | sraw | mulw
  | divw | divuw | remw | remuw | addi | slti | sltiu | xori
  | ori | andi | slli | srli | srai | slliHi | srliHi | sraiHi
  | addiw | slliw | srliw | sraiw | lui | auipc | lb | lh
  | lw | lbu | lhu | lwu | ld | sb | sh | sw
  | sd | beq | bne | blt | bge | bltu | bgeu | jal
  | jalr | lrW | scW | amoswapW | amoaddW | amoxorW | amoandW | amoorW
  | amominW | amomaxW | amominuW | amomaxuW | lrD | scD | amoswapD | amoaddD
  | amoxorD | amoandD | amoorD | amominD | amomaxD | amominuD | amomaxuD | flw
  | fsw | fmaddS | fmsubS | fnmsubS | fnmaddS | faddS | fsubS | fmulS
  | fdivS | fsqrtS | fsgnjS | fsgnjnS | fsgnjxS | fminS | fmaxS | feqS
  | fltS | fleS | fclassS | fcvtWS | fcvtSW | fcvtWuS | fcvtSWu | fcvtLS
  | fcvtSL | fcvtLuS | fcvtSLu | fmvXW | fmvWX | fld | fsd | fmaddD
  | fmsubD | fnmsubD | fnmaddD | faddD | fsubD | fmulD | fdivD | fsqrtD
  | fsgnjD | fsgnjnD | fsgnjxD | fminD | fmaxD | feqD | fltD | fleD
  | fclassD | fcvtWD | fcvtDW | fcvtWuD | fcvtDWu | fcvtLD | fcvtDL | fcvtLuD
  | fcvtDLu | fcvtSD | fcvtDS | fmvXD | fmvDX | fence | fenceI | ecall
  | ebreak | uret | wfi | csrrw | csrrs | csrrc | csrrwi | csrrsi
  | csrrci
  deriving DecidableEq, Repr

/-- The instruction a handler runs on the operands `op[L]`, which it finds by their letters (R142); their values are the
extractor's, below `2^w` for a field of `w` bits (R144). -/
def Handler.instr (h : Handler) (op : Char → Nat) : Instr :=
  match h with
  | .add => .add (.ofNat _ (op 'f')) (.ofNat _ (op 's')) (.ofNat _ (op 't'))
  | .sub => .sub (.ofNat _ (op 'f')) (.ofNat _ (op 's')) (.ofNat _ (op 't'))
  | .sll => .sll (.ofNat _ (op 'f')) (.ofNat _ (op 's')) (.ofNat _ (op 't'))
  | .slt => .slt (.ofNat _ (op 'f')) (.ofNat _ (op 's')) (.ofNat _ (op 't'))
  | .sltu => .sltu (.ofNat _ (op 'f')) (.ofNat _ (op 's')) (.ofNat _ (op 't'))
  | .xor => .xor (.ofNat _ (op 'f')) (.ofNat _ (op 's')) (.ofNat _ (op 't'))
  | .srl => .srl (.ofNat _ (op 'f')) (.ofNat _ (op 's')) (.ofNat _ (op 't'))
  | .sra => .sra (.ofNat _ (op 'f')) (.ofNat _ (op 's')) (.ofNat _ (op 't'))
  | .or => .or (.ofNat _ (op 'f')) (.ofNat _ (op 's')) (.ofNat _ (op 't'))
  | .and => .and (.ofNat _ (op 'f')) (.ofNat _ (op 's')) (.ofNat _ (op 't'))
  | .mul => .mul (.ofNat _ (op 'f')) (.ofNat _ (op 's')) (.ofNat _ (op 't'))
  | .mulh => .mulh (.ofNat _ (op 'f')) (.ofNat _ (op 's')) (.ofNat _ (op 't'))
  | .mulhsu => .mulhsu (.ofNat _ (op 'f')) (.ofNat _ (op 's')) (.ofNat _ (op 't'))
  | .mulhu => .mulhu (.ofNat _ (op 'f')) (.ofNat _ (op 's')) (.ofNat _ (op 't'))
  | .div => .div (.ofNat _ (op 'f')) (.ofNat _ (op 's')) (.ofNat _ (op 't'))
  | .divu => .divu (.ofNat _ (op 'f')) (.ofNat _ (op 's')) (.ofNat _ (op 't'))
  | .rem => .rem (.ofNat _ (op 'f')) (.ofNat _ (op 's')) (.ofNat _ (op 't'))
  | .remu => .remu (.ofNat _ (op 'f')) (.ofNat _ (op 's')) (.ofNat _ (op 't'))
  | .addw => .addw (.ofNat _ (op 'f')) (.ofNat _ (op 's')) (.ofNat _ (op 't'))
  | .subw => .subw (.ofNat _ (op 'f')) (.ofNat _ (op 's')) (.ofNat _ (op 't'))
  | .sllw => .sllw (.ofNat _ (op 'f')) (.ofNat _ (op 's')) (.ofNat _ (op 't'))
  | .srlw => .srlw (.ofNat _ (op 'f')) (.ofNat _ (op 's')) (.ofNat _ (op 't'))
  | .sraw => .sraw (.ofNat _ (op 'f')) (.ofNat _ (op 's')) (.ofNat _ (op 't'))
  | .mulw => .mulw (.ofNat _ (op 'f')) (.ofNat _ (op 's')) (.ofNat _ (op 't'))
  | .divw => .divw (.ofNat _ (op 'f')) (.ofNat _ (op 's')) (.ofNat _ (op 't'))
  | .divuw => .divuw (.ofNat _ (op 'f')) (.ofNat _ (op 's')) (.ofNat _ (op 't'))
  | .remw => .remw (.ofNat _ (op 'f')) (.ofNat _ (op 's')) (.ofNat _ (op 't'))
  | .remuw => .remuw (.ofNat _ (op 'f')) (.ofNat _ (op 's')) (.ofNat _ (op 't'))
  | .addi => .addi (.ofNat _ (op 'f')) (.ofNat _ (op 's')) (.ofNat _ (op 'i'))
  | .slti => .slti (.ofNat _ (op 'f')) (.ofNat _ (op 's')) (.ofNat _ (op 'i'))
  | .sltiu => .sltiu (.ofNat _ (op 'f')) (.ofNat _ (op 's')) (.ofNat _ (op 'i'))
  | .xori => .xori (.ofNat _ (op 'f')) (.ofNat _ (op 's')) (.ofNat _ (op 'i'))
  | .ori => .ori (.ofNat _ (op 'f')) (.ofNat _ (op 's')) (.ofNat _ (op 'i'))
  | .andi => .andi (.ofNat _ (op 'f')) (.ofNat _ (op 's')) (.ofNat _ (op 'i'))
  | .slli => .slli (.ofNat _ (op 'f')) (.ofNat _ (op 's')) (.ofNat _ (op 'i'))
  | .srli => .srli (.ofNat _ (op 'f')) (.ofNat _ (op 's')) (.ofNat _ (op 'i'))
  | .srai => .srai (.ofNat _ (op 'f')) (.ofNat _ (op 's')) (.ofNat _ (op 'i'))
  | .slliHi => .slliHi (.ofNat _ (op 'f')) (.ofNat _ (op 's')) (.ofNat _ (op 'i'))
  | .srliHi => .srliHi (.ofNat _ (op 'f')) (.ofNat _ (op 's')) (.ofNat _ (op 'i'))
  | .sraiHi => .sraiHi (.ofNat _ (op 'f')) (.ofNat _ (op 's')) (.ofNat _ (op 'i'))
  | .addiw => .addiw (.ofNat _ (op 'f')) (.ofNat _ (op 's')) (.ofNat _ (op 'i'))
  | .slliw => .slliw (.ofNat _ (op 'f')) (.ofNat _ (op 's')) (.ofNat _ (op 'i'))
  | .srliw => .srliw (.ofNat _ (op 'f')) (.ofNat _ (op 's')) (.ofNat _ (op 'i'))
  | .sraiw => .sraiw (.ofNat _ (op 'f')) (.ofNat _ (op 's')) (.ofNat _ (op 'i'))
  | .lui => .lui (.ofNat _ (op 'f')) (.ofNat _ (op 'i'))
  | .auipc => .auipc (.ofNat _ (op 'f')) (.ofNat _ (op 'i'))
  | .lb => .lb (.ofNat _ (op 'f')) (.ofNat _ (op 's')) (.ofNat _ (op 'i'))
  | .lh => .lh (.ofNat _ (op 'f')) (.ofNat _ (op 's')) (.ofNat _ (op 'i'))
  | .lw => .lw (.ofNat _ (op 'f')) (.ofNat _ (op 's')) (.ofNat _ (op 'i'))
  | .lbu => .lbu (.ofNat _ (op 'f')) (.ofNat _ (op 's')) (.ofNat _ (op 'i'))
  | .lhu => .lhu (.ofNat _ (op 'f')) (.ofNat _ (op 's')) (.ofNat _ (op 'i'))
  | .lwu => .lwu (.ofNat _ (op 'f')) (.ofNat _ (op 's')) (.ofNat _ (op 'i'))
  | .ld => .ld (.ofNat _ (op 'f')) (.ofNat _ (op 's')) (.ofNat _ (op 'i'))
  | .sb => .sb (.ofNat _ (op 's')) (.ofNat _ (op 't')) (.ofNat _ (op 'i'))
  | .sh => .sh (.ofNat _ (op 's')) (.ofNat _ (op 't')) (.ofNat _ (op 'i'))
  | .sw => .sw (.ofNat _ (op 's')) (.ofNat _ (op 't')) (.ofNat _ (op 'i'))
  | .sd => .sd (.ofNat _ (op 's')) (.ofNat _ (op 't')) (.ofNat _ (op 'i'))
  | .beq => .beq (.ofNat _ (op 's')) (.ofNat _ (op 't')) (.ofNat _ (op 'i'))
  | .bne => .bne (.ofNat _ (op 's')) (.ofNat _ (op 't')) (.ofNat _ (op 'i'))
  | .blt => .blt (.ofNat _ (op 's')) (.ofNat _ (op 't')) (.ofNat _ (op 'i'))
  | .bge => .bge (.ofNat _ (op 's')) (.ofNat _ (op 't')) (.ofNat _ (op 'i'))
  | .bltu => .bltu (.ofNat _ (op 's')) (.ofNat _ (op 't')) (.ofNat _ (op 'i'))
  | .bgeu => .bgeu (.ofNat _ (op 's')) (.ofNat _ (op 't')) (.ofNat _ (op 'i'))
  | .jal => .jal (.ofNat _ (op 'f')) (.ofNat _ (op 'i'))
  | .jalr => .jalr (.ofNat _ (op 'f')) (.ofNat _ (op 's')) (.ofNat _ (op 'i'))
  | .lrW => .lrW (.ofNat _ (op 'f')) (.ofNat _ (op 's')) (.ofNat _ (op 'a')) (.ofNat _ (op 'l'))
  | .scW => .scW (.ofNat _ (op 'f')) (.ofNat _ (op 's')) (.ofNat _ (op 't')) (.ofNat _ (op 'a')) (.ofNat _ (op 'l'))
  | .amoswapW => .amoswapW (.ofNat _ (op 'f')) (.ofNat _ (op 's')) (.ofNat _ (op 't')) (.ofNat _ (op 'a')) (.ofNat _ (op 'l'))
  | .amoaddW => .amoaddW (.ofNat _ (op 'f')) (.ofNat _ (op 's')) (.ofNat _ (op 't')) (.ofNat _ (op 'a')) (.ofNat _ (op 'l'))
  | .amoxorW => .amoxorW (.ofNat _ (op 'f')) (.ofNat _ (op 's')) (.ofNat _ (op 't')) (.ofNat _ (op 'a')) (.ofNat _ (op 'l'))
  | .amoandW => .amoandW (.ofNat _ (op 'f')) (.ofNat _ (op 's')) (.ofNat _ (op 't')) (.ofNat _ (op 'a')) (.ofNat _ (op 'l'))
  | .amoorW => .amoorW (.ofNat _ (op 'f')) (.ofNat _ (op 's')) (.ofNat _ (op 't')) (.ofNat _ (op 'a')) (.ofNat _ (op 'l'))
  | .amominW => .amominW (.ofNat _ (op 'f')) (.ofNat _ (op 's')) (.ofNat _ (op 't')) (.ofNat _ (op 'a')) (.ofNat _ (op 'l'))
  | .amomaxW => .amomaxW (.ofNat _ (op 'f')) (.ofNat _ (op 's')) (.ofNat _ (op 't')) (.ofNat _ (op 'a')) (.ofNat _ (op 'l'))
  | .amominuW => .amominuW (.ofNat _ (op 'f')) (.ofNat _ (op 's')) (.ofNat _ (op 't')) (.ofNat _ (op 'a')) (.ofNat _ (op 'l'))
  | .amomaxuW => .amomaxuW (.ofNat _ (op 'f')) (.ofNat _ (op 's')) (.ofNat _ (op 't')) (.ofNat _ (op 'a')) (.ofNat _ (op 'l'))
  | .lrD => .lrD (.ofNat _ (op 'f')) (.ofNat _ (op 's')) (.ofNat _ (op 'a')) (.ofNat _ (op 'l'))
  | .scD => .scD (.ofNat _ (op 'f')) (.ofNat _ (op 's')) (.ofNat _ (op 't')) (.ofNat _ (op 'a')) (.ofNat _ (op 'l'))
  | .amoswapD => .amoswapD (.ofNat _ (op 'f')) (.ofNat _ (op 's')) (.ofNat _ (op 't')) (.ofNat _ (op 'a')) (.ofNat _ (op 'l'))
  | .amoaddD => .amoaddD (.ofNat _ (op 'f')) (.ofNat _ (op 's')) (.ofNat _ (op 't')) (.ofNat _ (op 'a')) (.ofNat _ (op 'l'))
  | .amoxorD => .amoxorD (.ofNat _ (op 'f')) (.ofNat _ (op 's')) (.ofNat _ (op 't')) (.ofNat _ (op 'a')) (.ofNat _ (op 'l'))
  | .amoandD => .amoandD (.ofNat _ (op 'f')) (.ofNat _ (op 's')) (.ofNat _ (op 't')) (.ofNat _ (op 'a')) (.ofNat _ (op 'l'))
  | .amoorD => .amoorD (.ofNat _ (op 'f')) (.ofNat _ (op 's')) (.ofNat _ (op 't')) (.ofNat _ (op 'a')) (.ofNat _ (op 'l'))
  | .amominD => .amominD (.ofNat _ (op 'f')) (.ofNat _ (op 's')) (.ofNat _ (op 't')) (.ofNat _ (op 'a')) (.ofNat _ (op 'l'))
  | .amomaxD => .amomaxD (.ofNat _ (op 'f')) (.ofNat _ (op 's')) (.ofNat _ (op 't')) (.ofNat _ (op 'a')) (.ofNat _ (op 'l'))
  | .amominuD => .amominuD (.ofNat _ (op 'f')) (.ofNat _ (op 's')) (.ofNat _ (op 't')) (.ofNat _ (op 'a')) (.ofNat _ (op 'l'))
  | .amomaxuD => .amomaxuD (.ofNat _ (op 'f')) (.ofNat _ (op 's')) (.ofNat _ (op 't')) (.ofNat _ (op 'a')) (.ofNat _ (op 'l'))
  | .flw => .flw (.ofNat _ (op 'f')) (.ofNat _ (op 's')) (.ofNat _ (op 'i'))
  | .fsw => .fsw (.ofNat _ (op 's')) (.ofNat _ (op 't')) (.ofNat _ (op 'i'))
  | .fmaddS => .fmaddS (.ofNat _ (op 'f')) (.ofNat _ (op 's')) (.ofNat _ (op 't')) (.ofNat _ (op 'q')) (.ofNat _ (op 'p'))
  | .fmsubS => .fmsubS (.ofNat _ (op 'f')) (.ofNat _ (op 's')) (.ofNat _ (op 't')) (.ofNat _ (op 'q')) (.ofNat _ (op 'p'))
  | .fnmsubS => .fnmsubS (.ofNat _ (op 'f')) (.ofNat _ (op 's')) (.ofNat _ (op 't')) (.ofNat _ (op 'q')) (.ofNat _ (op 'p'))
  | .fnmaddS => .fnmaddS (.ofNat _ (op 'f')) (.ofNat _ (op 's')) (.ofNat _ (op 't')) (.ofNat _ (op 'q')) (.ofNat _ (op 'p'))
  | .faddS => .faddS (.ofNat _ (op 'f')) (.ofNat _ (op 's')) (.ofNat _ (op 't')) (.ofNat _ (op 'p'))
  | .fsubS => .fsubS (.ofNat _ (op 'f')) (.ofNat _ (op 's')) (.ofNat _ (op 't')) (.ofNat _ (op 'p'))
  | .fmulS => .fmulS (.ofNat _ (op 'f')) (.ofNat _ (op 's')) (.ofNat _ (op 't')) (.ofNat _ (op 'p'))
  | .fdivS => .fdivS (.ofNat _ (op 'f')) (.ofNat _ (op 's')) (.ofNat _ (op 't')) (.ofNat _ (op 'p'))
  | .fsqrtS => .fsqrtS (.ofNat _ (op 'f')) (.ofNat _ (op 's')) (.ofNat _ (op 'p'))
  | .fsgnjS => .fsgnjS (.ofNat _ (op 'f')) (.ofNat _ (op 's')) (.ofNat _ (op 't'))
  | .fsgnjnS => .fsgnjnS (.ofNat _ (op 'f')) (.ofNat _ (op 's')) (.ofNat _ (op 't'))
  | .fsgnjxS => .fsgnjxS (.ofNat _ (op 'f')) (.ofNat _ (op 's')) (.ofNat _ (op 't'))
  | .fminS => .fminS (.ofNat _ (op 'f')) (.ofNat _ (op 's')) (.ofNat _ (op 't'))
  | .fmaxS => .fmaxS (.ofNat _ (op 'f')) (.ofNat _ (op 's')) (.ofNat _ (op 't'))
  | .feqS => .feqS (.ofNat _ (op 'f')) (.ofNat _ (op 's')) (.ofNat _ (op 't'))
  | .fltS => .fltS (.ofNat _ (op 'f')) (.ofNat _ (op 's')) (.ofNat _ (op 't'))
  | .fleS => .fleS (.ofNat _ (op 'f')) (.ofNat _ (op 's')) (.ofNat _ (op 't'))
  | .fclassS => .fclassS (.ofNat _ (op 'f')) (.ofNat _ (op 's'))
  | .fcvtWS => .fcvtWS (.ofNat _ (op 'f')) (.ofNat _ (op 's')) (.ofNat _ (op 'p'))
  | .fcvtSW => .fcvtSW (.ofNat _ (op 'f')) (.ofNat _ (op 's')) (.ofNat _ (op 'p'))
  | .fcvtWuS => .fcvtWuS (.ofNat _ (op 'f')) (.ofNat _ (op 's')) (.ofNat _ (op 'p'))
  | .fcvtSWu => .fcvtSWu (.ofNat _ (op 'f')) (.ofNat _ (op 's')) (.ofNat _ (op 'p'))
  | .fcvtLS => .fcvtLS (.ofNat _ (op 'f')) (.ofNat _ (op 's')) (.ofNat _ (op 'p'))
  | .fcvtSL => .fcvtSL (.ofNat _ (op 'f')) (.ofNat _ (op 's')) (.ofNat _ (op 'p'))
  | .fcvtLuS => .fcvtLuS (.ofNat _ (op 'f')) (.ofNat _ (op 's')) (.ofNat _ (op 'p'))
  | .fcvtSLu => .fcvtSLu (.ofNat _ (op 'f')) (.ofNat _ (op 's')) (.ofNat _ (op 'p'))
  | .fmvXW => .fmvXW (.ofNat _ (op 'f')) (.ofNat _ (op 's'))
  | .fmvWX => .fmvWX (.ofNat _ (op 'f')) (.ofNat _ (op 's'))
  | .fld => .fld (.ofNat _ (op 'f')) (.ofNat _ (op 's')) (.ofNat _ (op 'i'))
  | .fsd => .fsd (.ofNat _ (op 's')) (.ofNat _ (op 't')) (.ofNat _ (op 'i'))
  | .fmaddD => .fmaddD (.ofNat _ (op 'f')) (.ofNat _ (op 's')) (.ofNat _ (op 't')) (.ofNat _ (op 'q')) (.ofNat _ (op 'p'))
  | .fmsubD => .fmsubD (.ofNat _ (op 'f')) (.ofNat _ (op 's')) (.ofNat _ (op 't')) (.ofNat _ (op 'q')) (.ofNat _ (op 'p'))
  | .fnmsubD => .fnmsubD (.ofNat _ (op 'f')) (.ofNat _ (op 's')) (.ofNat _ (op 't')) (.ofNat _ (op 'q')) (.ofNat _ (op 'p'))
  | .fnmaddD => .fnmaddD (.ofNat _ (op 'f')) (.ofNat _ (op 's')) (.ofNat _ (op 't')) (.ofNat _ (op 'q')) (.ofNat _ (op 'p'))
  | .faddD => .faddD (.ofNat _ (op 'f')) (.ofNat _ (op 's')) (.ofNat _ (op 't')) (.ofNat _ (op 'p'))
  | .fsubD => .fsubD (.ofNat _ (op 'f')) (.ofNat _ (op 's')) (.ofNat _ (op 't')) (.ofNat _ (op 'p'))
  | .fmulD => .fmulD (.ofNat _ (op 'f')) (.ofNat _ (op 's')) (.ofNat _ (op 't')) (.ofNat _ (op 'p'))
  | .fdivD => .fdivD (.ofNat _ (op 'f')) (.ofNat _ (op 's')) (.ofNat _ (op 't')) (.ofNat _ (op 'p'))
  | .fsqrtD => .fsqrtD (.ofNat _ (op 'f')) (.ofNat _ (op 's')) (.ofNat _ (op 'p'))
  | .fsgnjD => .fsgnjD (.ofNat _ (op 'f')) (.ofNat _ (op 's')) (.ofNat _ (op 't'))
  | .fsgnjnD => .fsgnjnD (.ofNat _ (op 'f')) (.ofNat _ (op 's')) (.ofNat _ (op 't'))
  | .fsgnjxD => .fsgnjxD (.ofNat _ (op 'f')) (.ofNat _ (op 's')) (.ofNat _ (op 't'))
  | .fminD => .fminD (.ofNat _ (op 'f')) (.ofNat _ (op 's')) (.ofNat _ (op 't'))
  | .fmaxD => .fmaxD (.ofNat _ (op 'f')) (.ofNat _ (op 's')) (.ofNat _ (op 't'))
  | .feqD => .feqD (.ofNat _ (op 'f')) (.ofNat _ (op 's')) (.ofNat _ (op 't'))
  | .fltD => .fltD (.ofNat _ (op 'f')) (.ofNat _ (op 's')) (.ofNat _ (op 't'))
  | .fleD => .fleD (.ofNat _ (op 'f')) (.ofNat _ (op 's')) (.ofNat _ (op 't'))
  | .fclassD => .fclassD (.ofNat _ (op 'f')) (.ofNat _ (op 's'))
  | .fcvtWD => .fcvtWD (.ofNat _ (op 'f')) (.ofNat _ (op 's')) (.ofNat _ (op 'p'))
  | .fcvtDW => .fcvtDW (.ofNat _ (op 'f')) (.ofNat _ (op 's')) (.ofNat _ (op 'p'))
  | .fcvtWuD => .fcvtWuD (.ofNat _ (op 'f')) (.ofNat _ (op 's')) (.ofNat _ (op 'p'))
  | .fcvtDWu => .fcvtDWu (.ofNat _ (op 'f')) (.ofNat _ (op 's')) (.ofNat _ (op 'p'))
  | .fcvtLD => .fcvtLD (.ofNat _ (op 'f')) (.ofNat _ (op 's')) (.ofNat _ (op 'p'))
  | .fcvtDL => .fcvtDL (.ofNat _ (op 'f')) (.ofNat _ (op 's')) (.ofNat _ (op 'p'))
  | .fcvtLuD => .fcvtLuD (.ofNat _ (op 'f')) (.ofNat _ (op 's')) (.ofNat _ (op 'p'))
  | .fcvtDLu => .fcvtDLu (.ofNat _ (op 'f')) (.ofNat _ (op 's')) (.ofNat _ (op 'p'))
  | .fcvtSD => .fcvtSD (.ofNat _ (op 'f')) (.ofNat _ (op 's')) (.ofNat _ (op 'p'))
  | .fcvtDS => .fcvtDS (.ofNat _ (op 'f')) (.ofNat _ (op 's')) (.ofNat _ (op 'p'))
  | .fmvXD => .fmvXD (.ofNat _ (op 'f')) (.ofNat _ (op 's'))
  | .fmvDX => .fmvDX (.ofNat _ (op 'f')) (.ofNat _ (op 's'))
  | .fence => .fence (.ofNat _ (op 'f')) (.ofNat _ (op 's')) (.ofNat _ (op 'm')) (.ofNat _ (op 'r')) (.ofNat _ (op 'w'))
  | .fenceI => .fenceI (.ofNat _ (op 'f')) (.ofNat _ (op 's')) (.ofNat _ (op 'i'))
  | .ecall => .ecall
  | .ebreak => .ebreak
  | .uret => .uret
  | .wfi => .wfi
  | .csrrw => .csrrw (.ofNat _ (op 'f')) (.ofNat _ (op 'c')) (.ofNat _ (op 's'))
  | .csrrs => .csrrs (.ofNat _ (op 'f')) (.ofNat _ (op 'c')) (.ofNat _ (op 's'))
  | .csrrc => .csrrc (.ofNat _ (op 'f')) (.ofNat _ (op 'c')) (.ofNat _ (op 's'))
  | .csrrwi => .csrrwi (.ofNat _ (op 'f')) (.ofNat _ (op 'c')) (.ofNat _ (op 'z'))
  | .csrrsi => .csrrsi (.ofNat _ (op 'f')) (.ofNat _ (op 'c')) (.ofNat _ (op 'z'))
  | .csrrci => .csrrci (.ofNat _ (op 'f')) (.ofNat _ (op 'c')) (.ofNat _ (op 'z'))

/-- The letters whose values a handler ignores: every field of the two fences (R440, R441), and the ordering bits of
the atomics (R307, D15). -/
def Handler.ignores : Handler → List Char
  | .fence => ['m', 'r', 'w', 's', 'f']
  | .fenceI => ['i', 's', 'f']
  | .lrW | .scW | .amoswapW | .amoaddW | .amoxorW | .amoandW | .amoorW | .amominW | .amomaxW | .amominuW | .amomaxuW
  | .lrD | .scD | .amoswapD | .amoaddD | .amoxorD | .amoandD | .amoorD | .amominD | .amomaxD | .amominuD
  | .amomaxuD => ['a', 'l']
  | _ => []

/-- The handler a descriptor names: one the spec describes, or the `n`th of the custom handlers a configuration may add
(R116), of which the spec gives no rule (`customHandler`; log 24). Several descriptors may name one handler. -/
inductive HandlerName where
  | spec (h : Handler)
  | custom (n : Nat)
  deriving DecidableEq, Repr

/-! ### Instruction Descriptors -/

/-- The eight formats of R94. The format takes no part in decoding. -/
inductive EncodingFormat where
  | r | i | s | b | u | j | r4 | atomic
  deriving DecidableEq, Repr

/-- An Instruction Descriptor: the six fields of R20, of which `handler` names the Semantic Handler (R159), and the
derived values of R21, "computed once per descriptor" by `Descriptor.compiled`. -/
structure Descriptor where
  mnemonic : String
  /-- `mnemonicTemplate`, "used for documentation/help, not decoding". -/
  usage : String
  description : String
  format : EncodingFormat
  /-- `bitTemplate` (R90). -/
  template : String
  /-- `requires64BitMode`. -/
  requires64 : Bool
  handler : HandlerName
  /-- `maskValue`. -/
  mask : Word
  /-- `matchValue`. -/
  value : Word
  /-- The Operand Field list. -/
  fields : List Field
  deriving DecidableEq, Repr

/-- R151. -/
def Descriptor.enabled (d : Descriptor) (m64 : Bool) : Bool := !d.requires64 || m64

/-- R133 for one descriptor: the comparator `hit[d]` of R134. -/
def Descriptor.accepts (d : Descriptor) (w : Word) : Bool := Sys2Proof.accepts w d.mask d.value

/-- `extract` over the descriptor's own field list, which `Descriptor.compiled` takes from its template. -/
def Descriptor.extract (d : Descriptor) (w : Word) : List Nat := d.fields.map fun f => gather w f.positions

/-- `op[L]`: the entry of an operand array at the index of letter `L` among the descriptor's fields (R142). -/
def Descriptor.op (d : Descriptor) (operands : List Nat) (letter : Char) : Nat :=
  match (d.fields.zip operands).find? fun fv => fv.1.letter == letter with
  | some fv => fv.2
  | none => 0

/-- The instruction of an operand array: the descriptor's handler on these operands (R159); `none` for a custom
handler. -/
def Descriptor.instr (d : Descriptor) (operands : List Nat) : Option Instr :=
  match d.handler with
  | .spec h => some (h.instr (d.op operands))
  | .custom _ => none

/-- The word with this descriptor's fixed bits and these operands at its field positions (R135). -/
def Descriptor.assemble (d : Descriptor) (operands : List Nat) : Word :=
  (d.fields.zip operands).foldr (fun fv w => scatter fv.1.positions fv.2 ||| w) d.value

/-- Do two descriptors both accept some word? The test of R23. -/
def Descriptor.overlaps (a b : Descriptor) : Bool := ((a.value ^^^ b.value) &&& a.mask &&& b.mask) == 0

/-! ### The Dispatch Table and its arbiter -/

/-- The catalog (R22): the ordered list of descriptors. -/
abbrev Catalog := List Descriptor

/-- What `decode` answers for a legal word (R152): the index of the selected descriptor and the operands. -/
structure Decoded where
  descriptor : Nat
  operands : List Nat
  deriving DecidableEq, Repr

/-- The arbiter (R152, R154): the first enabled descriptor that accepts the word, with its index; `n` is the
index of the head of the list. -/
def Catalog.selectFrom (m64 : Bool) (w : Word) : Nat → Catalog → Option (Nat × Descriptor)
  | _, [] => none
  | n, d :: rest =>
    if d.enabled m64 && d.accepts w then some (n, d) else Catalog.selectFrom m64 w (n + 1) rest

/-- `decode` of R150 to R153 over any catalog; `none` is the illegal-instruction condition. -/
def Catalog.decode (c : Catalog) (w : Word) (m64 : Bool) : Option Decoded :=
  (c.selectFrom m64 w 0).map fun nd => { descriptor := nd.1, operands := nd.2.extract w }

/-- The invariant of R23 over the descriptors enabled in one width mode. A catalog that breaks it in either mode
is not a configuration of this hardware (D27). -/
def Catalog.unambiguous (c : Catalog) (m64 : Bool) : Prop :=
  (c.filter (·.enabled m64)).Pairwise fun a b => a.overlaps b = false

/-! ### The fields of the reference catalog (R93, R95 to R102) -/

/-- Letter `t`: `rs2` (R93). -/
def fieldRs2 : Field := { letter := 't', positions := bits 24 20 }

/-- Letter `s`: `rs1` (R93). -/
def fieldRs1 : Field := { letter := 's', positions := bits 19 15 }

/-- Letter `f`: `rd` (R93). -/
def fieldRd : Field := { letter := 'f', positions := bits 11 7 }

/-- Letter `i`: the immediate of format I (R103). -/
def fieldImm12 : Field := { letter := 'i', positions := bits 31 20, isSignExtended := true }

/-- Letter `i`: a shift amount (R108). -/
def fieldShamt : Field := { letter := 'i', positions := bits 24 20 }

/-- Letter `i`: the immediate of formats U and J (R106, R107). -/
def fieldImm20 : Field := { letter := 'i', positions := bits 31 12, isSignExtended := true }

/-- Letter `i`: the immediate of formats S and B, two runs joined (R104, R105, C2). -/
def fieldImmSplit : Field := { letter := 'i', positions := bits 31 25 ++ bits 11 7, isSignExtended := true }

/-- Letter `a`: `aq` (R102). -/
def fieldAq : Field := { letter := 'a', positions := bits 26 26 }

/-- Letter `l`: `rl` (R102). -/
def fieldRl : Field := { letter := 'l', positions := bits 25 25 }

/-- Letter `q`: `rs3` (R93, R101). -/
def fieldRs3 : Field := { letter := 'q', positions := bits 31 27 }

/-- Letter `p`: the rounding-mode selector (R93). -/
def fieldRm : Field := { letter := 'p', positions := bits 14 12 }

/-- Letter `m`: `fm` of FENCE (R440). -/
def fieldFm : Field := { letter := 'm', positions := bits 31 28 }

/-- Letter `r`: the predecessor set of FENCE (R440). -/
def fieldPred : Field := { letter := 'r', positions := bits 27 24 }

/-- Letter `w`: the successor set of FENCE (R440). -/
def fieldSucc : Field := { letter := 'w', positions := bits 23 20 }

/-- Letter `c`: the control register address (R109). -/
def fieldCsr : Field := { letter := 'c', positions := bits 31 20 }

/-- Letter `z`: `zimm` (R109). -/
def fieldZimm : Field := { letter := 'z', positions := bits 19 15 }

/-! ### The reference catalog (spec/opcode_table.json, row by row) -/

/-- Row 0, R180. -/
def descAdd : Descriptor :=
  { mnemonic := "ADD", usage := "add t1,t2,t3", description := "add",
    format := .r, template := "0000000 ttttt sssss 000 fffff 0110011",
    requires64 := false, mask := 0xFE00707F, value := 0x00000033,
    fields := [fieldRs2, fieldRs1, fieldRd],
    handler := .spec .add }

/-- Row 1, R181. -/
def descSub : Descriptor :=
  { mnemonic := "SUB", usage := "sub t1,t2,t3", description := "subtract",
    format := .r, template := "0100000 ttttt sssss 000 fffff 0110011",
    requires64 := false, mask := 0xFE00707F, value := 0x40000033,
    fields := [fieldRs2, fieldRs1, fieldRd],
    handler := .spec .sub }

/-- Row 2, R182. -/
def descSll : Descriptor :=
  { mnemonic := "SLL", usage := "sll t1,t2,t3", description := "shift left logical",
    format := .r, template := "0000000 ttttt sssss 001 fffff 0110011",
    requires64 := false, mask := 0xFE00707F, value := 0x00001033,
    fields := [fieldRs2, fieldRs1, fieldRd],
    handler := .spec .sll }

/-- Row 3, R183. -/
def descSlt : Descriptor :=
  { mnemonic := "SLT", usage := "slt t1,t2,t3", description := "set if less than, signed",
    format := .r, template := "0000000 ttttt sssss 010 fffff 0110011",
    requires64 := false, mask := 0xFE00707F, value := 0x00002033,
    fields := [fieldRs2, fieldRs1, fieldRd],
    handler := .spec .slt }

/-- Row 4, R184. -/
def descSltu : Descriptor :=
  { mnemonic := "SLTU", usage := "sltu t1,t2,t3", description := "set if less than, unsigned",
    format := .r, template := "0000000 ttttt sssss 011 fffff 0110011",
    requires64 := false, mask := 0xFE00707F, value := 0x00003033,
    fields := [fieldRs2, fieldRs1, fieldRd],
    handler := .spec .sltu }

/-- Row 5, R185. -/
def descXor : Descriptor :=
  { mnemonic := "XOR", usage := "xor t1,t2,t3", description := "bitwise exclusive or",
    format := .r, template := "0000000 ttttt sssss 100 fffff 0110011",
    requires64 := false, mask := 0xFE00707F, value := 0x00004033,
    fields := [fieldRs2, fieldRs1, fieldRd],
    handler := .spec .xor }

/-- Row 6, R186. -/
def descSrl : Descriptor :=
  { mnemonic := "SRL", usage := "srl t1,t2,t3", description := "shift right logical",
    format := .r, template := "0000000 ttttt sssss 101 fffff 0110011",
    requires64 := false, mask := 0xFE00707F, value := 0x00005033,
    fields := [fieldRs2, fieldRs1, fieldRd],
    handler := .spec .srl }

/-- Row 7, R187. -/
def descSra : Descriptor :=
  { mnemonic := "SRA", usage := "sra t1,t2,t3", description := "shift right arithmetic",
    format := .r, template := "0100000 ttttt sssss 101 fffff 0110011",
    requires64 := false, mask := 0xFE00707F, value := 0x40005033,
    fields := [fieldRs2, fieldRs1, fieldRd],
    handler := .spec .sra }

/-- Row 8, R188. -/
def descOr : Descriptor :=
  { mnemonic := "OR", usage := "or t1,t2,t3", description := "bitwise or",
    format := .r, template := "0000000 ttttt sssss 110 fffff 0110011",
    requires64 := false, mask := 0xFE00707F, value := 0x00006033,
    fields := [fieldRs2, fieldRs1, fieldRd],
    handler := .spec .or }

/-- Row 9, R189. -/
def descAnd : Descriptor :=
  { mnemonic := "AND", usage := "and t1,t2,t3", description := "bitwise and",
    format := .r, template := "0000000 ttttt sssss 111 fffff 0110011",
    requires64 := false, mask := 0xFE00707F, value := 0x00007033,
    fields := [fieldRs2, fieldRs1, fieldRd],
    handler := .spec .and }

/-- Row 10, R190. -/
def descMul : Descriptor :=
  { mnemonic := "MUL", usage := "mul t1,t2,t3", description := "multiply, low half",
    format := .r, template := "0000001 ttttt sssss 000 fffff 0110011",
    requires64 := false, mask := 0xFE00707F, value := 0x02000033,
    fields := [fieldRs2, fieldRs1, fieldRd],
    handler := .spec .mul }

/-- Row 11, R191. -/
def descMulh : Descriptor :=
  { mnemonic := "MULH", usage := "mulh t1,t2,t3", description := "multiply, high half, signed by signed",
    format := .r, template := "0000001 ttttt sssss 001 fffff 0110011",
    requires64 := false, mask := 0xFE00707F, value := 0x02001033,
    fields := [fieldRs2, fieldRs1, fieldRd],
    handler := .spec .mulh }

/-- Row 12, R192. -/
def descMulhsu : Descriptor :=
  { mnemonic := "MULHSU", usage := "mulhsu t1,t2,t3", description := "multiply, high half, signed by unsigned",
    format := .r, template := "0000001 ttttt sssss 010 fffff 0110011",
    requires64 := false, mask := 0xFE00707F, value := 0x02002033,
    fields := [fieldRs2, fieldRs1, fieldRd],
    handler := .spec .mulhsu }

/-- Row 13, R193. -/
def descMulhu : Descriptor :=
  { mnemonic := "MULHU", usage := "mulhu t1,t2,t3", description := "multiply, high half, unsigned by unsigned",
    format := .r, template := "0000001 ttttt sssss 011 fffff 0110011",
    requires64 := false, mask := 0xFE00707F, value := 0x02003033,
    fields := [fieldRs2, fieldRs1, fieldRd],
    handler := .spec .mulhu }

/-- Row 14, R194. -/
def descDiv : Descriptor :=
  { mnemonic := "DIV", usage := "div t1,t2,t3", description := "divide, signed",
    format := .r, template := "0000001 ttttt sssss 100 fffff 0110011",
    requires64 := false, mask := 0xFE00707F, value := 0x02004033,
    fields := [fieldRs2, fieldRs1, fieldRd],
    handler := .spec .div }

/-- Row 15, R195. -/
def descDivu : Descriptor :=
  { mnemonic := "DIVU", usage := "divu t1,t2,t3", description := "divide, unsigned",
    format := .r, template := "0000001 ttttt sssss 101 fffff 0110011",
    requires64 := false, mask := 0xFE00707F, value := 0x02005033,
    fields := [fieldRs2, fieldRs1, fieldRd],
    handler := .spec .divu }

/-- Row 16, R196. -/
def descRem : Descriptor :=
  { mnemonic := "REM", usage := "rem t1,t2,t3", description := "remainder, signed",
    format := .r, template := "0000001 ttttt sssss 110 fffff 0110011",
    requires64 := false, mask := 0xFE00707F, value := 0x02006033,
    fields := [fieldRs2, fieldRs1, fieldRd],
    handler := .spec .rem }

/-- Row 17, R197. -/
def descRemu : Descriptor :=
  { mnemonic := "REMU", usage := "remu t1,t2,t3", description := "remainder, unsigned",
    format := .r, template := "0000001 ttttt sssss 111 fffff 0110011",
    requires64 := false, mask := 0xFE00707F, value := 0x02007033,
    fields := [fieldRs2, fieldRs1, fieldRd],
    handler := .spec .remu }

/-- Row 18, R198. -/
def descAddw : Descriptor :=
  { mnemonic := "ADDW", usage := "addw t1,t2,t3", description := "add word",
    format := .r, template := "0000000 ttttt sssss 000 fffff 0111011",
    requires64 := true, mask := 0xFE00707F, value := 0x0000003B,
    fields := [fieldRs2, fieldRs1, fieldRd],
    handler := .spec .addw }

/-- Row 19, R199. -/
def descSubw : Descriptor :=
  { mnemonic := "SUBW", usage := "subw t1,t2,t3", description := "subtract word",
    format := .r, template := "0100000 ttttt sssss 000 fffff 0111011",
    requires64 := true, mask := 0xFE00707F, value := 0x4000003B,
    fields := [fieldRs2, fieldRs1, fieldRd],
    handler := .spec .subw }

/-- Row 20, R200. -/
def descSllw : Descriptor :=
  { mnemonic := "SLLW", usage := "sllw t1,t2,t3", description := "shift left logical word",
    format := .r, template := "0000000 ttttt sssss 001 fffff 0111011",
    requires64 := true, mask := 0xFE00707F, value := 0x0000103B,
    fields := [fieldRs2, fieldRs1, fieldRd],
    handler := .spec .sllw }

/-- Row 21, R201. -/
def descSrlw : Descriptor :=
  { mnemonic := "SRLW", usage := "srlw t1,t2,t3", description := "shift right logical word",
    format := .r, template := "0000000 ttttt sssss 101 fffff 0111011",
    requires64 := true, mask := 0xFE00707F, value := 0x0000503B,
    fields := [fieldRs2, fieldRs1, fieldRd],
    handler := .spec .srlw }

/-- Row 22, R202. -/
def descSraw : Descriptor :=
  { mnemonic := "SRAW", usage := "sraw t1,t2,t3", description := "shift right arithmetic word",
    format := .r, template := "0100000 ttttt sssss 101 fffff 0111011",
    requires64 := true, mask := 0xFE00707F, value := 0x4000503B,
    fields := [fieldRs2, fieldRs1, fieldRd],
    handler := .spec .sraw }

/-- Row 23, R203. -/
def descMulw : Descriptor :=
  { mnemonic := "MULW", usage := "mulw t1,t2,t3", description := "multiply word",
    format := .r, template := "0000001 ttttt sssss 000 fffff 0111011",
    requires64 := true, mask := 0xFE00707F, value := 0x0200003B,
    fields := [fieldRs2, fieldRs1, fieldRd],
    handler := .spec .mulw }

/-- Row 24, R204. -/
def descDivw : Descriptor :=
  { mnemonic := "DIVW", usage := "divw t1,t2,t3", description := "divide word, signed",
    format := .r, template := "0000001 ttttt sssss 100 fffff 0111011",
    requires64 := true, mask := 0xFE00707F, value := 0x0200403B,
    fields := [fieldRs2, fieldRs1, fieldRd],
    handler := .spec .divw }

/-- Row 25, R205. -/
def descDivuw : Descriptor :=
  { mnemonic := "DIVUW", usage := "divuw t1,t2,t3", description := "divide word, unsigned",
    format := .r, template := "0000001 ttttt sssss 101 fffff 0111011",
    requires64 := true, mask := 0xFE00707F, value := 0x0200503B,
    fields := [fieldRs2, fieldRs1, fieldRd],
    handler := .spec .divuw }

/-- Row 26, R206. -/
def descRemw : Descriptor :=
  { mnemonic := "REMW", usage := "remw t1,t2,t3", description := "remainder word, signed",
    format := .r, template := "0000001 ttttt sssss 110 fffff 0111011",
    requires64 := true, mask := 0xFE00707F, value := 0x0200603B,
    fields := [fieldRs2, fieldRs1, fieldRd],
    handler := .spec .remw }

/-- Row 27, R207. -/
def descRemuw : Descriptor :=
  { mnemonic := "REMUW", usage := "remuw t1,t2,t3", description := "remainder word, unsigned",
    format := .r, template := "0000001 ttttt sssss 111 fffff 0111011",
    requires64 := true, mask := 0xFE00707F, value := 0x0200703B,
    fields := [fieldRs2, fieldRs1, fieldRd],
    handler := .spec .remuw }

/-- Row 28, R208. -/
def descAddi : Descriptor :=
  { mnemonic := "ADDI", usage := "addi t1,t2,-100", description := "add immediate",
    format := .i, template := "iiiiiiiiiiii sssss 000 fffff 0010011",
    requires64 := false, mask := 0x0000707F, value := 0x00000013,
    fields := [fieldImm12, fieldRs1, fieldRd],
    handler := .spec .addi }

/-- Row 29, R209. -/
def descSlti : Descriptor :=
  { mnemonic := "SLTI", usage := "slti t1,t2,-100", description := "set if less than immediate, signed",
    format := .i, template := "iiiiiiiiiiii sssss 010 fffff 0010011",
    requires64 := false, mask := 0x0000707F, value := 0x00002013,
    fields := [fieldImm12, fieldRs1, fieldRd],
    handler := .spec .slti }

/-- Row 30, R210. -/
def descSltiu : Descriptor :=
  { mnemonic := "SLTIU", usage := "sltiu t1,t2,-100", description := "set if less than immediate, unsigned",
    format := .i, template := "iiiiiiiiiiii sssss 011 fffff 0010011",
    requires64 := false, mask := 0x0000707F, value := 0x00003013,
    fields := [fieldImm12, fieldRs1, fieldRd],
    handler := .spec .sltiu }

/-- Row 31, R211. -/
def descXori : Descriptor :=
  { mnemonic := "XORI", usage := "xori t1,t2,-100", description := "exclusive or immediate",
    format := .i, template := "iiiiiiiiiiii sssss 100 fffff 0010011",
    requires64 := false, mask := 0x0000707F, value := 0x00004013,
    fields := [fieldImm12, fieldRs1, fieldRd],
    handler := .spec .xori }

/-- Row 32, R212. -/
def descOri : Descriptor :=
  { mnemonic := "ORI", usage := "ori t1,t2,-100", description := "or immediate",
    format := .i, template := "iiiiiiiiiiii sssss 110 fffff 0010011",
    requires64 := false, mask := 0x0000707F, value := 0x00006013,
    fields := [fieldImm12, fieldRs1, fieldRd],
    handler := .spec .ori }

/-- Row 33, R213. -/
def descAndi : Descriptor :=
  { mnemonic := "ANDI", usage := "andi t1,t2,-100", description := "and immediate",
    format := .i, template := "iiiiiiiiiiii sssss 111 fffff 0010011",
    requires64 := false, mask := 0x0000707F, value := 0x00007013,
    fields := [fieldImm12, fieldRs1, fieldRd],
    handler := .spec .andi }

/-- Row 34, R214. -/
def descSlli : Descriptor :=
  { mnemonic := "SLLI", usage := "slli t1,t2,10", description := "shift left logical immediate, amount 0 to 31",
    format := .i, template := "0000000 iiiii sssss 001 fffff 0010011",
    requires64 := false, mask := 0xFE00707F, value := 0x00001013,
    fields := [fieldShamt, fieldRs1, fieldRd],
    handler := .spec .slli }

/-- Row 35, R215. -/
def descSrli : Descriptor :=
  { mnemonic := "SRLI", usage := "srli t1,t2,10", description := "shift right logical immediate, amount 0 to 31",
    format := .i, template := "0000000 iiiii sssss 101 fffff 0010011",
    requires64 := false, mask := 0xFE00707F, value := 0x00005013,
    fields := [fieldShamt, fieldRs1, fieldRd],
    handler := .spec .srli }

/-- Row 36, R216. -/
def descSrai : Descriptor :=
  { mnemonic := "SRAI", usage := "srai t1,t2,10", description := "shift right arithmetic immediate, amount 0 to 31",
    format := .i, template := "0100000 iiiii sssss 101 fffff 0010011",
    requires64 := false, mask := 0xFE00707F, value := 0x40005013,
    fields := [fieldShamt, fieldRs1, fieldRd],
    handler := .spec .srai }

/-- Row 37, R217. -/
def descSlliHi : Descriptor :=
  { mnemonic := "SLLI_HI", usage := "slli t1,t2,33", description := "shift left logical immediate, amount 32 to 63",
    format := .i, template := "0000001 iiiii sssss 001 fffff 0010011",
    requires64 := true, mask := 0xFE00707F, value := 0x02001013,
    fields := [fieldShamt, fieldRs1, fieldRd],
    handler := .spec .slliHi }

/-- Row 38, R218. -/
def descSrliHi : Descriptor :=
  { mnemonic := "SRLI_HI", usage := "srli t1,t2,33", description := "shift right logical immediate, amount 32 to 63",
    format := .i, template := "0000001 iiiii sssss 101 fffff 0010011",
    requires64 := true, mask := 0xFE00707F, value := 0x02005013,
    fields := [fieldShamt, fieldRs1, fieldRd],
    handler := .spec .srliHi }

/-- Row 39, R219. -/
def descSraiHi : Descriptor :=
  { mnemonic := "SRAI_HI", usage := "srai t1,t2,33", description := "shift right arithmetic immediate, amount 32 to 63",
    format := .i, template := "0100001 iiiii sssss 101 fffff 0010011",
    requires64 := true, mask := 0xFE00707F, value := 0x42005013,
    fields := [fieldShamt, fieldRs1, fieldRd],
    handler := .spec .sraiHi }

/-- Row 40, R220. -/
def descAddiw : Descriptor :=
  { mnemonic := "ADDIW", usage := "addiw t1,t2,-100", description := "add immediate word",
    format := .i, template := "iiiiiiiiiiii sssss 000 fffff 0011011",
    requires64 := true, mask := 0x0000707F, value := 0x0000001B,
    fields := [fieldImm12, fieldRs1, fieldRd],
    handler := .spec .addiw }

/-- Row 41, R221. -/
def descSlliw : Descriptor :=
  { mnemonic := "SLLIW", usage := "slliw t1,t2,10", description := "shift left logical immediate word",
    format := .i, template := "0000000 iiiii sssss 001 fffff 0011011",
    requires64 := true, mask := 0xFE00707F, value := 0x0000101B,
    fields := [fieldShamt, fieldRs1, fieldRd],
    handler := .spec .slliw }

/-- Row 42, R222. -/
def descSrliw : Descriptor :=
  { mnemonic := "SRLIW", usage := "srliw t1,t2,10", description := "shift right logical immediate word",
    format := .i, template := "0000000 iiiii sssss 101 fffff 0011011",
    requires64 := true, mask := 0xFE00707F, value := 0x0000501B,
    fields := [fieldShamt, fieldRs1, fieldRd],
    handler := .spec .srliw }

/-- Row 43, R223. -/
def descSraiw : Descriptor :=
  { mnemonic := "SRAIW", usage := "sraiw t1,t2,10", description := "shift right arithmetic immediate word",
    format := .i, template := "0100000 iiiii sssss 101 fffff 0011011",
    requires64 := true, mask := 0xFE00707F, value := 0x4000501B,
    fields := [fieldShamt, fieldRs1, fieldRd],
    handler := .spec .sraiw }

/-- Row 44, R224. -/
def descLui : Descriptor :=
  { mnemonic := "LUI", usage := "lui t1,100000", description := "load upper immediate",
    format := .u, template := "iiiiiiiiiiiiiiiiiiii fffff 0110111",
    requires64 := false, mask := 0x0000007F, value := 0x00000037,
    fields := [fieldImm20, fieldRd],
    handler := .spec .lui }

/-- Row 45, R225. -/
def descAuipc : Descriptor :=
  { mnemonic := "AUIPC", usage := "auipc t1,100000", description := "add upper immediate to pc",
    format := .u, template := "iiiiiiiiiiiiiiiiiiii fffff 0010111",
    requires64 := false, mask := 0x0000007F, value := 0x00000017,
    fields := [fieldImm20, fieldRd],
    handler := .spec .auipc }

/-- Row 46, R265. -/
def descLb : Descriptor :=
  { mnemonic := "LB", usage := "lb t1,-100(t2)", description := "load byte, signed",
    format := .i, template := "iiiiiiiiiiii sssss 000 fffff 0000011",
    requires64 := false, mask := 0x0000707F, value := 0x00000003,
    fields := [fieldImm12, fieldRs1, fieldRd],
    handler := .spec .lb }

/-- Row 47, R266. -/
def descLh : Descriptor :=
  { mnemonic := "LH", usage := "lh t1,-100(t2)", description := "load halfword, signed",
    format := .i, template := "iiiiiiiiiiii sssss 001 fffff 0000011",
    requires64 := false, mask := 0x0000707F, value := 0x00001003,
    fields := [fieldImm12, fieldRs1, fieldRd],
    handler := .spec .lh }

/-- Row 48, R267. -/
def descLw : Descriptor :=
  { mnemonic := "LW", usage := "lw t1,-100(t2)", description := "load word, signed",
    format := .i, template := "iiiiiiiiiiii sssss 010 fffff 0000011",
    requires64 := false, mask := 0x0000707F, value := 0x00002003,
    fields := [fieldImm12, fieldRs1, fieldRd],
    handler := .spec .lw }

/-- Row 49, R268. -/
def descLbu : Descriptor :=
  { mnemonic := "LBU", usage := "lbu t1,-100(t2)", description := "load byte, unsigned",
    format := .i, template := "iiiiiiiiiiii sssss 100 fffff 0000011",
    requires64 := false, mask := 0x0000707F, value := 0x00004003,
    fields := [fieldImm12, fieldRs1, fieldRd],
    handler := .spec .lbu }

/-- Row 50, R269. -/
def descLhu : Descriptor :=
  { mnemonic := "LHU", usage := "lhu t1,-100(t2)", description := "load halfword, unsigned",
    format := .i, template := "iiiiiiiiiiii sssss 101 fffff 0000011",
    requires64 := false, mask := 0x0000707F, value := 0x00005003,
    fields := [fieldImm12, fieldRs1, fieldRd],
    handler := .spec .lhu }

/-- Row 51, R270. -/
def descLwu : Descriptor :=
  { mnemonic := "LWU", usage := "lwu t1,-100(t2)", description := "load word, unsigned",
    format := .i, template := "iiiiiiiiiiii sssss 110 fffff 0000011",
    requires64 := true, mask := 0x0000707F, value := 0x00006003,
    fields := [fieldImm12, fieldRs1, fieldRd],
    handler := .spec .lwu }

/-- Row 52, R271. -/
def descLd : Descriptor :=
  { mnemonic := "LD", usage := "ld t1,-100(t2)", description := "load doubleword",
    format := .i, template := "iiiiiiiiiiii sssss 011 fffff 0000011",
    requires64 := true, mask := 0x0000707F, value := 0x00003003,
    fields := [fieldImm12, fieldRs1, fieldRd],
    handler := .spec .ld }

/-- Row 53, R272. -/
def descSb : Descriptor :=
  { mnemonic := "SB", usage := "sb t1,-100(t2)", description := "store byte",
    format := .s, template := "iiiiiii ttttt sssss 000 iiiii 0100011",
    requires64 := false, mask := 0x0000707F, value := 0x00000023,
    fields := [fieldImmSplit, fieldRs2, fieldRs1],
    handler := .spec .sb }

/-- Row 54, R273. -/
def descSh : Descriptor :=
  { mnemonic := "SH", usage := "sh t1,-100(t2)", description := "store halfword",
    format := .s, template := "iiiiiii ttttt sssss 001 iiiii 0100011",
    requires64 := false, mask := 0x0000707F, value := 0x00001023,
    fields := [fieldImmSplit, fieldRs2, fieldRs1],
    handler := .spec .sh }

/-- Row 55, R274. -/
def descSw : Descriptor :=
  { mnemonic := "SW", usage := "sw t1,-100(t2)", description := "store word",
    format := .s, template := "iiiiiii ttttt sssss 010 iiiii 0100011",
    requires64 := false, mask := 0x0000707F, value := 0x00002023,
    fields := [fieldImmSplit, fieldRs2, fieldRs1],
    handler := .spec .sw }

/-- Row 56, R275. -/
def descSd : Descriptor :=
  { mnemonic := "SD", usage := "sd t1,-100(t2)", description := "store doubleword",
    format := .s, template := "iiiiiii ttttt sssss 011 iiiii 0100011",
    requires64 := true, mask := 0x0000707F, value := 0x00003023,
    fields := [fieldImmSplit, fieldRs2, fieldRs1],
    handler := .spec .sd }

/-- Row 57, R284. -/
def descBeq : Descriptor :=
  { mnemonic := "BEQ", usage := "beq t1,t2,label", description := "branch if equal",
    format := .b, template := "iiiiiii ttttt sssss 000 iiiii 1100011",
    requires64 := false, mask := 0x0000707F, value := 0x00000063,
    fields := [fieldImmSplit, fieldRs2, fieldRs1],
    handler := .spec .beq }

/-- Row 58, R285. -/
def descBne : Descriptor :=
  { mnemonic := "BNE", usage := "bne t1,t2,label", description := "branch if not equal",
    format := .b, template := "iiiiiii ttttt sssss 001 iiiii 1100011",
    requires64 := false, mask := 0x0000707F, value := 0x00001063,
    fields := [fieldImmSplit, fieldRs2, fieldRs1],
    handler := .spec .bne }

/-- Row 59, R286. -/
def descBlt : Descriptor :=
  { mnemonic := "BLT", usage := "blt t1,t2,label", description := "branch if less than, signed",
    format := .b, template := "iiiiiii ttttt sssss 100 iiiii 1100011",
    requires64 := false, mask := 0x0000707F, value := 0x00004063,
    fields := [fieldImmSplit, fieldRs2, fieldRs1],
    handler := .spec .blt }

/-- Row 60, R287. -/
def descBge : Descriptor :=
  { mnemonic := "BGE", usage := "bge t1,t2,label", description := "branch if greater than or equal, signed",
    format := .b, template := "iiiiiii ttttt sssss 101 iiiii 1100011",
    requires64 := false, mask := 0x0000707F, value := 0x00005063,
    fields := [fieldImmSplit, fieldRs2, fieldRs1],
    handler := .spec .bge }

/-- Row 61, R288. -/
def descBltu : Descriptor :=
  { mnemonic := "BLTU", usage := "bltu t1,t2,label", description := "branch if less than, unsigned",
    format := .b, template := "iiiiiii ttttt sssss 110 iiiii 1100011",
    requires64 := false, mask := 0x0000707F, value := 0x00006063,
    fields := [fieldImmSplit, fieldRs2, fieldRs1],
    handler := .spec .bltu }

/-- Row 62, R289. -/
def descBgeu : Descriptor :=
  { mnemonic := "BGEU", usage := "bgeu t1,t2,label", description := "branch if greater than or equal, unsigned",
    format := .b, template := "iiiiiii ttttt sssss 111 iiiii 1100011",
    requires64 := false, mask := 0x0000707F, value := 0x00007063,
    fields := [fieldImmSplit, fieldRs2, fieldRs1],
    handler := .spec .bgeu }

/-- Row 63, R290. -/
def descJal : Descriptor :=
  { mnemonic := "JAL", usage := "jal t1,label", description := "jump and link",
    format := .j, template := "iiiiiiiiiiiiiiiiiiii fffff 1101111",
    requires64 := false, mask := 0x0000007F, value := 0x0000006F,
    fields := [fieldImm20, fieldRd],
    handler := .spec .jal }

/-- Row 64, R291. -/
def descJalr : Descriptor :=
  { mnemonic := "JALR", usage := "jalr t1,t2,-100", description := "jump and link register",
    format := .i, template := "iiiiiiiiiiii sssss 000 fffff 1100111",
    requires64 := false, mask := 0x0000707F, value := 0x00000067,
    fields := [fieldImm12, fieldRs1, fieldRd],
    handler := .spec .jalr }

/-- Row 65, R308. -/
def descLrW : Descriptor :=
  { mnemonic := "LR.W", usage := "lr.w t1,(t2)", description := "load reserved, word",
    format := .atomic, template := "00010 a l 00000 sssss 010 fffff 0101111",
    requires64 := false, mask := 0xF9F0707F, value := 0x1000202F,
    fields := [fieldAq, fieldRl, fieldRs1, fieldRd],
    handler := .spec .lrW }

/-- Row 66, R309. -/
def descScW : Descriptor :=
  { mnemonic := "SC.W", usage := "sc.w t1,t3,(t2)", description := "store conditional, word",
    format := .atomic, template := "00011 a l ttttt sssss 010 fffff 0101111",
    requires64 := false, mask := 0xF800707F, value := 0x1800202F,
    fields := [fieldAq, fieldRl, fieldRs2, fieldRs1, fieldRd],
    handler := .spec .scW }

/-- Row 67, R310. -/
def descAmoswapW : Descriptor :=
  { mnemonic := "AMOSWAP.W", usage := "amoswap.w t1,t3,(t2)", description := "atomic swap, word",
    format := .atomic, template := "00001 a l ttttt sssss 010 fffff 0101111",
    requires64 := false, mask := 0xF800707F, value := 0x0800202F,
    fields := [fieldAq, fieldRl, fieldRs2, fieldRs1, fieldRd],
    handler := .spec .amoswapW }

/-- Row 68, R311. -/
def descAmoaddW : Descriptor :=
  { mnemonic := "AMOADD.W", usage := "amoadd.w t1,t3,(t2)", description := "atomic add, word",
    format := .atomic, template := "00000 a l ttttt sssss 010 fffff 0101111",
    requires64 := false, mask := 0xF800707F, value := 0x0000202F,
    fields := [fieldAq, fieldRl, fieldRs2, fieldRs1, fieldRd],
    handler := .spec .amoaddW }

/-- Row 69, R312. -/
def descAmoxorW : Descriptor :=
  { mnemonic := "AMOXOR.W", usage := "amoxor.w t1,t3,(t2)", description := "atomic exclusive or, word",
    format := .atomic, template := "00100 a l ttttt sssss 010 fffff 0101111",
    requires64 := false, mask := 0xF800707F, value := 0x2000202F,
    fields := [fieldAq, fieldRl, fieldRs2, fieldRs1, fieldRd],
    handler := .spec .amoxorW }

/-- Row 70, R313. -/
def descAmoandW : Descriptor :=
  { mnemonic := "AMOAND.W", usage := "amoand.w t1,t3,(t2)", description := "atomic and, word",
    format := .atomic, template := "01100 a l ttttt sssss 010 fffff 0101111",
    requires64 := false, mask := 0xF800707F, value := 0x6000202F,
    fields := [fieldAq, fieldRl, fieldRs2, fieldRs1, fieldRd],
    handler := .spec .amoandW }

/-- Row 71, R314. -/
def descAmoorW : Descriptor :=
  { mnemonic := "AMOOR.W", usage := "amoor.w t1,t3,(t2)", description := "atomic or, word",
    format := .atomic, template := "01000 a l ttttt sssss 010 fffff 0101111",
    requires64 := false, mask := 0xF800707F, value := 0x4000202F,
    fields := [fieldAq, fieldRl, fieldRs2, fieldRs1, fieldRd],
    handler := .spec .amoorW }

/-- Row 72, R315. -/
def descAmominW : Descriptor :=
  { mnemonic := "AMOMIN.W", usage := "amomin.w t1,t3,(t2)", description := "atomic minimum, signed, word",
    format := .atomic, template := "10000 a l ttttt sssss 010 fffff 0101111",
    requires64 := false, mask := 0xF800707F, value := 0x8000202F,
    fields := [fieldAq, fieldRl, fieldRs2, fieldRs1, fieldRd],
    handler := .spec .amominW }

/-- Row 73, R316. -/
def descAmomaxW : Descriptor :=
  { mnemonic := "AMOMAX.W", usage := "amomax.w t1,t3,(t2)", description := "atomic maximum, signed, word",
    format := .atomic, template := "10100 a l ttttt sssss 010 fffff 0101111",
    requires64 := false, mask := 0xF800707F, value := 0xA000202F,
    fields := [fieldAq, fieldRl, fieldRs2, fieldRs1, fieldRd],
    handler := .spec .amomaxW }

/-- Row 74, R317. -/
def descAmominuW : Descriptor :=
  { mnemonic := "AMOMINU.W", usage := "amominu.w t1,t3,(t2)", description := "atomic minimum, unsigned, word",
    format := .atomic, template := "11000 a l ttttt sssss 010 fffff 0101111",
    requires64 := false, mask := 0xF800707F, value := 0xC000202F,
    fields := [fieldAq, fieldRl, fieldRs2, fieldRs1, fieldRd],
    handler := .spec .amominuW }

/-- Row 75, R318. -/
def descAmomaxuW : Descriptor :=
  { mnemonic := "AMOMAXU.W", usage := "amomaxu.w t1,t3,(t2)", description := "atomic maximum, unsigned, word",
    format := .atomic, template := "11100 a l ttttt sssss 010 fffff 0101111",
    requires64 := false, mask := 0xF800707F, value := 0xE000202F,
    fields := [fieldAq, fieldRl, fieldRs2, fieldRs1, fieldRd],
    handler := .spec .amomaxuW }

/-- Row 76, R319. -/
def descLrD : Descriptor :=
  { mnemonic := "LR.D", usage := "lr.d t1,(t2)", description := "load reserved, doubleword",
    format := .atomic, template := "00010 a l 00000 sssss 011 fffff 0101111",
    requires64 := true, mask := 0xF9F0707F, value := 0x1000302F,
    fields := [fieldAq, fieldRl, fieldRs1, fieldRd],
    handler := .spec .lrD }

/-- Row 77, R320. -/
def descScD : Descriptor :=
  { mnemonic := "SC.D", usage := "sc.d t1,t3,(t2)", description := "store conditional, doubleword",
    format := .atomic, template := "00011 a l ttttt sssss 011 fffff 0101111",
    requires64 := true, mask := 0xF800707F, value := 0x1800302F,
    fields := [fieldAq, fieldRl, fieldRs2, fieldRs1, fieldRd],
    handler := .spec .scD }

/-- Row 78, R321. -/
def descAmoswapD : Descriptor :=
  { mnemonic := "AMOSWAP.D", usage := "amoswap.d t1,t3,(t2)", description := "atomic swap, doubleword",
    format := .atomic, template := "00001 a l ttttt sssss 011 fffff 0101111",
    requires64 := true, mask := 0xF800707F, value := 0x0800302F,
    fields := [fieldAq, fieldRl, fieldRs2, fieldRs1, fieldRd],
    handler := .spec .amoswapD }

/-- Row 79, R322. -/
def descAmoaddD : Descriptor :=
  { mnemonic := "AMOADD.D", usage := "amoadd.d t1,t3,(t2)", description := "atomic add, doubleword",
    format := .atomic, template := "00000 a l ttttt sssss 011 fffff 0101111",
    requires64 := true, mask := 0xF800707F, value := 0x0000302F,
    fields := [fieldAq, fieldRl, fieldRs2, fieldRs1, fieldRd],
    handler := .spec .amoaddD }

/-- Row 80, R323. -/
def descAmoxorD : Descriptor :=
  { mnemonic := "AMOXOR.D", usage := "amoxor.d t1,t3,(t2)", description := "atomic exclusive or, doubleword",
    format := .atomic, template := "00100 a l ttttt sssss 011 fffff 0101111",
    requires64 := true, mask := 0xF800707F, value := 0x2000302F,
    fields := [fieldAq, fieldRl, fieldRs2, fieldRs1, fieldRd],
    handler := .spec .amoxorD }

/-- Row 81, R324. -/
def descAmoandD : Descriptor :=
  { mnemonic := "AMOAND.D", usage := "amoand.d t1,t3,(t2)", description := "atomic and, doubleword",
    format := .atomic, template := "01100 a l ttttt sssss 011 fffff 0101111",
    requires64 := true, mask := 0xF800707F, value := 0x6000302F,
    fields := [fieldAq, fieldRl, fieldRs2, fieldRs1, fieldRd],
    handler := .spec .amoandD }

/-- Row 82, R325. -/
def descAmoorD : Descriptor :=
  { mnemonic := "AMOOR.D", usage := "amoor.d t1,t3,(t2)", description := "atomic or, doubleword",
    format := .atomic, template := "01000 a l ttttt sssss 011 fffff 0101111",
    requires64 := true, mask := 0xF800707F, value := 0x4000302F,
    fields := [fieldAq, fieldRl, fieldRs2, fieldRs1, fieldRd],
    handler := .spec .amoorD }

/-- Row 83, R326. -/
def descAmominD : Descriptor :=
  { mnemonic := "AMOMIN.D", usage := "amomin.d t1,t3,(t2)", description := "atomic minimum, signed, doubleword",
    format := .atomic, template := "10000 a l ttttt sssss 011 fffff 0101111",
    requires64 := true, mask := 0xF800707F, value := 0x8000302F,
    fields := [fieldAq, fieldRl, fieldRs2, fieldRs1, fieldRd],
    handler := .spec .amominD }

/-- Row 84, R327. -/
def descAmomaxD : Descriptor :=
  { mnemonic := "AMOMAX.D", usage := "amomax.d t1,t3,(t2)", description := "atomic maximum, signed, doubleword",
    format := .atomic, template := "10100 a l ttttt sssss 011 fffff 0101111",
    requires64 := true, mask := 0xF800707F, value := 0xA000302F,
    fields := [fieldAq, fieldRl, fieldRs2, fieldRs1, fieldRd],
    handler := .spec .amomaxD }

/-- Row 85, R328. -/
def descAmominuD : Descriptor :=
  { mnemonic := "AMOMINU.D", usage := "amominu.d t1,t3,(t2)", description := "atomic minimum, unsigned, doubleword",
    format := .atomic, template := "11000 a l ttttt sssss 011 fffff 0101111",
    requires64 := true, mask := 0xF800707F, value := 0xC000302F,
    fields := [fieldAq, fieldRl, fieldRs2, fieldRs1, fieldRd],
    handler := .spec .amominuD }

/-- Row 86, R329. -/
def descAmomaxuD : Descriptor :=
  { mnemonic := "AMOMAXU.D", usage := "amomaxu.d t1,t3,(t2)", description := "atomic maximum, unsigned, doubleword",
    format := .atomic, template := "11100 a l ttttt sssss 011 fffff 0101111",
    requires64 := true, mask := 0xF800707F, value := 0xE000302F,
    fields := [fieldAq, fieldRl, fieldRs2, fieldRs1, fieldRd],
    handler := .spec .amomaxuD }

/-- Row 87, R354. -/
def descFlw : Descriptor :=
  { mnemonic := "FLW", usage := "flw f1,-100(t1)", description := "load single-precision value",
    format := .i, template := "iiiiiiiiiiii sssss 010 fffff 0000111",
    requires64 := false, mask := 0x0000707F, value := 0x00002007,
    fields := [fieldImm12, fieldRs1, fieldRd],
    handler := .spec .flw }

/-- Row 88, R355. -/
def descFsw : Descriptor :=
  { mnemonic := "FSW", usage := "fsw f1,-100(t1)", description := "store single-precision value",
    format := .s, template := "iiiiiii ttttt sssss 010 iiiii 0100111",
    requires64 := false, mask := 0x0000707F, value := 0x00002027,
    fields := [fieldImmSplit, fieldRs2, fieldRs1],
    handler := .spec .fsw }

/-- Row 89, R356. -/
def descFmaddS : Descriptor :=
  { mnemonic := "FMADD.S", usage := "fmadd.s f1,f2,f3,f4", description := "fused multiply-add, single",
    format := .r4, template := "qqqqq 00 ttttt sssss ppp fffff 1000011",
    requires64 := false, mask := 0x0600007F, value := 0x00000043,
    fields := [fieldRs3, fieldRs2, fieldRs1, fieldRm, fieldRd],
    handler := .spec .fmaddS }

/-- Row 90, R357. -/
def descFmsubS : Descriptor :=
  { mnemonic := "FMSUB.S", usage := "fmsub.s f1,f2,f3,f4", description := "fused multiply-subtract, single",
    format := .r4, template := "qqqqq 00 ttttt sssss ppp fffff 1000111",
    requires64 := false, mask := 0x0600007F, value := 0x00000047,
    fields := [fieldRs3, fieldRs2, fieldRs1, fieldRm, fieldRd],
    handler := .spec .fmsubS }

/-- Row 91, R358. -/
def descFnmsubS : Descriptor :=
  { mnemonic := "FNMSUB.S", usage := "fnmsub.s f1,f2,f3,f4", description := "negated fused multiply-subtract, single",
    format := .r4, template := "qqqqq 00 ttttt sssss ppp fffff 1001011",
    requires64 := false, mask := 0x0600007F, value := 0x0000004B,
    fields := [fieldRs3, fieldRs2, fieldRs1, fieldRm, fieldRd],
    handler := .spec .fnmsubS }

/-- Row 92, R359. -/
def descFnmaddS : Descriptor :=
  { mnemonic := "FNMADD.S", usage := "fnmadd.s f1,f2,f3,f4", description := "negated fused multiply-add, single",
    format := .r4, template := "qqqqq 00 ttttt sssss ppp fffff 1001111",
    requires64 := false, mask := 0x0600007F, value := 0x0000004F,
    fields := [fieldRs3, fieldRs2, fieldRs1, fieldRm, fieldRd],
    handler := .spec .fnmaddS }

/-- Row 93, R360. -/
def descFaddS : Descriptor :=
  { mnemonic := "FADD.S", usage := "fadd.s f1,f2,f3", description := "add, single",
    format := .r, template := "0000000 ttttt sssss ppp fffff 1010011",
    requires64 := false, mask := 0xFE00007F, value := 0x00000053,
    fields := [fieldRs2, fieldRs1, fieldRm, fieldRd],
    handler := .spec .faddS }

/-- Row 94, R361. -/
def descFsubS : Descriptor :=
  { mnemonic := "FSUB.S", usage := "fsub.s f1,f2,f3", description := "subtract, single",
    format := .r, template := "0000100 ttttt sssss ppp fffff 1010011",
    requires64 := false, mask := 0xFE00007F, value := 0x08000053,
    fields := [fieldRs2, fieldRs1, fieldRm, fieldRd],
    handler := .spec .fsubS }

/-- Row 95, R362. -/
def descFmulS : Descriptor :=
  { mnemonic := "FMUL.S", usage := "fmul.s f1,f2,f3", description := "multiply, single",
    format := .r, template := "0001000 ttttt sssss ppp fffff 1010011",
    requires64 := false, mask := 0xFE00007F, value := 0x10000053,
    fields := [fieldRs2, fieldRs1, fieldRm, fieldRd],
    handler := .spec .fmulS }

/-- Row 96, R363. -/
def descFdivS : Descriptor :=
  { mnemonic := "FDIV.S", usage := "fdiv.s f1,f2,f3", description := "divide, single",
    format := .r, template := "0001100 ttttt sssss ppp fffff 1010011",
    requires64 := false, mask := 0xFE00007F, value := 0x18000053,
    fields := [fieldRs2, fieldRs1, fieldRm, fieldRd],
    handler := .spec .fdivS }

/-- Row 97, R364. -/
def descFsqrtS : Descriptor :=
  { mnemonic := "FSQRT.S", usage := "fsqrt.s f1,f2", description := "square root, single",
    format := .r, template := "0101100 00000 sssss ppp fffff 1010011",
    requires64 := false, mask := 0xFFF0007F, value := 0x58000053,
    fields := [fieldRs1, fieldRm, fieldRd],
    handler := .spec .fsqrtS }

/-- Row 98, R365. -/
def descFsgnjS : Descriptor :=
  { mnemonic := "FSGNJ.S", usage := "fsgnj.s f1,f2,f3", description := "sign injection, single",
    format := .r, template := "0010000 ttttt sssss 000 fffff 1010011",
    requires64 := false, mask := 0xFE00707F, value := 0x20000053,
    fields := [fieldRs2, fieldRs1, fieldRd],
    handler := .spec .fsgnjS }

/-- Row 99, R366. -/
def descFsgnjnS : Descriptor :=
  { mnemonic := "FSGNJN.S", usage := "fsgnjn.s f1,f2,f3", description := "sign injection, negated, single",
    format := .r, template := "0010000 ttttt sssss 001 fffff 1010011",
    requires64 := false, mask := 0xFE00707F, value := 0x20001053,
    fields := [fieldRs2, fieldRs1, fieldRd],
    handler := .spec .fsgnjnS }

/-- Row 100, R367. -/
def descFsgnjxS : Descriptor :=
  { mnemonic := "FSGNJX.S", usage := "fsgnjx.s f1,f2,f3", description := "sign injection, exclusive or, single",
    format := .r, template := "0010000 ttttt sssss 010 fffff 1010011",
    requires64 := false, mask := 0xFE00707F, value := 0x20002053,
    fields := [fieldRs2, fieldRs1, fieldRd],
    handler := .spec .fsgnjxS }

/-- Row 101, R368. -/
def descFminS : Descriptor :=
  { mnemonic := "FMIN.S", usage := "fmin.s f1,f2,f3", description := "minimum, single",
    format := .r, template := "0010100 ttttt sssss 000 fffff 1010011",
    requires64 := false, mask := 0xFE00707F, value := 0x28000053,
    fields := [fieldRs2, fieldRs1, fieldRd],
    handler := .spec .fminS }

/-- Row 102, R369. -/
def descFmaxS : Descriptor :=
  { mnemonic := "FMAX.S", usage := "fmax.s f1,f2,f3", description := "maximum, single",
    format := .r, template := "0010100 ttttt sssss 001 fffff 1010011",
    requires64 := false, mask := 0xFE00707F, value := 0x28001053,
    fields := [fieldRs2, fieldRs1, fieldRd],
    handler := .spec .fmaxS }

/-- Row 103, R370. -/
def descFeqS : Descriptor :=
  { mnemonic := "FEQ.S", usage := "feq.s t1,f1,f2", description := "compare equal, single",
    format := .r, template := "1010000 ttttt sssss 010 fffff 1010011",
    requires64 := false, mask := 0xFE00707F, value := 0xA0002053,
    fields := [fieldRs2, fieldRs1, fieldRd],
    handler := .spec .feqS }

/-- Row 104, R371. -/
def descFltS : Descriptor :=
  { mnemonic := "FLT.S", usage := "flt.s t1,f1,f2", description := "compare less than, single",
    format := .r, template := "1010000 ttttt sssss 001 fffff 1010011",
    requires64 := false, mask := 0xFE00707F, value := 0xA0001053,
    fields := [fieldRs2, fieldRs1, fieldRd],
    handler := .spec .fltS }

/-- Row 105, R372. -/
def descFleS : Descriptor :=
  { mnemonic := "FLE.S", usage := "fle.s t1,f1,f2", description := "compare less than or equal, single",
    format := .r, template := "1010000 ttttt sssss 000 fffff 1010011",
    requires64 := false, mask := 0xFE00707F, value := 0xA0000053,
    fields := [fieldRs2, fieldRs1, fieldRd],
    handler := .spec .fleS }

/-- Row 106, R373. -/
def descFclassS : Descriptor :=
  { mnemonic := "FCLASS.S", usage := "fclass.s t1,f1", description := "classify, single",
    format := .r, template := "1110000 00000 sssss 001 fffff 1010011",
    requires64 := false, mask := 0xFFF0707F, value := 0xE0001053,
    fields := [fieldRs1, fieldRd],
    handler := .spec .fclassS }

/-- Row 107, R374. -/
def descFcvtWS : Descriptor :=
  { mnemonic := "FCVT.W.S", usage := "fcvt.w.s t1,f1", description := "convert single to signed 32-bit integer",
    format := .r, template := "1100000 00000 sssss ppp fffff 1010011",
    requires64 := false, mask := 0xFFF0007F, value := 0xC0000053,
    fields := [fieldRs1, fieldRm, fieldRd],
    handler := .spec .fcvtWS }

/-- Row 108, R375. -/
def descFcvtSW : Descriptor :=
  { mnemonic := "FCVT.S.W", usage := "fcvt.s.w f1,t1", description := "convert signed 32-bit integer to single",
    format := .r, template := "1101000 00000 sssss ppp fffff 1010011",
    requires64 := false, mask := 0xFFF0007F, value := 0xD0000053,
    fields := [fieldRs1, fieldRm, fieldRd],
    handler := .spec .fcvtSW }

/-- Row 109, R376. -/
def descFcvtWuS : Descriptor :=
  { mnemonic := "FCVT.WU.S", usage := "fcvt.wu.s t1,f1", description := "convert single to unsigned 32-bit integer",
    format := .r, template := "1100000 00001 sssss ppp fffff 1010011",
    requires64 := false, mask := 0xFFF0007F, value := 0xC0100053,
    fields := [fieldRs1, fieldRm, fieldRd],
    handler := .spec .fcvtWuS }

/-- Row 110, R377. -/
def descFcvtSWu : Descriptor :=
  { mnemonic := "FCVT.S.WU", usage := "fcvt.s.wu f1,t1", description := "convert unsigned 32-bit integer to single",
    format := .r, template := "1101000 00001 sssss ppp fffff 1010011",
    requires64 := false, mask := 0xFFF0007F, value := 0xD0100053,
    fields := [fieldRs1, fieldRm, fieldRd],
    handler := .spec .fcvtSWu }

/-- Row 111, R378. -/
def descFcvtLS : Descriptor :=
  { mnemonic := "FCVT.L.S", usage := "fcvt.l.s t1,f1", description := "convert single to signed 64-bit integer",
    format := .r, template := "1100000 00010 sssss ppp fffff 1010011",
    requires64 := true, mask := 0xFFF0007F, value := 0xC0200053,
    fields := [fieldRs1, fieldRm, fieldRd],
    handler := .spec .fcvtLS }

/-- Row 112, R379. -/
def descFcvtSL : Descriptor :=
  { mnemonic := "FCVT.S.L", usage := "fcvt.s.l f1,t1", description := "convert signed 64-bit integer to single",
    format := .r, template := "1101000 00010 sssss ppp fffff 1010011",
    requires64 := true, mask := 0xFFF0007F, value := 0xD0200053,
    fields := [fieldRs1, fieldRm, fieldRd],
    handler := .spec .fcvtSL }

/-- Row 113, R380. -/
def descFcvtLuS : Descriptor :=
  { mnemonic := "FCVT.LU.S", usage := "fcvt.lu.s t1,f1", description := "convert single to unsigned 64-bit integer",
    format := .r, template := "1100000 00011 sssss ppp fffff 1010011",
    requires64 := true, mask := 0xFFF0007F, value := 0xC0300053,
    fields := [fieldRs1, fieldRm, fieldRd],
    handler := .spec .fcvtLuS }

/-- Row 114, R381. -/
def descFcvtSLu : Descriptor :=
  { mnemonic := "FCVT.S.LU", usage := "fcvt.s.lu f1,t1", description := "convert unsigned 64-bit integer to single",
    format := .r, template := "1101000 00011 sssss ppp fffff 1010011",
    requires64 := true, mask := 0xFFF0007F, value := 0xD0300053,
    fields := [fieldRs1, fieldRm, fieldRd],
    handler := .spec .fcvtSLu }

/-- Row 115, R382. -/
def descFmvXW : Descriptor :=
  { mnemonic := "FMV.X.W", usage := "fmv.x.w t1,f1", description := "move single bits to integer register",
    format := .r, template := "1110000 00000 sssss 000 fffff 1010011",
    requires64 := false, mask := 0xFFF0707F, value := 0xE0000053,
    fields := [fieldRs1, fieldRd],
    handler := .spec .fmvXW }

/-- Row 116, R383. -/
def descFmvWX : Descriptor :=
  { mnemonic := "FMV.W.X", usage := "fmv.w.x f1,t1", description := "move integer register bits to single",
    format := .r, template := "1111000 00000 sssss 000 fffff 1010011",
    requires64 := false, mask := 0xFFF0707F, value := 0xF0000053,
    fields := [fieldRs1, fieldRd],
    handler := .spec .fmvWX }

/-- Row 117, R393. -/
def descFld : Descriptor :=
  { mnemonic := "FLD", usage := "fld f1,-100(t1)", description := "load double-precision value",
    format := .i, template := "iiiiiiiiiiii sssss 011 fffff 0000111",
    requires64 := false, mask := 0x0000707F, value := 0x00003007,
    fields := [fieldImm12, fieldRs1, fieldRd],
    handler := .spec .fld }

/-- Row 118, R394. -/
def descFsd : Descriptor :=
  { mnemonic := "FSD", usage := "fsd f1,-100(t1)", description := "store double-precision value",
    format := .s, template := "iiiiiii ttttt sssss 011 iiiii 0100111",
    requires64 := false, mask := 0x0000707F, value := 0x00003027,
    fields := [fieldImmSplit, fieldRs2, fieldRs1],
    handler := .spec .fsd }

/-- Row 119, R395. -/
def descFmaddD : Descriptor :=
  { mnemonic := "FMADD.D", usage := "fmadd.d f1,f2,f3,f4", description := "fused multiply-add, double",
    format := .r4, template := "qqqqq 01 ttttt sssss ppp fffff 1000011",
    requires64 := false, mask := 0x0600007F, value := 0x02000043,
    fields := [fieldRs3, fieldRs2, fieldRs1, fieldRm, fieldRd],
    handler := .spec .fmaddD }

/-- Row 120, R396. -/
def descFmsubD : Descriptor :=
  { mnemonic := "FMSUB.D", usage := "fmsub.d f1,f2,f3,f4", description := "fused multiply-subtract, double",
    format := .r4, template := "qqqqq 01 ttttt sssss ppp fffff 1000111",
    requires64 := false, mask := 0x0600007F, value := 0x02000047,
    fields := [fieldRs3, fieldRs2, fieldRs1, fieldRm, fieldRd],
    handler := .spec .fmsubD }

/-- Row 121, R397. -/
def descFnmsubD : Descriptor :=
  { mnemonic := "FNMSUB.D", usage := "fnmsub.d f1,f2,f3,f4", description := "negated fused multiply-subtract, double",
    format := .r4, template := "qqqqq 01 ttttt sssss ppp fffff 1001011",
    requires64 := false, mask := 0x0600007F, value := 0x0200004B,
    fields := [fieldRs3, fieldRs2, fieldRs1, fieldRm, fieldRd],
    handler := .spec .fnmsubD }

/-- Row 122, R398. -/
def descFnmaddD : Descriptor :=
  { mnemonic := "FNMADD.D", usage := "fnmadd.d f1,f2,f3,f4", description := "negated fused multiply-add, double",
    format := .r4, template := "qqqqq 01 ttttt sssss ppp fffff 1001111",
    requires64 := false, mask := 0x0600007F, value := 0x0200004F,
    fields := [fieldRs3, fieldRs2, fieldRs1, fieldRm, fieldRd],
    handler := .spec .fnmaddD }

/-- Row 123, R399. -/
def descFaddD : Descriptor :=
  { mnemonic := "FADD.D", usage := "fadd.d f1,f2,f3", description := "add, double",
    format := .r, template := "0000001 ttttt sssss ppp fffff 1010011",
    requires64 := false, mask := 0xFE00007F, value := 0x02000053,
    fields := [fieldRs2, fieldRs1, fieldRm, fieldRd],
    handler := .spec .faddD }

/-- Row 124, R400. -/
def descFsubD : Descriptor :=
  { mnemonic := "FSUB.D", usage := "fsub.d f1,f2,f3", description := "subtract, double",
    format := .r, template := "0000101 ttttt sssss ppp fffff 1010011",
    requires64 := false, mask := 0xFE00007F, value := 0x0A000053,
    fields := [fieldRs2, fieldRs1, fieldRm, fieldRd],
    handler := .spec .fsubD }

/-- Row 125, R401. -/
def descFmulD : Descriptor :=
  { mnemonic := "FMUL.D", usage := "fmul.d f1,f2,f3", description := "multiply, double",
    format := .r, template := "0001001 ttttt sssss ppp fffff 1010011",
    requires64 := false, mask := 0xFE00007F, value := 0x12000053,
    fields := [fieldRs2, fieldRs1, fieldRm, fieldRd],
    handler := .spec .fmulD }

/-- Row 126, R402. -/
def descFdivD : Descriptor :=
  { mnemonic := "FDIV.D", usage := "fdiv.d f1,f2,f3", description := "divide, double",
    format := .r, template := "0001101 ttttt sssss ppp fffff 1010011",
    requires64 := false, mask := 0xFE00007F, value := 0x1A000053,
    fields := [fieldRs2, fieldRs1, fieldRm, fieldRd],
    handler := .spec .fdivD }

/-- Row 127, R403. -/
def descFsqrtD : Descriptor :=
  { mnemonic := "FSQRT.D", usage := "fsqrt.d f1,f2", description := "square root, double",
    format := .r, template := "0101101 00000 sssss ppp fffff 1010011",
    requires64 := false, mask := 0xFFF0007F, value := 0x5A000053,
    fields := [fieldRs1, fieldRm, fieldRd],
    handler := .spec .fsqrtD }

/-- Row 128, R404. -/
def descFsgnjD : Descriptor :=
  { mnemonic := "FSGNJ.D", usage := "fsgnj.d f1,f2,f3", description := "sign injection, double",
    format := .r, template := "0010001 ttttt sssss 000 fffff 1010011",
    requires64 := false, mask := 0xFE00707F, value := 0x22000053,
    fields := [fieldRs2, fieldRs1, fieldRd],
    handler := .spec .fsgnjD }

/-- Row 129, R405. -/
def descFsgnjnD : Descriptor :=
  { mnemonic := "FSGNJN.D", usage := "fsgnjn.d f1,f2,f3", description := "sign injection, negated, double",
    format := .r, template := "0010001 ttttt sssss 001 fffff 1010011",
    requires64 := false, mask := 0xFE00707F, value := 0x22001053,
    fields := [fieldRs2, fieldRs1, fieldRd],
    handler := .spec .fsgnjnD }

/-- Row 130, R406. -/
def descFsgnjxD : Descriptor :=
  { mnemonic := "FSGNJX.D", usage := "fsgnjx.d f1,f2,f3", description := "sign injection, exclusive or, double",
    format := .r, template := "0010001 ttttt sssss 010 fffff 1010011",
    requires64 := false, mask := 0xFE00707F, value := 0x22002053,
    fields := [fieldRs2, fieldRs1, fieldRd],
    handler := .spec .fsgnjxD }

/-- Row 131, R407. -/
def descFminD : Descriptor :=
  { mnemonic := "FMIN.D", usage := "fmin.d f1,f2,f3", description := "minimum, double",
    format := .r, template := "0010101 ttttt sssss 000 fffff 1010011",
    requires64 := false, mask := 0xFE00707F, value := 0x2A000053,
    fields := [fieldRs2, fieldRs1, fieldRd],
    handler := .spec .fminD }

/-- Row 132, R408. -/
def descFmaxD : Descriptor :=
  { mnemonic := "FMAX.D", usage := "fmax.d f1,f2,f3", description := "maximum, double",
    format := .r, template := "0010101 ttttt sssss 001 fffff 1010011",
    requires64 := false, mask := 0xFE00707F, value := 0x2A001053,
    fields := [fieldRs2, fieldRs1, fieldRd],
    handler := .spec .fmaxD }

/-- Row 133, R409. -/
def descFeqD : Descriptor :=
  { mnemonic := "FEQ.D", usage := "feq.d t1,f1,f2", description := "compare equal, double",
    format := .r, template := "1010001 ttttt sssss 010 fffff 1010011",
    requires64 := false, mask := 0xFE00707F, value := 0xA2002053,
    fields := [fieldRs2, fieldRs1, fieldRd],
    handler := .spec .feqD }

/-- Row 134, R410. -/
def descFltD : Descriptor :=
  { mnemonic := "FLT.D", usage := "flt.d t1,f1,f2", description := "compare less than, double",
    format := .r, template := "1010001 ttttt sssss 001 fffff 1010011",
    requires64 := false, mask := 0xFE00707F, value := 0xA2001053,
    fields := [fieldRs2, fieldRs1, fieldRd],
    handler := .spec .fltD }

/-- Row 135, R411. -/
def descFleD : Descriptor :=
  { mnemonic := "FLE.D", usage := "fle.d t1,f1,f2", description := "compare less than or equal, double",
    format := .r, template := "1010001 ttttt sssss 000 fffff 1010011",
    requires64 := false, mask := 0xFE00707F, value := 0xA2000053,
    fields := [fieldRs2, fieldRs1, fieldRd],
    handler := .spec .fleD }

/-- Row 136, R412. -/
def descFclassD : Descriptor :=
  { mnemonic := "FCLASS.D", usage := "fclass.d t1,f1", description := "classify, double",
    format := .r, template := "1110001 00000 sssss 001 fffff 1010011",
    requires64 := false, mask := 0xFFF0707F, value := 0xE2001053,
    fields := [fieldRs1, fieldRd],
    handler := .spec .fclassD }

/-- Row 137, R413. -/
def descFcvtWD : Descriptor :=
  { mnemonic := "FCVT.W.D", usage := "fcvt.w.d t1,f1", description := "convert double to signed 32-bit integer",
    format := .r, template := "1100001 00000 sssss ppp fffff 1010011",
    requires64 := false, mask := 0xFFF0007F, value := 0xC2000053,
    fields := [fieldRs1, fieldRm, fieldRd],
    handler := .spec .fcvtWD }

/-- Row 138, R414. -/
def descFcvtDW : Descriptor :=
  { mnemonic := "FCVT.D.W", usage := "fcvt.d.w f1,t1", description := "convert signed 32-bit integer to double",
    format := .r, template := "1101001 00000 sssss ppp fffff 1010011",
    requires64 := false, mask := 0xFFF0007F, value := 0xD2000053,
    fields := [fieldRs1, fieldRm, fieldRd],
    handler := .spec .fcvtDW }

/-- Row 139, R415. -/
def descFcvtWuD : Descriptor :=
  { mnemonic := "FCVT.WU.D", usage := "fcvt.wu.d t1,f1", description := "convert double to unsigned 32-bit integer",
    format := .r, template := "1100001 00001 sssss ppp fffff 1010011",
    requires64 := false, mask := 0xFFF0007F, value := 0xC2100053,
    fields := [fieldRs1, fieldRm, fieldRd],
    handler := .spec .fcvtWuD }

/-- Row 140, R416. -/
def descFcvtDWu : Descriptor :=
  { mnemonic := "FCVT.D.WU", usage := "fcvt.d.wu f1,t1", description := "convert unsigned 32-bit integer to double",
    format := .r, template := "1101001 00001 sssss ppp fffff 1010011",
    requires64 := false, mask := 0xFFF0007F, value := 0xD2100053,
    fields := [fieldRs1, fieldRm, fieldRd],
    handler := .spec .fcvtDWu }

/-- Row 141, R417. -/
def descFcvtLD : Descriptor :=
  { mnemonic := "FCVT.L.D", usage := "fcvt.l.d t1,f1", description := "convert double to signed 64-bit integer",
    format := .r, template := "1100001 00010 sssss ppp fffff 1010011",
    requires64 := true, mask := 0xFFF0007F, value := 0xC2200053,
    fields := [fieldRs1, fieldRm, fieldRd],
    handler := .spec .fcvtLD }

/-- Row 142, R418. -/
def descFcvtDL : Descriptor :=
  { mnemonic := "FCVT.D.L", usage := "fcvt.d.l f1,t1", description := "convert signed 64-bit integer to double",
    format := .r, template := "1101001 00010 sssss ppp fffff 1010011",
    requires64 := true, mask := 0xFFF0007F, value := 0xD2200053,
    fields := [fieldRs1, fieldRm, fieldRd],
    handler := .spec .fcvtDL }

/-- Row 143, R419. -/
def descFcvtLuD : Descriptor :=
  { mnemonic := "FCVT.LU.D", usage := "fcvt.lu.d t1,f1", description := "convert double to unsigned 64-bit integer",
    format := .r, template := "1100001 00011 sssss ppp fffff 1010011",
    requires64 := true, mask := 0xFFF0007F, value := 0xC2300053,
    fields := [fieldRs1, fieldRm, fieldRd],
    handler := .spec .fcvtLuD }

/-- Row 144, R420. -/
def descFcvtDLu : Descriptor :=
  { mnemonic := "FCVT.D.LU", usage := "fcvt.d.lu f1,t1", description := "convert unsigned 64-bit integer to double",
    format := .r, template := "1101001 00011 sssss ppp fffff 1010011",
    requires64 := true, mask := 0xFFF0007F, value := 0xD2300053,
    fields := [fieldRs1, fieldRm, fieldRd],
    handler := .spec .fcvtDLu }

/-- Row 145, R421. -/
def descFcvtSD : Descriptor :=
  { mnemonic := "FCVT.S.D", usage := "fcvt.s.d f1,f2", description := "convert double to single",
    format := .r, template := "0100000 00001 sssss ppp fffff 1010011",
    requires64 := false, mask := 0xFFF0007F, value := 0x40100053,
    fields := [fieldRs1, fieldRm, fieldRd],
    handler := .spec .fcvtSD }

/-- Row 146, R422. -/
def descFcvtDS : Descriptor :=
  { mnemonic := "FCVT.D.S", usage := "fcvt.d.s f1,f2", description := "convert single to double",
    format := .r, template := "0100001 00000 sssss ppp fffff 1010011",
    requires64 := false, mask := 0xFFF0007F, value := 0x42000053,
    fields := [fieldRs1, fieldRm, fieldRd],
    handler := .spec .fcvtDS }

/-- Row 147, R423. -/
def descFmvXD : Descriptor :=
  { mnemonic := "FMV.X.D", usage := "fmv.x.d t1,f1", description := "move double bits to integer register",
    format := .r, template := "1110001 00000 sssss 000 fffff 1010011",
    requires64 := true, mask := 0xFFF0707F, value := 0xE2000053,
    fields := [fieldRs1, fieldRd],
    handler := .spec .fmvXD }

/-- Row 148, R424. -/
def descFmvDX : Descriptor :=
  { mnemonic := "FMV.D.X", usage := "fmv.d.x f1,t1", description := "move integer register bits to double",
    format := .r, template := "1111001 00000 sssss 000 fffff 1010011",
    requires64 := true, mask := 0xFFF0707F, value := 0xF2000053,
    fields := [fieldRs1, fieldRd],
    handler := .spec .fmvDX }

/-- Row 149, R440. -/
def descFence : Descriptor :=
  { mnemonic := "FENCE", usage := "fence 1,1", description := "memory fence",
    format := .i, template := "mmmm rrrr wwww sssss 000 fffff 0001111",
    requires64 := false, mask := 0x0000707F, value := 0x0000000F,
    fields := [fieldFm, fieldPred, fieldSucc, fieldRs1, fieldRd],
    handler := .spec .fence }

/-- Row 150, R441. -/
def descFenceI : Descriptor :=
  { mnemonic := "FENCE.I", usage := "fence.i", description := "instruction-fetch fence",
    format := .i, template := "iiiiiiiiiiii sssss 001 fffff 0001111",
    requires64 := false, mask := 0x0000707F, value := 0x0000100F,
    fields := [fieldImm12, fieldRs1, fieldRd],
    handler := .spec .fenceI }

/-- Row 151, R442. -/
def descEcall : Descriptor :=
  { mnemonic := "ECALL", usage := "ecall", description := "environment call",
    format := .i, template := "000000000000 00000 000 00000 1110011",
    requires64 := false, mask := 0xFFFFFFFF, value := 0x00000073,
    fields := [],
    handler := .spec .ecall }

/-- Row 152, R443. -/
def descEbreak : Descriptor :=
  { mnemonic := "EBREAK", usage := "ebreak", description := "breakpoint",
    format := .i, template := "000000000001 00000 000 00000 1110011",
    requires64 := false, mask := 0xFFFFFFFF, value := 0x00100073,
    fields := [],
    handler := .spec .ebreak }

/-- Row 153, R446. -/
def descUret : Descriptor :=
  { mnemonic := "URET", usage := "uret", description := "return from user-level trap",
    format := .i, template := "000000000010 00000 000 00000 1110011",
    requires64 := false, mask := 0xFFFFFFFF, value := 0x00200073,
    fields := [],
    handler := .spec .uret }

/-- Row 154, R444. -/
def descWfi : Descriptor :=
  { mnemonic := "WFI", usage := "wfi", description := "wait for interrupt",
    format := .i, template := "000100000101 00000 000 00000 1110011",
    requires64 := false, mask := 0xFFFFFFFF, value := 0x10500073,
    fields := [],
    handler := .spec .wfi }

/-- Row 155, R448. -/
def descCsrrw : Descriptor :=
  { mnemonic := "CSRRW", usage := "csrrw t0,fcsr,t1", description := "atomic read and write CSR",
    format := .i, template := "cccccccccccc sssss 001 fffff 1110011",
    requires64 := false, mask := 0x0000707F, value := 0x00001073,
    fields := [fieldCsr, fieldRs1, fieldRd],
    handler := .spec .csrrw }

/-- Row 156, R449. -/
def descCsrrs : Descriptor :=
  { mnemonic := "CSRRS", usage := "csrrs t0,fcsr,t1", description := "atomic read and set bits in CSR",
    format := .i, template := "cccccccccccc sssss 010 fffff 1110011",
    requires64 := false, mask := 0x0000707F, value := 0x00002073,
    fields := [fieldCsr, fieldRs1, fieldRd],
    handler := .spec .csrrs }

/-- Row 157, R450. -/
def descCsrrc : Descriptor :=
  { mnemonic := "CSRRC", usage := "csrrc t0,fcsr,t1", description := "atomic read and clear bits in CSR",
    format := .i, template := "cccccccccccc sssss 011 fffff 1110011",
    requires64 := false, mask := 0x0000707F, value := 0x00003073,
    fields := [fieldCsr, fieldRs1, fieldRd],
    handler := .spec .csrrc }

/-- Row 158, R451. -/
def descCsrrwi : Descriptor :=
  { mnemonic := "CSRRWI", usage := "csrrwi t0,fcsr,10", description := "atomic read and write CSR, immediate",
    format := .i, template := "cccccccccccc zzzzz 101 fffff 1110011",
    requires64 := false, mask := 0x0000707F, value := 0x00005073,
    fields := [fieldCsr, fieldZimm, fieldRd],
    handler := .spec .csrrwi }

/-- Row 159, R452. -/
def descCsrrsi : Descriptor :=
  { mnemonic := "CSRRSI", usage := "csrrsi t0,fcsr,10", description := "atomic read and set bits in CSR, immediate",
    format := .i, template := "cccccccccccc zzzzz 110 fffff 1110011",
    requires64 := false, mask := 0x0000707F, value := 0x00006073,
    fields := [fieldCsr, fieldZimm, fieldRd],
    handler := .spec .csrrsi }

/-- Row 160, R453. -/
def descCsrrci : Descriptor :=
  { mnemonic := "CSRRCI", usage := "csrrci t0,fcsr,10", description := "atomic read and clear bits in CSR, immediate",
    format := .i, template := "cccccccccccc zzzzz 111 fffff 1110011",
    requires64 := false, mask := 0x0000707F, value := 0x00007073,
    fields := [fieldCsr, fieldZimm, fieldRd],
    handler := .spec .csrrci }

/-- The reference catalog (R22, R111): the 161 rows in the table's order. -/
def refCatalog : Catalog :=
  [descAdd, descSub, descSll, descSlt, descSltu, descXor, descSrl, descSra, descOr, descAnd, descMul, descMulh]
  ++ [descMulhsu, descMulhu, descDiv, descDivu, descRem, descRemu, descAddw, descSubw, descSllw, descSrlw, descSraw, descMulw]
  ++ [descDivw, descDivuw, descRemw, descRemuw, descAddi, descSlti, descSltiu, descXori, descOri, descAndi, descSlli, descSrli]
  ++ [descSrai, descSlliHi, descSrliHi, descSraiHi, descAddiw, descSlliw, descSrliw, descSraiw, descLui, descAuipc, descLb, descLh]
  ++ [descLw, descLbu, descLhu, descLwu, descLd, descSb, descSh, descSw, descSd, descBeq, descBne, descBlt]
  ++ [descBge, descBltu, descBgeu, descJal, descJalr, descLrW, descScW, descAmoswapW, descAmoaddW, descAmoxorW, descAmoandW, descAmoorW]
  ++ [descAmominW, descAmomaxW, descAmominuW, descAmomaxuW, descLrD, descScD, descAmoswapD, descAmoaddD, descAmoxorD, descAmoandD, descAmoorD, descAmominD]
  ++ [descAmomaxD, descAmominuD, descAmomaxuD, descFlw, descFsw, descFmaddS, descFmsubS, descFnmsubS, descFnmaddS, descFaddS, descFsubS, descFmulS]
  ++ [descFdivS, descFsqrtS, descFsgnjS, descFsgnjnS, descFsgnjxS, descFminS, descFmaxS, descFeqS, descFltS, descFleS, descFclassS, descFcvtWS]
  ++ [descFcvtSW, descFcvtWuS, descFcvtSWu, descFcvtLS, descFcvtSL, descFcvtLuS, descFcvtSLu, descFmvXW, descFmvWX, descFld, descFsd, descFmaddD]
  ++ [descFmsubD, descFnmsubD, descFnmaddD, descFaddD, descFsubD, descFmulD, descFdivD, descFsqrtD, descFsgnjD, descFsgnjnD, descFsgnjxD, descFminD]
  ++ [descFmaxD, descFeqD, descFltD, descFleD, descFclassD, descFcvtWD, descFcvtDW, descFcvtWuD, descFcvtDWu, descFcvtLD, descFcvtDL, descFcvtLuD]
  ++ [descFcvtDLu, descFcvtSD, descFcvtDS, descFmvXD, descFmvDX, descFence, descFenceI, descEcall, descEbreak, descUret, descWfi, descCsrrw]
  ++ [descCsrrs, descCsrrc, descCsrrwi, descCsrrsi, descCsrrci]

/-! ### Building a catalog (R21 to R23, R132) -/

/-- Why a catalog is no configuration of this hardware. -/
inductive CatalogError where
  /-- A template is malformed (R132). -/
  | badTemplate (mnemonic : String) (reason : TemplateError)
  /-- A template lacks a field its handler reads, or has it in another width (R142, R158; log 21). -/
  | badOperands (mnemonic : String)
  /-- Two descriptors accept the same word (R23, D27). -/
  | ambiguous
  deriving DecidableEq, Repr

/-- The letters a handler reads, each with the width it reads: those of its row of the opcode table but the ones it
ignores. -/
def Handler.operandWidths (h : Handler) : List (Char × Nat) :=
  match refCatalog[h.ctorIdx]? with
  | some d => (d.fields.filter fun f => !h.ignores.contains f.letter).map fun f => (f.letter, f.positions.length)
  | none => []

/-- Does a field list hold every field the handler reads, in its width? A custom handler takes any operand array. -/
def HandlerName.serves (h : HandlerName) (fields : List Field) : Bool :=
  match h with
  | .spec h => h.operandWidths.all fun lw => fields.any fun f => f.letter == lw.1 && f.positions.length == lw.2
  | .custom _ => true

/-- The mark of R21: among the reference catalog's templates the fields of letter `i` but the 5-bit shift amounts
(R144; log 23). The extractor does not act on it. -/
def marksSigned (letter : Char) (positions : List Nat) : Bool := letter == 'i' && positions.length != 5

/-- The Operand Field list of a template's characters (R21, R141). -/
def fieldList (cs : List Char) : List Field :=
  (scanFields cs []).map fun f => { letter := f.1, positions := f.2, isSignExtended := marksSigned f.1 f.2 }

/-- The descriptor with its derived values computed from the significant characters `cs` of its template (R21), or why
it cannot be built. Its `requires64` is taken as given (R20, R23 set no condition on it): a row that lets a handler of
a 64-bit instruction run in 32-bit mode is built, the model's choice (DESIGN CHOICE, log 13). -/
def Descriptor.compiledFrom (d : Descriptor) (cs : List Char) : Except CatalogError Descriptor :=
  match compileChars cs with
  | .error e => .error (.badTemplate d.mnemonic e)
  | .ok (mask, value) =>
    let fields := fieldList cs
    if d.handler.serves fields then .ok { d with mask := mask, value := value, fields := fields }
    else .error (.badOperands d.mnemonic)

/-- The descriptor with the derived values of its template. -/
def Descriptor.compiled (d : Descriptor) : Except CatalogError Descriptor := d.compiledFrom (significant d.template)

/-- Every descriptor compiled, or the first construction error (R22, R132). -/
def Catalog.compileAll : Catalog → Except CatalogError Catalog
  | [] => .ok []
  | d :: rest =>
    match d.compiled with
    | .error e => .error e
    | .ok d' =>
      match Catalog.compileAll rest with
      | .error e => .error e
      | .ok ds => .ok (d' :: ds)

/-- Does no pair of descriptors overlap? Those enabled in 32-bit mode are a subset, so this covers both modes (R165). -/
def Catalog.noOverlap : Catalog → Bool
  | [] => true
  | d :: rest => (rest.all fun e => !d.overlaps e) && Catalog.noOverlap rest

/-- Build a catalog: its derived values come from its templates, whatever values it held before, and it is refused when a
template is malformed or two descriptors accept one word (R23, R132). A launch builds its catalog. -/
def Catalog.build (c : Catalog) : Except CatalogError Catalog :=
  match c.compileAll with
  | .error e => .error e
  | .ok ds => if ds.noOverlap then .ok ds else .error .ambiguous

/-! ### The block's outputs (R146, R156) -/

/-- `MAXF` (R5): the largest number of fields of any descriptor. -/
def Catalog.maxFields (c : Catalog) : Nat := c.foldr (fun d n => max d.fields.length n) 0

/-- The width of the signal `sel`: `ceil(log2(NDESC))`. -/
def Catalog.selWidth (c : Catalog) : Nat := if c.length ≤ 1 then 0 else (c.length - 1).log2 + 1

/-- The output signals of the decode block (R156). A number stands for a signal: R156 gives `nops` 3 bits, which hold the
count of every catalog with `MAXF` up to 7, as the default has; for a larger `MAXF` the spec gives no width that holds
it, and the model keeps the whole count (DESIGN CHOICE, log 22). -/
structure DecodeOutputs where
  illegal : Bool
  /-- The index of the selected descriptor; `none` while `illegal` is 1, when the signal has "no meaning". -/
  sel : Option Nat
  /-- The number of operands. -/
  nops : Nat
  /-- `operand[0 .. MAXF-1]`, 32 bits each. -/
  operand : List Word
  deriving DecidableEq, Repr

/-- The operand slots: the values of an operand array in `slots` slots of 32 bits, the unused ones zero (R146). -/
def operandSlots : Nat → List Nat → List Word
  | 0, _ => []
  | slots + 1, [] => 0 :: operandSlots slots []
  | slots + 1, v :: vs => BitVec.ofNat 32 v :: operandSlots slots vs

/-- The block as a combinational function of `word` and `m64` (R156). While `illegal` is 1 no operand is extracted and
every slot is unused (log 22). -/
def Catalog.outputs (c : Catalog) (w : Word) (m64 : Bool) : DecodeOutputs :=
  match c.decode w m64 with
  | none => { illegal := true, sel := none, nops := 0, operand := operandSlots c.maxFields [] }
  | some r =>
    { illegal := false, sel := some r.descriptor, nops := r.operands.length,
      operand := operandSlots c.maxFields r.operands }

/-! ### From words and bytes to instructions -/

/-- Why bytes decode to no instruction. -/
inductive DecodeError where
  /-- R153: no enabled descriptor accepts the word. -/
  | illegalInstruction
  /-- The selected descriptor names a custom handler: the word is legal and no `Instr` stands for it (R116; log 24). -/
  | customHandler (n : Nat)
  /-- Fewer than the 4 bytes of an instruction (R92). -/
  | tooShort
  deriving DecidableEq, Repr

/-- `decode` of R150 over a catalog, as the instruction its handler runs. A machine decodes with `Catalog.selectFrom`
(`State.runOne`); this is the same selection without the descriptor index. -/
def Catalog.decodeInstr (c : Catalog) (m64 : Bool) (w : Word) : Except DecodeError Instr :=
  match c.selectFrom m64 w 0 with
  | none => .error .illegalInstruction
  | some (_, d) =>
    match d.handler with
    | .spec h => .ok (h.instr (d.op (d.extract w)))
    | .custom n => .error (.customHandler n)

/-- The same over the reference catalog, the default of the parameter `CATALOG` (R5). -/
def decode (m64 : Bool) (w : Word) : Except DecodeError Instr := refCatalog.decodeInstr m64 w

/-- The word of four bytes, the one at the lowest address first (R62, R80). -/
def wordOfBytes (b0 b1 b2 b3 : Byte) : Word := b3 ++ b2 ++ b1 ++ b0

/-- Decode the instruction at the head of a list of bytes in memory order; the rest of the list comes back. -/
def decodeBytes (m64 : Bool) : List Byte → Except DecodeError (Instr × List Byte)
  | b0 :: b1 :: b2 :: b3 :: rest =>
    match decode m64 (wordOfBytes b0 b1 b2 b3) with
    | .ok i => .ok (i, rest)
    | .error e => .error e
  | _ => .error .tooShort

/-- The four bytes of a word in memory order (R62). -/
def bytesOfWord (w : Word) : List Byte :=
  [w.extractLsb' 0 8, w.extractLsb' 8 8, w.extractLsb' 16 8, w.extractLsb' 24 8]

/-- The instruction whose bits, numbered as spec/opcode_table.json numbers them, are the low `nbits` bits of `w`,
decoded in 64-bit mode, where every row of the table is enabled (R151). -/
def decodeTableWord (nbits w : Nat) : Option Instr :=
  match decodeBytes true (bytesOfWord (BitVec.ofNat 32 (w % 2 ^ nbits))) with
  | .ok (i, _) => some i
  | .error _ => none

/-! ### The encoder -/

/-- The descriptor of an instruction in the reference catalog (R159). -/
def Instr.descriptor : Instr → Descriptor
  | .add _ _ _ => descAdd
  | .sub _ _ _ => descSub
  | .sll _ _ _ => descSll
  | .slt _ _ _ => descSlt
  | .sltu _ _ _ => descSltu
  | .xor _ _ _ => descXor
  | .srl _ _ _ => descSrl
  | .sra _ _ _ => descSra
  | .or _ _ _ => descOr
  | .and _ _ _ => descAnd
  | .mul _ _ _ => descMul
  | .mulh _ _ _ => descMulh
  | .mulhsu _ _ _ => descMulhsu
  | .mulhu _ _ _ => descMulhu
  | .div _ _ _ => descDiv
  | .divu _ _ _ => descDivu
  | .rem _ _ _ => descRem
  | .remu _ _ _ => descRemu
  | .addw _ _ _ => descAddw
  | .subw _ _ _ => descSubw
  | .sllw _ _ _ => descSllw
  | .srlw _ _ _ => descSrlw
  | .sraw _ _ _ => descSraw
  | .mulw _ _ _ => descMulw
  | .divw _ _ _ => descDivw
  | .divuw _ _ _ => descDivuw
  | .remw _ _ _ => descRemw
  | .remuw _ _ _ => descRemuw
  | .addi _ _ _ => descAddi
  | .slti _ _ _ => descSlti
  | .sltiu _ _ _ => descSltiu
  | .xori _ _ _ => descXori
  | .ori _ _ _ => descOri
  | .andi _ _ _ => descAndi
  | .slli _ _ _ => descSlli
  | .srli _ _ _ => descSrli
  | .srai _ _ _ => descSrai
  | .slliHi _ _ _ => descSlliHi
  | .srliHi _ _ _ => descSrliHi
  | .sraiHi _ _ _ => descSraiHi
  | .addiw _ _ _ => descAddiw
  | .slliw _ _ _ => descSlliw
  | .srliw _ _ _ => descSrliw
  | .sraiw _ _ _ => descSraiw
  | .lui _ _ => descLui
  | .auipc _ _ => descAuipc
  | .lb _ _ _ => descLb
  | .lh _ _ _ => descLh
  | .lw _ _ _ => descLw
  | .lbu _ _ _ => descLbu
  | .lhu _ _ _ => descLhu
  | .lwu _ _ _ => descLwu
  | .ld _ _ _ => descLd
  | .sb _ _ _ => descSb
  | .sh _ _ _ => descSh
  | .sw _ _ _ => descSw
  | .sd _ _ _ => descSd
  | .beq _ _ _ => descBeq
  | .bne _ _ _ => descBne
  | .blt _ _ _ => descBlt
  | .bge _ _ _ => descBge
  | .bltu _ _ _ => descBltu
  | .bgeu _ _ _ => descBgeu
  | .jal _ _ => descJal
  | .jalr _ _ _ => descJalr
  | .lrW _ _ _ _ => descLrW
  | .scW _ _ _ _ _ => descScW
  | .amoswapW _ _ _ _ _ => descAmoswapW
  | .amoaddW _ _ _ _ _ => descAmoaddW
  | .amoxorW _ _ _ _ _ => descAmoxorW
  | .amoandW _ _ _ _ _ => descAmoandW
  | .amoorW _ _ _ _ _ => descAmoorW
  | .amominW _ _ _ _ _ => descAmominW
  | .amomaxW _ _ _ _ _ => descAmomaxW
  | .amominuW _ _ _ _ _ => descAmominuW
  | .amomaxuW _ _ _ _ _ => descAmomaxuW
  | .lrD _ _ _ _ => descLrD
  | .scD _ _ _ _ _ => descScD
  | .amoswapD _ _ _ _ _ => descAmoswapD
  | .amoaddD _ _ _ _ _ => descAmoaddD
  | .amoxorD _ _ _ _ _ => descAmoxorD
  | .amoandD _ _ _ _ _ => descAmoandD
  | .amoorD _ _ _ _ _ => descAmoorD
  | .amominD _ _ _ _ _ => descAmominD
  | .amomaxD _ _ _ _ _ => descAmomaxD
  | .amominuD _ _ _ _ _ => descAmominuD
  | .amomaxuD _ _ _ _ _ => descAmomaxuD
  | .flw _ _ _ => descFlw
  | .fsw _ _ _ => descFsw
  | .fmaddS _ _ _ _ _ => descFmaddS
  | .fmsubS _ _ _ _ _ => descFmsubS
  | .fnmsubS _ _ _ _ _ => descFnmsubS
  | .fnmaddS _ _ _ _ _ => descFnmaddS
  | .faddS _ _ _ _ => descFaddS
  | .fsubS _ _ _ _ => descFsubS
  | .fmulS _ _ _ _ => descFmulS
  | .fdivS _ _ _ _ => descFdivS
  | .fsqrtS _ _ _ => descFsqrtS
  | .fsgnjS _ _ _ => descFsgnjS
  | .fsgnjnS _ _ _ => descFsgnjnS
  | .fsgnjxS _ _ _ => descFsgnjxS
  | .fminS _ _ _ => descFminS
  | .fmaxS _ _ _ => descFmaxS
  | .feqS _ _ _ => descFeqS
  | .fltS _ _ _ => descFltS
  | .fleS _ _ _ => descFleS
  | .fclassS _ _ => descFclassS
  | .fcvtWS _ _ _ => descFcvtWS
  | .fcvtSW _ _ _ => descFcvtSW
  | .fcvtWuS _ _ _ => descFcvtWuS
  | .fcvtSWu _ _ _ => descFcvtSWu
  | .fcvtLS _ _ _ => descFcvtLS
  | .fcvtSL _ _ _ => descFcvtSL
  | .fcvtLuS _ _ _ => descFcvtLuS
  | .fcvtSLu _ _ _ => descFcvtSLu
  | .fmvXW _ _ => descFmvXW
  | .fmvWX _ _ => descFmvWX
  | .fld _ _ _ => descFld
  | .fsd _ _ _ => descFsd
  | .fmaddD _ _ _ _ _ => descFmaddD
  | .fmsubD _ _ _ _ _ => descFmsubD
  | .fnmsubD _ _ _ _ _ => descFnmsubD
  | .fnmaddD _ _ _ _ _ => descFnmaddD
  | .faddD _ _ _ _ => descFaddD
  | .fsubD _ _ _ _ => descFsubD
  | .fmulD _ _ _ _ => descFmulD
  | .fdivD _ _ _ _ => descFdivD
  | .fsqrtD _ _ _ => descFsqrtD
  | .fsgnjD _ _ _ => descFsgnjD
  | .fsgnjnD _ _ _ => descFsgnjnD
  | .fsgnjxD _ _ _ => descFsgnjxD
  | .fminD _ _ _ => descFminD
  | .fmaxD _ _ _ => descFmaxD
  | .feqD _ _ _ => descFeqD
  | .fltD _ _ _ => descFltD
  | .fleD _ _ _ => descFleD
  | .fclassD _ _ => descFclassD
  | .fcvtWD _ _ _ => descFcvtWD
  | .fcvtDW _ _ _ => descFcvtDW
  | .fcvtWuD _ _ _ => descFcvtWuD
  | .fcvtDWu _ _ _ => descFcvtDWu
  | .fcvtLD _ _ _ => descFcvtLD
  | .fcvtDL _ _ _ => descFcvtDL
  | .fcvtLuD _ _ _ => descFcvtLuD
  | .fcvtDLu _ _ _ => descFcvtDLu
  | .fcvtSD _ _ _ => descFcvtSD
  | .fcvtDS _ _ _ => descFcvtDS
  | .fmvXD _ _ => descFmvXD
  | .fmvDX _ _ => descFmvDX
  | .fence _ _ _ _ _ => descFence
  | .fenceI _ _ _ => descFenceI
  | .ecall => descEcall
  | .ebreak => descEbreak
  | .uret => descUret
  | .wfi => descWfi
  | .csrrw _ _ _ => descCsrrw
  | .csrrs _ _ _ => descCsrrs
  | .csrrc _ _ _ => descCsrrc
  | .csrrwi _ _ _ => descCsrrwi
  | .csrrsi _ _ _ => descCsrrsi
  | .csrrci _ _ _ => descCsrrci

/-- The operand array of an instruction, in its descriptor's field order (R142). -/
def Instr.operands : Instr → List Nat
  | .add rd rs1 rs2 => [rs2.toNat, rs1.toNat, rd.toNat]
  | .sub rd rs1 rs2 => [rs2.toNat, rs1.toNat, rd.toNat]
  | .sll rd rs1 rs2 => [rs2.toNat, rs1.toNat, rd.toNat]
  | .slt rd rs1 rs2 => [rs2.toNat, rs1.toNat, rd.toNat]
  | .sltu rd rs1 rs2 => [rs2.toNat, rs1.toNat, rd.toNat]
  | .xor rd rs1 rs2 => [rs2.toNat, rs1.toNat, rd.toNat]
  | .srl rd rs1 rs2 => [rs2.toNat, rs1.toNat, rd.toNat]
  | .sra rd rs1 rs2 => [rs2.toNat, rs1.toNat, rd.toNat]
  | .or rd rs1 rs2 => [rs2.toNat, rs1.toNat, rd.toNat]
  | .and rd rs1 rs2 => [rs2.toNat, rs1.toNat, rd.toNat]
  | .mul rd rs1 rs2 => [rs2.toNat, rs1.toNat, rd.toNat]
  | .mulh rd rs1 rs2 => [rs2.toNat, rs1.toNat, rd.toNat]
  | .mulhsu rd rs1 rs2 => [rs2.toNat, rs1.toNat, rd.toNat]
  | .mulhu rd rs1 rs2 => [rs2.toNat, rs1.toNat, rd.toNat]
  | .div rd rs1 rs2 => [rs2.toNat, rs1.toNat, rd.toNat]
  | .divu rd rs1 rs2 => [rs2.toNat, rs1.toNat, rd.toNat]
  | .rem rd rs1 rs2 => [rs2.toNat, rs1.toNat, rd.toNat]
  | .remu rd rs1 rs2 => [rs2.toNat, rs1.toNat, rd.toNat]
  | .addw rd rs1 rs2 => [rs2.toNat, rs1.toNat, rd.toNat]
  | .subw rd rs1 rs2 => [rs2.toNat, rs1.toNat, rd.toNat]
  | .sllw rd rs1 rs2 => [rs2.toNat, rs1.toNat, rd.toNat]
  | .srlw rd rs1 rs2 => [rs2.toNat, rs1.toNat, rd.toNat]
  | .sraw rd rs1 rs2 => [rs2.toNat, rs1.toNat, rd.toNat]
  | .mulw rd rs1 rs2 => [rs2.toNat, rs1.toNat, rd.toNat]
  | .divw rd rs1 rs2 => [rs2.toNat, rs1.toNat, rd.toNat]
  | .divuw rd rs1 rs2 => [rs2.toNat, rs1.toNat, rd.toNat]
  | .remw rd rs1 rs2 => [rs2.toNat, rs1.toNat, rd.toNat]
  | .remuw rd rs1 rs2 => [rs2.toNat, rs1.toNat, rd.toNat]
  | .addi rd rs1 imm => [imm.toNat, rs1.toNat, rd.toNat]
  | .slti rd rs1 imm => [imm.toNat, rs1.toNat, rd.toNat]
  | .sltiu rd rs1 imm => [imm.toNat, rs1.toNat, rd.toNat]
  | .xori rd rs1 imm => [imm.toNat, rs1.toNat, rd.toNat]
  | .ori rd rs1 imm => [imm.toNat, rs1.toNat, rd.toNat]
  | .andi rd rs1 imm => [imm.toNat, rs1.toNat, rd.toNat]
  | .slli rd rs1 shamt => [shamt.toNat, rs1.toNat, rd.toNat]
  | .srli rd rs1 shamt => [shamt.toNat, rs1.toNat, rd.toNat]
  | .srai rd rs1 shamt => [shamt.toNat, rs1.toNat, rd.toNat]
  | .slliHi rd rs1 shamt => [shamt.toNat, rs1.toNat, rd.toNat]
  | .srliHi rd rs1 shamt => [shamt.toNat, rs1.toNat, rd.toNat]
  | .sraiHi rd rs1 shamt => [shamt.toNat, rs1.toNat, rd.toNat]
  | .addiw rd rs1 imm => [imm.toNat, rs1.toNat, rd.toNat]
  | .slliw rd rs1 shamt => [shamt.toNat, rs1.toNat, rd.toNat]
  | .srliw rd rs1 shamt => [shamt.toNat, rs1.toNat, rd.toNat]
  | .sraiw rd rs1 shamt => [shamt.toNat, rs1.toNat, rd.toNat]
  | .lui rd imm => [imm.toNat, rd.toNat]
  | .auipc rd imm => [imm.toNat, rd.toNat]
  | .lb rd rs1 imm => [imm.toNat, rs1.toNat, rd.toNat]
  | .lh rd rs1 imm => [imm.toNat, rs1.toNat, rd.toNat]
  | .lw rd rs1 imm => [imm.toNat, rs1.toNat, rd.toNat]
  | .lbu rd rs1 imm => [imm.toNat, rs1.toNat, rd.toNat]
  | .lhu rd rs1 imm => [imm.toNat, rs1.toNat, rd.toNat]
  | .lwu rd rs1 imm => [imm.toNat, rs1.toNat, rd.toNat]
  | .ld rd rs1 imm => [imm.toNat, rs1.toNat, rd.toNat]
  | .sb rs1 rs2 imm => [imm.toNat, rs2.toNat, rs1.toNat]
  | .sh rs1 rs2 imm => [imm.toNat, rs2.toNat, rs1.toNat]
  | .sw rs1 rs2 imm => [imm.toNat, rs2.toNat, rs1.toNat]
  | .sd rs1 rs2 imm => [imm.toNat, rs2.toNat, rs1.toNat]
  | .beq rs1 rs2 imm => [imm.toNat, rs2.toNat, rs1.toNat]
  | .bne rs1 rs2 imm => [imm.toNat, rs2.toNat, rs1.toNat]
  | .blt rs1 rs2 imm => [imm.toNat, rs2.toNat, rs1.toNat]
  | .bge rs1 rs2 imm => [imm.toNat, rs2.toNat, rs1.toNat]
  | .bltu rs1 rs2 imm => [imm.toNat, rs2.toNat, rs1.toNat]
  | .bgeu rs1 rs2 imm => [imm.toNat, rs2.toNat, rs1.toNat]
  | .jal rd imm => [imm.toNat, rd.toNat]
  | .jalr rd rs1 imm => [imm.toNat, rs1.toNat, rd.toNat]
  | .lrW rd rs1 aq rl => [aq.toNat, rl.toNat, rs1.toNat, rd.toNat]
  | .scW rd rs1 rs2 aq rl => [aq.toNat, rl.toNat, rs2.toNat, rs1.toNat, rd.toNat]
  | .amoswapW rd rs1 rs2 aq rl => [aq.toNat, rl.toNat, rs2.toNat, rs1.toNat, rd.toNat]
  | .amoaddW rd rs1 rs2 aq rl => [aq.toNat, rl.toNat, rs2.toNat, rs1.toNat, rd.toNat]
  | .amoxorW rd rs1 rs2 aq rl => [aq.toNat, rl.toNat, rs2.toNat, rs1.toNat, rd.toNat]
  | .amoandW rd rs1 rs2 aq rl => [aq.toNat, rl.toNat, rs2.toNat, rs1.toNat, rd.toNat]
  | .amoorW rd rs1 rs2 aq rl => [aq.toNat, rl.toNat, rs2.toNat, rs1.toNat, rd.toNat]
  | .amominW rd rs1 rs2 aq rl => [aq.toNat, rl.toNat, rs2.toNat, rs1.toNat, rd.toNat]
  | .amomaxW rd rs1 rs2 aq rl => [aq.toNat, rl.toNat, rs2.toNat, rs1.toNat, rd.toNat]
  | .amominuW rd rs1 rs2 aq rl => [aq.toNat, rl.toNat, rs2.toNat, rs1.toNat, rd.toNat]
  | .amomaxuW rd rs1 rs2 aq rl => [aq.toNat, rl.toNat, rs2.toNat, rs1.toNat, rd.toNat]
  | .lrD rd rs1 aq rl => [aq.toNat, rl.toNat, rs1.toNat, rd.toNat]
  | .scD rd rs1 rs2 aq rl => [aq.toNat, rl.toNat, rs2.toNat, rs1.toNat, rd.toNat]
  | .amoswapD rd rs1 rs2 aq rl => [aq.toNat, rl.toNat, rs2.toNat, rs1.toNat, rd.toNat]
  | .amoaddD rd rs1 rs2 aq rl => [aq.toNat, rl.toNat, rs2.toNat, rs1.toNat, rd.toNat]
  | .amoxorD rd rs1 rs2 aq rl => [aq.toNat, rl.toNat, rs2.toNat, rs1.toNat, rd.toNat]
  | .amoandD rd rs1 rs2 aq rl => [aq.toNat, rl.toNat, rs2.toNat, rs1.toNat, rd.toNat]
  | .amoorD rd rs1 rs2 aq rl => [aq.toNat, rl.toNat, rs2.toNat, rs1.toNat, rd.toNat]
  | .amominD rd rs1 rs2 aq rl => [aq.toNat, rl.toNat, rs2.toNat, rs1.toNat, rd.toNat]
  | .amomaxD rd rs1 rs2 aq rl => [aq.toNat, rl.toNat, rs2.toNat, rs1.toNat, rd.toNat]
  | .amominuD rd rs1 rs2 aq rl => [aq.toNat, rl.toNat, rs2.toNat, rs1.toNat, rd.toNat]
  | .amomaxuD rd rs1 rs2 aq rl => [aq.toNat, rl.toNat, rs2.toNat, rs1.toNat, rd.toNat]
  | .flw rd rs1 imm => [imm.toNat, rs1.toNat, rd.toNat]
  | .fsw rs1 rs2 imm => [imm.toNat, rs2.toNat, rs1.toNat]
  | .fmaddS rd rs1 rs2 rs3 rm => [rs3.toNat, rs2.toNat, rs1.toNat, rm.toNat, rd.toNat]
  | .fmsubS rd rs1 rs2 rs3 rm => [rs3.toNat, rs2.toNat, rs1.toNat, rm.toNat, rd.toNat]
  | .fnmsubS rd rs1 rs2 rs3 rm => [rs3.toNat, rs2.toNat, rs1.toNat, rm.toNat, rd.toNat]
  | .fnmaddS rd rs1 rs2 rs3 rm => [rs3.toNat, rs2.toNat, rs1.toNat, rm.toNat, rd.toNat]
  | .faddS rd rs1 rs2 rm => [rs2.toNat, rs1.toNat, rm.toNat, rd.toNat]
  | .fsubS rd rs1 rs2 rm => [rs2.toNat, rs1.toNat, rm.toNat, rd.toNat]
  | .fmulS rd rs1 rs2 rm => [rs2.toNat, rs1.toNat, rm.toNat, rd.toNat]
  | .fdivS rd rs1 rs2 rm => [rs2.toNat, rs1.toNat, rm.toNat, rd.toNat]
  | .fsqrtS rd rs1 rm => [rs1.toNat, rm.toNat, rd.toNat]
  | .fsgnjS rd rs1 rs2 => [rs2.toNat, rs1.toNat, rd.toNat]
  | .fsgnjnS rd rs1 rs2 => [rs2.toNat, rs1.toNat, rd.toNat]
  | .fsgnjxS rd rs1 rs2 => [rs2.toNat, rs1.toNat, rd.toNat]
  | .fminS rd rs1 rs2 => [rs2.toNat, rs1.toNat, rd.toNat]
  | .fmaxS rd rs1 rs2 => [rs2.toNat, rs1.toNat, rd.toNat]
  | .feqS rd rs1 rs2 => [rs2.toNat, rs1.toNat, rd.toNat]
  | .fltS rd rs1 rs2 => [rs2.toNat, rs1.toNat, rd.toNat]
  | .fleS rd rs1 rs2 => [rs2.toNat, rs1.toNat, rd.toNat]
  | .fclassS rd rs1 => [rs1.toNat, rd.toNat]
  | .fcvtWS rd rs1 rm => [rs1.toNat, rm.toNat, rd.toNat]
  | .fcvtSW rd rs1 rm => [rs1.toNat, rm.toNat, rd.toNat]
  | .fcvtWuS rd rs1 rm => [rs1.toNat, rm.toNat, rd.toNat]
  | .fcvtSWu rd rs1 rm => [rs1.toNat, rm.toNat, rd.toNat]
  | .fcvtLS rd rs1 rm => [rs1.toNat, rm.toNat, rd.toNat]
  | .fcvtSL rd rs1 rm => [rs1.toNat, rm.toNat, rd.toNat]
  | .fcvtLuS rd rs1 rm => [rs1.toNat, rm.toNat, rd.toNat]
  | .fcvtSLu rd rs1 rm => [rs1.toNat, rm.toNat, rd.toNat]
  | .fmvXW rd rs1 => [rs1.toNat, rd.toNat]
  | .fmvWX rd rs1 => [rs1.toNat, rd.toNat]
  | .fld rd rs1 imm => [imm.toNat, rs1.toNat, rd.toNat]
  | .fsd rs1 rs2 imm => [imm.toNat, rs2.toNat, rs1.toNat]
  | .fmaddD rd rs1 rs2 rs3 rm => [rs3.toNat, rs2.toNat, rs1.toNat, rm.toNat, rd.toNat]
  | .fmsubD rd rs1 rs2 rs3 rm => [rs3.toNat, rs2.toNat, rs1.toNat, rm.toNat, rd.toNat]
  | .fnmsubD rd rs1 rs2 rs3 rm => [rs3.toNat, rs2.toNat, rs1.toNat, rm.toNat, rd.toNat]
  | .fnmaddD rd rs1 rs2 rs3 rm => [rs3.toNat, rs2.toNat, rs1.toNat, rm.toNat, rd.toNat]
  | .faddD rd rs1 rs2 rm => [rs2.toNat, rs1.toNat, rm.toNat, rd.toNat]
  | .fsubD rd rs1 rs2 rm => [rs2.toNat, rs1.toNat, rm.toNat, rd.toNat]
  | .fmulD rd rs1 rs2 rm => [rs2.toNat, rs1.toNat, rm.toNat, rd.toNat]
  | .fdivD rd rs1 rs2 rm => [rs2.toNat, rs1.toNat, rm.toNat, rd.toNat]
  | .fsqrtD rd rs1 rm => [rs1.toNat, rm.toNat, rd.toNat]
  | .fsgnjD rd rs1 rs2 => [rs2.toNat, rs1.toNat, rd.toNat]
  | .fsgnjnD rd rs1 rs2 => [rs2.toNat, rs1.toNat, rd.toNat]
  | .fsgnjxD rd rs1 rs2 => [rs2.toNat, rs1.toNat, rd.toNat]
  | .fminD rd rs1 rs2 => [rs2.toNat, rs1.toNat, rd.toNat]
  | .fmaxD rd rs1 rs2 => [rs2.toNat, rs1.toNat, rd.toNat]
  | .feqD rd rs1 rs2 => [rs2.toNat, rs1.toNat, rd.toNat]
  | .fltD rd rs1 rs2 => [rs2.toNat, rs1.toNat, rd.toNat]
  | .fleD rd rs1 rs2 => [rs2.toNat, rs1.toNat, rd.toNat]
  | .fclassD rd rs1 => [rs1.toNat, rd.toNat]
  | .fcvtWD rd rs1 rm => [rs1.toNat, rm.toNat, rd.toNat]
  | .fcvtDW rd rs1 rm => [rs1.toNat, rm.toNat, rd.toNat]
  | .fcvtWuD rd rs1 rm => [rs1.toNat, rm.toNat, rd.toNat]
  | .fcvtDWu rd rs1 rm => [rs1.toNat, rm.toNat, rd.toNat]
  | .fcvtLD rd rs1 rm => [rs1.toNat, rm.toNat, rd.toNat]
  | .fcvtDL rd rs1 rm => [rs1.toNat, rm.toNat, rd.toNat]
  | .fcvtLuD rd rs1 rm => [rs1.toNat, rm.toNat, rd.toNat]
  | .fcvtDLu rd rs1 rm => [rs1.toNat, rm.toNat, rd.toNat]
  | .fcvtSD rd rs1 rm => [rs1.toNat, rm.toNat, rd.toNat]
  | .fcvtDS rd rs1 rm => [rs1.toNat, rm.toNat, rd.toNat]
  | .fmvXD rd rs1 => [rs1.toNat, rd.toNat]
  | .fmvDX rd rs1 => [rs1.toNat, rd.toNat]
  | .fence rd rs1 fm pred succ => [fm.toNat, pred.toNat, succ.toNat, rs1.toNat, rd.toNat]
  | .fenceI rd rs1 imm => [imm.toNat, rs1.toNat, rd.toNat]
  | .ecall => []
  | .ebreak => []
  | .uret => []
  | .wfi => []
  | .csrrw rd csr rs1 => [csr.toNat, rs1.toNat, rd.toNat]
  | .csrrs rd csr rs1 => [csr.toNat, rs1.toNat, rd.toNat]
  | .csrrc rd csr rs1 => [csr.toNat, rs1.toNat, rd.toNat]
  | .csrrwi rd csr zimm => [csr.toNat, zimm.toNat, rd.toNat]
  | .csrrsi rd csr zimm => [csr.toNat, zimm.toNat, rd.toNat]
  | .csrrci rd csr zimm => [csr.toNat, zimm.toNat, rd.toNat]

/-- The place of an instruction's descriptor in the catalog: the constructors stand in the catalog's order. -/
def Instr.index (i : Instr) : Nat := i.ctorIdx

/-- The word of an instruction: its descriptor's fixed bits with its operands at the field positions. -/
def encode (i : Instr) : Word := i.descriptor.assemble i.operands

/-- The bytes of an instruction in memory order. -/
def encodeBytes (i : Instr) : List Byte := bytesOfWord (encode i)

end Sys2Proof
end

