-- ==== Sys2Proof/Config.lean ====
section
/-! DEFINITION. The parameters of 00_scope.md R5: what a launch fixes before the first step. -/

namespace Sys2Proof

/-- The hart identifier of R25: the document's sentinel, or one of several harts. -/
inductive HartId where
  /-- "The single active context" of a single-hart run. -/
  | default
  /-- Hart `i` of a multi-hart run. -/
  | hart (i : Nat)
  deriving DecidableEq, Repr

/-- The kinds of access `MEM_VALID` and AddressError distinguish (R61, R68). -/
inductive AccessKind where
  | load
  | store
  | fetch
  deriving DecidableEq, Repr

/-- One run of existing addresses, `base` to `base + size - 1`, with the accesses it permits. The OPEN
predicate `MEM_VALID` (R61) is a list of these (log 3). -/
structure Region where
  base : Nat
  size : Nat
  load : Bool
  store : Bool
  fetch : Bool
  deriving DecidableEq, Repr

/-- A control register added through the parameter `CSR_SET` (R41): its address, name, width, write mask
and reset value. -/
structure CsrSpec where
  addr : CsrAddr
  name : String
  width : Nat
  mask : DWord
  reset : DWord
  deriving DecidableEq, Repr

/-- The two kinds of run R25 admits, with the `RESET_PC` of each hart (R493): a single hart named
`Default`, or harts `Hart(0)`, `Hart(1)`, … . -/
inductive HartPlan where
  | single (pc : DWord)
  | multi (pcs : List DWord)
  deriving DecidableEq, Repr

/-- The launch state (R5, R46, R493): everything the host fixes before the first step. -/
structure Launch where
  /-- `M64`, fixed for a run (D3). -/
  m64 : Bool
  /-- `CATALOG` (R5, R22), as its descriptors are given; a launch builds it (`Catalog.build`). -/
  catalog : Catalog
  /-- `NUM_HARTS` and every `RESET_PC`. -/
  harts : HartPlan
  /-- `MEM_VALID`. -/
  regions : List Region
  /-- The memory image, as bytes to place. -/
  image : List (Nat × Byte)
  /-- `CSR_SET`. -/
  csrSet : List CsrSpec
  deriving DecidableEq, Repr

/-- `SC_FAIL` (R5, D14): what a failing `SC` writes to its destination. -/
def scFail : DWord := 1

/-- What a byte that nothing has written reads as. DESIGN CHOICE (log 5, unsafe): the spec leaves memory
after reset to the launch (R44, R46). -/
def unlistedByte : Byte := 0

/-- The whole address space, every access permitted. DESIGN CHOICE (log 4, unsafe): `MEM_VALID` is OPEN. -/
def wholeSpace : Region :=
  { base := 0, size := 2 ^ 64, load := true, store := true, fetch := true }

/-- The launch behind `State.reset`. The catalog is the spec's own default (R5). Every other value is a DESIGN CHOICE for an OPEN parameter (logs 1, 2, 4, 5, 6):
64-bit mode, so that every catalog row is enabled; one hart `Default` at pc 0; every address valid. -/
def Launch.default : Launch :=
  { m64 := true, catalog := refCatalog, harts := .single 0, regions := [wholeSpace], image := [], csrSet := [] }

end Sys2Proof
end

