-- ==== Sys2Proof/Machine/State.lean ====
section
/-! DEFINITION. The state of the machine as plain data (10_state.md), its faults and refusals, and reset. -/

namespace Sys2Proof.Machine

/-- The width of a Reservation Record: word or double-word (R42). -/
inductive ResWidth where
  | word
  | double
  deriving DecidableEq, Repr

/-- A valid Reservation Record (R42). A record that is not valid is no record: its other fields "have no
meaning". -/
structure Reservation where
  addr : DWord
  width : ResWidth
  deriving DecidableEq, Repr

/-- The non-error signals a step can return to the host (R460, R465, R466). -/
inductive Signal where
  | breakpoint
  | environmentCall
  deriving DecidableEq, Repr

/-- A control register of `CSR_SET` with its contents (R41). -/
structure ExtraCsr where
  spec : CsrSpec
  value : DWord
  deriving DecidableEq, Repr

/-- One Execution Context (R24). -/
structure Hart where
  /-- The identifier the hart's statements carry (R25). -/
  id : HartId
  /-- The integer registers as stored (R26); slot 0 is never written (R29). -/
  x : Vector DWord 32
  /-- The floating-point registers (R32). -/
  f : Vector DWord 32
  /-- The program counter (R30), an `XLEN`-bit value. -/
  pc : DWord
  /-- R36: bit 0 NX, 1 UF, 2 OF, 3 DZ, 4 NV. -/
  fflags : BitVec 5
  /-- R37: all eight values can be stored. -/
  frm : BitVec 3
  /-- R39: bit 0 UIE, bit 4 UPIE, the rest 0. -/
  ustatus : DWord
  /-- R40: bit 0 is 0. -/
  uepc : DWord
  /-- The control registers of `CSR_SET` (R41). -/
  extra : List ExtraCsr
  /-- The Reservation Record (R42), `none` when it is not valid. -/
  res : Option Reservation
  /-- The signal the hart's last step returned and the host has not yet answered (R474; log 8). -/
  signal : Option Signal
  deriving DecidableEq, Repr

/-- The memory (R44, R60): its bytes by address. Addresses rise strictly and no cell holds `unlistedByte`
(`Memory.wf`), so equal memories are equal data. -/
structure Memory where
  cells : List Host.Cell
  deriving DecidableEq, Repr

/-- A move of the host (R161, R474, R481; log 9). -/
inductive HostMove where
  /-- Step this hart. -/
  | step (h : HartId)
  /-- Answer this hart's signal by `pc <- pc + 4`. -/
  | resume (h : HartId)
  deriving DecidableEq, Repr

/-- The machine: the launch parameters a step reads, the harts, the memory and the host's coming moves. -/
structure State where
  /-- `M64`: the width mode, constant during a run (R490; log 1). -/
  m64 : Bool
  /-- `CATALOG`, built: the read-only Dispatch Table every step decodes over (R22; log 19), constant during a run. -/
  catalog : Catalog
  /-- `MEM_VALID` (R61; log 3), constant during a run. -/
  regions : List Region
  /-- The hart that steps next. -/
  running : Hart
  /-- The other harts (R480; log 20). -/
  parked : List Hart
  /-- The one memory all harts share (R44). -/
  mem : Memory
  /-- The host's coming moves, oldest first (log 9). With none left the running hart steps on. -/
  moves : List HostMove
  deriving DecidableEq, Repr

/-- The decoded statement of R157, which a handler receives and a failing handler's outcome carries: "the triple
(descriptor index, operand array, hart identifier)". -/
structure Statement where
  descriptor : Nat
  operands : List Nat
  hart : HartId
  deriving DecidableEq, Repr

/-- The `Err` outcomes of a step (R460). After any of them the machine is as it was before the step (R461,
R471), so a fault carries no state. -/
inductive Fault where
  /-- `Err(IllegalInstruction)` (R462): raised by the decode of a step and by nothing else, with the word and its
  address. The spec's own outcome: safe. -/
  | illegalInstruction (word : Word) (addr : DWord)
  /-- `Err(AddressError)` (R463): raised by the fetch (no statement), by loads, `LR` and the read of an AMO (kind
  Load), by stores, a succeeding `SC` and the write of an AMO (kind Store). The spec's own outcome: safe. -/
  | addressError (kind : AccessKind) (addr : DWord) (statement : Option Statement)
  /-- `Err(InvalidRoundingMode)` (R464): raised by the 36 instructions with a rounding-mode field. The spec's own
  outcome: safe. -/
  | invalidRoundingMode (statement : Statement)
  deriving DecidableEq, Repr

/-- What the model gives no meaning to. -/
inductive Refusal where
  /-- An instruction whose arm of `exec` has no meaning yet. No arm answers with it. Safe. -/
  | notModelled (mnemonic : String)
  /-- `Refused(UnknownCsr c)` (R447): raised by the CSR instructions, and by a custom handler's CSR write (log 24),
  at an address that names no register. The spec's own refusal: safe. -/
  | unknownCsr (c : CsrAddr)
  /-- A host move that names no hart of the machine (R25; log 11): raised by `step`. Safe. -/
  | noSuchHart (h : HartId)
  /-- A resume of a hart that has returned no signal (R474; log 11): raised by `step`. Safe. -/
  | nothingToResume (h : HartId)
  deriving DecidableEq, Repr

/-- The outcome of a step. -/
abbrev Result := Host.Outcome State Fault Refusal

/-- A hart after reset (R46, R492), at a given pc. The zeros are the spec's decision D20 (log 7). -/
def Hart.atReset (id : HartId) (pc : DWord) (extra : List ExtraCsr) : Hart :=
  { id := id
    x := Vector.replicate 32 0
    f := Vector.replicate 32 0
    pc := pc
    fflags := 0
    frm := 0
    ustatus := 0
    uepc := 0
    extra := extra
    res := none
    signal := none }

/-- The machine right after reset under the default launch (`Launch.default`): the reference catalog, 64-bit mode,
one hart `Default` at pc 0, every address valid, nothing in memory (DESIGN CHOICE for the OPEN parameters, logs 1, 2, 4,
5, 6). -/
def State.reset : State :=
  { m64 := true
    catalog := refCatalog
    regions := [wholeSpace]
    running := Hart.atReset .default 0 []
    parked := []
    mem := { cells := [] }
    moves := [] }

end Sys2Proof.Machine
end

