-- ==== Sys2Proof/Machine/Ops.lean ====
section
/-! DEFINITION. The named operations over registers, memory, reservations, control registers and harts
(10_state.md, 20_memory.md, 49_system.md R445 to R454, 60_exceptions.md). -/

namespace Sys2Proof.Machine

/-! ### Widths (R7, R27, R28) -/

/-- `trunc_32`. -/
def low32 (v : DWord) : Word := v.setWidth 32

/-- `sext_64` of a 32-bit value. -/
def sext64 (v : Word) : DWord := v.signExtend 64

/-- `zext_64` of a 32-bit value. -/
def zext64 (v : Word) : DWord := v.setWidth 64

/-- The value modulo 2^XLEN (log 16). -/
def toXlen (m64 : Bool) (v : DWord) : DWord := if m64 then v else zext64 (low32 v)

/-- `XLEN` (R5). -/
def xlen (m64 : Bool) : Nat := if m64 then 64 else 32

/-! ### Integer registers (R26 to R29) -/

/-- The stored 64 bits of a register; `x0` is zero (R29). -/
def Hart.stored (h : Hart) (r : Reg) : DWord := if r = 0 then 0 else h.x[r.toNat]

/-- The stored 64 bits of a register of the running hart: `stored64(x, r)` (R263). -/
def State.stored (s : State) (r : Reg) : DWord := s.running.stored r

/-- `x[r]` read as an `XLEN`-bit value (R27). -/
def State.readX (s : State) (r : Reg) : DWord := toXlen s.m64 (s.stored r)

/-- `xw[r]`: the low 32 bits (R27). -/
def State.readXw (s : State) (r : Reg) : Word := low32 (s.stored r)

/-- `x[r] <- v`: an `XLEN`-bit value is stored sign-extended to 64 bits (R28); a write to `x0` is discarded (R29). -/
def State.writeX (s : State) (r : Reg) (v : DWord) : State :=
  let stored := if s.m64 then v else sext64 (low32 v)
  { s with
    running := { s.running with
      x := if r = 0 then s.running.x else s.running.x.set r.toNat stored r.isLt } }

/-! ### Floating-point registers (R32 to R34) -/

/-- The canonical single-precision NaN, which an unboxed register reads as (R33). -/
def unboxedNaN : Word := 0x7FC00000

/-- `f[r]`. -/
def State.readF (s : State) (r : Reg) : DWord := s.running.f[r.toNat]

/-- `fs[r]`: the NaN-boxed single, or the canonical NaN (R33). -/
def State.readFs (s : State) (r : Reg) : Word :=
  if (s.readF r).extractLsb' 32 32 = 0xFFFFFFFF#32 then low32 (s.readF r) else unboxedNaN

/-- `f[r] <- v`. -/
def State.writeF (s : State) (r : Reg) (v : DWord) : State :=
  { s with running := { s.running with f := s.running.f.set r.toNat v r.isLt } }

/-- `fs[r] <- v`: boxed (R34). -/
def State.writeFs (s : State) (r : Reg) (v : Word) : State := s.writeF r (0xFFFFFFFF#32 ++ v)

/-! ### The program counter (R30) -/

/-- `pc <- t` modulo 2^XLEN; the alignment is not checked (R30, R283). -/
def State.setPc (s : State) (t : DWord) : State :=
  { s with running := { s.running with pc := toXlen s.m64 t } }

/-- The address of the next instruction (R162). -/
def State.nextPc (s : State) : DWord := toXlen s.m64 (s.running.pc + 4)

/-- The default step of the pc (R162). -/
def State.advance (s : State) : State := s.setPc (s.running.pc + 4)

/-! ### Memory (R60 to R64) -/

/-- Addresses rise strictly and no cell holds what an unlisted address reads as. -/
abbrev Memory.wf (m : Memory) : Prop :=
  m.cells.Pairwise (fun a b => a.1 < b.1) ∧ ∀ c ∈ m.cells, c.2 ≠ unlistedByte

/-- The byte at `a` among these cells. -/
def readCells (a : Nat) : List Host.Cell → Byte
  | [] => unlistedByte
  | (b, v) :: rest => if a = b then v else readCells a rest

/-- The cells with the byte at `a` set to `v`, in canonical form. -/
def writeCells (a : Nat) (v : Byte) : List Host.Cell → List Host.Cell
  | [] => if v = unlistedByte then [] else [(a, v)]
  | (b, w) :: rest =>
    if a < b then (if v = unlistedByte then (b, w) :: rest else (a, v) :: (b, w) :: rest)
    else if a = b then (if v = unlistedByte then rest else (a, v) :: rest)
    else (b, w) :: writeCells a v rest

/-- `byte[a]`. -/
def Memory.read (m : Memory) (a : Nat) : Byte := readCells a m.cells

/-- `byte[a] <- v`. -/
def Memory.write (m : Memory) (a : Nat) (v : Byte) : Memory := { cells := writeCells a v m.cells }

/-- The little-endian value of `n` bytes from `a` up (R62). -/
def Memory.readLe (m : Memory) (a : Nat) : Nat → Nat
  | 0 => 0
  | n + 1 => (m.read a).toNat + 256 * m.readLe (a + 1) n

/-- Store the low `n` bytes of `v` from `a` up, the least significant first (R62). -/
def Memory.writeLe (m : Memory) (a : Nat) : Nat → Nat → Memory
  | 0, _ => m
  | n + 1, v => (m.write a (BitVec.ofNat 8 v)).writeLe (a + 1) n (v / 256)

/-- Does the region permit this kind of access? -/
def regionPermits (r : Region) : AccessKind → Bool
  | .load => r.load
  | .store => r.store
  | .fetch => r.fetch

/-- Does the byte at `a` lie in the region, and may it be accessed in this way? -/
def regionHolds (r : Region) (kind : AccessKind) (a : Nat) : Bool :=
  regionPermits r kind && decide (r.base ≤ a) && decide (a < r.base + r.size)

/-- `MEM_VALID(kind, a, n)` (R61): all `n` bytes exist and may be accessed in this way; a range that passes the top
of the address space does not (R70; log 3). -/
def State.memValid (s : State) (kind : AccessKind) (a n : Nat) : Bool :=
  decide (a + n ≤ 2 ^ xlen s.m64) && (List.range n).all fun k => s.regions.any fun r => regionHolds r kind (a + k)

/-- The check of every access: natural alignment (R63) and range (R64). -/
def State.accessOk (s : State) (kind : AccessKind) (a : DWord) (n : Nat) : Bool :=
  decide (a.toNat % n = 0) && s.memValid kind a.toNat n

/-- The value `MemRead(a, n)` returns once its check has passed (R66). -/
def State.readMem (s : State) (a : DWord) (n : Nat) : BitVec (8 * n) :=
  BitVec.ofNat _ (s.mem.readLe a.toNat n)

/-! ### Reservations (R42, R69, R70) -/

/-- The width of a record in bytes. -/
def ResWidth.bytes : ResWidth → Nat
  | .word => 4
  | .double => 8

/-- `overlap(a, n, b, m)` of R70, on natural numbers. -/
def overlap (a n b m : Nat) : Bool := decide (a < b + m) && decide (b < a + n)

/-- What a record becomes when `n` bytes are written at `a`: it is cleared if it overlaps them (R67, R69). -/
def surviving (a n : Nat) : Option Reservation → Option Reservation
  | none => none
  | some r => if overlap a n r.addr.toNat r.width.bytes then none else some r

/-- The hart after `n` bytes were written at `a`, by any hart (R69). -/
def Hart.invalidate (a n : Nat) (h : Hart) : Hart := { h with res := surviving a n h.res }

/-- The effect of `MemWrite(a, n, v)` once its check has passed (R67): the bytes, and the overlapping reservations of
every hart, the writer's own included. -/
def State.writeMem (s : State) (a : DWord) (n : Nat) (v : BitVec (8 * n)) : State :=
  { s with
    mem := s.mem.writeLe a.toNat n v.toNat
    running := s.running.invalidate a.toNat n
    parked := s.parked.map (Hart.invalidate a.toNat n) }

/-- `covers(res, ea, n)` of R305: containment, on natural numbers. -/
def Reservation.covers (r : Reservation) (ea : DWord) (n : Nat) : Bool :=
  decide (r.addr.toNat ≤ ea.toNat) && decide (ea.toNat + n ≤ r.addr.toNat + r.width.bytes)

/-- `res[h] <- …` for the running hart (R303, R304). -/
def State.setRes (s : State) (r : Option Reservation) : State :=
  { s with running := { s.running with res := r } }

/-! ### Control and status registers (R35 to R41, R445 to R454) -/

/-- `ustatus`, `fflags`, `frm`, `fcsr`, `uepc` (R454). -/
def csrUstatus : CsrAddr := 0x000
def csrFflags : CsrAddr := 0x001
def csrFrm : CsrAddr := 0x002
def csrFcsr : CsrAddr := 0x003
def csrUepc : CsrAddr := 0x041

/-- The low `width` bits. -/
def keepLow (width : Nat) (v : DWord) : DWord := v &&& BitVec.ofNat 64 (2 ^ width - 1)

/-- The value of the `CSR_SET` register at an address (R41). -/
def readExtra (c : CsrAddr) : List ExtraCsr → Option DWord
  | [] => none
  | e :: rest => if e.spec.addr = c then some (keepLow e.spec.width e.value) else readExtra c rest

/-- Write the `CSR_SET` register at an address through its mask; the bits outside keep their value (log 14). -/
def writeExtra (c : CsrAddr) (v : DWord) : List ExtraCsr → List ExtraCsr
  | [] => []
  | e :: rest =>
    if e.spec.addr = c then
      { e with value := keepLow e.spec.width ((e.value &&& ~~~e.spec.mask) ||| (v &&& e.spec.mask)) } :: rest
    else e :: writeExtra c v rest

/-- `csr[ustatus]`: every bit but `UIE` and `UPIE` reads as zero (R39). -/
def State.readUstatus (s : State) : DWord := s.running.ustatus &&& 0x11

/-- `csr[uepc]`: `XLEN` bits, bit 0 reads as zero (R40). -/
def State.readUepc (s : State) : DWord := toXlen s.m64 s.running.uepc &&& ~~~1

/-- `csr_read(c)`, zero-extended to `XLEN` (R445); `none` when the address names no register (R447). -/
def State.csrRead (s : State) (c : CsrAddr) : Option DWord :=
  if c = csrUstatus then some s.readUstatus
  else if c = csrFflags then some (s.running.fflags.setWidth 64)
  else if c = csrFrm then some (s.running.frm.setWidth 64)
  else if c = csrFcsr then some ((s.running.frm ++ s.running.fflags).setWidth 64)
  else if c = csrUepc then some s.readUepc
  else (readExtra c s.running.extra).map (toXlen s.m64)

/-- `csr_write(c, v)` through the write masks of R454. -/
def State.csrWrite (s : State) (c : CsrAddr) (v : DWord) : State :=
  let h := s.running
  let named := c = csrUstatus ∨ c = csrFflags ∨ c = csrFrm ∨ c = csrFcsr ∨ c = csrUepc
  { s with
    running := { h with
      ustatus := if c = csrUstatus then v &&& 0x11 else h.ustatus
      fflags := if c = csrFflags ∨ c = csrFcsr then v.setWidth 5 else h.fflags
      frm := if c = csrFrm then v.setWidth 3 else if c = csrFcsr then v.extractLsb' 5 3 else h.frm
      uepc := if c = csrUepc then toXlen s.m64 v &&& ~~~1 else h.uepc
      extra := if named then h.extra else writeExtra c (toXlen s.m64 v) h.extra } }

/-! ### Outcomes other than Ok, and the return from a trap (60_exceptions.md) -/

/-- The statement of an instruction of the reference catalog, for the running hart (R157). A step puts the statement it
decoded in its place (`carrying`; log 12). -/
def State.statement (s : State) (i : Instr) : Statement :=
  { descriptor := i.index, operands := i.operands, hart := s.running.id }

/-- The error outcome with this statement in the place of the one it carries. -/
def Fault.carrying (st : Statement) : Fault → Fault
  | .illegalInstruction w a => .illegalInstruction w a
  | .addressError k a none => .addressError k a none
  | .addressError k a (some _) => .addressError k a (some st)
  | .invalidRoundingMode _ => .invalidRoundingMode st

/-- The outcome of a handler with the statement the handler received (R157). -/
def carrying (st : Statement) : Result → Result
  | .next t => .next t
  | .fault f => .fault (f.carrying st)
  | .refused r => .refused r

/-- `raise E` (R461): the step ends with the error outcome; nothing has been written, the pc included (R471). The
machine has no trap entry to take: no register saves the pc or the status, and no vector exists (R470). -/
def raise (e : Fault) : Result := .fault e

/-- Return a signal to the host (R442, R443): no state change and the pc stays; the signal stands in the hart until
the host answers it (log 8). -/
def State.signalHost (s : State) (sig : Signal) : State :=
  { s with running := { s.running with signal := some sig } }

/-- The return from a user-level trap (R446, R472): `UIE <- UPIE`, `UPIE <- 1`, the other bits of `ustatus` stay,
`pc <- uepc`. -/
def State.trapReturn (s : State) : State :=
  let old := s.running.ustatus
  let uie := if old.getLsbD 4 then 1#64 else 0#64
  { s with
    running := { s.running with
      ustatus := (old &&& ~~~0x11) ||| 0x10 ||| uie
      pc := s.readUepc } }

/-! ### The host's moves (R161, R474, R481) -/

/-- Take the hart `h` out of a list of harts and leave `other` in its place. -/
def swapHart (h : HartId) (other : Hart) : List Hart → Option (Hart × List Hart)
  | [] => none
  | p :: ps =>
    if p.id = h then some (p, other :: ps)
    else (swapHart h other ps).map fun r => (r.1, p :: r.2)

/-- Make hart `h` the running one; `none` when the machine has no such hart. -/
def State.select (s : State) (h : HartId) : Option State :=
  if s.running.id = h then some s
  else (swapHart h s.running s.parked).map fun r => { s with running := r.1, parked := r.2 }

/-- The host answers the pending signal of the running hart (R474): `pc <- (pc + 4) mod 2^XLEN`. -/
def State.resume (s : State) : State :=
  { s.advance with running := { s.advance.running with signal := none } }

/-- The host steps the running hart without having resumed it: a signal it returned before is over. -/
def State.beginStep (s : State) : State :=
  { s with running := { s.running with signal := none } }

/-! ### Instruction fetch (R80, R162) -/

/-- The word at the pc, or the fetch's AddressError. -/
def State.fetch (s : State) : Except Fault Word :=
  if s.accessOk .fetch s.running.pc 4 then .ok (s.readMem s.running.pc 4)
  else .error (.addressError .fetch s.running.pc none)

end Sys2Proof.Machine
end

