-- ==== Sys2Proof/Machine/Flags.lean ====
section
/-! DEFINITION. The five floating-point exception flags (R36, R343) and their accrual. The machine has no other
flags (R31). -/

namespace Sys2Proof.Machine

/-- Five flag bits, in the positions of `fflags` (R36). -/
abbrev Flags := BitVec 5

/-- Inexact, bit 0. -/
def flagNX : Flags := 0b00001
/-- Underflow, bit 1. -/
def flagUF : Flags := 0b00010
/-- Overflow, bit 2. -/
def flagOF : Flags := 0b00100
/-- Divide by zero, bit 3. -/
def flagDZ : Flags := 0b01000
/-- Invalid, bit 4. -/
def flagNV : Flags := 0b10000
/-- No flag. -/
def noFlags : Flags := 0

/-- The flags `fl` when the condition holds. -/
def flagIf (c : Bool) (fl : Flags) : Flags := if c then fl else noFlags

/-- `csr[fflags] <- csr[fflags] | fl` (R343): sticky, of the executing hart only. -/
def State.accrue (s : State) (fl : Flags) : State :=
  { s with running := { s.running with fflags := s.running.fflags ||| fl } }

end Sys2Proof.Machine
end

