-- ==== Sys2Proof/Machine/Custom.lean ====
section
/-! DEFINITION. Custom Semantic Handlers (30_encoding.md R116, 42_dispatch.md R159). The spec lets a configuration add
descriptors and describes no handler of theirs: what one computes is a free function of the state and the statement.
What the spec says of every handler holds of it: its outcomes (R160), the checks before the first write (R461), the step
of the pc (R162), and that it acts on its own hart and on memory (R159, R480). Log 24. -/

namespace Sys2Proof.Machine

/-- One write of a handler to its context: "register file, memory, CSR file, reservation table" (R159). -/
inductive HandlerWrite where
  /-- `x[r] <- v`. -/
  | x (r : Reg) (v : DWord)
  /-- `f[r] <- v`. -/
  | f (r : Reg) (v : DWord)
  /-- `pc <- t`. -/
  | pc (t : DWord)
  /-- `fflags` accrued (R342). -/
  | flags (fl : Flags)
  /-- `csr_write(c, v)` (R445). -/
  | csr (c : CsrAddr) (v : DWord)
  /-- `MemWrite(a, n, v)` of `n = 2^k` bytes (R67, R71). -/
  | mem (a : DWord) (k : Fin 4) (v : DWord)
  /-- The reservation `LR` makes (R303). -/
  | reserve (w : ResWidth) (a : DWord)
  /-- The reservation cleared. -/
  | clearRes
  deriving DecidableEq, Repr

/-- What a custom handler answers (R160). IllegalInstruction is no answer of a handler. -/
inductive HandlerOutcome where
  /-- `Ok`: its writes, in order. -/
  | ok (writes : List HandlerWrite)
  /-- `Err(AddressError)` of kind Load. -/
  | loadError (addr : DWord)
  /-- `Err(AddressError)` of kind Store. -/
  | storeError (addr : DWord)
  /-- `Err(InvalidRoundingMode)`. -/
  | invalidRoundingMode
  /-- `Breakpoint` or `EnvironmentCall`. -/
  | signal (g : Signal)
  deriving DecidableEq, Repr, Inhabited

/-- The custom handlers of a configuration, "a function from (state, statement) to (state, outcome)" each (R159). A FREE
VALUE: the spec gives no rule for one, so nothing is assumed of it (log 24). -/
opaque customHandler (n : Nat) (s : State) (st : Statement) : HandlerOutcome

/-- What a write stops with before anything is written: an access that fails its check (R63, R64), or a control register
that does not exist (R447). -/
def HandlerWrite.stop (s : State) (st : Statement) : HandlerWrite → Option Result
  | .mem a k _ => if s.accessOk .store a (2 ^ k.val) then none else some (raise (.addressError .store a (some st)))
  | .reserve w a => if s.accessOk .load a w.bytes then none else some (raise (.addressError .load a (some st)))
  | .csr c _ => if (s.csrRead c).isSome then none else some (.refused (.unknownCsr c))
  | .x _ _ | .f _ _ | .pc _ | .flags _ | .clearRes => none

/-- A write done, by the operation every other handler uses. -/
def HandlerWrite.run (s : State) : HandlerWrite → State
  | .x r v => s.writeX r v
  | .f r v => s.writeF r v
  | .pc t => s.setPc t
  | .flags fl => s.accrue fl
  | .csr c v => s.csrWrite c v
  | .mem a k v => s.writeMem a (2 ^ k.val) (v.setWidth _)
  | .reserve w a => s.setRes (some { addr := a, width := w })
  | .clearRes => s.setRes none

/-- The step a handler's answer makes: every check before the first write (R461); the pc goes on unless a write sets it
(R162); an error or a signal leaves the pc (R162). -/
def State.finish (s : State) (st : Statement) : HandlerOutcome → Result
  | .ok writes =>
    match writes.findSome? (HandlerWrite.stop s st) with
    | some r => r
    | none => .next (writes.foldl HandlerWrite.run s.advance)
  | .loadError a => raise (.addressError .load a (some st))
  | .storeError a => raise (.addressError .store a (some st))
  | .invalidRoundingMode => raise (.invalidRoundingMode st)
  | .signal g => .next (s.signalHost g)

/-- `simulate(statement)` for the `n`th custom handler. The handler sees the machine, not the host's coming moves. -/
def State.runCustom (s : State) (n : Nat) (st : Statement) : Result :=
  s.finish st (customHandler n { s with moves := [] } st)

end Sys2Proof.Machine
end

