-- ==== Sys2Proof/Machine/Operands.lean ====
section
/-! DEFINITION. Operand assembly (30_encoding.md R103 to R109), effective addresses (R260), and rounding-mode
resolution (47_float.md R340, R341). -/

namespace Sys2Proof.Machine

/-- The I- and S-immediate (R103, R104): 12 bits, sign-extended. -/
def immI (imm : Imm12) : DWord := imm.signExtend 64

/-- The B-immediate (R105): `e = op[i]` holds imm[12], imm[10:5], imm[4:1], imm[11]. -/
def immB (e : Imm12) : DWord :=
  ((e.extractLsb' 11 1 ++ e.extractLsb' 0 1 ++ e.extractLsb' 5 6 ++ e.extractLsb' 1 4 ++ 0#1 : BitVec 13)).signExtend 64

/-- The U-immediate (R106): the 20 bits above twelve zeros, sign-extended. -/
def immU (imm : Imm20) : DWord := (imm ++ 0#12 : BitVec 32).signExtend 64

/-- The J-immediate (R107): `e = op[i]` holds imm[20], imm[10:1], imm[11], imm[19:12]. -/
def immJ (e : Imm20) : DWord :=
  ((e.extractLsb' 19 1 ++ e.extractLsb' 0 8 ++ e.extractLsb' 8 1 ++ e.extractLsb' 9 10 ++ 0#1 : BitVec 21)).signExtend 64

/-- A shift amount 0 to 31 (R108). -/
def shamtLow (sh : Shamt) : DWord := sh.setWidth 64

/-- A shift amount 32 to 63: the `_HI` rows (R108, D29). -/
def shamtHigh (sh : Shamt) : DWord := sh.setWidth 64 + 32

/-- `zext_XLEN(op[z])` (R109). -/
def immZ (z : Zimm) : DWord := z.setWidth 64

/-- The effective address of a load or store (R260). -/
def State.effAddr (s : State) (rs1 : Reg) (imm : Imm12) : DWord := toXlen s.m64 (s.readX rs1 + immI imm)

/-- The five supported rounding modes (R340). -/
inductive RoundingMode where
  /-- 0, to nearest, ties to even. -/
  | rne
  /-- 1, toward zero. -/
  | rtz
  /-- 2, toward minus infinity. -/
  | rdn
  /-- 3, toward plus infinity. -/
  | rup
  /-- 4, to nearest, ties to the larger magnitude. -/
  | rmm
  deriving DecidableEq, Repr

/-- The mode of a code (R340); 5, 6 and 7 are unsupported. -/
def roundingMode (m : Rm) : Option RoundingMode :=
  match m.toNat with
  | 0 => some .rne
  | 1 => some .rtz
  | 2 => some .rdn
  | 3 => some .rup
  | 4 => some .rmm
  | _ => none

/-- `resolve_rm(p)` (R341): 7 takes `frm`; `none` raises InvalidRoundingMode. -/
def State.resolveRm (s : State) (p : Rm) : Option RoundingMode :=
  roundingMode (if p = 7 then s.running.frm else p)

/-- Run `k` under the resolved rounding mode, or raise InvalidRoundingMode before anything is read or written
(R341, R342). -/
def State.withRounding (s : State) (i : Instr) (p : Rm) (k : RoundingMode → Result) : Result :=
  match s.resolveRm p with
  | some rm => k rm
  | none => raise (.invalidRoundingMode (s.statement i))

end Sys2Proof.Machine
end

