-- ==== Sys2Proof/Machine/Alu.lean ====
section
/-! DEFINITION. The integer operations and the families that use them: Arithmetic (R170), ArithmeticW (R172),
ImmediateArithmetic (R175), Upper (R176). Each operation is stated at its own width; none is a truncation of the
64-bit one (R171, R498). -/

namespace Sys2Proof.Machine

/-- A binary operation at every width: `compute` at 64, `computeW` at 32 (R170). -/
abbrev AluOp := (w : Nat) → BitVec w → BitVec w → BitVec w

/-! ### The operations (R180 to R197) -/

/-- R180. -/
def aluAdd : AluOp := fun _ a b => a + b
/-- R181. -/
def aluSub : AluOp := fun _ a b => a - b
/-- R182: the amount is the low 5 or 6 bits. -/
def aluSll : AluOp := fun w a b => a <<< (b.toNat % w)
/-- R183. -/
def aluSlt : AluOp := fun w a b => if a.toInt < b.toInt then 1#w else 0#w
/-- R184. -/
def aluSltu : AluOp := fun w a b => if a.toNat < b.toNat then 1#w else 0#w
/-- R185. -/
def aluXor : AluOp := fun _ a b => a ^^^ b
/-- R186. -/
def aluSrl : AluOp := fun w a b => a >>> (b.toNat % w)
/-- R187. -/
def aluSra : AluOp := fun w a b => a.sshiftRight (b.toNat % w)
/-- R188. -/
def aluOr : AluOp := fun _ a b => a ||| b
/-- R189. -/
def aluAnd : AluOp := fun _ a b => a &&& b
/-- R190: the low half of the product. -/
def aluMul : AluOp := fun _ a b => a * b
/-- Bits `2w-1` to `w` of an exact product. -/
def highHalf (w : Nat) (p : Int) : BitVec w := BitVec.ofInt w (p / (2 ^ w : Nat))
/-- R191: signed by signed. -/
def aluMulh : AluOp := fun w a b => highHalf w (a.toInt * b.toInt)
/-- R192: signed by unsigned. -/
def aluMulhsu : AluOp := fun w a b => highHalf w (a.toInt * (b.toNat : Int))
/-- R193: unsigned by unsigned. -/
def aluMulhu : AluOp := fun w a b => highHalf w ((a.toNat : Int) * (b.toNat : Int))
/-- R194 with the corner cases of R177: quotient toward zero. -/
def aluDiv : AluOp := fun w a b =>
  if b = 0#w then BitVec.allOnes w
  else if a = BitVec.intMin w ∧ b = BitVec.allOnes w then a
  else BitVec.ofInt w (a.toInt.tdiv b.toInt)
/-- R195, R177. -/
def aluDivu : AluOp := fun w a b => if b = 0#w then BitVec.allOnes w else BitVec.ofNat w (a.toNat / b.toNat)
/-- R196, R177: `a - b * (a / b rounded toward zero)`. -/
def aluRem : AluOp := fun w a b =>
  if b = 0#w then a
  else if a = BitVec.intMin w ∧ b = BitVec.allOnes w then 0#w
  else BitVec.ofInt w (a.toInt - b.toInt * a.toInt.tdiv b.toInt)
/-- R197, R177. -/
def aluRemu : AluOp := fun w a b => if b = 0#w then a else BitVec.ofNat w (a.toNat % b.toNat)

/-- The operation at the width of the mode, on the `XLEN` views `a` and `b` (R170): `compute` if `M64`, else
`computeW` on the 32-bit values. -/
def atXlen (m64 : Bool) (op : AluOp) (a b : DWord) : DWord :=
  if m64 then op 64 a b else zext64 (op 32 (low32 a) (low32 b))

/-! ### The families -/

/-- Family Arithmetic (R170): both sources are read before the destination is written (R178). -/
def arithmetic (op : AluOp) (rd rs1 rs2 : Reg) (s : State) : Result :=
  .next (s.writeX rd (atXlen s.m64 op (s.readX rs1) (s.readX rs2))).advance

/-- Family ArithmeticW (R172): always on the low 32 bits, the result sign-extended. -/
def arithmeticW (op : AluOp) (rd rs1 rs2 : Reg) (s : State) : Result :=
  .next (s.writeX rd (sext64 (op 32 (s.readXw rs1) (s.readXw rs2)))).advance

/-- Family ImmediateArithmetic (R175): the second operand is the immediate, already extended. -/
def arithmeticImm (op : AluOp) (rd rs1 : Reg) (b : DWord) (s : State) : Result :=
  .next (s.writeX rd (atXlen s.m64 op (s.readX rs1) b)).advance

/-- The `*W` immediates (R172, R175). -/
def arithmeticImmW (op : AluOp) (rd rs1 : Reg) (b : DWord) (s : State) : Result :=
  .next (s.writeX rd (sext64 (op 32 (s.readXw rs1) (low32 b)))).advance

/-- Write a value to `rd` and go on to the next instruction: `LUI`, `AUIPC` (R176). -/
def writeAndAdvance (rd : Reg) (v : DWord) (s : State) : Result :=
  .next (s.writeX rd v).advance

end Sys2Proof.Machine
end

