-- ==== Sys2Proof/Machine/Arith.lean ====
section
/-! DEFINITION. The integer arithmetic instructions (43_arithmetic.md R180 to R225). All complete; none touches memory, a
control register or a flag (R174). -/

namespace Sys2Proof.Machine

/-- R180. `ADD` (add): x[rd] <- x[rs1] + x[rs2]. -/
def execAdd (rd rs1 rs2 : Reg) (s : State) : Result := arithmetic aluAdd rd rs1 rs2 s

/-- R181. `SUB` (subtract): x[rd] <- x[rs1] - x[rs2]. -/
def execSub (rd rs1 rs2 : Reg) (s : State) : Result := arithmetic aluSub rd rs1 rs2 s

/-- R182. `SLL` (shift left logical): the amount is the low 5 or 6 bits of x[rs2]. -/
def execSll (rd rs1 rs2 : Reg) (s : State) : Result := arithmetic aluSll rd rs1 rs2 s

/-- R183. `SLT` (set if less than, signed): x[rd] <- 1 if x[rs1] <s x[rs2] else 0. -/
def execSlt (rd rs1 rs2 : Reg) (s : State) : Result := arithmetic aluSlt rd rs1 rs2 s

/-- R184. `SLTU` (set if less than, unsigned): x[rd] <- 1 if x[rs1] <u x[rs2] else 0. -/
def execSltu (rd rs1 rs2 : Reg) (s : State) : Result := arithmetic aluSltu rd rs1 rs2 s

/-- R185. `XOR` (bitwise exclusive or). -/
def execXor (rd rs1 rs2 : Reg) (s : State) : Result := arithmetic aluXor rd rs1 rs2 s

/-- R186. `SRL` (shift right logical): zeros enter from bit XLEN-1. -/
def execSrl (rd rs1 rs2 : Reg) (s : State) : Result := arithmetic aluSrl rd rs1 rs2 s

/-- R187. `SRA` (shift right arithmetic): copies of bit XLEN-1 enter. -/
def execSra (rd rs1 rs2 : Reg) (s : State) : Result := arithmetic aluSra rd rs1 rs2 s

/-- R188. `OR` (bitwise or). -/
def execOr (rd rs1 rs2 : Reg) (s : State) : Result := arithmetic aluOr rd rs1 rs2 s

/-- R189. `AND` (bitwise and). -/
def execAnd (rd rs1 rs2 : Reg) (s : State) : Result := arithmetic aluAnd rd rs1 rs2 s

/-- R190. `MUL` (multiply, low half). -/
def execMul (rd rs1 rs2 : Reg) (s : State) : Result := arithmetic aluMul rd rs1 rs2 s

/-- R191. `MULH` (multiply, high half, signed by signed). -/
def execMulh (rd rs1 rs2 : Reg) (s : State) : Result := arithmetic aluMulh rd rs1 rs2 s

/-- R192. `MULHSU` (multiply, high half, signed by unsigned): x[rs1] is the signed factor. -/
def execMulhsu (rd rs1 rs2 : Reg) (s : State) : Result := arithmetic aluMulhsu rd rs1 rs2 s

/-- R193. `MULHU` (multiply, high half, unsigned by unsigned). -/
def execMulhu (rd rs1 rs2 : Reg) (s : State) : Result := arithmetic aluMulhu rd rs1 rs2 s

/-- R194. `DIV` (divide, signed). -/
def execDiv (rd rs1 rs2 : Reg) (s : State) : Result := arithmetic aluDiv rd rs1 rs2 s

/-- R195. `DIVU` (divide, unsigned). -/
def execDivu (rd rs1 rs2 : Reg) (s : State) : Result := arithmetic aluDivu rd rs1 rs2 s

/-- R196. `REM` (remainder, signed). -/
def execRem (rd rs1 rs2 : Reg) (s : State) : Result := arithmetic aluRem rd rs1 rs2 s

/-- R197. `REMU` (remainder, unsigned). -/
def execRemu (rd rs1 rs2 : Reg) (s : State) : Result := arithmetic aluRemu rd rs1 rs2 s

/-- R198. `ADDW` (add word): ArithmeticW(ADD). -/
def execAddw (rd rs1 rs2 : Reg) (s : State) : Result := arithmeticW aluAdd rd rs1 rs2 s

/-- R199. `SUBW` (subtract word): ArithmeticW(SUB). -/
def execSubw (rd rs1 rs2 : Reg) (s : State) : Result := arithmeticW aluSub rd rs1 rs2 s

/-- R200. `SLLW` (shift left logical word): ArithmeticW(SLL). -/
def execSllw (rd rs1 rs2 : Reg) (s : State) : Result := arithmeticW aluSll rd rs1 rs2 s

/-- R201. `SRLW` (shift right logical word): ArithmeticW(SRL). -/
def execSrlw (rd rs1 rs2 : Reg) (s : State) : Result := arithmeticW aluSrl rd rs1 rs2 s

/-- R202. `SRAW` (shift right arithmetic word): ArithmeticW(SRA). -/
def execSraw (rd rs1 rs2 : Reg) (s : State) : Result := arithmeticW aluSra rd rs1 rs2 s

/-- R203. `MULW` (multiply word): ArithmeticW(MUL). -/
def execMulw (rd rs1 rs2 : Reg) (s : State) : Result := arithmeticW aluMul rd rs1 rs2 s

/-- R204. `DIVW` (divide word, signed): ArithmeticW(DIV). -/
def execDivw (rd rs1 rs2 : Reg) (s : State) : Result := arithmeticW aluDiv rd rs1 rs2 s

/-- R205. `DIVUW` (divide word, unsigned): ArithmeticW(DIVU). -/
def execDivuw (rd rs1 rs2 : Reg) (s : State) : Result := arithmeticW aluDivu rd rs1 rs2 s

/-- R206. `REMW` (remainder word, signed): ArithmeticW(REM). -/
def execRemw (rd rs1 rs2 : Reg) (s : State) : Result := arithmeticW aluRem rd rs1 rs2 s

/-- R207. `REMUW` (remainder word, unsigned): ArithmeticW(REMU). -/
def execRemuw (rd rs1 rs2 : Reg) (s : State) : Result := arithmeticW aluRemu rd rs1 rs2 s

/-- R208. `ADDI` (add immediate). -/
def execAddi (rd rs1 : Reg) (imm : Imm12) (s : State) : Result := arithmeticImm aluAdd rd rs1 (immI imm) s

/-- R209. `SLTI` (set if less than immediate, signed). -/
def execSlti (rd rs1 : Reg) (imm : Imm12) (s : State) : Result := arithmeticImm aluSlt rd rs1 (immI imm) s

/-- R210. `SLTIU` (set if less than immediate, unsigned): the immediate is sign-extended, then compared as
unsigned. -/
def execSltiu (rd rs1 : Reg) (imm : Imm12) (s : State) : Result := arithmeticImm aluSltu rd rs1 (immI imm) s

/-- R211. `XORI` (exclusive or immediate). -/
def execXori (rd rs1 : Reg) (imm : Imm12) (s : State) : Result := arithmeticImm aluXor rd rs1 (immI imm) s

/-- R212. `ORI` (or immediate). -/
def execOri (rd rs1 : Reg) (imm : Imm12) (s : State) : Result := arithmeticImm aluOr rd rs1 (immI imm) s

/-- R213. `ANDI` (and immediate). -/
def execAndi (rd rs1 : Reg) (imm : Imm12) (s : State) : Result := arithmeticImm aluAnd rd rs1 (immI imm) s

/-- R214. `SLLI` (shift left logical immediate, amount 0 to 31). -/
def execSlli (rd rs1 : Reg) (shamt : Shamt) (s : State) : Result :=
  arithmeticImm aluSll rd rs1 (shamtLow shamt) s

/-- R215. `SRLI` (shift right logical immediate, amount 0 to 31). -/
def execSrli (rd rs1 : Reg) (shamt : Shamt) (s : State) : Result :=
  arithmeticImm aluSrl rd rs1 (shamtLow shamt) s

/-- R216. `SRAI` (shift right arithmetic immediate, amount 0 to 31). -/
def execSrai (rd rs1 : Reg) (shamt : Shamt) (s : State) : Result :=
  arithmeticImm aluSra rd rs1 (shamtLow shamt) s

/-- R217. `SLLI_HI` (shift left logical immediate, amount 32 to 63). -/
def execSlliHi (rd rs1 : Reg) (shamt : Shamt) (s : State) : Result :=
  arithmeticImm aluSll rd rs1 (shamtHigh shamt) s

/-- R218. `SRLI_HI` (shift right logical immediate, amount 32 to 63). -/
def execSrliHi (rd rs1 : Reg) (shamt : Shamt) (s : State) : Result :=
  arithmeticImm aluSrl rd rs1 (shamtHigh shamt) s

/-- R219. `SRAI_HI` (shift right arithmetic immediate, amount 32 to 63). -/
def execSraiHi (rd rs1 : Reg) (shamt : Shamt) (s : State) : Result :=
  arithmeticImm aluSra rd rs1 (shamtHigh shamt) s

/-- R220. `ADDIW` (add immediate word). -/
def execAddiw (rd rs1 : Reg) (imm : Imm12) (s : State) : Result := arithmeticImmW aluAdd rd rs1 (immI imm) s

/-- R221. `SLLIW` (shift left logical immediate word). -/
def execSlliw (rd rs1 : Reg) (shamt : Shamt) (s : State) : Result :=
  arithmeticImmW aluSll rd rs1 (shamtLow shamt) s

/-- R222. `SRLIW` (shift right logical immediate word). -/
def execSrliw (rd rs1 : Reg) (shamt : Shamt) (s : State) : Result :=
  arithmeticImmW aluSrl rd rs1 (shamtLow shamt) s

/-- R223. `SRAIW` (shift right arithmetic immediate word). -/
def execSraiw (rd rs1 : Reg) (shamt : Shamt) (s : State) : Result :=
  arithmeticImmW aluSra rd rs1 (shamtLow shamt) s

/-- R224. `LUI` (load upper immediate): x[rd] <- sext({imm, 0x000}). -/
def execLui (rd : Reg) (imm : Imm20) (s : State) : Result := writeAndAdvance rd (immU imm) s

/-- R225. `AUIPC` (add upper immediate to pc): pc is the address of this instruction. -/
def execAuipc (rd : Reg) (imm : Imm20) (s : State) : Result := writeAndAdvance rd (s.running.pc + immU imm) s

end Sys2Proof.Machine
end

