-- ==== Sys2Proof/Machine/MemOps.lean ====
section
/-! DEFINITION. The families that access memory: Load (R262), Store (R263), the floating-point loads and stores
(R354, R355, R393, R394), LoadReserved (R303), StoreConditional (R304), AtomicMemoryOperation (R301). Every check
comes before every write (R461). `i` is the instruction itself, for the statement an AddressError carries (R68). -/

namespace Sys2Proof.Machine

/-- Raise AddressError for an access of the instruction `i` (R66, R67). -/
def State.addressError (s : State) (i : Instr) (kind : AccessKind) (a : DWord) : Result :=
  raise (.addressError kind a (some (s.statement i)))

/-- Run `k` once the access has passed its check, or raise AddressError (R63, R64, R264). -/
def State.checked (s : State) (i : Instr) (kind : AccessKind) (a : DWord) (n : Nat) (k : Result) : Result :=
  if s.accessOk kind a n then k else s.addressError i kind a

/-- R261: a signed load sign-extends, an unsigned one zero-extends. -/
def extendLoad (signed : Bool) {w : Nat} (v : BitVec w) : DWord :=
  if signed then v.signExtend 64 else v.setWidth 64

/-- Family Load (R262). -/
def load (n : Nat) (signed : Bool) (i : Instr) (rd rs1 : Reg) (imm : Imm12) (s : State) : Result :=
  let ea := s.effAddr rs1 imm
  s.checked i .load ea n
    (.next (s.writeX rd (extendLoad signed (s.readMem ea n))).advance)

/-- Store the low `n` bytes of `v` at `ea` (R263, R67). -/
def storeAt (n : Nat) (i : Instr) (ea : DWord) (v : DWord) (s : State) : Result :=
  s.checked i .store ea n
    (.next (s.writeMem ea n (v.setWidth (8 * n))).advance)

/-- Family Store (R263): the low bytes of the register as stored. -/
def store (n : Nat) (i : Instr) (rs1 rs2 : Reg) (imm : Imm12) (s : State) : Result :=
  storeAt n i (s.effAddr rs1 imm) (s.stored rs2) s

/-- `FLW` (R354): the word goes to the register boxed and otherwise unchanged. -/
def loadSingle (i : Instr) (rd rs1 : Reg) (imm : Imm12) (s : State) : Result :=
  let ea := s.effAddr rs1 imm
  s.checked i .load ea 4 (.next (s.writeFs rd (s.readMem ea 4)).advance)

/-- `FLD` (R393). -/
def loadDouble (i : Instr) (rd rs1 : Reg) (imm : Imm12) (s : State) : Result :=
  let ea := s.effAddr rs1 imm
  s.checked i .load ea 8 (.next (s.writeF rd (s.readMem ea 8)).advance)

/-- `FSW`, `FSD` (R355, R394): the low bytes of the raw register, with no NaN-box check. -/
def storeFloat (n : Nat) (i : Instr) (rs1 rs2 : Reg) (imm : Imm12) (s : State) : Result :=
  storeAt n i (s.effAddr rs1 imm) (s.readF rs2) s

/-- Family LoadReserved (R303). -/
def loadReserved (w : ResWidth) (i : Instr) (rd rs1 : Reg) (s : State) : Result :=
  let ea := s.readX rs1
  s.checked i .load ea w.bytes
    (.next ((s.setRes (some { addr := ea, width := w })).writeX rd
      (extendLoad true (s.readMem ea w.bytes))).advance)

/-- Does the running hart hold a valid reservation that covers the `n` bytes at `ea` (R304, R305)? -/
def State.reservationCovers (s : State) (ea : DWord) (n : Nat) : Bool :=
  match s.running.res with
  | some r => r.covers ea n
  | none => false

/-- Family StoreConditional (R304). A failing `SC` makes no access and cannot raise; every `SC` that does not raise
clears the hart's record (R306). -/
def storeConditional (n : Nat) (i : Instr) (rd rs1 rs2 : Reg) (s : State) : Result :=
  let ea := s.readX rs1
  if s.reservationCovers ea n then
    s.checked i .store ea n
      (.next (((s.writeMem ea n ((s.stored rs2).setWidth (8 * n))).setRes none).writeX rd 0).advance)
  else .next ((s.setRes none).writeX rd scFail).advance

/-- `binaryOperation(old, v)` of `AMOSWAP` (R310). -/
def amoSwap : AluOp := fun _ _ v => v
/-- `AMOMIN` (R315). -/
def amoMin : AluOp := fun _ old v => if old.toInt ≤ v.toInt then old else v
/-- `AMOMAX` (R316). -/
def amoMax : AluOp := fun _ old v => if v.toInt ≤ old.toInt then old else v
/-- `AMOMINU` (R317). -/
def amoMinu : AluOp := fun _ old v => if old.toNat ≤ v.toNat then old else v
/-- `AMOMAXU` (R318). -/
def amoMaxu : AluOp := fun _ old v => if v.toNat ≤ old.toNat then old else v

/-- Family AtomicMemoryOperation (R301, C4): the value register is read first, the read is checked (kind Load) and
then the write (kind Store), the destination is written last. -/
def amo (n : Nat) (op : AluOp) (i : Instr) (rd rs1 rs2 : Reg) (s : State) : Result :=
  let ea := s.readX rs1
  let old := s.readMem ea n
  s.checked i .load ea n
    (s.checked i .store ea n
      (.next ((s.writeMem ea n (op (8 * n) old ((s.stored rs2).setWidth (8 * n)))).writeX rd
        (extendLoad true old)).advance))

end Sys2Proof.Machine
end

