-- ==== Sys2Proof/Machine/Atomic.lean ====
section
/-! DEFINITION. The atomic instructions (46_atomic.md R308 to R329). -/

namespace Sys2Proof.Machine

/-- R308. `LR.W` (load reserved, word): `aq` and `rl` are ignored (R307). -/
def execLrW (rd rs1 : Reg) (aq rl : BitVec 1) (s : State) : Result :=
  loadReserved .word (.lrW rd rs1 aq rl) rd rs1 s

/-- R309. `SC.W` (store conditional, word): `aq` and `rl` are ignored (R307). -/
def execScW (rd rs1 rs2 : Reg) (aq rl : BitVec 1) (s : State) : Result :=
  storeConditional 4 (.scW rd rs1 rs2 aq rl) rd rs1 rs2 s

/-- R310. `AMOSWAP.W` (atomic swap, word): new = v. -/
def execAmoswapW (rd rs1 rs2 : Reg) (aq rl : BitVec 1) (s : State) : Result :=
  amo 4 amoSwap (.amoswapW rd rs1 rs2 aq rl) rd rs1 rs2 s

/-- R311. `AMOADD.W` (atomic add, word): new = old + v. -/
def execAmoaddW (rd rs1 rs2 : Reg) (aq rl : BitVec 1) (s : State) : Result :=
  amo 4 aluAdd (.amoaddW rd rs1 rs2 aq rl) rd rs1 rs2 s

/-- R312. `AMOXOR.W` (atomic exclusive or, word): new = old ^ v. -/
def execAmoxorW (rd rs1 rs2 : Reg) (aq rl : BitVec 1) (s : State) : Result :=
  amo 4 aluXor (.amoxorW rd rs1 rs2 aq rl) rd rs1 rs2 s

/-- R313. `AMOAND.W` (atomic and, word): new = old & v. -/
def execAmoandW (rd rs1 rs2 : Reg) (aq rl : BitVec 1) (s : State) : Result :=
  amo 4 aluAnd (.amoandW rd rs1 rs2 aq rl) rd rs1 rs2 s

/-- R314. `AMOOR.W` (atomic or, word): new = old | v. -/
def execAmoorW (rd rs1 rs2 : Reg) (aq rl : BitVec 1) (s : State) : Result :=
  amo 4 aluOr (.amoorW rd rs1 rs2 aq rl) rd rs1 rs2 s

/-- R315. `AMOMIN.W` (atomic minimum, signed, word): new = old if old <=s v else v. -/
def execAmominW (rd rs1 rs2 : Reg) (aq rl : BitVec 1) (s : State) : Result :=
  amo 4 amoMin (.amominW rd rs1 rs2 aq rl) rd rs1 rs2 s

/-- R316. `AMOMAX.W` (atomic maximum, signed, word): new = old if old >=s v else v. -/
def execAmomaxW (rd rs1 rs2 : Reg) (aq rl : BitVec 1) (s : State) : Result :=
  amo 4 amoMax (.amomaxW rd rs1 rs2 aq rl) rd rs1 rs2 s

/-- R317. `AMOMINU.W` (atomic minimum, unsigned, word): new = old if old <=u v else v. -/
def execAmominuW (rd rs1 rs2 : Reg) (aq rl : BitVec 1) (s : State) : Result :=
  amo 4 amoMinu (.amominuW rd rs1 rs2 aq rl) rd rs1 rs2 s

/-- R318. `AMOMAXU.W` (atomic maximum, unsigned, word): new = old if old >=u v else v. -/
def execAmomaxuW (rd rs1 rs2 : Reg) (aq rl : BitVec 1) (s : State) : Result :=
  amo 4 amoMaxu (.amomaxuW rd rs1 rs2 aq rl) rd rs1 rs2 s

/-- R319. `LR.D` (load reserved, doubleword): `aq` and `rl` are ignored (R307). -/
def execLrD (rd rs1 : Reg) (aq rl : BitVec 1) (s : State) : Result :=
  loadReserved .double (.lrD rd rs1 aq rl) rd rs1 s

/-- R320. `SC.D` (store conditional, doubleword): `aq` and `rl` are ignored (R307). -/
def execScD (rd rs1 rs2 : Reg) (aq rl : BitVec 1) (s : State) : Result :=
  storeConditional 8 (.scD rd rs1 rs2 aq rl) rd rs1 rs2 s

/-- R321. `AMOSWAP.D` (atomic swap, doubleword): new = v. -/
def execAmoswapD (rd rs1 rs2 : Reg) (aq rl : BitVec 1) (s : State) : Result :=
  amo 8 amoSwap (.amoswapD rd rs1 rs2 aq rl) rd rs1 rs2 s

/-- R322. `AMOADD.D` (atomic add, doubleword): new = old + v. -/
def execAmoaddD (rd rs1 rs2 : Reg) (aq rl : BitVec 1) (s : State) : Result :=
  amo 8 aluAdd (.amoaddD rd rs1 rs2 aq rl) rd rs1 rs2 s

/-- R323. `AMOXOR.D` (atomic exclusive or, doubleword): new = old ^ v. -/
def execAmoxorD (rd rs1 rs2 : Reg) (aq rl : BitVec 1) (s : State) : Result :=
  amo 8 aluXor (.amoxorD rd rs1 rs2 aq rl) rd rs1 rs2 s

/-- R324. `AMOAND.D` (atomic and, doubleword): new = old & v. -/
def execAmoandD (rd rs1 rs2 : Reg) (aq rl : BitVec 1) (s : State) : Result :=
  amo 8 aluAnd (.amoandD rd rs1 rs2 aq rl) rd rs1 rs2 s

/-- R325. `AMOOR.D` (atomic or, doubleword): new = old | v. -/
def execAmoorD (rd rs1 rs2 : Reg) (aq rl : BitVec 1) (s : State) : Result :=
  amo 8 aluOr (.amoorD rd rs1 rs2 aq rl) rd rs1 rs2 s

/-- R326. `AMOMIN.D` (atomic minimum, signed, doubleword): new = old if old <=s v else v. -/
def execAmominD (rd rs1 rs2 : Reg) (aq rl : BitVec 1) (s : State) : Result :=
  amo 8 amoMin (.amominD rd rs1 rs2 aq rl) rd rs1 rs2 s

/-- R327. `AMOMAX.D` (atomic maximum, signed, doubleword): new = old if old >=s v else v. -/
def execAmomaxD (rd rs1 rs2 : Reg) (aq rl : BitVec 1) (s : State) : Result :=
  amo 8 amoMax (.amomaxD rd rs1 rs2 aq rl) rd rs1 rs2 s

/-- R328. `AMOMINU.D` (atomic minimum, unsigned, doubleword): new = old if old <=u v else v. -/
def execAmominuD (rd rs1 rs2 : Reg) (aq rl : BitVec 1) (s : State) : Result :=
  amo 8 amoMinu (.amominuD rd rs1 rs2 aq rl) rd rs1 rs2 s

/-- R329. `AMOMAXU.D` (atomic maximum, unsigned, doubleword): new = old if old >=u v else v. -/
def execAmomaxuD (rd rs1 rs2 : Reg) (aq rl : BitVec 1) (s : State) : Result :=
  amo 8 amoMaxu (.amomaxuD rd rs1 rs2 aq rl) rd rs1 rs2 s

end Sys2Proof.Machine
end

