-- ==== Sys2Proof/Machine/Control.lean ====
section
/-! DEFINITION. The families Branch (R280), Jump (R282) and the control register access (R445). -/

namespace Sys2Proof.Machine

/-- Family Branch (R280, R281): the comparison is on the `XLEN` views; the target is relative to the branch and is
not checked (R283). `willBranch` is given at every width. -/
def branch (willBranch : (w : Nat) → BitVec w → BitVec w → Bool) (rs1 rs2 : Reg) (imm : Imm12) (s : State) :
    Result :=
  let taken :=
    if s.m64 then willBranch 64 (s.readX rs1) (s.readX rs2) else willBranch 32 (s.readXw rs1) (s.readXw rs2)
  .next (if taken then s.setPc (s.running.pc + immB imm) else s.advance)

/-- Family Jump (R282): the target is computed from the old register values, then the link is written. -/
def jump (rd : Reg) (target : DWord) (s : State) : Result :=
  .next ((s.writeX rd s.nextPc).setPc target)

/-- A CSR instruction (R445): the old value is read first; the new value is written when `writes` holds; `rd` takes
the old value. An address that names no register is refused and nothing changes (R447). -/
def csrAccess (c : CsrAddr) (rd : Reg) (writes : Bool) (new : DWord → DWord) (s : State) : Result :=
  match s.csrRead c with
  | none => .refused (.unknownCsr c)
  | some old => .next ((if writes then s.csrWrite c (new old) else s).writeX rd old).advance

end Sys2Proof.Machine
end

