-- ==== Sys2Proof/Machine/BranchJump.lean ====
section
/-! DEFINITION. The branches and jumps (45_branch_jump.md R284 to R291). All complete; a target is not checked (R283). -/

namespace Sys2Proof.Machine

/-- R284. `BEQ` (branch if equal). -/
def execBeq (rs1 rs2 : Reg) (imm : Imm12) (s : State) : Result := branch (fun _ a b => a == b) rs1 rs2 imm s

/-- R285. `BNE` (branch if not equal). -/
def execBne (rs1 rs2 : Reg) (imm : Imm12) (s : State) : Result := branch (fun _ a b => a != b) rs1 rs2 imm s

/-- R286. `BLT` (branch if less than, signed). -/
def execBlt (rs1 rs2 : Reg) (imm : Imm12) (s : State) : Result :=
  branch (fun _ a b => decide (a.toInt < b.toInt)) rs1 rs2 imm s

/-- R287. `BGE` (branch if greater than or equal, signed). -/
def execBge (rs1 rs2 : Reg) (imm : Imm12) (s : State) : Result :=
  branch (fun _ a b => decide (b.toInt ≤ a.toInt)) rs1 rs2 imm s

/-- R288. `BLTU` (branch if less than, unsigned). -/
def execBltu (rs1 rs2 : Reg) (imm : Imm12) (s : State) : Result :=
  branch (fun _ a b => decide (a.toNat < b.toNat)) rs1 rs2 imm s

/-- R289. `BGEU` (branch if greater than or equal, unsigned). -/
def execBgeu (rs1 rs2 : Reg) (imm : Imm12) (s : State) : Result :=
  branch (fun _ a b => decide (b.toNat ≤ a.toNat)) rs1 rs2 imm s

/-- R290. `JAL` (jump and link): the offset is relative to this instruction. -/
def execJal (rd : Reg) (imm : Imm20) (s : State) : Result := jump rd (s.running.pc + immJ imm) s

/-- R291. `JALR` (jump and link register): bit 0 of the sum is cleared; the target comes from the old x[rs1]. -/
def execJalr (rd rs1 : Reg) (imm : Imm12) (s : State) : Result := jump rd ((s.readX rs1 + immI imm) &&& ~~~1) s

end Sys2Proof.Machine
end

