-- ==== Sys2Proof/Machine/Round.lean ====
section
/-! DEFINITION. The formats (R345, R391), exact magnitudes, and the rounding of 47_float.md R346: `rint` and `round_F`.
Magnitudes are exact integers, quotients and square roots; rounding looks at an integer quotient and what is left
over (log 18). -/

namespace Sys2Proof.Machine

/-- A binary interchange format by the widths of its exponent and fraction fields. -/
structure FloatFormat where
  expBits : Nat
  fracBits : Nat
  deriving DecidableEq, Repr

/-- R345. -/
def binary32 : FloatFormat := { expBits := 8, fracBits := 23 }
/-- R391. -/
def binary64 : FloatFormat := { expBits := 11, fracBits := 52 }

/-- The precision `p`. -/
def FloatFormat.prec (F : FloatFormat) : Nat := F.fracBits + 1
/-- `emax`, which is the bias. -/
def FloatFormat.emax (F : FloatFormat) : Int := 2 ^ (F.expBits - 1) - 1
/-- `emin`. -/
def FloatFormat.emin (F : FloatFormat) : Int := 1 - F.emax
/-- The exponent of the smallest subnormal, `emin - p + 1`. -/
def FloatFormat.qmin (F : FloatFormat) : Int := F.emin - F.fracBits
/-- The place of the sign bit. -/
def FloatFormat.signBit (F : FloatFormat) : Nat := F.expBits + F.fracBits
/-- The pattern of `+inf`: the exponent field all ones. -/
def FloatFormat.infPattern (F : FloatFormat) : Nat := (2 ^ F.expBits - 1) * 2 ^ F.fracBits
/-- The pattern of the largest finite value. -/
def FloatFormat.maxPattern (F : FloatFormat) : Nat := F.infPattern - 1
/-- The canonical NaN: sign 0, quiet bit 1, payload 0 (R344). -/
def FloatFormat.nanPattern (F : FloatFormat) : Nat := F.infPattern + 2 ^ (F.fracBits - 1)

/-- A pattern with this sign over a magnitude pattern. -/
def FloatFormat.signed (F : FloatFormat) (neg : Bool) (pattern : Nat) : Nat :=
  (if neg then 2 ^ F.signBit else 0) + pattern

/-! ### Exact magnitudes -/

/-- A positive real number, exactly. -/
inductive Magnitude where
  /-- `num / den * 2^k`, with `num` and `den` positive. -/
  | ratio (num den : Nat) (k : Int)
  /-- The square root of `m * 2^k`, with `m` positive. -/
  | root (m : Nat) (k : Int)
  deriving DecidableEq, Repr

/-- What a division leaves over, against one half of the unit. -/
inductive Rest where
  | exact
  | belowHalf
  | half
  | aboveHalf
  deriving DecidableEq, Repr

/-- `n` and the rest: a magnitude seen as `n + r` with `0 ≤ r < 1`. -/
structure Cut where
  n : Nat
  rest : Rest
  deriving DecidableEq, Repr

/-- Where `x` (not zero) stands against `y`, both in half units. -/
def restOf (x y : Nat) : Rest := if x < y then .belowHalf else if x = y then .half else .aboveHalf

/-- The quotient `num / den` as a cut. -/
def cutRatio (num den : Nat) : Cut :=
  let r := num % den
  { n := num / den, rest := if r = 0 then .exact else restOf (2 * r) den }

/-- Binary digits of the integer square root, from bit `b - 1` down. -/
def isqrtFrom (n : Nat) : Nat → Nat → Nat
  | 0, root => root
  | b + 1, root =>
    let next := root + 2 ^ b
    if next * next ≤ n then isqrtFrom n b next else isqrtFrom n b root

/-- The largest natural number whose square is at most `n`. -/
def isqrt (n : Nat) : Nat := isqrtFrom n (n.log2 / 2 + 1) 0

/-- The square root of `num / den` as a cut, "decided by comparing squares" (R346). -/
def cutRoot (num den : Nat) : Cut :=
  let n := isqrt (num / den)
  { n := n, rest := if n * n * den = num then .exact else restOf (4 * num) ((2 * n + 1) * (2 * n + 1) * den) }

/-- `2^k` for a possibly negative `k`, as numerator and denominator. -/
def pow2Num (k : Int) : Nat := 2 ^ k.toNat
def pow2Den (k : Int) : Nat := 2 ^ (-k).toNat

/-- The magnitude divided by `2^q`, as a cut. -/
def Magnitude.cut (m : Magnitude) (q : Int) : Cut :=
  match m with
  | .ratio num den k => cutRatio (num * pow2Num (k - q)) (den * pow2Den (k - q))
  | .root m k => cutRoot (m * pow2Num (k - 2 * q)) (pow2Den (k - 2 * q))

/-- `floor(log2(num / den))`. -/
def log2Ratio (num den : Nat) : Int :=
  let e : Int := num.log2 - den.log2
  if den * pow2Num e ≤ num * pow2Den e then e else e - 1

/-- `floor(log2(a))` of R346. -/
def Magnitude.log2 : Magnitude → Int
  | .ratio num den k => log2Ratio num den + k
  | .root m k => (log2Ratio m 1 + k) / 2

/-! ### Rounding (R346) -/

/-- `rint` of R346: the integer a cut rounds to, `neg` the sign of the value being rounded. -/
def rint (c : Cut) (neg : Bool) (rm : RoundingMode) : Nat :=
  match c.rest with
  | .exact => c.n
  | rest =>
    let up : Bool :=
      match rm with
      | .rne => rest == .aboveHalf || (rest == .half && c.n % 2 == 1)
      | .rtz => false
      | .rdn => neg
      | .rup => !neg
      | .rmm => rest == .half || rest == .aboveHalf
    if up then c.n + 1 else c.n

/-- `n * 2^k < 2^t`. -/
def belowPow2 (n : Nat) (k t : Int) : Bool := n * pow2Num (k - t) < pow2Den (k - t)

/-- Does an overflow in this mode give infinity rather than the largest finite value (R346)? -/
def overflowsToInf (neg : Bool) : RoundingMode → Bool
  | .rne => true
  | .rmm => true
  | .rdn => neg
  | .rup => !neg
  | .rtz => false

/-- `encode` of R346 without the sign: the pattern of `n * 2^q`, where `q ≥ qmin`, `n ≤ 2^p`, and `n ≥ 2^(p-1)`
unless `q = qmin`. The exponent field counts `q` from `qmin` and the leading bit of `n` adds one to it, which also
serves subnormals (no leading bit, field 0) and a carry to `n = 2^p`. -/
def FloatFormat.encode (F : FloatFormat) (n : Nat) (q : Int) : Nat := (q - F.qmin).toNat * 2 ^ F.fracBits + n

/-- `round_F` of R346 for a non-zero value of sign `neg` and magnitude `m`: the pattern and the flags. Tininess is
detected after rounding; `UF` comes only with `NX`. -/
def FloatFormat.round (F : FloatFormat) (neg : Bool) (m : Magnitude) (rm : RoundingMode) : Nat × Flags :=
  let e := m.log2
  let u := e - F.prec + 1
  let tiny := belowPow2 (rint (m.cut u) neg rm) u F.emin
  let q := max e F.emin - F.prec + 1
  let c := m.cut q
  let n := rint c neg rm
  let inexact := c.rest != .exact
  if belowPow2 n q (F.emax + 1) then
    (F.signed neg (F.encode n q), flagIf inexact flagNX ||| flagIf (tiny && inexact) flagUF)
  else
    (F.signed neg (if overflowsToInf neg rm then F.infPattern else F.maxPattern), flagOF ||| flagNX)

end Sys2Proof.Machine
end

