-- ==== Sys2Proof/Machine/FpArith.lean ====
section
/-! DEFINITION. The floating-point primitives of 47_float.md R344 and R346 to R353, for either format: bit patterns
in, a bit pattern and five flags out. `w` is the width of the pattern, 32 or 64. -/

namespace Sys2Proof.Machine

/-- What a pattern stands for (R345, R391). -/
inductive FVal where
  | nan (signaling : Bool)
  | inf (neg : Bool)
  | zero (neg : Bool)
  /-- `(-1)^neg * m * 2^k`, `m` positive. -/
  | finite (neg : Bool) (m : Nat) (k : Int)
  deriving DecidableEq, Repr

/-- The table of R345 and R391. -/
def FloatFormat.value (F : FloatFormat) {w : Nat} (b : BitVec w) : FVal :=
  let neg := b.toNat.testBit F.signBit
  let E := b.toNat / 2 ^ F.fracBits % 2 ^ F.expBits
  let T := b.toNat % 2 ^ F.fracBits
  if E = 2 ^ F.expBits - 1 then
    if T = 0 then .inf neg else .nan (!T.testBit (F.fracBits - 1))
  else if E = 0 then
    if T = 0 then .zero neg else .finite neg T F.qmin
  else .finite neg (2 ^ F.fracBits + T) (F.qmin + (E - 1 : Nat))

/-- Is it a NaN? -/
def FVal.isNaN : FVal → Bool
  | .nan _ => true
  | _ => false

/-- Is it a signaling NaN? -/
def FVal.isSignaling : FVal → Bool
  | .nan s => s
  | _ => false

/-- The sign of a value that is not a NaN. -/
def FVal.sign : FVal → Bool
  | .nan _ => false
  | .inf neg => neg
  | .zero neg => neg
  | .finite neg _ _ => neg

/-- The value with its sign changed where `flip` holds. -/
def FVal.negateIf (flip : Bool) : FVal → FVal
  | .nan s => .nan s
  | .inf neg => .inf (neg ^^ flip)
  | .zero neg => .zero (neg ^^ flip)
  | .finite neg m k => .finite (neg ^^ flip) m k

/-- The exponent a finite value is written with; zero and the others take none. -/
def FVal.exponent? : FVal → Option Int
  | .finite _ _ k => some k
  | _ => none

/-- A finite value or zero as a signed number of units `2^q`, for `q` at most its exponent. -/
def FVal.units (q : Int) : FVal → Int
  | .finite neg m k => (if neg then -1 else 1) * (m * pow2Num (k - q) : Nat)
  | _ => 0

/-- The finer of the exponents of two values: the unit both are whole numbers of. -/
def commonExponent (a b : FVal) : Int :=
  match a.exponent?, b.exponent? with
  | some j, some k => min j k
  | some j, none => j
  | none, some k => k
  | none, none => 0

/-- A result: a pattern and the flags it raises (R343). -/
abbrev FResult (w : Nat) := BitVec w × Flags

/-- The canonical NaN (R344). -/
def FloatFormat.nan (F : FloatFormat) (w : Nat) : BitVec w := BitVec.ofNat w F.nanPattern
/-- The infinity of a sign. -/
def FloatFormat.inf (F : FloatFormat) (w : Nat) (neg : Bool) : BitVec w := BitVec.ofNat w (F.signed neg F.infPattern)
/-- The zero of a sign. -/
def FloatFormat.zero (F : FloatFormat) (w : Nat) (neg : Bool) : BitVec w := BitVec.ofNat w (F.signed neg 0)

/-- `round_F` (R346) as a result. -/
def FloatFormat.rounded (F : FloatFormat) (w : Nat) (neg : Bool) (m : Magnitude) (rm : RoundingMode) : FResult w :=
  let r := F.round neg m rm
  (BitVec.ofNat w r.1, r.2)

/-- `NV` when one of the inputs is a signaling NaN (R344). -/
def signalingFlag (vs : List FVal) : Flags := flagIf (vs.any FVal.isSignaling) flagNV

/-! ### Add, subtract, multiply, divide, square root (R346) -/

/-- The exact sum `a + b` of two values that are finite or zero, rounded; an exact zero has the sign both zeros agree
on, and otherwise `+0`, or `-0` under RDN. -/
def FloatFormat.sum (F : FloatFormat) (w : Nat) (a b : FVal) (rm : RoundingMode) : FResult w :=
  let q := commonExponent a b
  let v := a.units q + b.units q
  if v = 0 then
    let bothZero := a.exponent?.isNone && b.exponent?.isNone
    let neg := if bothZero && a.sign == b.sign then a.sign else rm == .rdn
    (F.zero w neg, noFlags)
  else F.rounded w (decide (v < 0)) (.ratio v.natAbs 1 q) rm

/-- The sum of two values that are no NaN. -/
def FloatFormat.addValues (F : FloatFormat) (w : Nat) (a b : FVal) (rm : RoundingMode) : FResult w :=
  match a, b with
  | .inf s, .inf t => if s == t then (F.inf w s, noFlags) else (F.nan w, flagNV)
  | .inf s, _ => (F.inf w s, noFlags)
  | _, .inf t => (F.inf w t, noFlags)
  | a, b => F.sum w a b rm

/-- `fadd_F`. -/
def FloatFormat.add (F : FloatFormat) {w : Nat} (a b : BitVec w) (rm : RoundingMode) : FResult w :=
  let x := F.value a
  let y := F.value b
  if x.isNaN || y.isNaN then (F.nan w, signalingFlag [x, y]) else F.addValues w x y rm

/-- `fsub_F`: `a + (-b)`; a NaN `b` follows the NaN rule. -/
def FloatFormat.sub (F : FloatFormat) {w : Nat} (a b : BitVec w) (rm : RoundingMode) : FResult w :=
  let x := F.value a
  let y := F.value b
  if x.isNaN || y.isNaN then (F.nan w, signalingFlag [x, y]) else F.addValues w x (y.negateIf true) rm

/-- `fmul_F`. -/
def FloatFormat.mul (F : FloatFormat) {w : Nat} (a b : BitVec w) (rm : RoundingMode) : FResult w :=
  let x := F.value a
  let y := F.value b
  let neg := x.sign ^^ y.sign
  match x, y with
  | .nan _, _ => (F.nan w, signalingFlag [x, y])
  | _, .nan _ => (F.nan w, signalingFlag [x, y])
  | .inf _, .zero _ => (F.nan w, flagNV)
  | .zero _, .inf _ => (F.nan w, flagNV)
  | .inf _, _ => (F.inf w neg, noFlags)
  | _, .inf _ => (F.inf w neg, noFlags)
  | .zero _, _ => (F.zero w neg, noFlags)
  | _, .zero _ => (F.zero w neg, noFlags)
  | .finite _ m j, .finite _ n k => F.rounded w neg (.ratio (m * n) 1 (j + k)) rm

/-- `fdiv_F`. -/
def FloatFormat.div (F : FloatFormat) {w : Nat} (a b : BitVec w) (rm : RoundingMode) : FResult w :=
  let x := F.value a
  let y := F.value b
  let neg := x.sign ^^ y.sign
  match x, y with
  | .nan _, _ => (F.nan w, signalingFlag [x, y])
  | _, .nan _ => (F.nan w, signalingFlag [x, y])
  | .inf _, .inf _ => (F.nan w, flagNV)
  | .inf _, _ => (F.inf w neg, noFlags)
  | _, .inf _ => (F.zero w neg, noFlags)
  | .zero _, .zero _ => (F.nan w, flagNV)
  | .finite _ _ _, .zero _ => (F.inf w neg, flagDZ)
  | .zero _, .finite _ _ _ => (F.zero w neg, noFlags)
  | .finite _ m j, .finite _ n k => F.rounded w neg (.ratio m n (j - k)) rm

/-- `fsqrt_F`. -/
def FloatFormat.sqrt (F : FloatFormat) {w : Nat} (a : BitVec w) (rm : RoundingMode) : FResult w :=
  match F.value a with
  | .nan s => (F.nan w, flagIf s flagNV)
  | .zero _ => (a, noFlags)
  | .inf true => (F.nan w, flagNV)
  | .inf false => (a, noFlags)
  | .finite true _ _ => (F.nan w, flagNV)
  | .finite false m k => F.rounded w false (.root m k) rm

/-! ### Fused multiply-add (R347) -/

/-- The product of two values that are finite or zero, not rounded. -/
def exactProduct (x y : FVal) (neg : Bool) : FVal :=
  match x, y with
  | .finite _ m j, .finite _ n k => .finite neg (m * n) (j + k)
  | _, _ => .zero neg

/-- Is one of them an infinity and the other a zero? -/
def infTimesZero (x y : FVal) : Bool :=
  match x, y with
  | .inf _, .zero _ => true
  | .zero _, .inf _ => true
  | _, _ => false

/-- Is one of them an infinity? -/
def FVal.isInf : FVal → Bool
  | .inf _ => true
  | _ => false

/-- `fma_F(a, b, c, np, nc, rm)`: the product is negated when `np`, the addend when `nc`; one rounding. -/
def FloatFormat.fma (F : FloatFormat) {w : Nat} (a b c : BitVec w) (np nc : Bool) (rm : RoundingMode) : FResult w :=
  let x := F.value a
  let y := F.value b
  let z := F.value c
  let fl := signalingFlag [x, y, z]
  if infTimesZero x y then (F.nan w, fl ||| flagNV)
  else if x.isNaN || y.isNaN || z.isNaN then (F.nan w, fl)
  else
    let ps := x.sign ^^ y.sign ^^ np
    let addend := z.negateIf nc
    if x.isInf || y.isInf then
      if addend.isInf && addend.sign != ps then (F.nan w, fl ||| flagNV) else (F.inf w ps, fl)
    else if addend.isInf then (F.inf w addend.sign, fl)
    else
      let r := F.sum w (exactProduct x y ps) addend rm
      (r.1, fl ||| r.2)

/-! ### Comparisons, minimum, maximum, classify (R348 to R350) -/

/-- `a < b` on the real values, infinities at the ends, the zeros equal; for values that are no NaN (R349). -/
def FVal.less : FVal → FVal → Bool
  | .inf s, .inf t => s && !t
  | .inf s, _ => s
  | _, .inf t => !t
  | a, b =>
    let q := commonExponent a b
    decide (a.units q < b.units q)

/-- `feq_F`: quiet. -/
def FloatFormat.eq (F : FloatFormat) {w : Nat} (a b : BitVec w) : Bool × Flags :=
  let x := F.value a
  let y := F.value b
  if x.isNaN || y.isNaN then (false, signalingFlag [x, y]) else (!x.less y && !y.less x, noFlags)

/-- `flt_F`: signaling. -/
def FloatFormat.lt (F : FloatFormat) {w : Nat} (a b : BitVec w) : Bool × Flags :=
  let x := F.value a
  let y := F.value b
  if x.isNaN || y.isNaN then (false, flagNV) else (x.less y, noFlags)

/-- `fle_F`: signaling. -/
def FloatFormat.le (F : FloatFormat) {w : Nat} (a b : BitVec w) : Bool × Flags :=
  let x := F.value a
  let y := F.value b
  if x.isNaN || y.isNaN then (false, flagNV) else (!y.less x, noFlags)

/-- The order of R348, in which `-0` is smaller than `+0`; for values that are no NaN. -/
def FVal.below (a b : FVal) : Bool :=
  match a, b with
  | .zero s, .zero t => s && !t
  | a, b => a.less b

/-- `fmin_F` (`max = false`) and `fmax_F` (`max = true`) of R348. -/
def FloatFormat.minMax (F : FloatFormat) (max : Bool) {w : Nat} (a b : BitVec w) : FResult w :=
  let x := F.value a
  let y := F.value b
  let fl := signalingFlag [x, y]
  if x.isNaN && y.isNaN then (F.nan w, fl)
  else if x.isNaN then (b, fl)
  else if y.isNaN then (a, fl)
  else if (if max then y.below x else x.below y) then (a, fl)
  else (b, fl)

/-- `fclass_F` (R350): a mask with one bit set. -/
def FloatFormat.classify (F : FloatFormat) {w : Nat} (a : BitVec w) : DWord :=
  match F.value a with
  | .inf neg => if neg then 0x001 else 0x080
  | .finite neg m _ =>
    if 2 ^ F.fracBits ≤ m then (if neg then 0x002 else 0x040) else (if neg then 0x004 else 0x020)
  | .zero neg => if neg then 0x008 else 0x010
  | .nan signaling => if signaling then 0x100 else 0x200

/-! ### Conversions (R346, R351, R352) -/

/-- The float-to-float conversions `fcvt_S_from_D` and `fcvt_D_from_S` (R346), from `F` to `G`. -/
def FloatFormat.convert (F G : FloatFormat) {w : Nat} (v : Nat) (a : BitVec w) (rm : RoundingMode) : FResult v :=
  match F.value a with
  | .nan s => (G.nan v, flagIf s flagNV)
  | .inf neg => (G.inf v neg, noFlags)
  | .zero neg => (G.zero v neg, noFlags)
  | .finite neg m k => G.rounded v neg (.ratio m 1 k) rm

/-- The smallest and the largest integer of `n` bits (R351). -/
def intMinOf (n : Nat) (signed : Bool) : Int := if signed then -(2 ^ (n - 1) : Nat) else 0
def intMaxOf (n : Nat) (signed : Bool) : Int := if signed then (2 ^ (n - 1) : Nat) - 1 else (2 ^ n : Nat) - 1

/-- `fcvt_int_F` (R351): the range check is on the rounded value; `NV` and `NX` are never raised together. -/
def FloatFormat.toInt (F : FloatFormat) {w : Nat} (n : Nat) (signed : Bool) (a : BitVec w) (rm : RoundingMode) : FResult n :=
  let lo := intMinOf n signed
  let hi := intMaxOf n signed
  match F.value a with
  | .nan _ => (BitVec.ofInt n hi, flagNV)
  | .inf neg => (BitVec.ofInt n (if neg then lo else hi), flagNV)
  | .zero _ => (0#n, noFlags)
  | .finite neg m k =>
    let c := (Magnitude.ratio m 1 k).cut 0
    let r : Int := (if neg then -1 else 1) * (rint c neg rm : Int)
    if r < lo then (BitVec.ofInt n lo, flagNV)
    else if hi < r then (BitVec.ofInt n hi, flagNV)
    else (BitVec.ofInt n r, flagIf (c.rest != .exact) flagNX)

/-- `fcvt_from_int_F` (R352). -/
def FloatFormat.ofInt (F : FloatFormat) (w : Nat) (v : Int) (rm : RoundingMode) : FResult w :=
  if v = 0 then (F.zero w false, noFlags)
  else F.rounded w (decide (v < 0)) (.ratio v.natAbs 1 0) rm

/-! ### Sign injection (R353) -/

/-- The first source with its sign bit replaced: a bit operation, no flag. -/
def injectSign {w : Nat} (sign : Bool → Bool → Bool) (a b : BitVec w) : BitVec w :=
  let top := BitVec.twoPow w (w - 1)
  (a &&& ~~~top) ||| (if sign a.msb b.msb then top else 0#w)

end Sys2Proof.Machine
end

