-- ==== Sys2Proof/Machine/FloatOps.lean ====
section
/-! DEFINITION. The last steps of the floating-point families (47_float.md R342, 48_double.md R390): accrue the flags,
write the destination, go on. -/

namespace Sys2Proof.Machine

/-- Steps 4 to 6 of R342 with a single-precision destination, written boxed (R34). -/
def finishFs (rd : Reg) (r : FResult 32) (s : State) : Result := .next ((s.accrue r.2).writeFs rd r.1).advance

/-- Steps 4 to 6 of R342 with a double-precision destination (R390). -/
def finishF (rd : Reg) (r : FResult 64) (s : State) : Result := .next ((s.accrue r.2).writeF rd r.1).advance

/-- Steps 4 to 6 of R342 with an integer destination. -/
def finishX (rd : Reg) (r : DWord × Flags) (s : State) : Result := .next ((s.accrue r.2).writeX rd r.1).advance

/-- A truth value as the integer 0 or 1, zero-extended (R349, R370). -/
def boolResult (r : Bool × Flags) : DWord × Flags := (if r.1 then 1 else 0, r.2)

/-- A 32-bit integer result, sign-extended for the unsigned conversions too (R351, R374, R376). -/
def wordResult (r : FResult 32) : DWord × Flags := (sext64 r.1, r.2)

/-- The bit movers write a pattern and raise nothing (R344, R353). -/
def moveFs (rd : Reg) (v : Word) (s : State) : Result := .next (s.writeFs rd v).advance
/-- The same for 64 bits. -/
def moveF (rd : Reg) (v : DWord) (s : State) : Result := .next (s.writeF rd v).advance

end Sys2Proof.Machine
end

