-- ==== Sys2Proof/Machine/Double.lean ====
section
/-! DEFINITION. The double-precision instructions (48_double.md R393 to R424). -/

namespace Sys2Proof.Machine

/-- R393. `FLD` (load double-precision value): enabled in both width modes. -/
def execFld (rd rs1 : Reg) (imm : Imm12) (s : State) : Result := loadDouble (.fld rd rs1 imm) rd rs1 imm s

/-- R394. `FSD` (store double-precision value). -/
def execFsd (rs1 rs2 : Reg) (imm : Imm12) (s : State) : Result := storeFloat 8 (.fsd rs1 rs2 imm) rs1 rs2 imm s

/-- R395. `FMADD.D` (fused multiply-add, double): (a * b) + c, one rounding. -/
def execFmaddD (rd rs1 rs2 rs3 : Reg) (rm : Rm) (s : State) : Result :=
  s.withRounding (.fmaddD rd rs1 rs2 rs3 rm) rm fun m =>
    finishF rd (binary64.fma (s.readF rs1) (s.readF rs2) (s.readF rs3) false false m) s

/-- R396. `FMSUB.D` (fused multiply-subtract, double): (a * b) - c, one rounding. -/
def execFmsubD (rd rs1 rs2 rs3 : Reg) (rm : Rm) (s : State) : Result :=
  s.withRounding (.fmsubD rd rs1 rs2 rs3 rm) rm fun m =>
    finishF rd (binary64.fma (s.readF rs1) (s.readF rs2) (s.readF rs3) false true m) s

/-- R397. `FNMSUB.D` (negated fused multiply-subtract, double): -(a * b) + c, one rounding. -/
def execFnmsubD (rd rs1 rs2 rs3 : Reg) (rm : Rm) (s : State) : Result :=
  s.withRounding (.fnmsubD rd rs1 rs2 rs3 rm) rm fun m =>
    finishF rd (binary64.fma (s.readF rs1) (s.readF rs2) (s.readF rs3) true false m) s

/-- R398. `FNMADD.D` (negated fused multiply-add, double): -(a * b) - c, one rounding. -/
def execFnmaddD (rd rs1 rs2 rs3 : Reg) (rm : Rm) (s : State) : Result :=
  s.withRounding (.fnmaddD rd rs1 rs2 rs3 rm) rm fun m =>
    finishF rd (binary64.fma (s.readF rs1) (s.readF rs2) (s.readF rs3) true true m) s

/-- R399. `FADD.D` (add, double). -/
def execFaddD (rd rs1 rs2 : Reg) (rm : Rm) (s : State) : Result :=
  s.withRounding (.faddD rd rs1 rs2 rm) rm fun m =>
    finishF rd (binary64.add (s.readF rs1) (s.readF rs2) m) s

/-- R400. `FSUB.D` (subtract, double). -/
def execFsubD (rd rs1 rs2 : Reg) (rm : Rm) (s : State) : Result :=
  s.withRounding (.fsubD rd rs1 rs2 rm) rm fun m =>
    finishF rd (binary64.sub (s.readF rs1) (s.readF rs2) m) s

/-- R401. `FMUL.D` (multiply, double). -/
def execFmulD (rd rs1 rs2 : Reg) (rm : Rm) (s : State) : Result :=
  s.withRounding (.fmulD rd rs1 rs2 rm) rm fun m =>
    finishF rd (binary64.mul (s.readF rs1) (s.readF rs2) m) s

/-- R402. `FDIV.D` (divide, double). -/
def execFdivD (rd rs1 rs2 : Reg) (rm : Rm) (s : State) : Result :=
  s.withRounding (.fdivD rd rs1 rs2 rm) rm fun m =>
    finishF rd (binary64.div (s.readF rs1) (s.readF rs2) m) s

/-- R403. `FSQRT.D` (square root, double). -/
def execFsqrtD (rd rs1 : Reg) (rm : Rm) (s : State) : Result :=
  s.withRounding (.fsqrtD rd rs1 rm) rm fun m =>
    finishF rd (binary64.sqrt (s.readF rs1) m) s

/-- R404. `FSGNJ.D` (sign injection, double). -/
def execFsgnjD (rd rs1 rs2 : Reg) (s : State) : Result :=
  moveF rd (injectSign (fun _ b => b) (s.readF rs1) (s.readF rs2)) s

/-- R405. `FSGNJN.D` (sign injection, negated, double). -/
def execFsgnjnD (rd rs1 rs2 : Reg) (s : State) : Result :=
  moveF rd (injectSign (fun _ b => !b) (s.readF rs1) (s.readF rs2)) s

/-- R406. `FSGNJX.D` (sign injection, exclusive or, double). -/
def execFsgnjxD (rd rs1 rs2 : Reg) (s : State) : Result :=
  moveF rd (injectSign (fun a b => a ^^ b) (s.readF rs1) (s.readF rs2)) s

/-- R407. `FMIN.D` (minimum, double). -/
def execFminD (rd rs1 rs2 : Reg) (s : State) : Result :=
  finishF rd (binary64.minMax false (s.readF rs1) (s.readF rs2)) s

/-- R408. `FMAX.D` (maximum, double). -/
def execFmaxD (rd rs1 rs2 : Reg) (s : State) : Result :=
  finishF rd (binary64.minMax true (s.readF rs1) (s.readF rs2)) s

/-- R409. `FEQ.D` (compare equal, double): the destination is an integer register. -/
def execFeqD (rd rs1 rs2 : Reg) (s : State) : Result :=
  finishX rd (boolResult (binary64.eq (s.readF rs1) (s.readF rs2))) s

/-- R410. `FLT.D` (compare less than, double): the destination is an integer register. -/
def execFltD (rd rs1 rs2 : Reg) (s : State) : Result :=
  finishX rd (boolResult (binary64.lt (s.readF rs1) (s.readF rs2))) s

/-- R411. `FLE.D` (compare less than or equal, double): the destination is an integer register. -/
def execFleD (rd rs1 rs2 : Reg) (s : State) : Result :=
  finishX rd (boolResult (binary64.le (s.readF rs1) (s.readF rs2))) s

/-- R412. `FCLASS.D` (classify, double): no flag, also for a signaling NaN. -/
def execFclassD (rd rs1 : Reg) (s : State) : Result := writeAndAdvance rd (binary64.classify (s.readF rs1)) s

/-- R413. `FCVT.W.D` (convert double to signed 32-bit integer). -/
def execFcvtWD (rd rs1 : Reg) (rm : Rm) (s : State) : Result :=
  s.withRounding (.fcvtWD rd rs1 rm) rm fun m =>
    finishX rd (wordResult (binary64.toInt 32 true (s.readF rs1) m)) s

/-- R414. `FCVT.D.W` (convert signed 32-bit integer to double). -/
def execFcvtDW (rd rs1 : Reg) (rm : Rm) (s : State) : Result :=
  s.withRounding (.fcvtDW rd rs1 rm) rm fun m =>
    finishF rd (binary64.ofInt 64 (s.readXw rs1).toInt m) s

/-- R415. `FCVT.WU.D` (convert double to unsigned 32-bit integer): the 32-bit result is sign-extended. -/
def execFcvtWuD (rd rs1 : Reg) (rm : Rm) (s : State) : Result :=
  s.withRounding (.fcvtWuD rd rs1 rm) rm fun m =>
    finishX rd (wordResult (binary64.toInt 32 false (s.readF rs1) m)) s

/-- R416. `FCVT.D.WU` (convert unsigned 32-bit integer to double). -/
def execFcvtDWu (rd rs1 : Reg) (rm : Rm) (s : State) : Result :=
  s.withRounding (.fcvtDWu rd rs1 rm) rm fun m =>
    finishF rd (binary64.ofInt 64 ((s.readXw rs1).toNat : Int) m) s

/-- R417. `FCVT.L.D` (convert double to signed 64-bit integer). -/
def execFcvtLD (rd rs1 : Reg) (rm : Rm) (s : State) : Result :=
  s.withRounding (.fcvtLD rd rs1 rm) rm fun m =>
    finishX rd (binary64.toInt 64 true (s.readF rs1) m) s

/-- R418. `FCVT.D.L` (convert signed 64-bit integer to double). -/
def execFcvtDL (rd rs1 : Reg) (rm : Rm) (s : State) : Result :=
  s.withRounding (.fcvtDL rd rs1 rm) rm fun m =>
    finishF rd (binary64.ofInt 64 (s.readX rs1).toInt m) s

/-- R419. `FCVT.LU.D` (convert double to unsigned 64-bit integer). -/
def execFcvtLuD (rd rs1 : Reg) (rm : Rm) (s : State) : Result :=
  s.withRounding (.fcvtLuD rd rs1 rm) rm fun m =>
    finishX rd (binary64.toInt 64 false (s.readF rs1) m) s

/-- R420. `FCVT.D.LU` (convert unsigned 64-bit integer to double). -/
def execFcvtDLu (rd rs1 : Reg) (rm : Rm) (s : State) : Result :=
  s.withRounding (.fcvtDLu rd rs1 rm) rm fun m =>
    finishF rd (binary64.ofInt 64 ((s.readX rs1).toNat : Int) m) s

/-- R421. `FCVT.S.D` (convert double to single). -/
def execFcvtSD (rd rs1 : Reg) (rm : Rm) (s : State) : Result :=
  s.withRounding (.fcvtSD rd rs1 rm) rm fun m =>
    finishFs rd (binary64.convert binary32 32 (s.readF rs1) m) s

/-- R422. `FCVT.D.S` (convert single to double): always exact; the mode is still resolved (R341). -/
def execFcvtDS (rd rs1 : Reg) (rm : Rm) (s : State) : Result :=
  s.withRounding (.fcvtDS rd rs1 rm) rm fun m =>
    finishF rd (binary32.convert binary64 64 (s.readFs rs1) m) s

/-- R423. `FMV.X.D` (move double bits to integer register). -/
def execFmvXD (rd rs1 : Reg) (s : State) : Result := writeAndAdvance rd (s.readF rs1) s

/-- R424. `FMV.D.X` (move integer register bits to double). -/
def execFmvDX (rd rs1 : Reg) (s : State) : Result := moveF rd (s.readX rs1) s

end Sys2Proof.Machine
end

