-- ==== Sys2Proof/Machine/Float.lean ====
section
/-! DEFINITION. The single-precision instructions (47_float.md R354 to R383). -/

namespace Sys2Proof.Machine

/-- R354. `FLW` (load single-precision value): the bits are moved unchanged, boxed. -/
def execFlw (rd rs1 : Reg) (imm : Imm12) (s : State) : Result := loadSingle (.flw rd rs1 imm) rd rs1 imm s

/-- R355. `FSW` (store single-precision value): the raw low half, no NaN-box check. -/
def execFsw (rs1 rs2 : Reg) (imm : Imm12) (s : State) : Result := storeFloat 4 (.fsw rs1 rs2 imm) rs1 rs2 imm s

/-- R356. `FMADD.S` (fused multiply-add, single): (a * b) + c, one rounding. -/
def execFmaddS (rd rs1 rs2 rs3 : Reg) (rm : Rm) (s : State) : Result :=
  s.withRounding (.fmaddS rd rs1 rs2 rs3 rm) rm fun m =>
    finishFs rd (binary32.fma (s.readFs rs1) (s.readFs rs2) (s.readFs rs3) false false m) s

/-- R357. `FMSUB.S` (fused multiply-subtract, single): (a * b) - c, one rounding. -/
def execFmsubS (rd rs1 rs2 rs3 : Reg) (rm : Rm) (s : State) : Result :=
  s.withRounding (.fmsubS rd rs1 rs2 rs3 rm) rm fun m =>
    finishFs rd (binary32.fma (s.readFs rs1) (s.readFs rs2) (s.readFs rs3) false true m) s

/-- R358. `FNMSUB.S` (negated fused multiply-subtract, single): -(a * b) + c, one rounding. -/
def execFnmsubS (rd rs1 rs2 rs3 : Reg) (rm : Rm) (s : State) : Result :=
  s.withRounding (.fnmsubS rd rs1 rs2 rs3 rm) rm fun m =>
    finishFs rd (binary32.fma (s.readFs rs1) (s.readFs rs2) (s.readFs rs3) true false m) s

/-- R359. `FNMADD.S` (negated fused multiply-add, single): -(a * b) - c, one rounding. -/
def execFnmaddS (rd rs1 rs2 rs3 : Reg) (rm : Rm) (s : State) : Result :=
  s.withRounding (.fnmaddS rd rs1 rs2 rs3 rm) rm fun m =>
    finishFs rd (binary32.fma (s.readFs rs1) (s.readFs rs2) (s.readFs rs3) true true m) s

/-- R360. `FADD.S` (add, single). -/
def execFaddS (rd rs1 rs2 : Reg) (rm : Rm) (s : State) : Result :=
  s.withRounding (.faddS rd rs1 rs2 rm) rm fun m =>
    finishFs rd (binary32.add (s.readFs rs1) (s.readFs rs2) m) s

/-- R361. `FSUB.S` (subtract, single). -/
def execFsubS (rd rs1 rs2 : Reg) (rm : Rm) (s : State) : Result :=
  s.withRounding (.fsubS rd rs1 rs2 rm) rm fun m =>
    finishFs rd (binary32.sub (s.readFs rs1) (s.readFs rs2) m) s

/-- R362. `FMUL.S` (multiply, single). -/
def execFmulS (rd rs1 rs2 : Reg) (rm : Rm) (s : State) : Result :=
  s.withRounding (.fmulS rd rs1 rs2 rm) rm fun m =>
    finishFs rd (binary32.mul (s.readFs rs1) (s.readFs rs2) m) s

/-- R363. `FDIV.S` (divide, single). -/
def execFdivS (rd rs1 rs2 : Reg) (rm : Rm) (s : State) : Result :=
  s.withRounding (.fdivS rd rs1 rs2 rm) rm fun m =>
    finishFs rd (binary32.div (s.readFs rs1) (s.readFs rs2) m) s

/-- R364. `FSQRT.S` (square root, single). -/
def execFsqrtS (rd rs1 : Reg) (rm : Rm) (s : State) : Result :=
  s.withRounding (.fsqrtS rd rs1 rm) rm fun m =>
    finishFs rd (binary32.sqrt (s.readFs rs1) m) s

/-- R365. `FSGNJ.S` (sign injection, single). -/
def execFsgnjS (rd rs1 rs2 : Reg) (s : State) : Result :=
  moveFs rd (injectSign (fun _ b => b) (s.readFs rs1) (s.readFs rs2)) s

/-- R366. `FSGNJN.S` (sign injection, negated, single). -/
def execFsgnjnS (rd rs1 rs2 : Reg) (s : State) : Result :=
  moveFs rd (injectSign (fun _ b => !b) (s.readFs rs1) (s.readFs rs2)) s

/-- R367. `FSGNJX.S` (sign injection, exclusive or, single). -/
def execFsgnjxS (rd rs1 rs2 : Reg) (s : State) : Result :=
  moveFs rd (injectSign (fun a b => a ^^ b) (s.readFs rs1) (s.readFs rs2)) s

/-- R368. `FMIN.S` (minimum, single). -/
def execFminS (rd rs1 rs2 : Reg) (s : State) : Result :=
  finishFs rd (binary32.minMax false (s.readFs rs1) (s.readFs rs2)) s

/-- R369. `FMAX.S` (maximum, single). -/
def execFmaxS (rd rs1 rs2 : Reg) (s : State) : Result :=
  finishFs rd (binary32.minMax true (s.readFs rs1) (s.readFs rs2)) s

/-- R370. `FEQ.S` (compare equal, single): the destination is an integer register. -/
def execFeqS (rd rs1 rs2 : Reg) (s : State) : Result :=
  finishX rd (boolResult (binary32.eq (s.readFs rs1) (s.readFs rs2))) s

/-- R371. `FLT.S` (compare less than, single): the destination is an integer register. -/
def execFltS (rd rs1 rs2 : Reg) (s : State) : Result :=
  finishX rd (boolResult (binary32.lt (s.readFs rs1) (s.readFs rs2))) s

/-- R372. `FLE.S` (compare less than or equal, single): the destination is an integer register. -/
def execFleS (rd rs1 rs2 : Reg) (s : State) : Result :=
  finishX rd (boolResult (binary32.le (s.readFs rs1) (s.readFs rs2))) s

/-- R373. `FCLASS.S` (classify, single): no flag, also for a signaling NaN. -/
def execFclassS (rd rs1 : Reg) (s : State) : Result := writeAndAdvance rd (binary32.classify (s.readFs rs1)) s

/-- R374. `FCVT.W.S` (convert single to signed 32-bit integer). -/
def execFcvtWS (rd rs1 : Reg) (rm : Rm) (s : State) : Result :=
  s.withRounding (.fcvtWS rd rs1 rm) rm fun m =>
    finishX rd (wordResult (binary32.toInt 32 true (s.readFs rs1) m)) s

/-- R375. `FCVT.S.W` (convert signed 32-bit integer to single). -/
def execFcvtSW (rd rs1 : Reg) (rm : Rm) (s : State) : Result :=
  s.withRounding (.fcvtSW rd rs1 rm) rm fun m =>
    finishFs rd (binary32.ofInt 32 (s.readXw rs1).toInt m) s

/-- R376. `FCVT.WU.S` (convert single to unsigned 32-bit integer): the 32-bit result is sign-extended. -/
def execFcvtWuS (rd rs1 : Reg) (rm : Rm) (s : State) : Result :=
  s.withRounding (.fcvtWuS rd rs1 rm) rm fun m =>
    finishX rd (wordResult (binary32.toInt 32 false (s.readFs rs1) m)) s

/-- R377. `FCVT.S.WU` (convert unsigned 32-bit integer to single). -/
def execFcvtSWu (rd rs1 : Reg) (rm : Rm) (s : State) : Result :=
  s.withRounding (.fcvtSWu rd rs1 rm) rm fun m =>
    finishFs rd (binary32.ofInt 32 ((s.readXw rs1).toNat : Int) m) s

/-- R378. `FCVT.L.S` (convert single to signed 64-bit integer). -/
def execFcvtLS (rd rs1 : Reg) (rm : Rm) (s : State) : Result :=
  s.withRounding (.fcvtLS rd rs1 rm) rm fun m =>
    finishX rd (binary32.toInt 64 true (s.readFs rs1) m) s

/-- R379. `FCVT.S.L` (convert signed 64-bit integer to single). -/
def execFcvtSL (rd rs1 : Reg) (rm : Rm) (s : State) : Result :=
  s.withRounding (.fcvtSL rd rs1 rm) rm fun m =>
    finishFs rd (binary32.ofInt 32 (s.readX rs1).toInt m) s

/-- R380. `FCVT.LU.S` (convert single to unsigned 64-bit integer). -/
def execFcvtLuS (rd rs1 : Reg) (rm : Rm) (s : State) : Result :=
  s.withRounding (.fcvtLuS rd rs1 rm) rm fun m =>
    finishX rd (binary32.toInt 64 false (s.readFs rs1) m) s

/-- R381. `FCVT.S.LU` (convert unsigned 64-bit integer to single). -/
def execFcvtSLu (rd rs1 : Reg) (rm : Rm) (s : State) : Result :=
  s.withRounding (.fcvtSLu rd rs1 rm) rm fun m =>
    finishFs rd (binary32.ofInt 32 ((s.readX rs1).toNat : Int) m) s

/-- R382. `FMV.X.W` (move single bits to integer register): the raw low half, no NaN-box check. -/
def execFmvXW (rd rs1 : Reg) (s : State) : Result := writeAndAdvance rd (sext64 (low32 (s.readF rs1))) s

/-- R383. `FMV.W.X` (move integer register bits to single). -/
def execFmvWX (rd rs1 : Reg) (s : State) : Result := moveFs rd (s.readXw rs1) s

end Sys2Proof.Machine
end

