-- ==== Sys2Proof/Machine/LoadStore.lean ====
section
/-! DEFINITION. The integer loads and stores (44_load_store.md R265 to R275). -/

namespace Sys2Proof.Machine

/-- R265. `LB` (load byte, signed): Load(1, signed). -/
def execLb (rd rs1 : Reg) (imm : Imm12) (s : State) : Result := load 1 true (.lb rd rs1 imm) rd rs1 imm s

/-- R266. `LH` (load halfword, signed): Load(2, signed). -/
def execLh (rd rs1 : Reg) (imm : Imm12) (s : State) : Result := load 2 true (.lh rd rs1 imm) rd rs1 imm s

/-- R267. `LW` (load word, signed): Load(4, signed). -/
def execLw (rd rs1 : Reg) (imm : Imm12) (s : State) : Result := load 4 true (.lw rd rs1 imm) rd rs1 imm s

/-- R268. `LBU` (load byte, unsigned): Load(1, unsigned). -/
def execLbu (rd rs1 : Reg) (imm : Imm12) (s : State) : Result := load 1 false (.lbu rd rs1 imm) rd rs1 imm s

/-- R269. `LHU` (load halfword, unsigned): Load(2, unsigned). -/
def execLhu (rd rs1 : Reg) (imm : Imm12) (s : State) : Result := load 2 false (.lhu rd rs1 imm) rd rs1 imm s

/-- R270. `LWU` (load word, unsigned): Load(4, unsigned). -/
def execLwu (rd rs1 : Reg) (imm : Imm12) (s : State) : Result := load 4 false (.lwu rd rs1 imm) rd rs1 imm s

/-- R271. `LD` (load doubleword): Load(8, signed). -/
def execLd (rd rs1 : Reg) (imm : Imm12) (s : State) : Result := load 8 true (.ld rd rs1 imm) rd rs1 imm s

/-- R272. `SB` (store byte): Store(1). -/
def execSb (rs1 rs2 : Reg) (imm : Imm12) (s : State) : Result := store 1 (.sb rs1 rs2 imm) rs1 rs2 imm s

/-- R273. `SH` (store halfword): Store(2). -/
def execSh (rs1 rs2 : Reg) (imm : Imm12) (s : State) : Result := store 2 (.sh rs1 rs2 imm) rs1 rs2 imm s

/-- R274. `SW` (store word): Store(4). -/
def execSw (rs1 rs2 : Reg) (imm : Imm12) (s : State) : Result := store 4 (.sw rs1 rs2 imm) rs1 rs2 imm s

/-- R275. `SD` (store doubleword): Store(8). -/
def execSd (rs1 rs2 : Reg) (imm : Imm12) (s : State) : Result := store 8 (.sd rs1 rs2 imm) rs1 rs2 imm s

end Sys2Proof.Machine
end

