-- ==== Sys2Proof/Machine/System.lean ====
section
/-! DEFINITION. The system instructions (49_system.md R440 to R453). -/

namespace Sys2Proof.Machine

/-- R440. `FENCE` (memory fence): all five fields are ignored; rd is not written. -/
def execFence (_rd _rs1 : Reg) (_fm _pred _succ : BitVec 4) (s : State) : Result := .next s.advance

/-- R441. `FENCE.I` (instruction-fetch fence): a store is already visible to the next fetch (R81). -/
def execFenceI (_rd _rs1 : Reg) (_imm : Imm12) (s : State) : Result := .next s.advance

/-- R442. `ECALL` (environment call): the pc stays (R466; log 8). -/
def execEcall (s : State) : Result := .next (s.signalHost .environmentCall)

/-- R443. `EBREAK` (breakpoint): the pc stays (R465; log 8). -/
def execEbreak (s : State) : Result := .next (s.signalHost .breakpoint)

/-- R446. `URET` (return from user-level trap). -/
def execUret (s : State) : Result := .next s.trapReturn

/-- R444. `WFI` (wait for interrupt): there is no interrupt to wait for (R468). -/
def execWfi (s : State) : Result := .next s.advance

/-- R448. `CSRRW` (atomic read and write CSR): always writes. -/
def execCsrrw (rd : Reg) (csr : CsrAddr) (rs1 : Reg) (s : State) : Result :=
  csrAccess csr rd true (fun _ => s.readX rs1) s

/-- R449. `CSRRS` (atomic read and set bits in CSR): writes when the register index is not 0. -/
def execCsrrs (rd : Reg) (csr : CsrAddr) (rs1 : Reg) (s : State) : Result :=
  csrAccess csr rd (rs1 != 0) (fun old => old ||| s.readX rs1) s

/-- R450. `CSRRC` (atomic read and clear bits in CSR): writes when the register index is not 0. -/
def execCsrrc (rd : Reg) (csr : CsrAddr) (rs1 : Reg) (s : State) : Result :=
  csrAccess csr rd (rs1 != 0) (fun old => old &&& ~~~(s.readX rs1)) s

/-- R451. `CSRRWI` (atomic read and write CSR, immediate): always writes. -/
def execCsrrwi (rd : Reg) (csr : CsrAddr) (zimm : Zimm) (s : State) : Result :=
  csrAccess csr rd true (fun _ => immZ zimm) s

/-- R452. `CSRRSI` (atomic read and set bits in CSR, immediate): writes when zimm is not 0. -/
def execCsrrsi (rd : Reg) (csr : CsrAddr) (zimm : Zimm) (s : State) : Result :=
  csrAccess csr rd (zimm != 0) (fun old => old ||| immZ zimm) s

/-- R453. `CSRRCI` (atomic read and clear bits in CSR, immediate): writes when zimm is not 0. -/
def execCsrrci (rd : Reg) (csr : CsrAddr) (zimm : Zimm) (s : State) : Result :=
  csrAccess csr rd (zimm != 0) (fun old => old &&& ~~~(immZ zimm)) s

end Sys2Proof.Machine
end

