-- ==== Sys2Proof/Machine/Run.lean ====
section
/-! DEFINITION. Fetch, decode, execute: one instruction of the running hart (42_dispatch.md R162). -/

namespace Sys2Proof.Machine

/-- `simulate(statement)` of R159: the handler of the selected descriptor, run on the running hart; its outcome carries
the statement (R157). -/
def State.simulate (s : State) (d : Descriptor) (st : Statement) : Result :=
  match d.handler with
  | .spec h => carrying st (exec (h.instr (d.op st.operands)) s)
  | .custom n => s.runCustom n st

/-- `step(h)` of R162 for the running hart: fetch, decode, execute. -/
def State.runOne (s : State) : Result :=
  match s.fetch with
  | .error e => raise e
  | .ok w =>
    match s.catalog.selectFrom s.m64 w 0 with
    | none => raise (.illegalInstruction w s.running.pc)
    | some (n, d) => s.simulate d { descriptor := n, operands := d.extract w, hart := s.running.id }

end Sys2Proof.Machine
end

