-- ==== Sys2Proof/Machine/Turn.lean ====
section
/-! DEFINITION. Whose turn it is: the host's next move (R161, R474, R481; log 9), and the placing of a program word
(R493; log 15). -/

namespace Sys2Proof.Machine

/-- What the host's next move comes to. -/
inductive Turn where
  /-- The running hart of this state executes one instruction. -/
  | run (s : State)
  /-- The move is the whole step. -/
  | done (r : Result)
  deriving Repr

/-- Take the host's next move. With no move left the running hart steps on. A move that names no hart of the machine
is refused, which also refuses a mixture of `Default` and `Hart(i)` (R25); so is a resume of a hart that has returned
no signal (R474; log 11). A hart that is stepped, not resumed, after a signal executes the same instruction again. -/
def State.takeTurn (s : State) : Turn :=
  match s.moves with
  | [] => .run s.beginStep
  | .step h :: rest =>
    match { s with moves := rest }.select h with
    | none => .done (.refused (.noSuchHart h))
    | some t => .run t.beginStep
  | .resume h :: rest =>
    match { s with moves := rest }.select h with
    | none => .done (.refused (.noSuchHart h))
    | some t =>
      match t.running.signal with
      | none => .done (.refused (.nothingToResume h))
      | some _ => .done (.next t.resume)

/-- A region for the four bytes of one instruction. -/
def fetchRegion (a : Nat) : Region := { base := a, size := 4, load := false, store := false, fetch := true }

/-- The state with its pc moved down to a multiple of 4 of the address space, where a fetch can succeed (R493). -/
def State.alignPc (s : State) : State := s.setPc (s.running.pc &&& ~~~3)

/-- The state in which a fetch at the pc passes its check. -/
def State.makeFetchable (s : State) : State :=
  if s.accessOk .fetch s.running.pc 4 then s
  else
    let t := s.alignPc
    if t.accessOk .fetch t.running.pc 4 then t
    else { t with regions := fetchRegion t.running.pc.toNat :: t.regions }

/-- Place a program word, little-endian, where the running hart fetches next (R62, R493). The host's placing is no
store of a hart: it touches no reservation. -/
def State.placeWord (s : State) (w : Word) : State :=
  let t := s.makeFetchable
  { t with mem := t.mem.writeLe t.running.pc.toNat 4 w.toNat, moves := [] }

end Sys2Proof.Machine
end

