-- ==== Sys2Proof/Machine/Step.lean ====
section
/-! DEFINITION. One step of the machine (42_dispatch.md R162). -/

namespace Sys2Proof.Machine

/-- One step: the host's next move, and the instruction it makes a hart execute. -/
def step (s : State) : Host.Outcome State Fault Refusal :=
  match s.takeTurn with
  | .run t => t.runOne
  | .done r => r

/-- `s` with the instruction whose bits, as spec/opcode_table.json numbers them, are the low `nbits` bits of `w`, stored
where `step` fetches its next instruction. It stands for the load of a program from outside the machine (log 15). -/
def State.withFetchWord (s : State) (nbits w : Nat) : State := s.placeWord (BitVec.ofNat 32 (w % 2 ^ nbits))

end Sys2Proof.Machine
end

