-- ==== Sys2Proof/Machine/Launch.lean ====
section
/-! DEFINITION. The machine at the start of a run, from its launch parameters (R5, R46, R492, R493). -/

namespace Sys2Proof.Machine

/-- A memory that holds the bytes of an image, a later byte over an earlier one. -/
def Memory.ofImage (image : List Host.Cell) : Memory := image.foldl (fun m c => m.write c.1 c.2) { cells := [] }

/-- The registers of `CSR_SET` at their reset values (R41). -/
def extraAtReset (set : List CsrSpec) : List ExtraCsr := set.map fun c => { spec := c, value := keepLow c.width c.reset }

/-- Harts `Hart(n)`, `Hart(n+1)`, … at reset, one per pc. -/
def hartsFrom (m64 : Bool) (extra : List ExtraCsr) : Nat → List DWord → List Hart
  | _, [] => []
  | n, pc :: rest => Hart.atReset (.hart n) (toXlen m64 pc) extra :: hartsFrom m64 extra (n + 1) rest

/-- Why a launch is refused before any step. -/
inductive LaunchError where
  /-- `NUM_HARTS ≥ 1` (R5). -/
  | noHart
  /-- The catalog cannot be built, or is ambiguous (R23, R132, D27). -/
  | badCatalog (reason : CatalogError)
  deriving DecidableEq, Repr

/-- The harts of a launch, at reset. -/
def launchHarts (l : Launch) : List Hart :=
  match l.harts with
  | .single pc => [Hart.atReset .default (toXlen l.m64 pc) (extraAtReset l.csrSet)]
  | .multi pcs => hartsFrom l.m64 (extraAtReset l.csrSet) 0 pcs

/-- The state a launch starts from: the catalog built, every hart at reset, the image in memory, no host move made yet
(R46, R490, R493). A launch with no hart or with a catalog that cannot be built is refused. `Hart(0)` is the running
hart of a launch of several, so it steps first and on until the host moves; the spec leaves the choice of hart to the
host (R481, R496): DESIGN CHOICE, log 25. -/
def State.launch (l : Launch) : Except LaunchError State :=
  match l.catalog.build with
  | .error e => .error (.badCatalog e)
  | .ok catalog =>
    match launchHarts l with
    | [] => .error .noHart
    | h :: rest =>
      .ok { m64 := l.m64, catalog := catalog, regions := l.regions, running := h, parked := rest,
            mem := Memory.ofImage l.image, moves := [] }

end Sys2Proof.Machine
end

