-- ==== Sys2Proof/Safety.lean ====
section
/-! DEFINITION. The terms claims are made in: when an instruction completes, and the invariant every step keeps. -/

namespace Sys2Proof.Machine

/-- The instruction completes in this state: `exec` answers a next state. -/
def Completes (i : Instr) (s : State) : Prop := ∃ t, exec i s = .next t

/-- `k` steps from `s` end in a next state: no fault, no refusal. -/
def SafeRun : Nat → State → Prop
  | 0, _ => True
  | k + 1, s => ∃ t, step s = .next t ∧ SafeRun k t

/-- An `XLEN`-bit value in its 64-bit field (log 16). -/
def fitsXlen (m64 : Bool) (v : DWord) : Prop := toXlen m64 v = v

/-- A reservation as `LR` makes it: naturally aligned and inside the address space (R63, R303). -/
def Reservation.ok (m64 : Bool) (r : Reservation) : Prop :=
  r.addr.toNat % r.width.bytes = 0 ∧ r.addr.toNat + r.width.bytes ≤ 2 ^ xlen m64

/-- What every hart keeps: the slot behind `x0` is zero (R29); in 32-bit mode every stored register is the sign
extension of its low half (R28); pc and `uepc` are `XLEN` bits (R30, R40); `ustatus` has no bit but `UIE` and `UPIE`
(R39); bit 0 of `uepc` is 0 (R40); an added control register holds no bit beyond its width (R41); a reservation is one
that `LR` can make. -/
structure Hart.Ok (m64 : Bool) (h : Hart) : Prop where
  x0 : h.x.get 0 = 0
  extended : m64 = false → ∀ r : Fin 32, h.x.get r = sext64 (low32 (h.x.get r))
  pc : fitsXlen m64 h.pc
  ustatus : h.ustatus &&& ~~~0x11 = 0
  uepc : fitsXlen m64 h.uepc
  uepcBit0 : h.uepc.getLsbD 0 = false
  extra : ∀ e ∈ h.extra, keepLow e.spec.width e.value = e.value
  res : ∀ r, h.res = some r → r.ok m64

/-- The harts of the machine, the running one first. -/
def State.harts (s : State) : List Hart := s.running :: s.parked

/-- The identifiers of the harts. -/
def State.hartIds (s : State) : List HartId := s.harts.map (·.id)

/-- The two kinds of run R25 admits: one hart `Default`, or harts `Hart(0)` to `Hart(n-1)`, each once. -/
def idsOk (ids : List HartId) : Prop :=
  ids = [.default] ∨ ids.Perm ((List.range ids.length).map .hart)

/-- The catalog is one that was built: each derived value is its template's and no two descriptors overlap (R21, R23). -/
def Catalog.Built (c : Catalog) : Prop := c.build = .ok c

/-- The invariant of the machine: a built catalog, memory in its canonical form, every hart as above, the harts of one
run. -/
structure State.Inv (s : State) : Prop where
  catalog : Catalog.Built s.catalog
  memory : s.mem.wf
  harts : ∀ h ∈ s.harts, h.Ok s.m64
  ids : idsOk s.hartIds

/-! ### What an instruction keeps and what it writes: the terms of the per-instruction claims -/

/-- The six control-register instructions (R445). -/
def isCsr : Instr → Bool
  | .csrrw _ _ _ | .csrrs _ _ _ | .csrrc _ _ _ | .csrrwi _ _ _ | .csrrsi _ _ _ | .csrrci _ _ _ => true
  | _ => false

/-- The access an instruction makes to memory: whether it reads, whether it writes, where and how many bytes (R71). -/
structure DataAccess where
  reads : Bool
  writes : Bool
  addr : DWord
  width : Nat
  deriving DecidableEq, Repr

/-- The access of an instruction in a state, with the expression of its address (R260, R301, R303, R304); `none` for one
that makes none. A store-conditional makes its access only under a covering reservation (R304). -/
def State.dataAccess (s : State) : Instr → Option DataAccess
  | .lb _ rs1 imm | .lbu _ rs1 imm => some ⟨true, false, s.effAddr rs1 imm, 1⟩
  | .lh _ rs1 imm | .lhu _ rs1 imm => some ⟨true, false, s.effAddr rs1 imm, 2⟩
  | .lw _ rs1 imm | .lwu _ rs1 imm | .flw _ rs1 imm => some ⟨true, false, s.effAddr rs1 imm, 4⟩
  | .ld _ rs1 imm | .fld _ rs1 imm => some ⟨true, false, s.effAddr rs1 imm, 8⟩
  | .sb rs1 _ imm => some ⟨false, true, s.effAddr rs1 imm, 1⟩
  | .sh rs1 _ imm => some ⟨false, true, s.effAddr rs1 imm, 2⟩
  | .sw rs1 _ imm | .fsw rs1 _ imm => some ⟨false, true, s.effAddr rs1 imm, 4⟩
  | .sd rs1 _ imm | .fsd rs1 _ imm => some ⟨false, true, s.effAddr rs1 imm, 8⟩
  | .lrW _ rs1 _ _ => some ⟨true, false, s.readX rs1, 4⟩
  | .lrD _ rs1 _ _ => some ⟨true, false, s.readX rs1, 8⟩
  | .scW _ rs1 _ _ _ => some ⟨false, true, s.readX rs1, 4⟩
  | .scD _ rs1 _ _ _ => some ⟨false, true, s.readX rs1, 8⟩
  | .amoswapW _ rs1 _ _ _ | .amoaddW _ rs1 _ _ _ | .amoxorW _ rs1 _ _ _ | .amoandW _ rs1 _ _ _
  | .amoorW _ rs1 _ _ _ | .amominW _ rs1 _ _ _ | .amomaxW _ rs1 _ _ _ | .amominuW _ rs1 _ _ _
  | .amomaxuW _ rs1 _ _ _ => some ⟨true, true, s.readX rs1, 4⟩
  | .amoswapD _ rs1 _ _ _ | .amoaddD _ rs1 _ _ _ | .amoxorD _ rs1 _ _ _ | .amoandD _ rs1 _ _ _
  | .amoorD _ rs1 _ _ _ | .amominD _ rs1 _ _ _ | .amomaxD _ rs1 _ _ _ | .amominuD _ rs1 _ _ _
  | .amomaxuD _ rs1 _ _ _ => some ⟨true, true, s.readX rs1, 8⟩
  | _ => none

/-- The two store-conditionals (R304). -/
def isSc : Instr → Bool
  | .scW _ _ _ _ _ | .scD _ _ _ _ _ => true
  | _ => false

/-- `x[r]` read as a signed number of `XLEN` bits (R7, R27). -/
def State.signedX (s : State) (r : Reg) : Int := if s.m64 then (s.readX r).toInt else (low32 (s.readX r)).toInt

/-- What every instruction keeps that is no CSR instruction, no `URET` and no signal: the integer registers but `xs`,
the floating-point registers but `fs`, the identifier, `frm`, `ustatus`, `uepc`, the added control registers and the
signal of the hart, the width mode, the catalog, the valid addresses and the host's moves. -/
structure Frame (xs fs : List Reg) (s t : State) : Prop where
  x : ∀ q, q ∉ xs → t.stored q = s.stored q
  f : ∀ q, q ∉ fs → t.readF q = s.readF q
  id : t.running.id = s.running.id
  frm : t.running.frm = s.running.frm
  ustatus : t.running.ustatus = s.running.ustatus
  uepc : t.running.uepc = s.running.uepc
  extra : t.running.extra = s.running.extra
  signal : t.running.signal = s.running.signal
  m64 : t.m64 = s.m64
  catalog : t.catalog = s.catalog
  regions : t.regions = s.regions
  moves : t.moves = s.moves

/-- Memory reads as before at every address, and every hart's reservation and every other hart is as before. -/
structure MemoryKept (s t : State) : Prop where
  bytes : ∀ a, t.mem.read a = s.mem.read a
  res : t.running.res = s.running.res
  parked : t.parked = s.parked

/-- The instruction completes: it writes `v` to integer register `rd` (a write to `x0` is discarded, R29; in 32-bit mode
the register holds the sign extension, R28), raises the flags `fl`, goes to `pc`, and changes nothing else. -/
def WritesX (i : Instr) (s : State) (rd : Reg) (v : DWord) (fl : Flags) (pc : DWord) : Prop :=
  ∃ t, exec i s = .next t ∧
    t.stored rd = (if rd = 0 then 0 else if s.m64 then v else sext64 (low32 v)) ∧
    t.running.pc = pc ∧ t.running.fflags = s.running.fflags ||| fl ∧ Frame [rd] [] s t ∧ MemoryKept s t

/-- The instruction completes: it writes the 64 bits `v` to floating-point register `rd`, raises the flags `fl`, goes
on to the next instruction, and changes nothing else. -/
def WritesF (i : Instr) (s : State) (rd : Reg) (v : DWord) (fl : Flags) : Prop :=
  ∃ t, exec i s = .next t ∧ t.readF rd = v ∧ t.running.pc = s.nextPc ∧
    t.running.fflags = s.running.fflags ||| fl ∧ Frame [] [rd] s t ∧ MemoryKept s t

/-- The instruction completes: it goes to `pc` and changes nothing else. -/
def GoesTo (i : Instr) (s : State) (pc : DWord) : Prop :=
  ∃ t, exec i s = .next t ∧ t.running.pc = pc ∧ t.running.fflags = s.running.fflags ∧ Frame [] [] s t ∧
    MemoryKept s t

/-- A single in a register: NaN-boxed (R34). -/
def boxed (v : Word) : DWord := 0xFFFFFFFF#32 ++ v

/-- Memory after `n` bytes of `v` were stored at `a`: these bytes, and every other as before (R62, R73). -/
structure StoredAt (a n v : Nat) (s t : State) : Prop where
  inside : ∀ k, k < n → t.mem.read (a + k) = BitVec.ofNat 8 (v / 256 ^ k)
  outside : ∀ b, b < a ∨ a + n ≤ b → t.mem.read b = s.mem.read b

/-- A reservation before and after `n` bytes were written at `a`: lost if they share a byte with it, kept if not
(R69, R70). -/
def ClearedByWrite (a n : Nat) (before after : Option Reservation) : Prop :=
  (∀ r, before = some r → r.addr.toNat < a + n → a < r.addr.toNat + r.width.bytes → after = none) ∧
  (∀ r, before = some r → (a + n ≤ r.addr.toNat ∨ r.addr.toNat + r.width.bytes ≤ a) → after = some r) ∧
  (before = none → after = none)

/-- The other harts after `n` bytes were written at `a`: each is as before but for its reservation (R69, R480). -/
def ParkedAfterWrite (a n : Nat) (s t : State) : Prop :=
  t.parked.length = s.parked.length ∧
  ∀ (k : Nat) (h h' : Hart), s.parked[k]? = some h → t.parked[k]? = some h' →
    h' = { h with res := h'.res } ∧ ClearedByWrite a n h.res h'.res

/-- The instruction completes: it stores the low `n` bytes of `v` at `ea`, clears the reservations this overlaps, goes
on to the next instruction, and changes nothing else. -/
def StoresTo (i : Instr) (s : State) (ea n v : Nat) : Prop :=
  ∃ t, exec i s = .next t ∧ t.running.pc = s.nextPc ∧ t.running.fflags = s.running.fflags ∧ Frame [] [] s t ∧
    StoredAt ea n v s t ∧ ClearedByWrite ea n s.running.res t.running.res ∧ ParkedAfterWrite ea n s t

/-- The operand of the field with this letter, if the instruction's descriptor has one (R93, R142). -/
def operandOf (letter : Char) (i : Instr) : Option Nat :=
  ((i.descriptor.fields.zip i.operands).find? fun fv => fv.1.letter == letter).map (·.2)

end Sys2Proof.Machine
end

