-- ==== Sys2Proof/Certificates/Slice0/Obligations.lean ====
section
/-! DEFINITION. The statements of this model. Each names the rules of spec/ it rests on. -/

open Sys2Proof Sys2Proof.Machine

/-! ### Decoding and encoding -/

/-- 42_dispatch.md R152, R164; 41_extractor.md R143. Every instruction a width mode admits decodes from its own word,
with every operand at every value its field can hold. -/
def Obligations.DecodeOfEncode : Prop :=
  ∀ (m64 : Bool) (i : Instr), i.wellFormed m64 = true → decode m64 (encode i) = .ok i

/-- 42_dispatch.md R151, R152. A word that decodes is the encoding of its instruction: no bit of it is ignored, and in
32-bit mode it is no 64-bit instruction's. -/
def Obligations.EncodeOfDecode : Prop :=
  ∀ (m64 : Bool) (w : Word) (i : Instr), decode m64 w = .ok i → encode i = w ∧ i.wellFormed m64 = true

/-- 40_matcher.md R135, 42_dispatch.md R164, R156 and 41_extractor.md R146, for every descriptor of every catalog that
can be built: the fixed bits of a descriptor with any bits at its field positions are accepted by it and select it,
the operands are the field values, and the block's outputs are these, in `MAXF` slots of 32 bits with zeros in the
unused ones. On an illegal word `illegal` is 1; that no slot is used then is the model's choice (log 22). -/
def Obligations.RoundTripEveryDescriptor : Prop :=
  ∀ (given built : Catalog), given.build = .ok built → ∀ (m64 : Bool) (w : Word),
    (∀ (n : Nat) (d : Descriptor) (v : Word), built[n]? = some d → d.enabled m64 = true →
      v = (w &&& ~~~d.mask) ||| d.value →
      d.accepts v = true ∧ built.decode v m64 = some { descriptor := n, operands := d.extract w } ∧
      (built.outputs v m64).illegal = false ∧ (built.outputs v m64).sel = some n ∧
      (built.outputs v m64).nops = d.fields.length ∧ d.fields.length ≤ built.maxFields ∧
      ∀ k, (built.outputs v m64).operand[k]? =
        if k < built.maxFields then some (BitVec.ofNat 32 ((d.extract w).getD k 0)) else none) ∧
    (built.decode w m64 = none → built.outputs w m64 =
      { illegal := true, sel := none, nops := 0, operand := List.replicate built.maxFields 0 })

/-- 42_dispatch.md R165: no two of the 161 descriptors overlap, in either width mode. -/
def Obligations.CatalogUnambiguous : Prop :=
  refCatalog.length = 161 ∧ Catalog.unambiguous refCatalog true ∧ Catalog.unambiguous refCatalog false

/-- 42_dispatch.md R152, for every catalog that can be built: `decode` answers the index of the first enabled descriptor
whose (mask, match) accepts the word, with the operands extracted by its template, and IllegalInstruction when there is
none; in another order of the catalog it selects the same descriptor. -/
def Obligations.SelectionRule : Prop :=
  ∀ (given built : Catalog), given.build = .ok built → ∀ (m64 : Bool) (w : Word),
    (∀ (n : Nat) (ops : List Nat), built.decode w m64 = some { descriptor := n, operands := ops } ↔
      (∃ d, built[n]? = some d ∧ (d.requires64 = false ∨ m64 = true) ∧ w &&& d.mask = d.value ∧
        ops = extract w d.template) ∧
      ∀ k e, k < n → built[k]? = some e → ¬((e.requires64 = false ∨ m64 = true) ∧ w &&& e.mask = e.value)) ∧
    (built.decode w m64 = none ↔
      ∀ d ∈ built, ¬((d.requires64 = false ∨ m64 = true) ∧ w &&& d.mask = d.value)) ∧
    ∀ c' : Catalog, c'.Perm built →
      (c'.selectFrom m64 w 0).map Prod.snd = (built.selectFrom m64 w 0).map Prod.snd ∧
      c'.decodeInstr m64 w = built.decodeInstr m64 w

/-- 10_state.md R23: the overlap test answers whether one word is accepted by both. The premises are what `compile`
gives (R131: "match & ~mask == 0"). A catalog whose templates compile is built exactly when no word is accepted by two
of its descriptors, and refused as ambiguous otherwise. -/
def Obligations.OverlapExactly : Prop :=
  (∀ a b : Descriptor, a.value &&& ~~~a.mask = 0 → b.value &&& ~~~b.mask = 0 →
    (a.overlaps b = true ↔ ∃ w, a.accepts w = true ∧ b.accepts w = true)) ∧
  ∀ given built : Catalog, given.compileAll = .ok built →
    (given.build = .ok built ∨ given.build = .error .ambiguous) ∧
    (given.build = .ok built ↔
      ∀ (i j : Nat) (a b : Descriptor) (w : Word), i ≠ j → built[i]? = some a → built[j]? = some b →
        a.accepts w = true → b.accepts w = false)

/-- 40_matcher.md R131, R132, 41_extractor.md R141, 10_state.md R20, R21: in every catalog that can be built the mask,
the match and the field list of every descriptor are those of its template, and its other fields are as they were
given; a template of other than 32 significant characters is refused. The reference catalog can be built and its rows
are what building gives. The sign-extension mark of a field is the model's reading (log 23). -/
def Obligations.CompiledFromTemplates : Prop :=
  (∀ given built : Catalog, given.build = .ok built →
    built.length = given.length ∧
    ∀ (n : Nat) (d e : Descriptor), given[n]? = some d → built[n]? = some e →
      e = { d with mask := e.mask, value := e.value, fields := e.fields } ∧
      compile e.template = .ok (e.mask, e.value) ∧
      fieldsOf e.template = e.fields.map fun f => (f.letter, f.positions)) ∧
  (∀ given : Catalog, (∃ d ∈ given, (significant d.template).length ≠ 32) → ∃ e, given.build = .error e) ∧
  refCatalog.build = .ok refCatalog

/-- 41_extractor.md R140, R143: a field's value is the sum of the word's bits at its positions, the first position the
most significant; over adjacent positions it is that slice of the word, so bits [31:20] holding 0x800 give 0x800.
`extract` gives these values of the template's fields, and the operands of a descriptor of a built catalog are those. -/
def Obligations.ExtractedFields : Prop :=
  (∀ (w : Word) (p : List Nat),
    gather w p = ((List.range p.length).map fun j => (w.getLsbD (p.getD j 0)).toNat <<< (p.length - 1 - j)).sum ∧
    gather w p < 2 ^ p.length) ∧
  (∀ (w : Word) (hi lo : Nat), lo ≤ hi →
    gather w ((List.range (hi - lo + 1)).map fun j => hi - j) = (w.extractLsb' lo (hi - lo + 1)).toNat) ∧
  (∀ (w : Word) (template : String), extract w template = (fieldsOf template).map fun f => gather w f.2) ∧
  ∀ given built : Catalog, given.build = .ok built → ∀ d ∈ built, ∀ w : Word, d.extract w = extract w d.template

/-- Words of 95_test_vectors.md sections 2.2 and 2.3 decode to the instructions they stand for. -/
def Obligations.SampleWordsDecode : Prop :=
  decode false 0x00730333 = .ok (.add 6 6 7) ∧
  decode true 0x0073033B = .ok (.addw 6 6 7) ∧
  decode false 0x0073033B = .error .illegalInstruction ∧
  decode false 0xFFF30293 = .ok (.addi 5 6 0xFFF) ∧
  decode true 0x02051513 = .ok (.slliHi 10 10 0) ∧
  decode false 0x800002B7 = .ok (.lui 5 0x80000) ∧
  decode true 0x00853283 = .ok (.ld 5 10 8) ∧
  decode false 0xFE552E23 = .ok (.sw 10 5 0xFFC) ∧
  decode false 0xFE628CE3 = .ok (.beq 5 6 0xFF9) ∧
  decode false 0x001000EF = .ok (.jal 1 0x100) ∧
  decode false 0x067522AF = .ok (.amoaddW 5 10 7 1 1) ∧
  decode false 0x203170C3 = .ok (.fmaddS 1 2 3 4 7) ∧
  decode true 0xC02092D3 = .ok (.fcvtLS 5 1 1) ∧
  decode false 0x8330000F = .ok (.fence 0 0 8 3 3) ∧
  decode false 0x0021D2F3 = .ok (.csrrwi 5 2 3) ∧
  decode false 0x00200073 = .ok .uret ∧
  decode true 0x30200073 = .error .illegalInstruction

/-- 60_exceptions.md R462, 42_dispatch.md R153, 30_encoding.md R113. A word is illegal over a catalog exactly when no
enabled descriptor accepts it, and every other word decodes: to an instruction, or to a custom handler where the
descriptor names one (log 24). Over the reference catalog no word decodes to a custom handler, and words whose bits 1:0
are not 11, all zeros and all ones are illegal (the spec's own inference). IllegalInstruction comes from the decode of a
fetched word, with the word and its address, and from no handler, custom ones included; that a step with no host move
left runs the running hart is the model's choice (log 9). -/
def Obligations.IllegalExactly : Prop :=
  (∀ (c : Catalog) (m64 : Bool) (w : Word),
    (c.decodeInstr m64 w = .error .illegalInstruction ↔ ∀ d ∈ c, d.enabled m64 = true → d.accepts w = false) ∧
    (c.decodeInstr m64 w = .error .illegalInstruction ∨ (∃ i, c.decodeInstr m64 w = .ok i) ∨
      ∃ k, c.decodeInstr m64 w = .error (.customHandler k))) ∧
  (∀ (m64 : Bool) (w : Word), decode m64 w = .error .illegalInstruction ∨ ∃ i, decode m64 w = .ok i) ∧
  (∀ (m64 : Bool) (w : Word), w.extractLsb' 0 2 ≠ 3#2 ∨ w = 0#32 ∨ w = 0xFFFFFFFF#32 →
    decode m64 w = .error .illegalInstruction) ∧
  (∀ (i : Instr) (s : State) (w : Word) (a : DWord), exec i s ≠ .fault (.illegalInstruction w a)) ∧
  (∀ (k : Nat) (st : Statement) (s : State) (w : Word) (a : DWord),
    s.runCustom k st ≠ .fault (.illegalInstruction w a)) ∧
  ∀ (s : State) (w : Word) (a : DWord), s.moves = [] →
    (step s = .fault (.illegalInstruction w a) ↔
      s.fetch = .ok w ∧ a = s.running.pc ∧ s.catalog.decodeInstr s.m64 w = .error .illegalInstruction)

/-! ### The step and the host -/

/-- 42_dispatch.md R162, R157, R159. When the four bytes at a fetchable pc decode to `i` over the machine's catalog, a
step of the running hart is `exec` of `i` with the pc still at `i` and no signal pending (log 8), whether the host's
list of moves is empty (log 9) or names this hart; an outcome that carries a statement carries the descriptor index and
the operand array that were decoded and the hart (`carrying`; log 12), which over the reference catalog is the statement
`exec` gives. When they decode to a custom handler, the step is that of the handler on this statement (log 24). When
they are illegal, the step raises IllegalInstruction with the word and its address (R462). -/
def Obligations.StepRunsDecoded : Prop :=
  ∀ (s u : State) (rest : List HostMove) (w : Word),
    s.moves = [] ∨ s.moves = .step s.running.id :: rest →
    s.running.pc.toNat % 4 = 0 → s.memValid .fetch s.running.pc.toNat 4 = true →
    w = wordOfBytes (s.mem.read s.running.pc.toNat) (s.mem.read (s.running.pc.toNat + 1))
      (s.mem.read (s.running.pc.toNat + 2)) (s.mem.read (s.running.pc.toNat + 3)) →
    u = { s with moves := s.moves.tail, running := { s.running with signal := none } } →
    (∀ i n ops, s.catalog.decodeInstr s.m64 w = .ok i →
      s.catalog.decode w s.m64 = some { descriptor := n, operands := ops } →
      step s = carrying { descriptor := n, operands := ops, hart := s.running.id } (exec i u)) ∧
    (∀ i, s.catalog.decodeInstr s.m64 w = .ok i →
      (∃ n ops, s.catalog.decode w s.m64 = some { descriptor := n, operands := ops }) ∧
      (s.catalog = refCatalog → step s = exec i u)) ∧
    (∀ k n ops, s.catalog.decodeInstr s.m64 w = .error (.customHandler k) →
      s.catalog.decode w s.m64 = some { descriptor := n, operands := ops } →
      step s = u.runCustom k { descriptor := n, operands := ops, hart := s.running.id }) ∧
    (s.catalog.decodeInstr s.m64 w = .error .illegalInstruction →
      step s = .fault (.illegalInstruction w s.running.pc))

/-- 20_memory.md R80. A fetch reads the four bytes at the pc, little-endian; at a pc that is no multiple of 4 or not
valid for a fetch the step raises AddressError of kind Fetch, with no statement. -/
def Obligations.FetchRules : Prop :=
  ∀ s : State,
    (s.running.pc.toNat % 4 = 0 → s.memValid .fetch s.running.pc.toNat 4 = true →
      s.fetch = .ok (wordOfBytes (s.mem.read s.running.pc.toNat) (s.mem.read (s.running.pc.toNat + 1))
        (s.mem.read (s.running.pc.toNat + 2)) (s.mem.read (s.running.pc.toNat + 3)))) ∧
    (s.moves = [] → (s.running.pc.toNat % 4 ≠ 0 ∨ s.memValid .fetch s.running.pc.toNat 4 = false) →
      step s = .fault (.addressError .fetch s.running.pc none))

/-- 60_exceptions.md R474, R481, 42_dispatch.md R161. The host's choice of a hart brings exactly that hart to run, keeps
all harts and all else, and is refused when there is no such hart; stepping it runs one instruction of it; resuming it
after a signal moves its pc on by 4 and changes nothing else. A move that names no hart, and a resume of a hart with no
signal pending, are refused by name. How the moves are held and refused is the model's choice (logs 8, 9, 11, 20). -/
def Obligations.HostMoves : Prop :=
  ∀ (s : State) (a : HartId),
    (s.select a = none ↔ a ∉ s.hartIds) ∧
    (∀ t, s.select a = some t → t.running.id = a ∧ t.harts.Perm s.harts ∧ t.mem = s.mem ∧ t.m64 = s.m64 ∧
      t.catalog = s.catalog ∧ t.regions = s.regions ∧ t.moves = s.moves) ∧
    (∀ rest t, s.moves = .step a :: rest → State.select { s with moves := rest } a = some t →
      step s = State.runOne { t with running := { t.running with signal := none } }) ∧
    (∀ rest t g, s.moves = .resume a :: rest → State.select { s with moves := rest } a = some t →
      t.running.signal = some g →
      step s = .next { t with running := { t.running with pc := toXlen t.m64 (t.running.pc + 4), signal := none } }) ∧
    (∀ rest, s.moves = .step a :: rest ∨ s.moves = .resume a :: rest → a ∉ s.hartIds →
      step s = .refused (.noSuchHart a)) ∧
    (∀ rest t, s.moves = .resume a :: rest → State.select { s with moves := rest } a = some t →
      t.running.signal = none → step s = .refused (.nothingToResume a))

/-! ### The invariant -/

/-- Every step keeps the invariant: a built catalog (R21, R23), memory in canonical form, `x0` zero (R29), registers
in 32-bit mode sign-extended (R28), pc and `uepc` of `XLEN` bits, the bits of `ustatus` and `uepc` that read as zero
clear (R39, R40), reservations aligned and inside the address space (R63, R303), the harts one of the two kinds of run
(R25). -/
def Obligations.StepKeepsInv : Prop :=
  ∀ s t : State, s.Inv → step s = .next t → t.Inv

/-- The invariant holds at reset. Reset is the default launch: the default catalog of R5 and the model's choice of the
OPEN parameters (logs 1, 2, 4, 5, 6, 7). -/
def Obligations.InvAtReset : Prop :=
  State.reset.Inv ∧ State.launch Launch.default = .ok State.reset

/-- 10_state.md R23, R46, 70_reset_and_hazards.md R490, R492, R493. Every launch starts in a state that meets the
invariant, with its catalog built, every register of every hart at the value of R46, each hart at its `RESET_PC`, and
the image in memory; a launch whose catalog cannot be built is refused, and no other is but one without harts. The
zeros are the spec's own decision (D20; log 7), the order of the harts, `Hart(0)` running, is the model's (log 25). -/
def Obligations.LaunchStates : Prop :=
  ∀ (l : Launch),
    (∀ e, l.catalog.build = .error e → State.launch l = .error (.badCatalog e)) ∧
    (∀ c, l.catalog.build = .ok c → l.harts ≠ .multi [] → ∃ t, State.launch l = .ok t) ∧
    ∀ t : State, State.launch l = .ok t →
    t.Inv ∧ t.m64 = l.m64 ∧ l.catalog.build = .ok t.catalog ∧ t.regions = l.regions ∧
    (∀ h ∈ t.harts, (∀ r : Reg, h.stored r = 0) ∧ (∀ k : Fin 32, h.f[k] = 0) ∧ h.fflags = 0 ∧ h.frm = 0 ∧
      h.ustatus = 0 ∧ h.uepc = 0 ∧ h.res = none ∧ h.signal = none) ∧
    (∀ pc, l.harts = .single pc → t.hartIds = [.default] ∧ t.harts.map (·.pc) = [toXlen l.m64 pc]) ∧
    (∀ pcs, l.harts = .multi pcs →
      t.hartIds = (List.range pcs.length).map .hart ∧ t.harts.map (·.pc) = pcs.map (toXlen l.m64)) ∧
    (∀ a v, (a, v) ∈ l.image → (l.image.map Prod.fst).Nodup → t.mem.read a = v) ∧
    (∀ a, a ∉ l.image.map Prod.fst → t.mem.read a = unlistedByte)

/-! ### What holds of every instruction -/

/-- 70_reset_and_hazards.md R490, 20_memory.md R61: a step changes neither the width mode nor the catalog nor the valid
addresses. -/
def Obligations.ModeAndMapConstant : Prop :=
  ∀ s t : State, step s = .next t → t.m64 = s.m64 ∧ t.catalog = s.catalog ∧ t.regions = s.regions

/-- 60_exceptions.md R480, 20_memory.md R69: an instruction changes nothing of another hart but a reservation that
overlaps the bytes the instruction itself writes. A form that writes no memory leaves the other harts as they were; a
store or an atomic memory operation clears exactly the reservations its own bytes overlap; a store-conditional does that
or, where it fails, leaves them. A custom handler, whatever it answers, changes nothing of another hart but to clear a
reservation, and none where it writes no memory (log 24). -/
def Obligations.OtherHartsOnlyLoseReservations : Prop :=
  (∀ (i : Instr) (s t : State), exec i s = .next t →
    t.running.id = s.running.id ∧
    ((∀ d, s.dataAccess i = some d → d.writes = false) → t.parked = s.parked) ∧
    ∀ d, s.dataAccess i = some d → d.writes = true →
      (s.accessOk .store d.addr d.width = true ∧ ParkedAfterWrite d.addr.toNat d.width s t) ∨
      (isSc i = true ∧ t.running.res = none ∧ t.mem = s.mem ∧ t.parked = s.parked)) ∧
  ∀ (o : HandlerOutcome) (st : Statement) (s t : State), s.finish st o = .next t →
    t.running.id = s.running.id ∧ t.parked.length = s.parked.length ∧
    (∀ (k : Nat) (h h' : Hart), s.parked[k]? = some h → t.parked[k]? = some h' →
      h' = { h with res := h'.res } ∧ (h'.res = h.res ∨ h'.res = none)) ∧
    (∀ ws, o = .ok ws → (∀ a n v, .mem a n v ∉ ws) → t.parked = s.parked ∧ t.mem = s.mem)

/-- 10_state.md R36, R37, R39, R40, 47_float.md R343: only a CSR instruction clears a flag or writes `frm`, `uepc` or
an added control register; `ustatus` is written by CSR instructions and `URET` alone. -/
def Obligations.ControlRegistersKept : Prop :=
  ∀ (i : Instr) (s t : State), exec i s = .next t → isCsr i = false →
    s.running.fflags &&& t.running.fflags = s.running.fflags ∧
    t.running.frm = s.running.frm ∧ t.running.uepc = s.running.uepc ∧ t.running.extra = s.running.extra ∧
    (i ≠ .uret → t.running.ustatus = s.running.ustatus)

/-- 60_exceptions.md R464, 47_float.md R340, R341. InvalidRoundingMode is raised exactly by an instruction with a `p`
field that is 5 or 6, or is 7 while `frm` holds 5, 6 or 7, and carries the statement; 36 descriptors have the field; any
other selector resolves to the mode of its code, 7 to that of `frm`. -/
def Obligations.InvalidRoundingExactly : Prop :=
  (∀ (s : State) (p : Rm) (m : RoundingMode),
    s.resolveRm p = some m ↔
      (if p = 7 then s.running.frm.toNat else p.toNat) =
        (match m with
        | .rne => 0
        | .rtz => 1
        | .rdn => 2
        | .rup => 3
        | .rmm => 4)) ∧
  (refCatalog.filter fun d => d.fields.any fun f => f.letter == 'p').length = 36 ∧
  ∀ (i : Instr) (s : State) (st : Statement),
    exec i s = .fault (.invalidRoundingMode st) ↔
      st = s.statement i ∧
      ∃ p, operandOf 'p' i = some p ∧ (p = 5 ∨ p = 6 ∨ (p = 7 ∧ 5 ≤ s.running.frm.toNat))

/-- 60_exceptions.md R463. An AddressError of an instruction carries the statement and the address of the instruction's
own access; it is of kind Load where the access reads, of kind Store where it writes, and that address is no multiple of
the access size or not valid for the kind. An access that reads and writes is of kind Store only where its read is
good. -/
def Obligations.AddressErrorCause : Prop :=
  ∀ (i : Instr) (s : State) (k : AccessKind) (a : DWord) (st : Option Statement),
    exec i s = .fault (.addressError k a st) →
      st = some (s.statement i) ∧
      ∃ d, s.dataAccess i = some d ∧ a = d.addr ∧
        ((k = .load ∧ d.reads = true) ∨
          (k = .store ∧ d.writes = true ∧ (d.reads = true → s.accessOk .load d.addr d.width = true))) ∧
        (a.toNat % d.width ≠ 0 ∨ s.memValid k a.toNat d.width = false)

/-- 49_system.md R447. An instruction is refused exactly when it is a CSR instruction whose address is none of the five
and none of `CSR_SET`. -/
def Obligations.RefusedExactly : Prop :=
  ∀ (i : Instr) (s : State) (r : Refusal),
    exec i s = .refused r ↔
      isCsr i = true ∧ ∃ c : CsrAddr, operandOf 'c' i = some c.toNat ∧ r = .unknownCsr c ∧
        c ∉ ([0x000, 0x001, 0x002, 0x003, 0x041] : List CsrAddr) ∧
        ∀ e ∈ s.running.extra, e.spec.addr ≠ c

/-! ### Registers and memory -/

/-- 10_state.md R27, R28, R29, R33, R34. A written register reads back at `XLEN` bits and is stored sign-extended; `x0`
stays zero; a single is boxed, and a register that is not boxed reads as the canonical NaN; no other register
changes. -/
def Obligations.RegisterFile : Prop :=
  ∀ (s : State) (r q : Reg) (v : DWord) (w : Word),
    s.readX 0 = 0 ∧
    (s.writeX r v).readX r = (if r = 0 then 0 else toXlen s.m64 v) ∧
    (r ≠ 0 → s.m64 = false → (s.writeX r v).stored r = (v.setWidth 32).signExtend 64) ∧
    (q ≠ r → (s.writeX r v).stored q = s.stored q ∧ (s.writeF r v).readF q = s.readF q) ∧
    (s.writeF r v).readF r = v ∧
    (s.writeFs r w).readF r = 0xFFFFFFFF#32 ++ w ∧ (s.writeFs r w).readFs r = w ∧
    ((s.readF r).extractLsb' 32 32 ≠ 0xFFFFFFFF#32 → s.readFs r = 0x7FC00000) ∧
    ((s.readF r).extractLsb' 32 32 = 0xFFFFFFFF#32 → s.readFs r = (s.readF r).extractLsb' 0 32)

/-- 20_memory.md R62: a narrow access to part of a wider stored value sees the bytes at its addresses, least significant
first; the rule's own example is the last line. The premise is the canonical form, which every step keeps. -/
def Obligations.NarrowAccessSeesStoredBytes : Prop :=
  ∀ (m : Memory) (a : Nat), m.wf →
    (∀ n v k j, k + j ≤ n → (m.writeLe a n v).readLe (a + k) j = v / 256 ^ k % 256 ^ j) ∧
    (m.writeLe a 4 0x11223344).readLe a 1 = 0x44 ∧ (m.writeLe a 4 0x11223344).readLe (a + 2) 2 = 0x1122

/-! ### Integer instructions (43_arithmetic.md) -/

/-- R180, R181, R183 to R185, R188, R189, with R170 and R178: results, frames and completion of `ADD`, `SUB`, `XOR`,
`OR`, `AND`, `SLT`, `SLTU` in both width modes. -/
def Obligations.AddLogicCompare : Prop :=
  ∀ (s : State) (rd rs1 rs2 : Reg),
    WritesX (.add rd rs1 rs2) s rd (s.readX rs1 + s.readX rs2) noFlags s.nextPc ∧
    WritesX (.sub rd rs1 rs2) s rd (s.readX rs1 - s.readX rs2) noFlags s.nextPc ∧
    WritesX (.xor rd rs1 rs2) s rd (s.readX rs1 ^^^ s.readX rs2) noFlags s.nextPc ∧
    WritesX (.or rd rs1 rs2) s rd (s.readX rs1 ||| s.readX rs2) noFlags s.nextPc ∧
    WritesX (.and rd rs1 rs2) s rd (s.readX rs1 &&& s.readX rs2) noFlags s.nextPc ∧
    WritesX (.slt rd rs1 rs2) s rd (if s.signedX rs1 < s.signedX rs2 then 1 else 0) noFlags s.nextPc ∧
    WritesX (.sltu rd rs1 rs2) s rd (if (s.readX rs1).toNat < (s.readX rs2).toNat then 1 else 0) noFlags s.nextPc

/-- R182, R186, R187: the shifts by the low 5 or 6 bits of the second register. -/
def Obligations.Shifts : Prop :=
  ∀ (s : State) (rd rs1 rs2 : Reg) (k : Nat), k = (s.readX rs2).toNat % xlen s.m64 →
    WritesX (.sll rd rs1 rs2) s rd (s.readX rs1 <<< k) noFlags s.nextPc ∧
    WritesX (.srl rd rs1 rs2) s rd (s.readX rs1 >>> k) noFlags s.nextPc ∧
    WritesX (.sra rd rs1 rs2) s rd (.ofInt 64 (s.signedX rs1 / 2 ^ k)) noFlags s.nextPc

/-- R190 to R193: the low half and the three high halves of the exact product. -/
def Obligations.Multiply : Prop :=
  ∀ (s : State) (rd rs1 rs2 : Reg),
    WritesX (.mul rd rs1 rs2) s rd (.ofInt 64 (s.signedX rs1 * s.signedX rs2)) noFlags s.nextPc ∧
    WritesX (.mulh rd rs1 rs2) s rd (.ofInt 64 (s.signedX rs1 * s.signedX rs2 / 2 ^ xlen s.m64)) noFlags s.nextPc ∧
    WritesX (.mulhsu rd rs1 rs2) s rd (.ofInt 64 (s.signedX rs1 * ((s.readX rs2).toNat : Int) / 2 ^ xlen s.m64))
      noFlags s.nextPc ∧
    WritesX (.mulhu rd rs1 rs2) s rd (.ofNat 64 ((s.readX rs1).toNat * (s.readX rs2).toNat / 2 ^ xlen s.m64)) noFlags
      s.nextPc

/-- The columns of R177's table at width `w`. -/
def Claims.divS (w : Nat) (a b : Int) : Int :=
  if b = 0 then -1 else if a = -2 ^ (w - 1) ∧ b = -1 then -2 ^ (w - 1) else a.tdiv b
def Claims.divU (w a b : Nat) : Nat := if b = 0 then 2 ^ w - 1 else a / b
def Claims.remS (w : Nat) (a b : Int) : Int :=
  if b = 0 then a else if a = -2 ^ (w - 1) ∧ b = -1 then 0 else a - b * Claims.divS w a b
def Claims.remU (a b : Nat) : Nat := if b = 0 then a else a % b

/-- R177, R194 to R197, R204 to R207: division and remainder with their corner cases, at `XLEN` and for the `*W`
variants; none raises. -/
def Obligations.DivideAndRemainder : Prop :=
  ∀ (s : State) (rd rs1 rs2 : Reg),
    WritesX (.div rd rs1 rs2) s rd (.ofInt 64 (Claims.divS (xlen s.m64) (s.signedX rs1) (s.signedX rs2))) noFlags
      s.nextPc ∧
    WritesX (.divu rd rs1 rs2) s rd (.ofNat 64 (Claims.divU (xlen s.m64) (s.readX rs1).toNat (s.readX rs2).toNat))
      noFlags s.nextPc ∧
    WritesX (.rem rd rs1 rs2) s rd (.ofInt 64 (Claims.remS (xlen s.m64) (s.signedX rs1) (s.signedX rs2))) noFlags
      s.nextPc ∧
    WritesX (.remu rd rs1 rs2) s rd (.ofNat 64 (Claims.remU (s.readX rs1).toNat (s.readX rs2).toNat)) noFlags
      s.nextPc ∧
    (s.m64 = true →
      WritesX (.divw rd rs1 rs2) s rd (.ofInt 64 (Claims.divS 32 (s.readXw rs1).toInt (s.readXw rs2).toInt)) noFlags
        s.nextPc ∧
      WritesX (.divuw rd rs1 rs2) s rd
        ((BitVec.ofNat 32 (Claims.divU 32 (s.readXw rs1).toNat (s.readXw rs2).toNat)).signExtend 64) noFlags
        s.nextPc ∧
      WritesX (.remw rd rs1 rs2) s rd (.ofInt 64 (Claims.remS 32 (s.readXw rs1).toInt (s.readXw rs2).toInt)) noFlags
        s.nextPc ∧
      WritesX (.remuw rd rs1 rs2) s rd
        ((BitVec.ofNat 32 (Claims.remU (s.readXw rs1).toNat (s.readXw rs2).toNat)).signExtend 64) noFlags s.nextPc)

/-- R172, R198 to R203, R220 to R223: the `*W` instructions work on the low 32 bits and sign-extend the result. -/
def Obligations.WordArithmetic : Prop :=
  ∀ (s : State) (rd rs1 rs2 : Reg) (imm : Imm12) (sh : Shamt) (a b : Word), s.m64 = true →
    a = (s.readX rs1).setWidth 32 → b = (s.readX rs2).setWidth 32 →
    WritesX (.addw rd rs1 rs2) s rd ((a + b).signExtend 64) noFlags s.nextPc ∧
    WritesX (.subw rd rs1 rs2) s rd ((a - b).signExtend 64) noFlags s.nextPc ∧
    WritesX (.sllw rd rs1 rs2) s rd ((a <<< (b.toNat % 32)).signExtend 64) noFlags s.nextPc ∧
    WritesX (.srlw rd rs1 rs2) s rd ((a >>> (b.toNat % 32)).signExtend 64) noFlags s.nextPc ∧
    WritesX (.sraw rd rs1 rs2) s rd (.ofInt 64 (a.toInt / 2 ^ (b.toNat % 32))) noFlags s.nextPc ∧
    WritesX (.mulw rd rs1 rs2) s rd ((a * b).signExtend 64) noFlags s.nextPc ∧
    WritesX (.addiw rd rs1 imm) s rd ((a + imm.signExtend 32).signExtend 64) noFlags s.nextPc ∧
    WritesX (.slliw rd rs1 sh) s rd ((a <<< sh.toNat).signExtend 64) noFlags s.nextPc ∧
    WritesX (.srliw rd rs1 sh) s rd ((a >>> sh.toNat).signExtend 64) noFlags s.nextPc ∧
    WritesX (.sraiw rd rs1 sh) s rd (.ofInt 64 (a.toInt / 2 ^ sh.toNat)) noFlags s.nextPc

/-- R175, R176, R208 to R219, R224, R225 with 30_encoding.md R103, R106, R108: the 12-bit immediate is sign-extended to
`XLEN` bits; constant shifts are by 0 to 31 in both modes and by 32 to 63 in 64-bit mode; the 20-bit immediate weighs
4096, and `AUIPC` adds it to the address of the `AUIPC`. -/
def Obligations.Immediates : Prop :=
  ∀ (s : State) (rd rs1 : Reg) (imm : Imm12) (sh : Shamt) (upper : Imm20),
    WritesX (.addi rd rs1 imm) s rd (s.readX rs1 + imm.signExtend 64) noFlags s.nextPc ∧
    WritesX (.xori rd rs1 imm) s rd (s.readX rs1 ^^^ imm.signExtend 64) noFlags s.nextPc ∧
    WritesX (.ori rd rs1 imm) s rd (s.readX rs1 ||| imm.signExtend 64) noFlags s.nextPc ∧
    WritesX (.andi rd rs1 imm) s rd (s.readX rs1 &&& imm.signExtend 64) noFlags s.nextPc ∧
    WritesX (.slti rd rs1 imm) s rd (if s.signedX rs1 < imm.toInt then 1 else 0) noFlags s.nextPc ∧
    WritesX (.sltiu rd rs1 imm) s rd
      (if ((s.readX rs1).toNat : Int) < imm.toInt % 2 ^ xlen s.m64 then 1 else 0) noFlags s.nextPc ∧
    WritesX (.slli rd rs1 sh) s rd (s.readX rs1 <<< sh.toNat) noFlags s.nextPc ∧
    WritesX (.srli rd rs1 sh) s rd (s.readX rs1 >>> sh.toNat) noFlags s.nextPc ∧
    WritesX (.srai rd rs1 sh) s rd (.ofInt 64 (s.signedX rs1 / 2 ^ sh.toNat)) noFlags s.nextPc ∧
    WritesX (.lui rd upper) s rd (.ofInt 64 (upper.toInt * 4096)) noFlags s.nextPc ∧
    WritesX (.auipc rd upper) s rd (s.running.pc + .ofInt 64 (upper.toInt * 4096)) noFlags s.nextPc ∧
    (s.m64 = true →
      WritesX (.slliHi rd rs1 sh) s rd (s.readX rs1 <<< (32 + sh.toNat)) noFlags s.nextPc ∧
      WritesX (.srliHi rd rs1 sh) s rd (s.readX rs1 >>> (32 + sh.toNat)) noFlags s.nextPc ∧
      WritesX (.sraiHi rd rs1 sh) s rd (.ofInt 64 (s.signedX rs1 / 2 ^ (32 + sh.toNat))) noFlags s.nextPc)

/-- R173, the audit of the default `computeW` (R171): truncating the 64-bit operation on sign-extended inputs gives the
32-bit operation for these ten instructions and differs from it on some inputs for the other eight. -/
def Obligations.DefaultTruncationAudit : Prop :=
  (∀ op ∈ ([aluAdd, aluSub, aluXor, aluOr, aluAnd, aluMul, aluSlt, aluSltu, aluDiv, aluRem] : List AluOp),
    ∀ a b : Word, low32 (op 64 (sext64 a) (sext64 b)) = op 32 a b) ∧
  ∀ op ∈ ([aluSll, aluSrl, aluSra, aluMulh, aluMulhsu, aluMulhu, aluDivu, aluRemu] : List AluOp),
    ∃ a b : Word, low32 (op 64 (sext64 a) (sext64 b)) ≠ op 32 a b

/-! ### Loads and stores (44_load_store.md, 47_float.md, 48_double.md) -/

/-- R260 to R262, R265 to R271, R354, R393: an aligned load of valid bytes completes with the little-endian value,
extended as the mnemonic says; `FLW` boxes the word, `FLD` takes the doubleword in both width modes, their bits moved
unchanged. -/
def Obligations.Loads : Prop :=
  ∀ (s : State) (rd rs1 : Reg) (imm : Imm12) (ea : Nat),
    ea = (toXlen s.m64 (s.readX rs1 + imm.signExtend 64)).toNat →
    (s.memValid .load ea 1 = true →
      WritesX (.lb rd rs1 imm) s rd ((BitVec.ofNat 8 (s.mem.readLe ea 1)).signExtend 64) noFlags s.nextPc ∧
      WritesX (.lbu rd rs1 imm) s rd (.ofNat 64 (s.mem.readLe ea 1)) noFlags s.nextPc) ∧
    (ea % 2 = 0 → s.memValid .load ea 2 = true →
      WritesX (.lh rd rs1 imm) s rd ((BitVec.ofNat 16 (s.mem.readLe ea 2)).signExtend 64) noFlags s.nextPc ∧
      WritesX (.lhu rd rs1 imm) s rd (.ofNat 64 (s.mem.readLe ea 2)) noFlags s.nextPc) ∧
    (ea % 4 = 0 → s.memValid .load ea 4 = true →
      WritesX (.lw rd rs1 imm) s rd ((BitVec.ofNat 32 (s.mem.readLe ea 4)).signExtend 64) noFlags s.nextPc ∧
      (s.m64 = true → WritesX (.lwu rd rs1 imm) s rd (.ofNat 64 (s.mem.readLe ea 4)) noFlags s.nextPc) ∧
      WritesF (.flw rd rs1 imm) s rd (boxed (.ofNat 32 (s.mem.readLe ea 4))) noFlags) ∧
    (ea % 8 = 0 → s.memValid .load ea 8 = true →
      (s.m64 = true → WritesX (.ld rd rs1 imm) s rd (.ofNat 64 (s.mem.readLe ea 8)) noFlags s.nextPc) ∧
      WritesF (.fld rd rs1 imm) s rd (.ofNat 64 (s.mem.readLe ea 8)) noFlags)

/-- R263, R272 to R275, R355, R394 with 20_memory.md R67, R69, R73: an aligned store to valid bytes completes, writes
the low bytes of the register as stored (with no NaN-box check), and clears the reservations it overlaps, of every
hart. The premise on memory is the canonical form, which every step keeps. -/
def Obligations.Stores : Prop :=
  ∀ (s : State) (rs1 rs2 : Reg) (imm : Imm12) (ea : Nat), s.mem.wf → ea = (s.effAddr rs1 imm).toNat →
    (s.memValid .store ea 1 = true → StoresTo (.sb rs1 rs2 imm) s ea 1 (s.stored rs2).toNat) ∧
    (ea % 2 = 0 → s.memValid .store ea 2 = true → StoresTo (.sh rs1 rs2 imm) s ea 2 (s.stored rs2).toNat) ∧
    (ea % 4 = 0 → s.memValid .store ea 4 = true →
      StoresTo (.sw rs1 rs2 imm) s ea 4 (s.stored rs2).toNat ∧
      StoresTo (.fsw rs1 rs2 imm) s ea 4 (s.readF rs2).toNat) ∧
    (ea % 8 = 0 → s.memValid .store ea 8 = true →
      (s.m64 = true → StoresTo (.sd rs1 rs2 imm) s ea 8 (s.stored rs2).toNat) ∧
      StoresTo (.fsd rs1 rs2 imm) s ea 8 (s.readF rs2).toNat)

/-- R264, R302 with 20_memory.md R63, R64: a load or store whose address is misaligned or not valid raises AddressError
with the address, the kind and the statement. -/
def Obligations.LoadStoreRaises : Prop :=
  ∀ (s : State) (r rs1 : Reg) (imm : Imm12) (ea : DWord), ea = s.effAddr rs1 imm →
    (∀ p ∈ ([(.lb r rs1 imm, 1), (.lbu r rs1 imm, 1), (.lh r rs1 imm, 2), (.lhu r rs1 imm, 2), (.lw r rs1 imm, 4),
        (.lwu r rs1 imm, 4), (.ld r rs1 imm, 8), (.flw r rs1 imm, 4), (.fld r rs1 imm, 8)] : List (Instr × Nat)),
      (ea.toNat % p.2 ≠ 0 ∨ s.memValid .load ea.toNat p.2 = false) →
      exec p.1 s = .fault (.addressError .load ea (some (s.statement p.1)))) ∧
    (∀ p ∈ ([(.sb rs1 r imm, 1), (.sh rs1 r imm, 2), (.sw rs1 r imm, 4), (.sd rs1 r imm, 8), (.fsw rs1 r imm, 4),
        (.fsd rs1 r imm, 8)] : List (Instr × Nat)),
      (ea.toNat % p.2 ≠ 0 ∨ s.memValid .store ea.toNat p.2 = false) →
      exec p.1 s = .fault (.addressError .store ea (some (s.statement p.1))))

/-! ### Atomics (46_atomic.md) -/

/-- What a load-reserved of width `w` does (R303): on a bad address it raises; else it completes with the sign-extended
value and makes the reservation. -/
def Claims.loadReserved (i : Instr) (w : ResWidth) (s : State) (rd rs1 : Reg) : Prop :=
  ((s.readX rs1).toNat % w.bytes = 0 → s.memValid .load (s.readX rs1).toNat w.bytes = true →
    ∃ t, exec i s = .next t ∧
      t.stored rd = (if rd = 0 then 0
        else (BitVec.ofNat (8 * w.bytes) (s.mem.readLe (s.readX rs1).toNat w.bytes)).signExtend 64) ∧
      t.running.res = some { addr := s.readX rs1, width := w } ∧
      t.running.pc = s.nextPc ∧ t.running.fflags = s.running.fflags ∧ Frame [rd] [] s t ∧
      (∀ a, t.mem.read a = s.mem.read a) ∧ t.parked = s.parked) ∧
  (((s.readX rs1).toNat % w.bytes ≠ 0 ∨ s.memValid .load (s.readX rs1).toNat w.bytes = false) →
    exec i s = .fault (.addressError .load (s.readX rs1) (some (s.statement i))))

/-- R303, R308, R319, R302: `LR.W` and `LR.D`, whatever `aq` and `rl` (R307). -/
def Obligations.LoadReserved : Prop :=
  ∀ (s : State) (rd rs1 : Reg) (aq rl : BitVec 1),
    Claims.loadReserved (.lrW rd rs1 aq rl) .word s rd rs1 ∧
    (s.m64 = true → Claims.loadReserved (.lrD rd rs1 aq rl) .double s rd rs1)

/-- `covers` of R305. -/
def Claims.covers (r : Reservation) (ea n : Nat) : Prop :=
  r.addr.toNat ≤ ea ∧ ea + n ≤ r.addr.toNat + r.width.bytes

/-- What a store-conditional of `n` bytes does (R304, R306): with a reservation that covers the bytes it stores,
writes 0 and clears the reservation, or raises on a bad address; without one it writes 1 (`SC_FAIL`, the spec's
decision D14) and clears the reservation, makes no access and cannot raise. -/
def Claims.storeConditional (i : Instr) (n : Nat) (s : State) (rd rs1 rs2 : Reg) : Prop :=
  (∀ r, s.running.res = some r → Claims.covers r (s.readX rs1).toNat n →
    ((s.readX rs1).toNat % n = 0 → s.memValid .store (s.readX rs1).toNat n = true → s.mem.wf →
      ∃ t, exec i s = .next t ∧ t.stored rd = 0 ∧ t.running.res = none ∧
        StoredAt (s.readX rs1).toNat n (s.stored rs2).toNat s t ∧ ParkedAfterWrite (s.readX rs1).toNat n s t ∧
        t.running.pc = s.nextPc ∧ t.running.fflags = s.running.fflags ∧ Frame [rd] [] s t) ∧
    (((s.readX rs1).toNat % n ≠ 0 ∨ s.memValid .store (s.readX rs1).toNat n = false) →
      exec i s = .fault (.addressError .store (s.readX rs1) (some (s.statement i))))) ∧
  ((∀ r, s.running.res = some r → ¬Claims.covers r (s.readX rs1).toNat n) →
    ∃ t, exec i s = .next t ∧ t.stored rd = (if rd = 0 then 0 else 1) ∧ t.running.res = none ∧
      (∀ a, t.mem.read a = s.mem.read a) ∧ t.parked = s.parked ∧
      t.running.pc = s.nextPc ∧ t.running.fflags = s.running.fflags ∧ Frame [rd] [] s t)

/-- R304, R306, R309, R320: `SC.W` and `SC.D`, whatever `aq` and `rl` (R307). -/
def Obligations.StoreConditional : Prop :=
  ∀ (s : State) (rd rs1 rs2 : Reg) (aq rl : BitVec 1),
    Claims.storeConditional (.scW rd rs1 rs2 aq rl) 4 s rd rs1 rs2 ∧
    (s.m64 = true → Claims.storeConditional (.scD rd rs1 rs2 aq rl) 8 s rd rs1 rs2)

/-- The document's protocol (95_test_vectors.md section 1.6; R303 to R306), for the word pair and, in 64-bit mode, the
doubleword pair: an `LR` at once followed by an `SC` of the same width at the same address succeeds; with a store of
another hart to these bytes between them, which clears the reservation, it fails and writes no memory. -/
def Obligations.ReservationProtocol : Prop :=
  ∀ (s t : State) (rd re rs1 rs2 : Reg) (aq rl aq' rl' : BitVec 1),
    ∀ p ∈ ([(.lrW rd rs1 aq rl, .scW re rs1 rs2 aq' rl', 4), (.lrD rd rs1 aq rl, .scD re rs1 rs2 aq' rl', 8)] :
      List (Instr × Instr × Nat)),
    (p.2.2 = 8 → s.m64 = true) → (rd = rs1 → rd = 0) → s.mem.wf → exec p.1 s = .next t →
    (s.memValid .store (s.readX rs1).toNat p.2.2 = true →
      ∃ u, exec p.2.1 t = .next u ∧ u.stored re = 0 ∧ StoredAt (s.readX rs1).toNat p.2.2 (t.stored rs2).toNat t u) ∧
    (∀ (a : DWord) (n : Nat) (m : Memory), (s.readX rs1).toNat < a.toNat + n →
      a.toNat < (s.readX rs1).toNat + p.2.2 →
      ∃ u, exec p.2.1 { t with mem := m, running := t.running.invalidate a.toNat n } = .next u ∧
        u.stored re = (if re = 0 then 0 else 1) ∧ (∀ b, u.mem.read b = m.read b))

/-- What an atomic memory operation of `n` bytes does (R301, R302): the old value goes to `rd` sign-extended and
`new old v` to memory; it raises with kind Load when the read is bad, with kind Store when only the write is. -/
def Claims.amo (i : Instr) (n : Nat) (s : State) (rd rs1 rs2 : Reg)
    (new : BitVec (8 * n) → BitVec (8 * n) → BitVec (8 * n)) : Prop :=
  ((s.readX rs1).toNat % n = 0 → s.memValid .load (s.readX rs1).toNat n = true →
    s.memValid .store (s.readX rs1).toNat n = true → s.mem.wf →
    ∃ t, exec i s = .next t ∧
      t.stored rd = (if rd = 0 then 0
        else (BitVec.ofNat (8 * n) (s.mem.readLe (s.readX rs1).toNat n)).signExtend 64) ∧
      StoredAt (s.readX rs1).toNat n
        (new (BitVec.ofNat (8 * n) (s.mem.readLe (s.readX rs1).toNat n)) ((s.stored rs2).setWidth (8 * n))).toNat s t ∧
      ClearedByWrite (s.readX rs1).toNat n s.running.res t.running.res ∧
      ParkedAfterWrite (s.readX rs1).toNat n s t ∧
      t.running.pc = s.nextPc ∧ t.running.fflags = s.running.fflags ∧ Frame [rd] [] s t) ∧
  (((s.readX rs1).toNat % n ≠ 0 ∨ s.memValid .load (s.readX rs1).toNat n = false) →
    exec i s = .fault (.addressError .load (s.readX rs1) (some (s.statement i)))) ∧
  ((s.readX rs1).toNat % n = 0 → s.memValid .load (s.readX rs1).toNat n = true →
    s.memValid .store (s.readX rs1).toNat n = false →
    exec i s = .fault (.addressError .store (s.readX rs1) (some (s.statement i))))

/-- R301, R302, R310 to R318, and in 64-bit mode R321 to R329: the word and the doubleword operations, whatever `aq` and
`rl` (R307). -/
def Obligations.AtomicMemoryOperations : Prop :=
  ∀ (s : State) (rd rs1 rs2 : Reg) (aq rl : BitVec 1),
    Claims.amo (.amoswapW rd rs1 rs2 aq rl) 4 s rd rs1 rs2 (fun _ v => v) ∧
    Claims.amo (.amoaddW rd rs1 rs2 aq rl) 4 s rd rs1 rs2 (fun old v => old + v) ∧
    Claims.amo (.amoxorW rd rs1 rs2 aq rl) 4 s rd rs1 rs2 (fun old v => old ^^^ v) ∧
    Claims.amo (.amoandW rd rs1 rs2 aq rl) 4 s rd rs1 rs2 (fun old v => old &&& v) ∧
    Claims.amo (.amoorW rd rs1 rs2 aq rl) 4 s rd rs1 rs2 (fun old v => old ||| v) ∧
    Claims.amo (.amominW rd rs1 rs2 aq rl) 4 s rd rs1 rs2 (fun old v => .ofInt _ (min old.toInt v.toInt)) ∧
    Claims.amo (.amomaxW rd rs1 rs2 aq rl) 4 s rd rs1 rs2 (fun old v => .ofInt _ (max old.toInt v.toInt)) ∧
    Claims.amo (.amominuW rd rs1 rs2 aq rl) 4 s rd rs1 rs2 (fun old v => .ofNat _ (min old.toNat v.toNat)) ∧
    Claims.amo (.amomaxuW rd rs1 rs2 aq rl) 4 s rd rs1 rs2 (fun old v => .ofNat _ (max old.toNat v.toNat)) ∧
    (s.m64 = true →
      Claims.amo (.amoswapD rd rs1 rs2 aq rl) 8 s rd rs1 rs2 (fun _ v => v) ∧
      Claims.amo (.amoaddD rd rs1 rs2 aq rl) 8 s rd rs1 rs2 (fun old v => old + v) ∧
      Claims.amo (.amoxorD rd rs1 rs2 aq rl) 8 s rd rs1 rs2 (fun old v => old ^^^ v) ∧
      Claims.amo (.amoandD rd rs1 rs2 aq rl) 8 s rd rs1 rs2 (fun old v => old &&& v) ∧
      Claims.amo (.amoorD rd rs1 rs2 aq rl) 8 s rd rs1 rs2 (fun old v => old ||| v) ∧
      Claims.amo (.amominD rd rs1 rs2 aq rl) 8 s rd rs1 rs2 (fun old v => .ofInt _ (min old.toInt v.toInt)) ∧
      Claims.amo (.amomaxD rd rs1 rs2 aq rl) 8 s rd rs1 rs2 (fun old v => .ofInt _ (max old.toInt v.toInt)) ∧
      Claims.amo (.amominuD rd rs1 rs2 aq rl) 8 s rd rs1 rs2 (fun old v => .ofNat _ (min old.toNat v.toNat)) ∧
      Claims.amo (.amomaxuD rd rs1 rs2 aq rl) 8 s rd rs1 rs2 (fun old v => .ofNat _ (max old.toNat v.toNat)))

/-! ### Branches and jumps (45_branch_jump.md) -/

/-- `boffset` of R281 as a number: bit 11 of `e` weighs -4096, bit 0 weighs 2048, bits 10:5 weigh 32, bits 4:1 weigh
2. -/
def Claims.branchOffset (e : Imm12) : Int :=
  (if e.getLsbD 11 then -4096 else 0) + (if e.getLsbD 0 then 2048 else 0) +
    32 * ((e.extractLsb' 5 6).toNat : Int) + 2 * ((e.extractLsb' 1 4).toNat : Int)

/-- `joffset` of R290 as a number: bit 19 of `e` weighs -2^20, bits 7:0 weigh 4096, bit 8 weighs 2048, bits 18:9 weigh
2. -/
def Claims.jumpOffset (e : Imm20) : Int :=
  (if e.getLsbD 19 then -1048576 else 0) + 4096 * ((e.extractLsb' 0 8).toNat : Int) +
    (if e.getLsbD 8 then 2048 else 0) + 2 * ((e.extractLsb' 9 10).toNat : Int)

/-- R280, R281, R283 to R289: a branch completes on any registers; taken, it goes to its own address plus the offset,
unchecked; untaken, it goes on. -/
def Obligations.Branches : Prop :=
  ∀ (s : State) (rs1 rs2 : Reg) (imm : Imm12) (target : DWord),
    target = toXlen s.m64 (s.running.pc + .ofInt 64 (Claims.branchOffset imm)) →
    GoesTo (.beq rs1 rs2 imm) s (if s.readX rs1 = s.readX rs2 then target else s.nextPc) ∧
    GoesTo (.bne rs1 rs2 imm) s (if s.readX rs1 ≠ s.readX rs2 then target else s.nextPc) ∧
    GoesTo (.blt rs1 rs2 imm) s (if s.signedX rs1 < s.signedX rs2 then target else s.nextPc) ∧
    GoesTo (.bge rs1 rs2 imm) s (if s.signedX rs2 ≤ s.signedX rs1 then target else s.nextPc) ∧
    GoesTo (.bltu rs1 rs2 imm) s (if (s.readX rs1).toNat < (s.readX rs2).toNat then target else s.nextPc) ∧
    GoesTo (.bgeu rs1 rs2 imm) s (if (s.readX rs2).toNat ≤ (s.readX rs1).toNat then target else s.nextPc)

/-- R282, R283, R290, R291: a jump writes the address of the next instruction to `rd` and goes to a target computed from
the old registers, unchecked. -/
def Obligations.Jumps : Prop :=
  ∀ (s : State) (rd rs1 : Reg) (imm : Imm12) (e : Imm20),
    WritesX (.jal rd e) s rd s.nextPc noFlags (toXlen s.m64 (s.running.pc + .ofInt 64 (Claims.jumpOffset e))) ∧
    WritesX (.jalr rd rs1 imm) s rd s.nextPc noFlags (toXlen s.m64 (s.readX rs1 + imm.signExtend 64) &&& ~~~1)

/-! ### Floating point (47_float.md, 48_double.md) -/

/-- A computation with a rounding-mode field completes under the mode it resolves to (R341, R342), with a single or a
double result. -/
def Claims.roundsS (i : Instr) (p : Rm) (s : State) (rd : Reg) (r : RoundingMode → FResult 32) : Prop :=
  ∀ m, s.resolveRm p = some m → WritesF i s rd (boxed (r m).1) (r m).2
def Claims.roundsD (i : Instr) (p : Rm) (s : State) (rd : Reg) (r : RoundingMode → FResult 64) : Prop :=
  ∀ m, s.resolveRm p = some m → WritesF i s rd (r m).1 (r m).2
def Claims.roundsX (i : Instr) (p : Rm) (s : State) (rd : Reg) (r : RoundingMode → DWord × Flags) : Prop :=
  ∀ m, s.resolveRm p = some m → WritesX i s rd (r m).1 (r m).2 s.nextPc

/-- R342, R360 to R364, R399 to R403: the basic operations in both formats, their results written boxed or whole, their
flags accrued. -/
def Obligations.FloatArithmetic : Prop :=
  ∀ (s : State) (rd rs1 rs2 : Reg) (p : Rm),
    Claims.roundsS (.faddS rd rs1 rs2 p) p s rd (binary32.add (s.readFs rs1) (s.readFs rs2)) ∧
    Claims.roundsS (.fsubS rd rs1 rs2 p) p s rd (binary32.sub (s.readFs rs1) (s.readFs rs2)) ∧
    Claims.roundsS (.fmulS rd rs1 rs2 p) p s rd (binary32.mul (s.readFs rs1) (s.readFs rs2)) ∧
    Claims.roundsS (.fdivS rd rs1 rs2 p) p s rd (binary32.div (s.readFs rs1) (s.readFs rs2)) ∧
    Claims.roundsS (.fsqrtS rd rs1 p) p s rd (binary32.sqrt (s.readFs rs1)) ∧
    Claims.roundsD (.faddD rd rs1 rs2 p) p s rd (binary64.add (s.readF rs1) (s.readF rs2)) ∧
    Claims.roundsD (.fsubD rd rs1 rs2 p) p s rd (binary64.sub (s.readF rs1) (s.readF rs2)) ∧
    Claims.roundsD (.fmulD rd rs1 rs2 p) p s rd (binary64.mul (s.readF rs1) (s.readF rs2)) ∧
    Claims.roundsD (.fdivD rd rs1 rs2 p) p s rd (binary64.div (s.readF rs1) (s.readF rs2)) ∧
    Claims.roundsD (.fsqrtD rd rs1 p) p s rd (binary64.sqrt (s.readF rs1))

/-- R347, R356 to R359, R392, R395 to R398: the fused operations read `rs1`, `rs2` and `rs3`, each by its own index (the
spec's resolution C5), and round once. -/
def Obligations.FusedMultiplyAdd : Prop :=
  ∀ (s : State) (rd rs1 rs2 rs3 : Reg) (p : Rm),
    Claims.roundsS (.fmaddS rd rs1 rs2 rs3 p) p s rd
      (binary32.fma (s.readFs rs1) (s.readFs rs2) (s.readFs rs3) false false) ∧
    Claims.roundsS (.fmsubS rd rs1 rs2 rs3 p) p s rd
      (binary32.fma (s.readFs rs1) (s.readFs rs2) (s.readFs rs3) false true) ∧
    Claims.roundsS (.fnmsubS rd rs1 rs2 rs3 p) p s rd
      (binary32.fma (s.readFs rs1) (s.readFs rs2) (s.readFs rs3) true false) ∧
    Claims.roundsS (.fnmaddS rd rs1 rs2 rs3 p) p s rd
      (binary32.fma (s.readFs rs1) (s.readFs rs2) (s.readFs rs3) true true) ∧
    Claims.roundsD (.fmaddD rd rs1 rs2 rs3 p) p s rd
      (binary64.fma (s.readF rs1) (s.readF rs2) (s.readF rs3) false false) ∧
    Claims.roundsD (.fmsubD rd rs1 rs2 rs3 p) p s rd
      (binary64.fma (s.readF rs1) (s.readF rs2) (s.readF rs3) false true) ∧
    Claims.roundsD (.fnmsubD rd rs1 rs2 rs3 p) p s rd
      (binary64.fma (s.readF rs1) (s.readF rs2) (s.readF rs3) true false) ∧
    Claims.roundsD (.fnmaddD rd rs1 rs2 rs3 p) p s rd
      (binary64.fma (s.readF rs1) (s.readF rs2) (s.readF rs3) true true)

/-- R353, R365 to R367, R404 to R406: the result of a sign injection, from the magnitude bits of the first source and
a sign. R382, R383, R423, R424: raw bits between the register files, with no NaN-box check on the way out. -/
def Obligations.RawBitMoves : Prop :=
  ∀ (s : State) (rd rs1 rs2 : Reg) (a b : Word) (c d : DWord),
    a = s.readFs rs1 → b = s.readFs rs2 → c = s.readF rs1 → d = s.readF rs2 →
    WritesF (.fsgnjS rd rs1 rs2) s rd (boxed (BitVec.ofBool b.msb ++ a.extractLsb' 0 31)) noFlags ∧
    WritesF (.fsgnjnS rd rs1 rs2) s rd (boxed (BitVec.ofBool (!b.msb) ++ a.extractLsb' 0 31)) noFlags ∧
    WritesF (.fsgnjxS rd rs1 rs2) s rd (boxed (BitVec.ofBool (a.msb ^^ b.msb) ++ a.extractLsb' 0 31)) noFlags ∧
    WritesF (.fsgnjD rd rs1 rs2) s rd (BitVec.ofBool d.msb ++ c.extractLsb' 0 63) noFlags ∧
    WritesF (.fsgnjnD rd rs1 rs2) s rd (BitVec.ofBool (!d.msb) ++ c.extractLsb' 0 63) noFlags ∧
    WritesF (.fsgnjxD rd rs1 rs2) s rd (BitVec.ofBool (c.msb ^^ d.msb) ++ c.extractLsb' 0 63) noFlags ∧
    WritesX (.fmvXW rd rs1) s rd (((s.readF rs1).setWidth 32).signExtend 64) noFlags s.nextPc ∧
    WritesF (.fmvWX rd rs1) s rd (boxed ((s.readX rs1).setWidth 32)) noFlags ∧
    (s.m64 = true →
      WritesX (.fmvXD rd rs1) s rd c noFlags s.nextPc ∧
      WritesF (.fmvDX rd rs1) s rd (s.readX rs1) noFlags)

/-- The result of `fmin` (`max = false`) or `fmax` on patterns of format `F`, as R348 words it. -/
def Claims.minMax (F : FloatFormat) (max : Bool) {w : Nat} (a b : BitVec w) : FResult w :=
  let x := F.value a
  let y := F.value b
  let r :=
    if x.isNaN = true ∧ y.isNaN = true then BitVec.ofNat w F.nanPattern
    else if x.isNaN = true then b
    else if y.isNaN = true then a
    else if (x.less y || (x == .zero true && y == .zero false)) = true then (if max then b else a)
    else if (y.less x || (y == .zero true && x == .zero false)) = true then (if max then a else b)
    else a
  (r, if x.isSignaling = true ∨ y.isSignaling = true then flagNV else noFlags)

/-- R348, R368, R369, R407, R408: minimum and maximum. Where neither input is smaller the inputs are equal, so either
is the result. -/
def Obligations.MinMax : Prop :=
  ∀ (s : State) (rd rs1 rs2 : Reg) (a b : Word) (c d : DWord),
    a = s.readFs rs1 → b = s.readFs rs2 → c = s.readF rs1 → d = s.readF rs2 →
    WritesF (.fminS rd rs1 rs2) s rd (boxed (Claims.minMax binary32 false a b).1) (Claims.minMax binary32 false a b).2 ∧
    WritesF (.fmaxS rd rs1 rs2) s rd (boxed (Claims.minMax binary32 true a b).1) (Claims.minMax binary32 true a b).2 ∧
    WritesF (.fminD rd rs1 rs2) s rd (Claims.minMax binary64 false c d).1 (Claims.minMax binary64 false c d).2 ∧
    WritesF (.fmaxD rd rs1 rs2) s rd (Claims.minMax binary64 true c d).1 (Claims.minMax binary64 true c d).2

/-- A rational number, an infinity, or a NaN. -/
inductive Claims.Real where
  | nan
  | minusInf
  | rat (q : ℚ)
  | plusInf

/-- The real value of a pattern (R345, R391). -/
def Claims.realOf : FVal → Claims.Real
  | .nan _ => .nan
  | .inf true => .minusInf
  | .inf false => .plusInf
  | .zero _ => .rat 0
  | .finite neg m k => .rat ((if neg then -1 else 1) * (m : ℚ) * 2 ^ k)

/-- The order of R349 on real values; false when either is a NaN. -/
def Claims.less : Claims.Real → Claims.Real → Prop
  | .minusInf, .rat _ => True
  | .minusInf, .plusInf => True
  | .rat _, .plusInf => True
  | .rat p, .rat q => p < q
  | _, _ => False

/-- R349, R370 to R372, R409 to R411: the comparisons compare real values; with a NaN they give 0; `feq` raises NV on
a signaling NaN only, `flt` and `fle` on any NaN. The instructions write the truth value. -/
def Obligations.Comparisons : Prop :=
  (∀ (F : FloatFormat) (w : Nat) (a b : BitVec w),
    ((F.lt a b).1 = true ↔ Claims.less (Claims.realOf (F.value a)) (Claims.realOf (F.value b))) ∧
    ((F.eq a b).1 = true ↔ Claims.realOf (F.value a) ≠ .nan ∧
      Claims.realOf (F.value a) = Claims.realOf (F.value b)) ∧
    ((F.le a b).1 = true ↔ (F.lt a b).1 = true ∨ (F.eq a b).1 = true) ∧
    (F.lt a b).2 = (if (F.value a).isNaN ∨ (F.value b).isNaN then flagNV else noFlags) ∧
    (F.le a b).2 = (F.lt a b).2 ∧
    (F.eq a b).2 = (if (F.value a).isSignaling ∨ (F.value b).isSignaling then flagNV else noFlags)) ∧
  ∀ (s : State) (rd rs1 rs2 : Reg) (a b : Word) (c d : DWord),
    a = s.readFs rs1 → b = s.readFs rs2 → c = s.readF rs1 → d = s.readF rs2 →
    WritesX (.feqS rd rs1 rs2) s rd (if (binary32.eq a b).1 then 1 else 0) (binary32.eq a b).2 s.nextPc ∧
    WritesX (.fltS rd rs1 rs2) s rd (if (binary32.lt a b).1 then 1 else 0) (binary32.lt a b).2 s.nextPc ∧
    WritesX (.fleS rd rs1 rs2) s rd (if (binary32.le a b).1 then 1 else 0) (binary32.le a b).2 s.nextPc ∧
    WritesX (.feqD rd rs1 rs2) s rd (if (binary64.eq c d).1 then 1 else 0) (binary64.eq c d).2 s.nextPc ∧
    WritesX (.fltD rd rs1 rs2) s rd (if (binary64.lt c d).1 then 1 else 0) (binary64.lt c d).2 s.nextPc ∧
    WritesX (.fleD rd rs1 rs2) s rd (if (binary64.le c d).1 then 1 else 0) (binary64.le c d).2 s.nextPc

/-- The mask of R350 from a sign, an exponent field `E` that is all ones at `top`, and a fraction field `T` whose quiet
bit weighs `quiet`. -/
def Claims.classMask (neg : Bool) (E T top quiet : Nat) : DWord :=
  if E = top then (if T = 0 then (if neg then 0x001 else 0x080) else if T < quiet then 0x100 else 0x200)
  else if E = 0 then (if T = 0 then (if neg then 0x008 else 0x010) else (if neg then 0x004 else 0x020))
  else if neg then 0x002 else 0x040

/-- R350, R373, R412 with the tables of R345 and R391: one bit for the class of the pattern, no flag. -/
def Obligations.Classify : Prop :=
  ∀ (s : State) (rd rs1 : Reg) (a : Word) (c : DWord), a = s.readFs rs1 → c = s.readF rs1 →
    WritesX (.fclassS rd rs1) s rd
      (Claims.classMask a.msb (a.extractLsb' 23 8).toNat (a.extractLsb' 0 23).toNat 255 (2 ^ 22)) noFlags s.nextPc ∧
    WritesX (.fclassD rd rs1) s rd
      (Claims.classMask c.msb (c.extractLsb' 52 11).toNat (c.extractLsb' 0 52).toNat 2047 (2 ^ 51)) noFlags s.nextPc

/-- R351, R374, R376, R378, R380, R413, R415, R417, R419: a converted integer is written to `rd`; 32-bit results are
sign-extended, the unsigned ones too. -/
def Obligations.FloatToInteger : Prop :=
  ∀ (s : State) (rd rs1 : Reg) (p : Rm),
    Claims.roundsX (.fcvtWS rd rs1 p) p s rd (fun m => wordResult (binary32.toInt 32 true (s.readFs rs1) m)) ∧
    Claims.roundsX (.fcvtWuS rd rs1 p) p s rd (fun m => wordResult (binary32.toInt 32 false (s.readFs rs1) m)) ∧
    Claims.roundsX (.fcvtWD rd rs1 p) p s rd (fun m => wordResult (binary64.toInt 32 true (s.readF rs1) m)) ∧
    Claims.roundsX (.fcvtWuD rd rs1 p) p s rd (fun m => wordResult (binary64.toInt 32 false (s.readF rs1) m)) ∧
    (s.m64 = true →
      Claims.roundsX (.fcvtLS rd rs1 p) p s rd (binary32.toInt 64 true (s.readFs rs1)) ∧
      Claims.roundsX (.fcvtLuS rd rs1 p) p s rd (binary32.toInt 64 false (s.readFs rs1)) ∧
      Claims.roundsX (.fcvtLD rd rs1 p) p s rd (binary64.toInt 64 true (s.readF rs1)) ∧
      Claims.roundsX (.fcvtLuD rd rs1 p) p s rd (binary64.toInt 64 false (s.readF rs1)))

/-- R346, R352, R375, R377, R379, R381, R414, R416, R418, R420 to R422: integers to either format, and between the
formats. -/
def Obligations.ToFloatConversions : Prop :=
  ∀ (s : State) (rd rs1 : Reg) (p : Rm),
    Claims.roundsS (.fcvtSW rd rs1 p) p s rd (binary32.ofInt 32 (s.readXw rs1).toInt) ∧
    Claims.roundsS (.fcvtSWu rd rs1 p) p s rd (binary32.ofInt 32 ((s.readXw rs1).toNat : Int)) ∧
    Claims.roundsD (.fcvtDW rd rs1 p) p s rd (binary64.ofInt 64 (s.readXw rs1).toInt) ∧
    Claims.roundsD (.fcvtDWu rd rs1 p) p s rd (binary64.ofInt 64 ((s.readXw rs1).toNat : Int)) ∧
    Claims.roundsS (.fcvtSD rd rs1 p) p s rd (binary64.convert binary32 32 (s.readF rs1)) ∧
    Claims.roundsD (.fcvtDS rd rs1 p) p s rd (binary32.convert binary64 64 (s.readFs rs1)) ∧
    (s.m64 = true →
      Claims.roundsS (.fcvtSL rd rs1 p) p s rd (binary32.ofInt 32 (s.readX rs1).toInt) ∧
      Claims.roundsS (.fcvtSLu rd rs1 p) p s rd (binary32.ofInt 32 ((s.readX rs1).toNat : Int)) ∧
      Claims.roundsD (.fcvtDL rd rs1 p) p s rd (binary64.ofInt 64 (s.readX rs1).toInt) ∧
      Claims.roundsD (.fcvtDLu rd rs1 p) p s rd (binary64.ofInt 64 ((s.readX rs1).toNat : Int)))

/-! ### Floating-point numerics (47_float.md R344 to R352) -/

/-- `rint` of R346 on a non-negative rational. -/
def Claims.rint (x : ℚ) (neg : Bool) (rm : RoundingMode) : Int :=
  let n := ⌊x⌋
  let r := x - n
  if r = 0 then n
  else
    match rm with
    | .rne => if 1 / 2 < r ∨ (r = 1 / 2 ∧ n % 2 = 1) then n + 1 else n
    | .rtz => n
    | .rdn => if neg then n + 1 else n
    | .rup => if neg then n else n + 1
    | .rmm => if 1 / 2 ≤ r then n + 1 else n

/-- R346: `round_F` on a non-zero rational `a = num / den * 2^k`, with `e` the floor of its binary logarithm. -/
def Obligations.RoundRule : Prop :=
  ∀ (F : FloatFormat) (num den : Nat) (k e : Int) (a : ℚ) (neg : Bool) (rm : RoundingMode) (q : Int) (r ru : ℚ),
    0 < num → 0 < den → a = (num : ℚ) / den * 2 ^ k → (2 : ℚ) ^ e ≤ a → a < 2 ^ (e + 1) →
    q = max e F.emin - F.prec + 1 →
    r = Claims.rint (a / 2 ^ q) neg rm * 2 ^ q →
    ru = Claims.rint (a / 2 ^ (e - F.prec + 1)) neg rm * 2 ^ (e - F.prec + 1) →
    F.round neg (.ratio num den k) rm =
      (if r < 2 ^ (F.emax + 1) then
        (F.signed neg (F.encode (Claims.rint (a / 2 ^ q) neg rm).toNat q),
          (if r ≠ a then flagNX else noFlags) ||| (if ru < 2 ^ F.emin ∧ r ≠ a then flagUF else noFlags))
      else
        (F.signed neg
          (if rm = .rne ∨ rm = .rmm ∨ (rm = .rdn ∧ neg = true) ∨ (rm = .rup ∧ neg = false) then F.infPattern
            else F.maxPattern),
          flagOF ||| flagNX))

/-- R346, R345, R391: `encode` gives the pattern of its value, for a magnitude below the overflow bound that is a
multiple of the spacing. -/
def Obligations.EncodeRule : Prop :=
  ∀ F ∈ [binary32, binary64], ∀ (neg : Bool) (n : Nat) (q : Int),
    F.qmin ≤ q → n ≤ 2 ^ F.prec → (2 ^ F.fracBits ≤ n ∨ q = F.qmin) → (n : ℚ) * 2 ^ q < 2 ^ (F.emax + 1) →
    F.signed neg (F.encode n q) < 2 ^ (1 + F.expBits + F.fracBits) ∧
    Claims.realOf (F.value (BitVec.ofNat (1 + F.expBits + F.fracBits) (F.signed neg (F.encode n q)))) =
      .rat ((if neg then -1 else 1) * n * 2 ^ q) ∧
    (n = 0 → F.value (BitVec.ofNat (1 + F.expBits + F.fracBits) (F.signed neg (F.encode n q))) = .zero neg)

/-- R346: the square root, in both formats. `n` is the root's integer part in units of `2^(e - p + 1)`, found by
comparing squares, `e` the exponent of the root; a root is never a tie and never leaves the normal range. -/
def Obligations.SquareRootRule : Prop :=
  ∀ F ∈ [binary32, binary64], ∀ (w : Nat) (a : BitVec w) (rm : RoundingMode),
    ((∃ neg, F.value a = .zero neg) ∨ F.value a = .inf false → F.sqrt a rm = (a, noFlags)) ∧
    (F.value a = .inf true ∨ (∃ m k, F.value a = .finite true m k) → F.sqrt a rm = (F.nan w, flagNV)) ∧
    (∀ (m n : Nat) (k e q : Int) (y : ℚ), F.value a = .finite false m k →
      (2 : ℚ) ^ (2 * e) ≤ (m : ℚ) * 2 ^ k → (m : ℚ) * 2 ^ k < 2 ^ (2 * (e + 1)) → q = e - F.prec + 1 →
      y = (m : ℚ) * 2 ^ (k - 2 * q) → (n : ℚ) ^ 2 ≤ y → y < ((n : ℚ) + 1) ^ 2 →
      F.sqrt a rm =
        (BitVec.ofNat w (F.encode
          (if y = (n : ℚ) ^ 2 then n
          else
            match rm with
            | .rne => if ((n : ℚ) + 1 / 2) ^ 2 < y then n + 1 else n
            | .rtz => n
            | .rdn => n
            | .rup => n + 1
            | .rmm => if ((n : ℚ) + 1 / 2) ^ 2 < y then n + 1 else n) q),
        if y = (n : ℚ) ^ 2 then noFlags else flagNX))

/-- R346, R352: the sum, product and quotient of two finite values are rounded once, from their exact value; an exact
zero sum has the sign both zeros share, else `+0`, or `-0` under RDN. A conversion to a format rounds the value of the
other format or the integer. -/
def Obligations.ExactOperations : Prop :=
  ∀ (F : FloatFormat) (w : Nat) (a b : BitVec w) (rm : RoundingMode) (p q : ℚ),
    Claims.realOf (F.value a) = .rat p → Claims.realOf (F.value b) = .rat q →
    (p + q ≠ 0 → ∃ (num den : Nat) (k : Int), 0 < num ∧ 0 < den ∧ (num : ℚ) / den * 2 ^ k = |p + q| ∧
      F.add a b rm = F.rounded w (decide (p + q < 0)) (.ratio num den k) rm) ∧
    (p + q = 0 → F.add a b rm = (F.zero w
      (if p = 0 ∧ (F.value a).sign = (F.value b).sign then (F.value a).sign else decide (rm = .rdn)), noFlags)) ∧
    (p - q ≠ 0 → ∃ (num den : Nat) (k : Int), 0 < num ∧ 0 < den ∧ (num : ℚ) / den * 2 ^ k = |p - q| ∧
      F.sub a b rm = F.rounded w (decide (p - q < 0)) (.ratio num den k) rm) ∧
    (p * q ≠ 0 → ∃ (num den : Nat) (k : Int), 0 < num ∧ 0 < den ∧ (num : ℚ) / den * 2 ^ k = |p * q| ∧
      F.mul a b rm = F.rounded w (decide (p * q < 0)) (.ratio num den k) rm) ∧
    (p ≠ 0 → q ≠ 0 → ∃ (num den : Nat) (k : Int), 0 < num ∧ 0 < den ∧ (num : ℚ) / den * 2 ^ k = |p / q| ∧
      F.div a b rm = F.rounded w (decide (p / q < 0)) (.ratio num den k) rm) ∧
    (p - q = 0 → F.sub a b rm = (F.zero w
      (if p = 0 ∧ (F.value a).sign ≠ (F.value b).sign then (F.value a).sign else decide (rm = .rdn)), noFlags)) ∧
    (p * q = 0 → F.mul a b rm = (F.zero w ((F.value a).sign ^^ (F.value b).sign), noFlags)) ∧
    (p = 0 → q ≠ 0 → F.div a b rm = (F.zero w ((F.value a).sign ^^ (F.value b).sign), noFlags)) ∧
    (p ≠ 0 → q = 0 → F.div a b rm = (F.inf w ((F.value a).sign ^^ (F.value b).sign), flagDZ)) ∧
    (p = 0 → q = 0 → F.div a b rm = (F.nan w, flagNV)) ∧
    (p ≠ 0 → ∀ (G : FloatFormat) (v : Nat), ∃ (num den : Nat) (k : Int), 0 < num ∧ 0 < den ∧
      (num : ℚ) / den * 2 ^ k = |p| ∧ F.convert G v a rm = G.rounded v (decide (p < 0)) (.ratio num den k) rm) ∧
    (∀ n : Int, n ≠ 0 → ∃ (num den : Nat) (k : Int), 0 < num ∧ 0 < den ∧ (num : ℚ) / den * 2 ^ k = |(n : ℚ)| ∧
      F.ofInt w n rm = F.rounded w (decide (n < 0)) (.ratio num den k) rm) ∧
    F.ofInt w 0 rm = (F.zero w false, noFlags)

/-- R347: a fused multiply-add of finite values rounds the exact `±(a * b) ± c` once; an exact zero has the sign the
product and the addend share where both are zeros, else `+0`, or `-0` under RDN. With an infinite product or addend
the result is that infinity, or the canonical NaN with NV where they are opposite. A zero times an infinity, and a
NaN, are in `SpecialInputs`. -/
def Obligations.FusedRule : Prop :=
  ∀ (F : FloatFormat) (w : Nat) (a b c : BitVec w) (np nc ps cs : Bool) (rm : RoundingMode),
    ps = ((F.value a).sign ^^ (F.value b).sign ^^ np) → cs = ((F.value c).sign ^^ nc) →
    (∀ p q u v : ℚ, Claims.realOf (F.value a) = .rat p → Claims.realOf (F.value b) = .rat q →
      Claims.realOf (F.value c) = .rat u → v = (if np then -1 else 1) * (p * q) + (if nc then -1 else 1) * u →
      (v ≠ 0 → ∃ (num den : Nat) (k : Int), 0 < num ∧ 0 < den ∧ (num : ℚ) / den * 2 ^ k = |v| ∧
        F.fma a b c np nc rm = F.rounded w (decide (v < 0)) (.ratio num den k) rm) ∧
      (v = 0 → F.fma a b c np nc rm =
        (F.zero w (if p * q = 0 ∧ u = 0 ∧ ps = cs then ps else decide (rm = .rdn)), noFlags))) ∧
    ((F.value a).isNaN = false → (F.value b).isNaN = false → (F.value c).isNaN = false →
      infTimesZero (F.value a) (F.value b) = false →
      ((F.value a).isInf = true ∨ (F.value b).isInf = true → F.fma a b c np nc rm =
        if (F.value c).isInf = true ∧ cs ≠ ps then (F.nan w, flagNV) else (F.inf w ps, noFlags)) ∧
      ((F.value a).isInf = false → (F.value b).isInf = false → (F.value c).isInf = true →
        F.fma a b c np nc rm = (F.inf w cs, noFlags)))

/-- R344, R346: a NaN input of an arithmetic operation gives the canonical NaN, with NV exactly when an input is
signaling; infinity times zero in a fused operation raises NV whatever the addend (R347). An infinite input gives an
infinity or, as a divisor, a zero; where R346 gives no value, the canonical NaN with NV. -/
def Obligations.SpecialInputs : Prop :=
  ∀ (F : FloatFormat) (w : Nat) (a b c : BitVec w) (rm : RoundingMode) (np nc neg : Bool),
    ((F.value a).isNaN = true ∨ (F.value b).isNaN = true →
      ∀ r ∈ [F.add a b rm, F.sub a b rm, F.mul a b rm, F.div a b rm],
        r = (F.nan w, if (F.value a).isSignaling ∨ (F.value b).isSignaling then flagNV else noFlags)) ∧
    ((F.value a).isNaN = true → F.sqrt a rm = (F.nan w, if (F.value a).isSignaling then flagNV else noFlags)) ∧
    ((F.value a).isNaN = true ∨ (F.value b).isNaN = true ∨ (F.value c).isNaN = true →
      F.fma a b c np nc rm = (F.nan w,
        if (F.value a).isSignaling ∨ (F.value b).isSignaling ∨ (F.value c).isSignaling ∨
          infTimesZero (F.value a) (F.value b) then flagNV else noFlags)) ∧
    (∀ (G : FloatFormat) (v : Nat),
      ((F.value a).isNaN = true →
        F.convert G v a rm = (G.nan v, if (F.value a).isSignaling then flagNV else noFlags)) ∧
      (F.value a = .inf neg → F.convert G v a rm = (G.inf v neg, noFlags)) ∧
      (F.value a = .zero neg → F.convert G v a rm = (G.zero v neg, noFlags))) ∧
    (infTimesZero (F.value a) (F.value b) = true → F.mul a b rm = (F.nan w, flagNV) ∧
      F.fma a b c np nc rm = (F.nan w, flagNV)) ∧
    (F.value a = .inf neg → (F.value b).isNaN = false →
      F.add a b rm = (if F.value b = .inf (!neg) then (F.nan w, flagNV) else (F.inf w neg, noFlags)) ∧
      F.add b a rm = F.add a b rm ∧
      F.sub a b rm = (if F.value b = .inf neg then (F.nan w, flagNV) else (F.inf w neg, noFlags)) ∧
      F.sub b a rm = (if F.value b = .inf neg then (F.nan w, flagNV) else (F.inf w (!neg), noFlags)) ∧
      (infTimesZero (F.value a) (F.value b) = false →
        F.mul a b rm = (F.inf w (neg ^^ (F.value b).sign), noFlags)) ∧
      F.mul b a rm = F.mul a b rm ∧
      F.div a b rm =
        (if (F.value b).isInf = true then (F.nan w, flagNV) else (F.inf w (neg ^^ (F.value b).sign), noFlags)) ∧
      ((F.value b).isInf = false → F.div b a rm = (F.zero w (neg ^^ (F.value b).sign), noFlags)))

/-- R351: a NaN and `+inf` convert to the largest integer, `-inf` to the smallest, with NV; a finite value is rounded
and, out of range, replaced by the nearer bound with NV; NX is raised when it was rounded. -/
def Obligations.ToIntegerRule : Prop :=
  ∀ (F : FloatFormat) (w n : Nat) (signed : Bool) (a : BitVec w) (rm : RoundingMode) (lo hi : Int),
    lo = (if signed then -2 ^ (n - 1) else 0) → hi = (if signed then 2 ^ (n - 1) - 1 else 2 ^ n - 1) →
    (∀ q, F.value a = .nan q → F.toInt n signed a rm = (.ofInt n hi, flagNV)) ∧
    (F.value a = .inf false → F.toInt n signed a rm = (.ofInt n hi, flagNV)) ∧
    (F.value a = .inf true → F.toInt n signed a rm = (.ofInt n lo, flagNV)) ∧
    (∀ neg, F.value a = .zero neg → F.toInt n signed a rm = (0, noFlags)) ∧
    (∀ neg m k r, F.value a = .finite neg m k →
      r = (if neg then -1 else 1) * Claims.rint ((m : ℚ) * 2 ^ k) neg rm →
      F.toInt n signed a rm =
        if r < lo then (.ofInt n lo, flagNV)
        else if hi < r then (.ofInt n hi, flagNV)
        else (.ofInt n r, if (r : ℚ) = (if neg then -1 else 1) * (m : ℚ) * 2 ^ k then noFlags else flagNX))

/-! ### System instructions (49_system.md, 60_exceptions.md) -/

/-- R440, R441, R444: `FENCE`, `FENCE.I` and `WFI` complete and do nothing, whatever their fields. -/
def Obligations.NoOperations : Prop :=
  ∀ (s : State) (rd rs1 : Reg) (fm pred succ : BitVec 4) (imm : Imm12),
    GoesTo (.fence rd rs1 fm pred succ) s s.nextPc ∧ GoesTo (.fenceI rd rs1 imm) s s.nextPc ∧ GoesTo .wfi s s.nextPc

/-- R442, R443, R465, R466: `ECALL` and `EBREAK` return their signal and change no state, the pc included. That the
signal stands in the hart until the host answers is the model's choice (log 8). -/
def Obligations.Signals : Prop :=
  ∀ s : State,
    exec .ecall s = .next { s with running := { s.running with signal := some .environmentCall } } ∧
    exec .ebreak s = .next { s with running := { s.running with signal := some .breakpoint } }

/-- R446, R472: `URET` completes in every state: `UIE` takes `UPIE`, `UPIE` becomes 1, the pc takes `uepc` with bit 0
clear; nothing else changes. -/
def Obligations.TrapReturn : Prop :=
  ∀ s : State, ∃ t, exec .uret s = .next t ∧
    t.running.ustatus.getLsbD 0 = s.running.ustatus.getLsbD 4 ∧ t.running.ustatus.getLsbD 4 = true ∧
    (∀ b, b ≠ 0 → b ≠ 4 → t.running.ustatus.getLsbD b = s.running.ustatus.getLsbD b) ∧
    t.running.pc = toXlen s.m64 s.running.uepc &&& ~~~1 ∧
    t = { s with running := { s.running with ustatus := t.running.ustatus, pc := t.running.pc } }

/-- What a CSR instruction does at an address that names a register (R445): `rd` takes the old value; the register takes
`new` of it when the instruction writes; the rest of the machine is as before. -/
def Claims.csr (i : Instr) (s : State) (rd : Reg) (c : CsrAddr) (writes : Prop) (new : DWord → DWord) : Prop :=
  ∀ old, s.csrRead c = some old → ∃ t, exec i s = .next t ∧
    t.stored rd = (if rd = 0 then 0 else if s.m64 then old else sext64 (low32 old)) ∧
    (∀ q, q ≠ rd → t.stored q = s.stored q) ∧ t.running.pc = s.nextPc ∧
    (writes → t.running = { (s.csrWrite c (new old)).running with x := t.running.x, pc := t.running.pc }) ∧
    (¬writes → t.running = { s.running with x := t.running.x, pc := t.running.pc }) ∧
    t = { s with running := t.running }

/-- R445, R448 to R453. `CSRRW` and `CSRRWI` always write; the set and clear forms write when the register index, or the
immediate, is not 0. -/
def Obligations.CsrInstructions : Prop :=
  ∀ (s : State) (rd rs1 : Reg) (c : CsrAddr) (z : Zimm),
    Claims.csr (.csrrw rd c rs1) s rd c True (fun _ => s.readX rs1) ∧
    Claims.csr (.csrrs rd c rs1) s rd c (rs1 ≠ 0) (fun old => old ||| s.readX rs1) ∧
    Claims.csr (.csrrc rd c rs1) s rd c (rs1 ≠ 0) (fun old => old &&& ~~~(s.readX rs1)) ∧
    Claims.csr (.csrrwi rd c z) s rd c True (fun _ => .ofNat 64 z.toNat) ∧
    Claims.csr (.csrrsi rd c z) s rd c (z ≠ 0) (fun old => old ||| .ofNat 64 z.toNat) ∧
    Claims.csr (.csrrci rd c z) s rd c (z ≠ 0) (fun old => old &&& ~~~(.ofNat 64 z.toNat))

/-- R454, R36 to R41, R445: the five control registers read back what their write masks store, `fcsr` is the pair of
`fflags` and `frm`, and a write to one of the others leaves the rest alone. A register of `CSR_SET` reads back its
written bits under its mask and keeps the others, within its width (the model's reading, log 14), and a write to it or
to a named register leaves every other added register alone. A write changes no other state of the machine. -/
def Obligations.CsrWriteMasks : Prop :=
  ∀ (s : State) (v : DWord), toXlen s.m64 v = v →
    (s.csrWrite 0x000 v).csrRead 0x000 = some (v &&& 0x11) ∧
    (s.csrWrite 0x001 v).csrRead 0x001 = some (v &&& 0x1F) ∧
    (s.csrWrite 0x002 v).csrRead 0x002 = some (v &&& 0x7) ∧
    (s.csrWrite 0x003 v).csrRead 0x003 = some (v &&& 0xFF) ∧
    (s.csrWrite 0x003 v).csrRead 0x001 = some (v &&& 0x1F) ∧
    (s.csrWrite 0x003 v).csrRead 0x002 = some (v >>> 5 &&& 0x7) ∧
    (s.csrWrite 0x041 v).csrRead 0x041 = some (v &&& ~~~1) ∧
    (∀ c ∈ ([0x001, 0x002, 0x003, 0x041] : List CsrAddr), (s.csrWrite 0x000 v).csrRead c = s.csrRead c) ∧
    (∀ c ∈ ([0x000, 0x002, 0x041] : List CsrAddr), (s.csrWrite 0x001 v).csrRead c = s.csrRead c) ∧
    (∀ c ∈ ([0x000, 0x001, 0x041] : List CsrAddr), (s.csrWrite 0x002 v).csrRead c = s.csrRead c) ∧
    (∀ c ∈ ([0x000, 0x041] : List CsrAddr), (s.csrWrite 0x003 v).csrRead c = s.csrRead c) ∧
    (∀ c ∈ ([0x000, 0x001, 0x002, 0x003] : List CsrAddr), (s.csrWrite 0x041 v).csrRead c = s.csrRead c) ∧
    (∀ c ∈ ([0x000, 0x001, 0x002, 0x003, 0x041] : List CsrAddr), (s.csrWrite c v).running.extra = s.running.extra) ∧
    (∀ (before after : List ExtraCsr) (e : ExtraCsr), s.running.extra = before ++ e :: after →
      (∀ q ∈ before, q.spec.addr ≠ e.spec.addr) →
      e.spec.addr ∉ ([0x000, 0x001, 0x002, 0x003, 0x041] : List CsrAddr) →
      ∃ new r, (s.csrWrite e.spec.addr v).running.extra = before ++ { e with value := new } :: after ∧
        (s.csrWrite e.spec.addr v).csrRead e.spec.addr = some r ∧
        (∀ b, b < xlen s.m64 → r.getLsbD b =
          (decide (b < e.spec.width) && if e.spec.mask.getLsbD b then v.getLsbD b else e.value.getLsbD b)) ∧
        (∀ b, xlen s.m64 ≤ b → r.getLsbD b = false) ∧
        s.csrWrite e.spec.addr v =
          { s with running := { s.running with extra := before ++ { e with value := new } :: after } }) ∧
    ∀ c : CsrAddr, ∀ t, t = s.csrWrite c v →
      t = { s with running := { s.running with ustatus := t.running.ustatus, fflags := t.running.fflags,
                                               frm := t.running.frm, uepc := t.running.uepc,
                                               extra := t.running.extra } }
end

