-- ==== Sys2Proof/Laws/Decode.lean ====
section
/-! SUPPORT. The laws of the decode block: the arbiter over an unambiguous catalog, fields gathered from the bits they
were scattered to, and the round trip of a descriptor (40_matcher.md, 41_extractor.md, 42_dispatch.md R152 to R164). -/

namespace Sys2Proof

/-! ### Reading a template by its bytes -/

/-- An ASCII character is its own UTF-8 byte. -/
theorem utf8EncodeChar_ascii (c : Char) (h : (String.utf8EncodeChar c).all (· < 128) = true) :
    (String.utf8EncodeChar c).map (fun b => Char.ofNat b.toNat) = [c] := by
  unfold String.utf8EncodeChar at h ⊢
  simp only at h ⊢
  by_cases h1 : c.val.toNat ≤ 127
  · rw [if_pos h1]
    have : (UInt8.ofNat c.val.toNat).toNat = c.val.toNat := by
      rw [UInt8.toNat_ofNat']; exact Nat.mod_eq_of_lt (by omega)
    simp only [List.map_cons, this, List.map_nil]
    congr 1
    exact Char.ofNat_toNat c
  · rw [if_neg h1] at h
    exfalso
    have key : ∀ n : Nat, n < 256 → 128 ≤ n → ¬ (UInt8.ofNat n < 128) := by
      intro n hn h2 h3
      rw [UInt8.lt_iff_toNat_lt] at h3
      simp [UInt8.toNat_ofNat'] at h3
      omega
    by_cases h2 : c.val.toNat ≤ 2047
    · rw [if_pos h2] at h
      simp only [List.all_cons, Bool.and_eq_true, decide_eq_true_eq] at h
      exact key _ (by omega) (by omega) h.1
    · rw [if_neg h2] at h
      by_cases h3 : c.val.toNat ≤ 65535
      · rw [if_pos h3] at h
        simp only [List.all_cons, Bool.and_eq_true, decide_eq_true_eq] at h
        exact key _ (by omega) (by omega) h.1
      · rw [if_neg h3] at h
        simp only [List.all_cons, Bool.and_eq_true, decide_eq_true_eq] at h
        exact key _ (by omega) (by omega) h.1

/-- The characters of a string read from its bytes, which the kernel evaluates fast. -/
def asciiChars (s : String) : List Char := s.toByteArray.data.toList.map fun b => Char.ofNat b.toNat

/-- Every byte of the string is ASCII. -/
def isAscii (s : String) : Bool := s.toByteArray.data.toList.all (· < 128)

theorem asciiAux (l : List Char) (h : (l.flatMap String.utf8EncodeChar).all (· < 128) = true) :
    (l.flatMap String.utf8EncodeChar).map (fun b => Char.ofNat b.toNat) = l := by
  induction l with
  | nil => rfl
  | cons c l ih =>
    simp only [List.flatMap_cons, List.all_append, Bool.and_eq_true] at h
    obtain ⟨h1, h2⟩ := h
    simp only [List.flatMap_cons, List.map_append, ih h2, utf8EncodeChar_ascii c h1, List.singleton_append]

/-- The route by which a claim about the templates of the catalog is checked by evaluation. -/
theorem toList_of_ascii (s : String) (h : isAscii s = true) : s.toList = asciiChars s := by
  obtain ⟨l, rfl⟩ : ∃ l, s = String.ofList l := ⟨s.toList, by simp⟩
  have e : (String.ofList l).toByteArray.data.toList = l.flatMap String.utf8EncodeChar := by
    rw [String.toByteArray_ofList]; simp [List.utf8Encode]
  unfold isAscii at h; unfold asciiChars
  rw [e] at h ⊢
  rw [asciiAux l h, String.toList_ofList]


/-! ### Fixed bits (R133 to R135) -/

/-- The round-trip word is accepted (R135). -/
theorem accepts_roundTrip {w mask value : Word} (h : value &&& ~~~mask = 0) :
    accepts ((w &&& ~~~mask) ||| value) mask value = true := by
  simp only [accepts, beq_iff_eq]
  ext b hb
  have := congrArg (·.getLsbD b) h
  simp [hb] at this
  simp
  cases hv : value[b] <;> cases hm : mask[b] <;> simp_all

/-- An accepted word agrees with the fixed bits. -/
theorem getLsbD_of_accepts {w mask value : Word} (h : accepts w mask value = true) {b : Nat}
    (hb : mask.getLsbD b = true) : w.getLsbD b = value.getLsbD b := by
  simp only [accepts, beq_iff_eq] at h
  rw [← h, BitVec.getLsbD_and, hb, Bool.and_true]

/-- Two descriptors that accept one word overlap (R23). -/
theorem overlaps_of_accepts {a b : Descriptor} {w : Word} (ha : a.accepts w = true) (hb : b.accepts w = true) :
    a.overlaps b = true := by
  simp only [Descriptor.overlaps, beq_iff_eq]
  simp only [Descriptor.accepts, Sys2Proof.accepts, beq_iff_eq] at ha hb
  rw [← ha, ← hb]
  ext i hi
  simp only [BitVec.getElem_and, BitVec.getElem_xor]
  rw [show (0 : Word)[i] = false from BitVec.getElem_zero hi]
  cases w[i] <;> cases a.mask[i] <;> cases b.mask[i] <;> rfl

/-! ### The arbiter (R152, R154) -/

/-- What the arbiter selects accepts the word and is enabled, and it stands at its index. -/
theorem selectFrom_some {m64 : Bool} {w : Word} {c : Catalog} {n k : Nat} {d : Descriptor}
    (h : c.selectFrom m64 w n = some (k, d)) :
    n ≤ k ∧ (c)[k - n]? = some d ∧ d.enabled m64 = true ∧ d.accepts w = true := by
  induction c generalizing n with
  | nil => simp [Catalog.selectFrom] at h
  | cons e rest ih =>
    simp only [Catalog.selectFrom] at h
    split at h
    · rename_i hc
      simp only [Bool.and_eq_true] at hc
      obtain ⟨rfl, rfl⟩ := Prod.mk.inj (Option.some.inj h)
      exact ⟨Nat.le_refl _, by simp, hc.1, hc.2⟩
    · obtain ⟨h1, h2, h3⟩ := ih h
      refine ⟨by omega, ?_, h3⟩
      rw [show k - n = k - (n + 1) + 1 by omega, List.getElem?_cons_succ]
      exact h2

/-- Nothing is selected exactly when no enabled descriptor accepts the word (R113). -/
theorem selectFrom_none {m64 : Bool} {w : Word} {c : Catalog} {n : Nat} :
    c.selectFrom m64 w n = none ↔ ∀ d ∈ c, d.enabled m64 = true → d.accepts w = false := by
  induction c generalizing n with
  | nil => simp [Catalog.selectFrom]
  | cons e rest ih =>
    simp only [Catalog.selectFrom, List.mem_cons, forall_eq_or_imp]
    by_cases hc : (e.enabled m64 && e.accepts w) = true
    · rw [if_pos hc]
      simp only [Bool.and_eq_true] at hc
      simp [hc.1, hc.2]
    · rw [if_neg hc, ih]
      refine ⟨fun h => ⟨fun he => ?_, h⟩, fun h => h.2⟩
      simpa [he] using hc

/-- With an unambiguous catalog the arbiter selects the one enabled descriptor that accepts the word (R152). -/
theorem selectFrom_of_unambiguous {m64 : Bool} {w : Word} {c : Catalog} (hu : c.unambiguous m64) {n k : Nat}
    {d : Descriptor} (hk : (c)[k]? = some d) (he : d.enabled m64 = true) (ha : d.accepts w = true) :
    c.selectFrom m64 w n = some (n + k, d) := by
  induction c generalizing n k with
  | nil => simp at hk
  | cons e rest ih =>
    unfold Catalog.unambiguous at hu
    rw [List.filter_cons] at hu
    rcases k with - | k
    · simp only [List.getElem?_cons_zero, Option.some.injEq] at hk
      subst hk
      simp [Catalog.selectFrom, he, ha]
    · rw [List.getElem?_cons_succ] at hk
      have hrest : Catalog.unambiguous rest m64 := by
        unfold Catalog.unambiguous
        split at hu
        · exact (List.pairwise_cons.1 hu).2
        · exact hu
      simp only [Catalog.selectFrom]
      rw [if_neg, ih hrest hk, show n + 1 + k = n + (k + 1) by omega]
      intro hc
      simp only [Bool.and_eq_true] at hc
      rw [if_pos hc.1] at hu
      have hd : d ∈ rest.filter (·.enabled m64) := List.mem_filter.2 ⟨List.mem_of_getElem? hk, he⟩
      have := (List.pairwise_cons.1 hu).1 d hd
      rw [overlaps_of_accepts hc.2 ha] at this
      cases this

/-! ### Fields: gather and scatter (R143) -/

theorem gather_cons (w : Word) (p : Nat) (ps : List Nat) :
    gather w (p :: ps) = (w.getLsbD p).toNat * 2 ^ ps.length + gather w ps := by
  have aux : ∀ (qs : List Nat) (acc : Nat), qs.foldl (fun v q => 2 * v + (w.getLsbD q).toNat) acc
      = acc * 2 ^ qs.length + qs.foldl (fun v q => 2 * v + (w.getLsbD q).toNat) 0 := by
    intro qs
    induction qs with
    | nil => intro acc; simp
    | cons q qs ih =>
      intro acc
      simp only [List.foldl_cons, List.length_cons, Nat.mul_zero, Nat.zero_add]
      rw [ih, ih (w.getLsbD q).toNat, Nat.pow_succ, Nat.add_mul]
      have : 2 * acc * 2 ^ qs.length = acc * (2 ^ qs.length * 2) := by
        rw [Nat.mul_comm 2 acc, Nat.mul_assoc, Nat.mul_comm 2]
      omega
  unfold gather
  simp only [List.foldl_cons, Nat.mul_zero, Nat.zero_add]
  rw [aux]

/-- Every operand is below `2^w` (R144). -/
theorem gather_lt (w : Word) (ps : List Nat) : gather w ps < 2 ^ ps.length := by
  induction ps with
  | nil => simp [gather]
  | cons p ps ih =>
    rw [gather_cons, List.length_cons, Nat.pow_succ]
    cases w.getLsbD p <;> simp <;> omega

/-- The operand depends on the bits of its field only. -/
theorem gather_congr {v w : Word} {ps : List Nat} (h : ∀ p ∈ ps, v.getLsbD p = w.getLsbD p) :
    gather v ps = gather w ps := by
  induction ps with
  | nil => rfl
  | cons p ps ih =>
    rw [gather_cons, gather_cons, h p List.mem_cons_self, ih fun q hq => h q (List.mem_cons_of_mem _ hq)]

/-- A field whose bits are those of `v`, most significant first, gathers to `v`. -/
theorem gather_eq_of_bits {w : Word} {v : Nat} {ps : List Nat}
    (h : ∀ (j : Nat) (p : Nat), ps[j]? = some p → w.getLsbD p = v.testBit (ps.length - 1 - j)) :
    gather w ps = v % 2 ^ ps.length := by
  induction ps with
  | nil => simp [gather, Nat.mod_one]
  | cons p ps ih =>
    have h0 := h 0 p (by simp)
    have hr := ih fun j q hq => by
      have := h (j + 1) q (by simpa using hq)
      rwa [List.length_cons, show ps.length + 1 - 1 - (j + 1) = ps.length - 1 - j by omega] at this
    rw [gather_cons, hr, h0, List.length_cons, show ps.length + 1 - 1 - 0 = ps.length by omega,
      Nat.pow_succ, Nat.mod_mul, Nat.toNat_testBit, Nat.mul_comm (2 ^ ps.length), Nat.add_comm]

/-- A bit outside the positions is not scattered to. -/
theorem scatter_outside {ps : List Nat} (v : Nat) {b : Nat} (hb : b ∉ ps) : (scatter ps v).getLsbD b = false := by
  induction ps with
  | nil => simp [scatter]
  | cons p ps ih =>
    have hp : b ≠ p := fun e => hb (e ▸ List.mem_cons_self)
    have := ih fun c => hb (List.mem_cons_of_mem _ c)
    simp only [scatter, BitVec.getLsbD_or, this, Bool.or_false]
    split
    · simp only [BitVec.getLsbD_shiftLeft, BitVec.getLsbD_one]
      rcases Nat.lt_or_gt_of_ne hp with h | h
      · simp [h]
      · have : b - p ≠ 0 := by omega
        simp [this]
    · simp

/-- The bits scattered to distinct positions of the word are the bits of the value. -/
theorem scatter_inside {ps : List Nat} (v : Nat) (hd : ps.Nodup) (hl : ∀ p ∈ ps, p < 32) {j p : Nat}
    (hj : ps[j]? = some p) : (scatter ps v).getLsbD p = v.testBit (ps.length - 1 - j) := by
  induction ps generalizing j with
  | nil => simp at hj
  | cons q ps ih =>
    have hq := (List.nodup_cons.1 hd).1
    simp only [scatter, BitVec.getLsbD_or]
    rcases j with - | j
    · simp only [List.getElem?_cons_zero, Option.some.injEq] at hj
      subst hj
      rw [scatter_outside v hq, List.length_cons, show ps.length + 1 - 1 - 0 = ps.length by omega]
      have := hl q List.mem_cons_self
      cases v.testBit ps.length <;> simp [this]
    · rw [List.getElem?_cons_succ] at hj
      have hp : p ∈ ps := List.mem_of_getElem? hj
      have hne : p ≠ q := fun e => hq (e ▸ hp)
      rw [ih (List.nodup_cons.1 hd).2 (fun r hr => hl r (List.mem_cons_of_mem _ hr)) hj, List.length_cons,
        show ps.length + 1 - 1 - (j + 1) = ps.length - 1 - j by omega]
      have h0 : ((if v.testBit ps.length then 1#32 <<< q else 0) : Word).getLsbD p = false := by
        split
        · simp only [BitVec.getLsbD_shiftLeft, BitVec.getLsbD_one]
          rcases Nat.lt_or_gt_of_ne hne with h | h
          · simp [h]
          · have : p - q ≠ 0 := by omega
            simp [this]
        · simp
      rw [h0, Bool.false_or]

/-! ### Descriptors -/

/-- The bit positions of all the fields. -/
def Descriptor.positions (d : Descriptor) : List Nat := d.fields.flatMap (·.positions)

/-- What the derived values of a descriptor satisfy when they come from a template (R131, R141): the fields and the
fixed bits divide the word among them, and `value` has no bit outside `mask`. -/
def Descriptor.regular (d : Descriptor) : Bool :=
  decide d.positions.Nodup && d.positions.all (fun p => p < 32 && !d.mask.getLsbD p) &&
    (List.range 32).all (fun b => d.mask.getLsbD b || d.positions.contains b) && (d.value &&& ~~~d.mask) == 0

theorem Descriptor.regular_nodup {d : Descriptor} (h : d.regular = true) : d.positions.Nodup := by
  simp only [Descriptor.regular, Bool.and_eq_true, decide_eq_true_eq] at h; exact h.1.1.1

theorem Descriptor.regular_lt {d : Descriptor} (h : d.regular = true) {p : Nat} (hp : p ∈ d.positions) : p < 32 := by
  simp only [Descriptor.regular, Bool.and_eq_true, List.all_eq_true, decide_eq_true_eq] at h
  exact (h.1.1.2 p hp).1

theorem Descriptor.regular_free {d : Descriptor} (h : d.regular = true) {p : Nat} (hp : p ∈ d.positions) :
    d.mask.getLsbD p = false := by
  simp only [Descriptor.regular, Bool.and_eq_true, List.all_eq_true] at h
  simpa using (h.1.1.2 p hp).2

theorem Descriptor.regular_fixed {d : Descriptor} (h : d.regular = true) {b : Nat} (hb : b < 32)
    (hn : b ∉ d.positions) : d.mask.getLsbD b = true := by
  simp only [Descriptor.regular, Bool.and_eq_true, List.all_eq_true, List.mem_range, Bool.or_eq_true,
    List.contains_iff_mem] at h
  exact (h.1.2 b hb).resolve_right hn

theorem Descriptor.regular_value {d : Descriptor} (h : d.regular = true) : d.value &&& ~~~d.mask = 0 := by
  simp only [Descriptor.regular, Bool.and_eq_true, beq_iff_eq] at h; exact h.2

/-- The operands depend on the bits at the field positions only (R143). -/
theorem Descriptor.extract_congr {d : Descriptor} {v w : Word} (h : ∀ p ∈ d.positions, v.getLsbD p = w.getLsbD p) :
    d.extract v = d.extract w := by
  unfold Descriptor.extract
  refine List.map_congr_left fun f hf => gather_congr fun p hp => h p ?_
  exact List.mem_flatMap.2 ⟨f, hf, hp⟩

/-! ### Assembling a word from its operands (R135) -/

/-- `Descriptor.assemble` over a list of fields, for induction on it. -/
def putFields (fs : List Field) (ops : List Nat) (v : Word) : Word :=
  (fs.zip ops).foldr (fun fv w => scatter fv.1.positions fv.2 ||| w) v
theorem Descriptor.assemble_eq (d : Descriptor) (ops : List Nat) : d.assemble ops = putFields d.fields ops d.value := rfl

/-- A bit of no field is that of the fixed word. -/
theorem putFields_outside (fs : List Field) (ops : List Nat) (v : Word) (b : Nat) (hb : b ∉ fs.flatMap (·.positions)) :
    (putFields fs ops v).getLsbD b = v.getLsbD b := by
  induction fs generalizing ops with
  | nil => rfl
  | cons f fs ih =>
    simp only [List.flatMap_cons, List.mem_append, not_or] at hb
    cases ops with
    | nil => rfl
    | cons o ops =>
      have := ih ops hb.2
      unfold putFields at this ⊢
      simp only [List.zip_cons_cons, List.foldr_cons, BitVec.getLsbD_or, scatter_outside o hb.1, Bool.false_or]
      exact this

/-- The operands put at disjoint fields are gathered again (R142, R143). -/
theorem gather_putFields (fs : List Field) (ops : List Nat) (v : Word) (hl : ops.length = fs.length)
    (hn : (fs.flatMap (·.positions)).Nodup) (h32 : ∀ p ∈ fs.flatMap (·.positions), p < 32)
    (hv : ∀ p ∈ fs.flatMap (·.positions), v.getLsbD p = false)
    (hr : ∀ fv ∈ fs.zip ops, fv.2 < 2 ^ fv.1.positions.length) :
    fs.map (fun f => gather (putFields fs ops v) f.positions) = ops := by
  induction fs generalizing ops with
  | nil => simp at hl; simp [hl]
  | cons f fs ih =>
    cases ops with
    | nil => simp at hl
    | cons o ops =>
      simp only [List.flatMap_cons] at hn h32 hv
      have hn' := List.nodup_append.1 hn
      simp only [List.map_cons]
      congr 1
      · have ho : o < 2 ^ f.positions.length := hr (f, o) (by simp)
        rw [gather_eq_of_bits (v := o), Nat.mod_eq_of_lt ho]
        intro j p hj
        have hp : p ∈ f.positions := List.mem_of_getElem? hj
        have hout : p ∉ fs.flatMap (·.positions) := fun c => hn'.2.2 p hp p c rfl
        have e : (putFields (f :: fs) (o :: ops) v).getLsbD p = (scatter f.positions o).getLsbD p := by
          have := putFields_outside fs ops v p hout
          unfold putFields at this ⊢
          simp only [List.zip_cons_cons, List.foldr_cons, BitVec.getLsbD_or]
          rw [this, hv p (List.mem_append_left _ hp), Bool.or_false]
        rw [e, scatter_inside o hn'.1 (fun q hq => h32 q (List.mem_append_left _ hq)) hj]
      · have := ih ops (by simpa using hl) hn'.2.1 (fun p hp => h32 p (List.mem_append_right _ hp))
          (fun p hp => hv p (List.mem_append_right _ hp)) (fun fv hfv => hr fv (by simp [hfv]))
        rw [← this]
        refine List.map_congr_left fun g hg => gather_congr fun p hp => ?_
        have hpm : p ∈ fs.flatMap (·.positions) := List.mem_flatMap.2 ⟨g, hg, hp⟩
        have hout : p ∉ f.positions := fun c => hn'.2.2 p c p hpm rfl
        rw [this]
        unfold putFields
        simp only [List.zip_cons_cons, List.foldr_cons, BitVec.getLsbD_or, scatter_outside o hout, Bool.false_or]

end Sys2Proof
end

