-- ==== Sys2Proof/Laws/Catalog.lean ====
section
/-! SUPPORT. What building a catalog gives (10_state.md R21 to R23, 40_matcher.md R131, R132, 41_extractor.md R141): the
derived values of a template, for every template, and the reference catalog as a built one. -/

namespace Sys2Proof

/-! ### The mask and the match of a template (R131) -/

/-- A fixed position: the character is `0` or `1`. -/
def isFixed (c : Char) : Bool := c == '0' || c == '1'

theorem maskMatch_cons (c : Char) (cs : List Char) :
    maskMatch (c :: cs) = ((maskMatch cs).1 + (if isFixed c then 2 ^ cs.length else 0),
      (maskMatch cs).2 + (if c == '1' then 2 ^ cs.length else 0)) := by
  simp only [maskMatch, isFixed]
  by_cases h0 : (c == '0') = true
  · have : c = '0' := by simpa using h0
    subst this; rfl
  · by_cases h1 : (c == '1') = true <;> simp [h0, h1]

theorem maskMatch_lt (cs : List Char) : (maskMatch cs).1 < 2 ^ cs.length ∧ (maskMatch cs).2 ≤ (maskMatch cs).1 := by
  induction cs with
  | nil => simp [maskMatch]
  | cons c cs ih =>
    rw [maskMatch_cons, List.length_cons, Nat.pow_succ]
    obtain ⟨h1, h2⟩ := ih
    by_cases hc : (c == '1') = true
    · simp only [hc, isFixed, Bool.or_true, if_true]; omega
    · by_cases hf : isFixed c = true <;> simp only [hc, hf, if_true, if_false, Bool.false_eq_true] <;> omega

/-- A bit of a number with one more bit on top. -/
theorem testBit_add_top {x n b : Nat} (hx : x < 2 ^ n) (f : Bool) :
    (x + (if f then 2 ^ n else 0)).testBit b = if b = n then f else x.testBit b := by
  cases f
  · simp only [Bool.false_eq_true, if_false, Nat.add_zero]
    by_cases h : b = n
    · subst h; simp [Nat.testBit_lt_two_pow hx]
    · simp [h]
  · rw [if_pos rfl, Nat.add_comm]
    by_cases h : b = n
    · rw [if_pos h]; subst h; rw [Nat.testBit_two_pow_add_eq, Nat.testBit_lt_two_pow hx]; rfl
    · rw [if_neg h]
      rcases Nat.lt_or_gt_of_ne h with h | h
      · rw [Nat.testBit_two_pow_add_gt h]
      · rw [Nat.testBit_lt_two_pow, Nat.testBit_lt_two_pow (Nat.lt_trans hx (Nat.pow_lt_pow_right (by decide) h))]
        have := Nat.pow_le_pow_right (n := 2) (by decide) h
        rw [Nat.pow_succ] at this
        omega

/-- The mask has a 1 exactly where the template has a fixed bit, and the match has one where the template has a `1`. -/
theorem maskMatch_testBit (cs : List Char) (b : Nat) :
    (maskMatch cs).1.testBit b = (cs.reverse[b]?.map isFixed).getD false ∧
      (maskMatch cs).2.testBit b = (cs.reverse[b]?.map (· == '1')).getD false := by
  induction cs with
  | nil => simp [maskMatch]
  | cons c cs ih =>
    have h1 := (maskMatch_lt cs).1
    have h2 := Nat.lt_of_le_of_lt (maskMatch_lt cs).2 h1
    rw [maskMatch_cons, testBit_add_top h1, testBit_add_top h2, ih.1, ih.2, List.reverse_cons, List.getElem?_append,
      List.length_reverse]
    by_cases hb : b < cs.length
    · have hne : b ≠ cs.length := Nat.ne_of_lt hb
      simp [hne, hb]
    · rw [if_neg hb]
      by_cases he : b = cs.length
      · subst he; simp
      · rw [if_neg he, if_neg he, List.getElem?_eq_none (by simp; omega), List.getElem?_eq_none (by simp; omega)]
        exact ⟨rfl, rfl⟩

/-! ### The fields of a template (R141) -/

/-- The bit numbers of a list of fields. -/
def foundPositions (found : List (Char × List Nat)) : List Nat := found.flatMap (·.2)

theorem foundPositions_addPosition (c : Char) (b : Nat) (found : List (Char × List Nat)) :
    (foundPositions (addPosition c b found)).Perm (b :: foundPositions found) := by
  induction found with
  | nil => simp [addPosition, foundPositions]
  | cons f rest ih =>
    obtain ⟨d, ps⟩ := f
    simp only [addPosition]
    split
    · simp only [foundPositions, List.flatMap_cons, List.append_assoc, List.singleton_append]
      exact List.perm_middle
    · simp only [foundPositions, List.flatMap_cons] at ih ⊢
      exact (List.Perm.append_left ps ih).trans List.perm_middle

/-- The fields of the characters hold the positions that are not fixed, each once. -/
theorem scanFields_positions (cs : List Char) (found : List (Char × List Nat)) :
    (foundPositions (scanFields cs found)).Perm
      (((List.range cs.length).filter fun b => (cs.reverse[b]?.map isFixed) == some false) ++ foundPositions found) := by
  induction cs generalizing found with
  | nil => simp [scanFields]
  | cons c cs ih =>
    have hr : ((List.range (c :: cs).length).filter fun b => ((c :: cs).reverse[b]?.map isFixed) == some false) =
        ((List.range cs.length).filter fun b => (cs.reverse[b]?.map isFixed) == some false) ++
          (if isFixed c then [] else [cs.length]) := by
      rw [List.length_cons, List.range_succ, List.filter_append]
      congr 1
      · refine List.filter_congr fun b hb => ?_
        have hb := List.mem_range.1 hb
        rw [List.reverse_cons, List.getElem?_append_left (by simpa using hb)]
      · cases h : isFixed c <;> simp [h]
    rw [hr]
    simp only [scanFields]
    by_cases hc : (c == '0' || c == '1') = true
    · rw [if_pos hc, if_pos (show isFixed c = true from hc), List.append_nil]
      exact ih found
    · rw [if_neg hc, if_neg (show ¬isFixed c = true from hc), List.append_assoc]
      exact (ih _).trans (List.Perm.append_left _ (foundPositions_addPosition c cs.length found))

/-- In one field the positions fall, so the first is the most significant bit (R143). -/
theorem fieldList_positions (cs : List Char) :
    (fieldList cs).flatMap (·.positions) = foundPositions (scanFields cs []) := by
  simp only [fieldList, foundPositions, List.flatMap_map]

/-! ### A compiled descriptor -/

variable {d e : Descriptor}

/-- What compiling keeps and what it computes (R20, R21). -/
theorem Descriptor.compiledFrom_ok {cs : List Char} (h : d.compiledFrom cs = .ok e) :
    cs.length = 32 ∧ d.handler.serves (fieldList cs) = true ∧
      e = { d with
        mask := BitVec.ofNat 32 (maskMatch cs).1
        value := BitVec.ofNat 32 (maskMatch cs).2
        fields := fieldList cs } := by
  unfold Descriptor.compiledFrom compileChars at h
  split at h
  · cases h
  · rename_i mask value hc
    split at hc
    · rename_i hl
      cases hc
      simp only at h
      split at h
      · rename_i hs
        cases h
        exact ⟨hl, hs, rfl⟩
      · cases h
    · cases hc

/-- The derived values are functions of the template (R21). -/
theorem Descriptor.compiled_ok (h : d.compiled = .ok e) :
    compile e.template = .ok (e.mask, e.value) ∧ e.fields = fieldList (significant e.template) ∧
      e.handler.serves e.fields = true ∧ e = { d with mask := e.mask, value := e.value, fields := e.fields } := by
  obtain ⟨hl, hs, rfl⟩ := Descriptor.compiledFrom_ok h
  refine ⟨?_, rfl, hs, rfl⟩
  unfold compile compileChars
  rw [if_pos hl]

/-- Compiling a compiled descriptor changes nothing. -/
theorem Descriptor.compiled_idem (h : d.compiled = .ok e) : e.compiled = .ok e := by
  obtain ⟨hl, hs, rfl⟩ := Descriptor.compiledFrom_ok h
  unfold Descriptor.compiled Descriptor.compiledFrom compileChars
  simp only [if_pos hl, hs, if_true]

/-- The operands are those of the template (R140). -/
theorem Descriptor.extract_compiled (h : d.compiled = .ok e) (w : Word) : e.extract w = Sys2Proof.extract w e.template := by
  unfold Descriptor.extract Sys2Proof.extract fieldsOf
  rw [(Descriptor.compiled_ok h).2.1, fieldList, List.map_map]
  rfl

/-- The fixed bits and the fields of a compiled descriptor divide the word (R131, R141). -/
theorem Descriptor.compiled_regular (h : d.compiled = .ok e) : e.regular = true := by
  obtain ⟨hl, -, he⟩ := Descriptor.compiledFrom_ok h
  have hm : e.mask = BitVec.ofNat 32 (maskMatch (significant d.template)).1 := by rw [he]
  have hv : e.value = BitVec.ofNat 32 (maskMatch (significant d.template)).2 := by rw [he]
  have hf : e.fields = fieldList (significant d.template) := by rw [he]
  clear he
  generalize significant d.template = cs at hl hm hv hf
  have hp : e.positions.Perm ((List.range 32).filter fun b => (cs.reverse[b]?.map isFixed) == some false) := by
    have := scanFields_positions cs []
    rw [← fieldList_positions, hl] at this
    simpa [Descriptor.positions, hf, foundPositions] using this
  have hmem := fun b => hp.mem_iff (a := b)
  have hbit : ∀ b, b < 32 → ∃ c, cs.reverse[b]? = some c := fun b hb =>
    ⟨_, List.getElem?_eq_getElem (by simpa [hl] using hb)⟩
  have hmask : ∀ b, b < 32 → e.mask.getLsbD b = (cs.reverse[b]?.map isFixed).getD false := by
    intro b hb
    rw [hm, BitVec.getLsbD_ofNat, (maskMatch_testBit cs b).1]
    simp [hb]
  have hvalue : ∀ b, b < 32 → e.value.getLsbD b = (cs.reverse[b]?.map (· == '1')).getD false := by
    intro b hb
    rw [hv, BitVec.getLsbD_ofNat, (maskMatch_testBit cs b).2]
    simp [hb]
  unfold Descriptor.regular
  simp only [Bool.and_eq_true, decide_eq_true_eq, List.all_eq_true, List.mem_range, Bool.or_eq_true,
    List.contains_iff_mem, beq_iff_eq, Bool.not_eq_true']
  refine ⟨⟨⟨hp.nodup_iff.2 (List.nodup_range.filter _), fun b hb => ?_⟩, fun b hb => ?_⟩, ?_⟩
  · obtain ⟨hb, hf⟩ := List.mem_filter.1 ((hmem b).1 hb)
    have hb := List.mem_range.1 hb
    obtain ⟨c, hc⟩ := hbit b hb
    refine ⟨hb, ?_⟩
    rw [hmask b hb, hc]
    simpa [hc] using hf
  · obtain ⟨c, hc⟩ := hbit b hb
    rw [hmask b hb, hc, hmem b, List.mem_filter, List.mem_range, hc]
    cases h : isFixed c <;> simp [h, hb]
  · ext b hb
    have h1 := hmask b hb
    have h2 := hvalue b hb
    obtain ⟨c, hc⟩ := hbit b hb
    rw [hc] at h1 h2
    simp only [Option.map_some, Option.getD_some] at h1 h2
    rw [BitVec.getElem_and, BitVec.getElem_not, ← BitVec.getLsbD_eq_getElem, ← BitVec.getLsbD_eq_getElem, h1, h2]
    cases h3 : (c == '1') <;> simp [isFixed, h3]

/-! ### A built catalog -/

variable {c ds : Catalog}

theorem Catalog.compileAll_mem (h : c.compileAll = .ok ds) : ∀ e ∈ ds, ∃ d ∈ c, d.compiled = .ok e := by
  induction c generalizing ds with
  | nil => cases h; intro e he; cases he
  | cons d rest ih =>
    unfold Catalog.compileAll at h
    split at h
    · cases h
    · rename_i d' hd
      split at h
      · cases h
      · rename_i ds' hds
        cases h
        intro e he
        rcases List.mem_cons.1 he with rfl | he
        · exact ⟨d, List.mem_cons_self, hd⟩
        · obtain ⟨d, hm, hd⟩ := ih hds e he
          exact ⟨d, List.mem_cons_of_mem _ hm, hd⟩

/-- A catalog whose descriptors are all compiled compiles to itself. -/
theorem Catalog.compileAll_self (h : ∀ d ∈ c, d.compiled = .ok d) : c.compileAll = .ok c := by
  induction c with
  | nil => rfl
  | cons d rest ih =>
    unfold Catalog.compileAll
    rw [h d List.mem_cons_self]
    simp only
    rw [ih fun e he => h e (List.mem_cons_of_mem _ he)]

theorem Catalog.build_ok : c.build = .ok ds ↔ c.compileAll = .ok ds ∧ ds.noOverlap = true := by
  unfold Catalog.build
  cases c.compileAll with
  | error e => simp
  | ok es =>
    simp only [Except.ok.injEq]
    split
    · rename_i h
      constructor
      · intro e; cases e; exact ⟨rfl, h⟩
      · rintro ⟨rfl, -⟩; rfl
    · rename_i h
      constructor
      · intro e; cases e
      · rintro ⟨rfl, hn⟩; exact absurd hn h

/-- Building a built catalog changes nothing. -/
theorem Catalog.build_idem (h : c.build = .ok ds) : ds.build = .ok ds := by
  obtain ⟨hc, hn⟩ := Catalog.build_ok.1 h
  refine Catalog.build_ok.2 ⟨Catalog.compileAll_self fun e he => ?_, hn⟩
  obtain ⟨d, -, hd⟩ := Catalog.compileAll_mem hc e he
  exact Descriptor.compiled_idem hd

/-- Every descriptor of a built catalog is its own compilation (R21). -/
theorem Catalog.build_mem (h : c.build = .ok ds) {e : Descriptor} (he : e ∈ ds) : e.compiled = .ok e := by
  obtain ⟨d, -, hd⟩ := Catalog.compileAll_mem (Catalog.build_ok.1 h).1 e he
  exact Descriptor.compiled_idem hd

theorem Catalog.noOverlap_pairwise : c.noOverlap = true ↔ c.Pairwise fun a b => a.overlaps b = false := by
  induction c with
  | nil => simp [Catalog.noOverlap]
  | cons d rest ih =>
    simp only [Catalog.noOverlap, Bool.and_eq_true, List.all_eq_true, Bool.not_eq_true', List.pairwise_cons, ih]

/-- A built catalog is unambiguous in both width modes (R23). -/
theorem Catalog.build_unambiguous (h : c.build = .ok ds) (m64 : Bool) : ds.unambiguous m64 :=
  (Catalog.noOverlap_pairwise.1 (Catalog.build_ok.1 h).2).sublist List.filter_sublist

/-! ### The reference catalog -/

/-- The rows of the reference catalog hold the derived values of their templates, read as bytes. -/
theorem refCatalog_derived : ∀ d ∈ refCatalog, isAscii d.template = true ∧
    compileChars ((asciiChars d.template).filter fun c => !isBlank c) = .ok (d.mask, d.value) ∧
    fieldList ((asciiChars d.template).filter fun c => !isBlank c) = d.fields ∧
    d.handler.serves d.fields = true := by
  have h : (refCatalog.all fun d => isAscii d.template &&
      (match compileChars ((asciiChars d.template).filter fun c => !isBlank c) with
        | .ok mv => mv == (d.mask, d.value)
        | .error _ => false) &&
      (fieldList ((asciiChars d.template).filter fun c => !isBlank c) == d.fields) && d.handler.serves d.fields) = true := by
    decide +kernel
  intro d hd
  have := List.all_eq_true.1 h d hd
  simp only [Bool.and_eq_true, beq_iff_eq] at this
  obtain ⟨⟨⟨h1, h2⟩, h3⟩, h4⟩ := this
  refine ⟨h1, ?_, h3, h4⟩
  revert h2
  cases compileChars ((asciiChars d.template).filter fun c => !isBlank c) with
  | error e => exact fun h => by cases h
  | ok mv => exact fun h => by rw [beq_iff_eq] at h; rw [h]

theorem refCatalog_compiled : ∀ d ∈ refCatalog, d.compiled = .ok d := by
  intro d hd
  obtain ⟨h1, h2, h3, h4⟩ := refCatalog_derived d hd
  unfold Descriptor.compiled Descriptor.compiledFrom significant
  rw [toList_of_ascii _ h1, h2]
  simp only [h3, h4, if_true]

/-- Row `n` of the reference catalog names handler number `n` of those the spec describes, so `Handler.operandWidths`
reads the handler's own row. -/
theorem refCatalog_handlers :
    refCatalog.map (fun d => match d.handler with
      | .spec h => some h.ctorIdx
      | .custom _ => none) = (List.range 161).map some := by decide +kernel

/-- No row of the reference catalog names a custom handler. -/
theorem refCatalog_spec : ∀ d ∈ refCatalog, ∃ h, d.handler = .spec h := by
  intro d hd
  have hm := List.mem_map_of_mem (f := fun d : Descriptor => match d.handler with
    | .spec h => some h.ctorIdx
    | .custom _ => none) hd
  rw [refCatalog_handlers] at hm
  obtain ⟨n, -, hn⟩ := List.mem_map.1 hm
  cases hh : d.handler with
  | spec h => exact ⟨h, rfl⟩
  | custom k => rw [hh] at hn; cases hn

/-- Every row of the reference catalog is regular. -/
theorem refCatalog_regular : ∀ d ∈ refCatalog, d.regular = true := fun d hd =>
  Descriptor.compiled_regular (refCatalog_compiled d hd)

theorem refCatalog_noOverlap : refCatalog.noOverlap = true := by decide +kernel

/-- The reference catalog is a configuration of this hardware, and its rows are what building gives (R23). -/
theorem refCatalog_build : refCatalog.build = .ok refCatalog :=
  Catalog.build_ok.2 ⟨Catalog.compileAll_self refCatalog_compiled, refCatalog_noOverlap⟩

end Sys2Proof
end

