-- ==== Sys2Proof/Laws/Memory.lean ====
section
/-! SUPPORT. The laws of memory: a byte read after a byte written, the canonical form, and the little-endian accesses
built from bytes (20_memory.md R62, R66, R67). -/

namespace Sys2Proof.Machine

/-! ### One byte -/

theorem readCells_writeCells (a b : Nat) (v : Byte) (cs : List Host.Cell)
    (h : cs.Pairwise (fun x y => x.1 < y.1)) :
    readCells b (writeCells a v cs) = if b = a then v else readCells b cs := by
  induction cs with
  | nil =>
    unfold writeCells
    by_cases hv : v = unlistedByte <;> by_cases hb : b = a <;> simp [hv, hb, readCells]
  | cons c rest ih =>
    obtain ⟨k, w⟩ := c
    have hrest := (List.pairwise_cons.1 h).2
    have hk := (List.pairwise_cons.1 h).1
    have habsent : ∀ x, x ≤ k → readCells x rest = unlistedByte := by
      intro x hx
      clear ih h hrest
      induction rest with
      | nil => rfl
      | cons d ds ihd =>
        have := hk d (List.mem_cons_self)
        simp only [readCells]
        rw [if_neg (by omega)]
        exact ihd fun e he => hk e (List.mem_cons_of_mem _ he)
    simp only [writeCells]
    rcases Nat.lt_trichotomy a k with hlt | heq | hgt
    · rw [if_pos hlt]
      by_cases hv : v = unlistedByte <;> by_cases hb : b = a
      · subst hb; simp [hv, readCells, Nat.ne_of_lt hlt, habsent b (Nat.le_of_lt hlt)]
      · simp [hv, hb]
      · simp [hv, hb, readCells]
      · simp [hv, hb, readCells]
    · subst heq
      rw [if_neg (Nat.lt_irrefl a), if_pos rfl]
      by_cases hv : v = unlistedByte <;> by_cases hb : b = a
      · subst hb; simp [hv, habsent b (Nat.le_refl b)]
      · simp [hv, hb, readCells]
      · simp [hv, hb, readCells]
      · simp [hv, hb, readCells]
    · rw [if_neg (by omega), if_neg (by omega)]
      simp only [readCells, ih hrest]
      by_cases hbk : b = k
      · rw [if_pos hbk, if_pos hbk, if_neg (by omega)]
      · rw [if_neg hbk, if_neg hbk]

/-- The keys of the cells after a write are the old keys and perhaps the written one. -/
theorem mem_writeCells {a : Nat} {v : Byte} {cs : List Host.Cell} {c : Host.Cell} (h : c ∈ writeCells a v cs) :
    c ∈ cs ∨ (c = (a, v) ∧ v ≠ unlistedByte) := by
  induction cs with
  | nil =>
    unfold writeCells at h
    by_cases hv : v = unlistedByte <;> simp_all
  | cons d rest ih =>
    obtain ⟨k, w⟩ := d
    simp only [writeCells] at h
    split at h
    · split at h
      · exact Or.inl h
      · rcases List.mem_cons.1 h with rfl | h
        · exact Or.inr ⟨rfl, ‹_›⟩
        · exact Or.inl h
    · split at h
      · split at h
        · exact Or.inl (List.mem_cons_of_mem _ h)
        · rcases List.mem_cons.1 h with rfl | h
          · exact Or.inr ⟨rfl, ‹_›⟩
          · exact Or.inl (List.mem_cons_of_mem _ h)
      · rcases List.mem_cons.1 h with rfl | h
        · exact Or.inl List.mem_cons_self
        · rcases ih h with h | h
          · exact Or.inl (List.mem_cons_of_mem _ h)
          · exact Or.inr h

theorem writeCells_sorted (a : Nat) (v : Byte) (cs : List Host.Cell) (h : cs.Pairwise (fun x y => x.1 < y.1)) :
    (writeCells a v cs).Pairwise (fun x y => x.1 < y.1) := by
  induction cs with
  | nil => unfold writeCells; by_cases hv : v = unlistedByte <;> simp [hv]
  | cons d rest ih =>
    obtain ⟨k, w⟩ := d
    have hrest := (List.pairwise_cons.1 h).2
    have hk := (List.pairwise_cons.1 h).1
    simp only [writeCells]
    split
    · rename_i hlt
      split
      · exact h
      · refine List.pairwise_cons.2 ⟨?_, h⟩
        intro e he
        rcases List.mem_cons.1 he with rfl | he
        · exact hlt
        · exact Nat.lt_trans hlt (hk e he)
    · split
      · rename_i heq
        split
        · exact hrest
        · exact List.pairwise_cons.2 ⟨by subst heq; exact hk, hrest⟩
      · refine List.pairwise_cons.2 ⟨?_, ih hrest⟩
        intro e he
        rcases mem_writeCells he with he | ⟨rfl, -⟩
        · exact hk e he
        · simp only; omega

/-- A write keeps the canonical form. -/
theorem Memory.wf_write {m : Memory} (h : m.wf) (a : Nat) (v : Byte) : (m.write a v).wf := by
  refine ⟨writeCells_sorted a v m.cells h.1, ?_⟩
  intro c hc
  rcases mem_writeCells hc with hc | ⟨rfl, hv⟩
  · exact h.2 c hc
  · exact hv

/-- A byte read after a byte written. -/
theorem Memory.read_write {m : Memory} (h : m.wf) (a b : Nat) (v : Byte) :
    (m.write a v).read b = if b = a then v else m.read b :=
  readCells_writeCells a b v m.cells h.1

/-! ### Little-endian accesses -/

theorem Memory.wf_writeLe {m : Memory} (h : m.wf) (a n v : Nat) : (m.writeLe a n v).wf := by
  induction n generalizing m a v with
  | zero => exact h
  | succ n ih => exact ih (m.wf_write h a _) (a + 1) (v / 256)

/-- The bytes outside the stored range are as before (R73). -/
theorem Memory.read_writeLe_outside {m : Memory} (h : m.wf) (a n v b : Nat) (hb : b < a ∨ a + n ≤ b) :
    (m.writeLe a n v).read b = m.read b := by
  induction n generalizing m a v with
  | zero => rfl
  | succ n ih =>
    simp only [Memory.writeLe]
    rw [ih (m.wf_write h a _) (a + 1) (v / 256) (by omega), Memory.read_write h, if_neg (by omega)]

/-- Byte `k` of the stored range holds byte `k` of the value (R62). -/
theorem Memory.read_writeLe_inside {m : Memory} (h : m.wf) (a n v k : Nat) (hk : k < n) :
    (m.writeLe a n v).read (a + k) = BitVec.ofNat 8 (v / 256 ^ k) := by
  induction n generalizing m a v k with
  | zero => omega
  | succ n ih =>
    simp only [Memory.writeLe]
    rcases k with - | k
    · rw [Memory.read_writeLe_outside (m.wf_write h a _) _ _ _ _ (by omega), Nat.add_zero, Memory.read_write h,
        if_pos rfl]
      simp
    · have := ih (m.wf_write h a (BitVec.ofNat 8 v)) (a + 1) (v / 256) k (by omega)
      rw [show a + (k + 1) = a + 1 + k by omega, this, Nat.div_div_eq_div_mul]
      congr 2
      rw [Nat.pow_succ, Nat.mul_comm]

theorem Memory.readLe_lt (m : Memory) (a n : Nat) : m.readLe a n < 256 ^ n := by
  induction n generalizing a with
  | zero => simp [Memory.readLe]
  | succ n ih =>
    have h1 := ih (a + 1)
    have h2 := (m.read a).isLt
    simp only [Memory.readLe, Nat.pow_succ]
    omega

/-- Byte `k` of the value read is the byte at `a + k` (R62). -/
theorem Memory.readLe_byte (m : Memory) (a n k : Nat) (hk : k < n) :
    m.readLe a n / 256 ^ k % 256 = (m.read (a + k)).toNat := by
  induction n generalizing a k with
  | zero => omega
  | succ n ih =>
    have h2 := (m.read a).isLt
    simp only [Memory.readLe]
    rcases k with - | k
    · simp; omega
    · have := ih (a + 1) k (by omega)
      rw [show a + (k + 1) = a + 1 + k by omega, ← this, Nat.pow_succ, Nat.mul_comm (256 ^ k), ← Nat.div_div_eq_div_mul]
      congr 2
      omega

/-- What a little-endian read depends on. -/
theorem Memory.readLe_congr {m m' : Memory} {a n : Nat} (h : ∀ k, k < n → m.read (a + k) = m'.read (a + k)) :
    m.readLe a n = m'.readLe a n := by
  induction n generalizing a with
  | zero => rfl
  | succ n ih =>
    simp only [Memory.readLe]
    have h0 := h 0 (by omega)
    rw [Nat.add_zero] at h0
    rw [h0, ih fun k hk => by have := h (k + 1) (by omega); rwa [show a + (k + 1) = a + 1 + k by omega] at this]

/-- A value reads back from where it was stored (R62, R67). -/
theorem Memory.readLe_writeLe {m : Memory} (h : m.wf) (a n v : Nat) : (m.writeLe a n v).readLe a n = v % 256 ^ n := by
  induction n generalizing m a v with
  | zero => simp [Memory.readLe, Nat.mod_one]
  | succ n ih =>
    have hw := m.wf_write h a (BitVec.ofNat 8 v)
    simp only [Memory.readLe, Memory.writeLe]
    rw [Memory.read_writeLe_outside hw _ _ _ _ (by omega), Memory.read_write h, if_pos rfl, ih hw,
      BitVec.toNat_ofNat, show 256 ^ (n + 1) = 256 * 256 ^ n by rw [Nat.pow_succ, Nat.mul_comm], Nat.mod_mul]

/-- Memories in canonical form that read alike are equal. -/
theorem Memory.ext_read {m m' : Memory} (h : m.wf) (h' : m'.wf) (hr : ∀ a, m.read a = m'.read a) : m = m' := by
  suffices hs : ∀ cs cs' : List Host.Cell, Memory.wf ⟨cs⟩ → Memory.wf ⟨cs'⟩ →
      (∀ a, readCells a cs = readCells a cs') → cs = cs' by
    obtain ⟨cs⟩ := m; obtain ⟨cs'⟩ := m'
    exact congrArg _ (hs cs cs' h h' hr)
  have habsent : ∀ (cs : List Host.Cell) (k : Nat), (∀ e ∈ cs, k < e.1) → ∀ x, x ≤ k → readCells x cs = unlistedByte := by
    intro cs k hk x hx
    induction cs with
    | nil => rfl
    | cons d ds ih =>
      have := hk d List.mem_cons_self
      simp only [readCells]
      rw [if_neg (by omega)]
      exact ih fun e he => hk e (List.mem_cons_of_mem _ he)
  intro cs
  induction cs with
  | nil =>
    intro cs' _ h' hr
    rcases cs' with - | ⟨⟨k, w⟩, rest⟩
    · rfl
    · have := hr k
      simp [readCells] at this
      exact absurd this.symm (h'.2 (k, w) List.mem_cons_self)
  | cons c rest ih =>
    obtain ⟨k, w⟩ := c
    intro cs' h h' hr
    have hk := (List.pairwise_cons.1 h.1).1
    have hwf : Memory.wf ⟨rest⟩ := ⟨(List.pairwise_cons.1 h.1).2, fun e he => h.2 e (List.mem_cons_of_mem _ he)⟩
    have hw : w ≠ unlistedByte := h.2 (k, w) List.mem_cons_self
    rcases cs' with - | ⟨⟨k', w'⟩, rest'⟩
    · have := hr k
      simp [readCells] at this
      exact absurd this hw
    have hk' := (List.pairwise_cons.1 h'.1).1
    have hwf' : Memory.wf ⟨rest'⟩ := ⟨(List.pairwise_cons.1 h'.1).2, fun e he => h'.2 e (List.mem_cons_of_mem _ he)⟩
    have hw' : w' ≠ unlistedByte := h'.2 (k', w') List.mem_cons_self
    have hkk : k = k' := by
      rcases Nat.lt_trichotomy k k' with hlt | heq | hgt
      · have := hr k
        simp only [readCells, if_true] at this
        rw [if_neg (by omega), habsent rest' k' hk' k (by omega)] at this
        exact absurd this hw
      · exact heq
      · have := hr k'
        simp only [readCells, if_true] at this
        rw [if_neg (by omega), habsent rest k hk k' (by omega)] at this
        exact absurd this.symm hw'
    subst hkk
    have hww : w = w' := by have := hr k; simpa [readCells] using this
    subst hww
    congr 1
    refine ih rest' hwf hwf' fun a => ?_
    by_cases ha : a = k
    · rw [habsent rest k hk a (by omega), habsent rest' k hk' a (by omega)]
    · have := hr a; simpa [readCells, ha] using this

end Sys2Proof.Machine
end

