-- ==== Sys2Proof/Laws/State.lean ====
section
/-! SUPPORT. What each update of the state does to each field, so that no proof unfolds a record update. -/

namespace Sys2Proof.Machine

variable (s : State)

/-! ### Updates in terms of others -/

@[simp] theorem State.advance_eq : s.advance = s.setPc (s.running.pc + 4) := rfl
@[simp] theorem State.writeFs_eq (r : Reg) (v : Word) : s.writeFs r v = s.writeF r (0xFFFFFFFF#32 ++ v) := rfl

/-! ### `writeX` -/

@[simp] theorem State.writeX_m64 (r : Reg) (v : DWord) : (s.writeX r v).m64 = s.m64 := rfl
@[simp] theorem State.writeX_regions (r : Reg) (v : DWord) : (s.writeX r v).regions = s.regions := rfl
@[simp] theorem State.writeX_catalog (r : Reg) (v : DWord) : (s.writeX r v).catalog = s.catalog := rfl
@[simp] theorem State.writeX_parked (r : Reg) (v : DWord) : (s.writeX r v).parked = s.parked := rfl
@[simp] theorem State.writeX_mem (r : Reg) (v : DWord) : (s.writeX r v).mem = s.mem := rfl
@[simp] theorem State.writeX_moves (r : Reg) (v : DWord) : (s.writeX r v).moves = s.moves := rfl
@[simp] theorem State.writeX_id (r : Reg) (v : DWord) : (s.writeX r v).running.id = s.running.id := rfl
@[simp] theorem State.writeX_f (r : Reg) (v : DWord) : (s.writeX r v).running.f = s.running.f := rfl
@[simp] theorem State.writeX_pc (r : Reg) (v : DWord) : (s.writeX r v).running.pc = s.running.pc := rfl
@[simp] theorem State.writeX_fflags (r : Reg) (v : DWord) : (s.writeX r v).running.fflags = s.running.fflags := rfl
@[simp] theorem State.writeX_frm (r : Reg) (v : DWord) : (s.writeX r v).running.frm = s.running.frm := rfl
@[simp] theorem State.writeX_ustatus (r : Reg) (v : DWord) : (s.writeX r v).running.ustatus = s.running.ustatus := rfl
@[simp] theorem State.writeX_uepc (r : Reg) (v : DWord) : (s.writeX r v).running.uepc = s.running.uepc := rfl
@[simp] theorem State.writeX_extra (r : Reg) (v : DWord) : (s.writeX r v).running.extra = s.running.extra := rfl
@[simp] theorem State.writeX_res (r : Reg) (v : DWord) : (s.writeX r v).running.res = s.running.res := rfl
@[simp] theorem State.writeX_signal (r : Reg) (v : DWord) : (s.writeX r v).running.signal = s.running.signal := rfl
@[simp] theorem State.writeX_readF (r : Reg) (v : DWord) (q : Reg) : (s.writeX r v).readF q = s.readF q := rfl
@[simp] theorem State.writeX_memValid (r : Reg) (v : DWord) (k : AccessKind) (b m : Nat) : (s.writeX r v).memValid k b m = s.memValid k b m := rfl
@[simp] theorem State.writeX_accessOk (r : Reg) (v : DWord) (k : AccessKind) (b : DWord) (m : Nat) : (s.writeX r v).accessOk k b m = s.accessOk k b m := rfl

/-! ### `writeF` -/

@[simp] theorem State.writeF_m64 (r : Reg) (v : DWord) : (s.writeF r v).m64 = s.m64 := rfl
@[simp] theorem State.writeF_regions (r : Reg) (v : DWord) : (s.writeF r v).regions = s.regions := rfl
@[simp] theorem State.writeF_catalog (r : Reg) (v : DWord) : (s.writeF r v).catalog = s.catalog := rfl
@[simp] theorem State.writeF_parked (r : Reg) (v : DWord) : (s.writeF r v).parked = s.parked := rfl
@[simp] theorem State.writeF_mem (r : Reg) (v : DWord) : (s.writeF r v).mem = s.mem := rfl
@[simp] theorem State.writeF_moves (r : Reg) (v : DWord) : (s.writeF r v).moves = s.moves := rfl
@[simp] theorem State.writeF_id (r : Reg) (v : DWord) : (s.writeF r v).running.id = s.running.id := rfl
@[simp] theorem State.writeF_x (r : Reg) (v : DWord) : (s.writeF r v).running.x = s.running.x := rfl
@[simp] theorem State.writeF_pc (r : Reg) (v : DWord) : (s.writeF r v).running.pc = s.running.pc := rfl
@[simp] theorem State.writeF_fflags (r : Reg) (v : DWord) : (s.writeF r v).running.fflags = s.running.fflags := rfl
@[simp] theorem State.writeF_frm (r : Reg) (v : DWord) : (s.writeF r v).running.frm = s.running.frm := rfl
@[simp] theorem State.writeF_ustatus (r : Reg) (v : DWord) : (s.writeF r v).running.ustatus = s.running.ustatus := rfl
@[simp] theorem State.writeF_uepc (r : Reg) (v : DWord) : (s.writeF r v).running.uepc = s.running.uepc := rfl
@[simp] theorem State.writeF_extra (r : Reg) (v : DWord) : (s.writeF r v).running.extra = s.running.extra := rfl
@[simp] theorem State.writeF_res (r : Reg) (v : DWord) : (s.writeF r v).running.res = s.running.res := rfl
@[simp] theorem State.writeF_signal (r : Reg) (v : DWord) : (s.writeF r v).running.signal = s.running.signal := rfl
@[simp] theorem State.writeF_stored (r : Reg) (v : DWord) (q : Reg) : (s.writeF r v).stored q = s.stored q := rfl
@[simp] theorem State.writeF_memValid (r : Reg) (v : DWord) (k : AccessKind) (b m : Nat) : (s.writeF r v).memValid k b m = s.memValid k b m := rfl
@[simp] theorem State.writeF_accessOk (r : Reg) (v : DWord) (k : AccessKind) (b : DWord) (m : Nat) : (s.writeF r v).accessOk k b m = s.accessOk k b m := rfl

/-! ### `setPc` -/

@[simp] theorem State.setPc_m64 (t : DWord) : (s.setPc t).m64 = s.m64 := rfl
@[simp] theorem State.setPc_regions (t : DWord) : (s.setPc t).regions = s.regions := rfl
@[simp] theorem State.setPc_catalog (t : DWord) : (s.setPc t).catalog = s.catalog := rfl
@[simp] theorem State.setPc_parked (t : DWord) : (s.setPc t).parked = s.parked := rfl
@[simp] theorem State.setPc_mem (t : DWord) : (s.setPc t).mem = s.mem := rfl
@[simp] theorem State.setPc_moves (t : DWord) : (s.setPc t).moves = s.moves := rfl
@[simp] theorem State.setPc_id (t : DWord) : (s.setPc t).running.id = s.running.id := rfl
@[simp] theorem State.setPc_x (t : DWord) : (s.setPc t).running.x = s.running.x := rfl
@[simp] theorem State.setPc_f (t : DWord) : (s.setPc t).running.f = s.running.f := rfl
@[simp] theorem State.setPc_pc (t : DWord) : (s.setPc t).running.pc = toXlen s.m64 t := rfl
@[simp] theorem State.setPc_fflags (t : DWord) : (s.setPc t).running.fflags = s.running.fflags := rfl
@[simp] theorem State.setPc_frm (t : DWord) : (s.setPc t).running.frm = s.running.frm := rfl
@[simp] theorem State.setPc_ustatus (t : DWord) : (s.setPc t).running.ustatus = s.running.ustatus := rfl
@[simp] theorem State.setPc_uepc (t : DWord) : (s.setPc t).running.uepc = s.running.uepc := rfl
@[simp] theorem State.setPc_extra (t : DWord) : (s.setPc t).running.extra = s.running.extra := rfl
@[simp] theorem State.setPc_res (t : DWord) : (s.setPc t).running.res = s.running.res := rfl
@[simp] theorem State.setPc_signal (t : DWord) : (s.setPc t).running.signal = s.running.signal := rfl
@[simp] theorem State.setPc_stored (t : DWord) (q : Reg) : (s.setPc t).stored q = s.stored q := rfl
@[simp] theorem State.setPc_readF (t : DWord) (q : Reg) : (s.setPc t).readF q = s.readF q := rfl
@[simp] theorem State.setPc_memValid (t : DWord) (k : AccessKind) (b m : Nat) : (s.setPc t).memValid k b m = s.memValid k b m := rfl
@[simp] theorem State.setPc_accessOk (t : DWord) (k : AccessKind) (b : DWord) (m : Nat) : (s.setPc t).accessOk k b m = s.accessOk k b m := rfl

/-! ### `accrue` -/

@[simp] theorem State.accrue_m64 (fl : Flags) : (s.accrue fl).m64 = s.m64 := rfl
@[simp] theorem State.accrue_regions (fl : Flags) : (s.accrue fl).regions = s.regions := rfl
@[simp] theorem State.accrue_catalog (fl : Flags) : (s.accrue fl).catalog = s.catalog := rfl
@[simp] theorem State.accrue_parked (fl : Flags) : (s.accrue fl).parked = s.parked := rfl
@[simp] theorem State.accrue_mem (fl : Flags) : (s.accrue fl).mem = s.mem := rfl
@[simp] theorem State.accrue_moves (fl : Flags) : (s.accrue fl).moves = s.moves := rfl
@[simp] theorem State.accrue_id (fl : Flags) : (s.accrue fl).running.id = s.running.id := rfl
@[simp] theorem State.accrue_x (fl : Flags) : (s.accrue fl).running.x = s.running.x := rfl
@[simp] theorem State.accrue_f (fl : Flags) : (s.accrue fl).running.f = s.running.f := rfl
@[simp] theorem State.accrue_pc (fl : Flags) : (s.accrue fl).running.pc = s.running.pc := rfl
@[simp] theorem State.accrue_fflags (fl : Flags) : (s.accrue fl).running.fflags = s.running.fflags ||| fl := rfl
@[simp] theorem State.accrue_frm (fl : Flags) : (s.accrue fl).running.frm = s.running.frm := rfl
@[simp] theorem State.accrue_ustatus (fl : Flags) : (s.accrue fl).running.ustatus = s.running.ustatus := rfl
@[simp] theorem State.accrue_uepc (fl : Flags) : (s.accrue fl).running.uepc = s.running.uepc := rfl
@[simp] theorem State.accrue_extra (fl : Flags) : (s.accrue fl).running.extra = s.running.extra := rfl
@[simp] theorem State.accrue_res (fl : Flags) : (s.accrue fl).running.res = s.running.res := rfl
@[simp] theorem State.accrue_signal (fl : Flags) : (s.accrue fl).running.signal = s.running.signal := rfl
@[simp] theorem State.accrue_stored (fl : Flags) (q : Reg) : (s.accrue fl).stored q = s.stored q := rfl
@[simp] theorem State.accrue_readF (fl : Flags) (q : Reg) : (s.accrue fl).readF q = s.readF q := rfl
@[simp] theorem State.accrue_memValid (fl : Flags) (k : AccessKind) (b m : Nat) : (s.accrue fl).memValid k b m = s.memValid k b m := rfl
@[simp] theorem State.accrue_accessOk (fl : Flags) (k : AccessKind) (b : DWord) (m : Nat) : (s.accrue fl).accessOk k b m = s.accessOk k b m := rfl

/-! ### `setRes` -/

@[simp] theorem State.setRes_m64 (r : Option Reservation) : (s.setRes r).m64 = s.m64 := rfl
@[simp] theorem State.setRes_regions (r : Option Reservation) : (s.setRes r).regions = s.regions := rfl
@[simp] theorem State.setRes_catalog (r : Option Reservation) : (s.setRes r).catalog = s.catalog := rfl
@[simp] theorem State.setRes_parked (r : Option Reservation) : (s.setRes r).parked = s.parked := rfl
@[simp] theorem State.setRes_mem (r : Option Reservation) : (s.setRes r).mem = s.mem := rfl
@[simp] theorem State.setRes_moves (r : Option Reservation) : (s.setRes r).moves = s.moves := rfl
@[simp] theorem State.setRes_id (r : Option Reservation) : (s.setRes r).running.id = s.running.id := rfl
@[simp] theorem State.setRes_x (r : Option Reservation) : (s.setRes r).running.x = s.running.x := rfl
@[simp] theorem State.setRes_f (r : Option Reservation) : (s.setRes r).running.f = s.running.f := rfl
@[simp] theorem State.setRes_pc (r : Option Reservation) : (s.setRes r).running.pc = s.running.pc := rfl
@[simp] theorem State.setRes_fflags (r : Option Reservation) : (s.setRes r).running.fflags = s.running.fflags := rfl
@[simp] theorem State.setRes_frm (r : Option Reservation) : (s.setRes r).running.frm = s.running.frm := rfl
@[simp] theorem State.setRes_ustatus (r : Option Reservation) : (s.setRes r).running.ustatus = s.running.ustatus := rfl
@[simp] theorem State.setRes_uepc (r : Option Reservation) : (s.setRes r).running.uepc = s.running.uepc := rfl
@[simp] theorem State.setRes_extra (r : Option Reservation) : (s.setRes r).running.extra = s.running.extra := rfl
@[simp] theorem State.setRes_res (r : Option Reservation) : (s.setRes r).running.res = r := rfl
@[simp] theorem State.setRes_signal (r : Option Reservation) : (s.setRes r).running.signal = s.running.signal := rfl
@[simp] theorem State.setRes_stored (r : Option Reservation) (q : Reg) : (s.setRes r).stored q = s.stored q := rfl
@[simp] theorem State.setRes_readF (r : Option Reservation) (q : Reg) : (s.setRes r).readF q = s.readF q := rfl
@[simp] theorem State.setRes_memValid (r : Option Reservation) (k : AccessKind) (b m : Nat) : (s.setRes r).memValid k b m = s.memValid k b m := rfl
@[simp] theorem State.setRes_accessOk (r : Option Reservation) (k : AccessKind) (b : DWord) (m : Nat) : (s.setRes r).accessOk k b m = s.accessOk k b m := rfl

/-! ### `writeMem` -/

@[simp] theorem State.writeMem_m64 (a : DWord) (n : Nat) (v : BitVec (8 * n)) : (s.writeMem a n v).m64 = s.m64 := rfl
@[simp] theorem State.writeMem_regions (a : DWord) (n : Nat) (v : BitVec (8 * n)) : (s.writeMem a n v).regions = s.regions := rfl
@[simp] theorem State.writeMem_catalog (a : DWord) (n : Nat) (v : BitVec (8 * n)) : (s.writeMem a n v).catalog = s.catalog := rfl
@[simp] theorem State.writeMem_parked (a : DWord) (n : Nat) (v : BitVec (8 * n)) : (s.writeMem a n v).parked = s.parked.map (Hart.invalidate a.toNat n) := rfl
@[simp] theorem State.writeMem_mem (a : DWord) (n : Nat) (v : BitVec (8 * n)) : (s.writeMem a n v).mem = s.mem.writeLe a.toNat n v.toNat := rfl
@[simp] theorem State.writeMem_moves (a : DWord) (n : Nat) (v : BitVec (8 * n)) : (s.writeMem a n v).moves = s.moves := rfl
@[simp] theorem State.writeMem_id (a : DWord) (n : Nat) (v : BitVec (8 * n)) : (s.writeMem a n v).running.id = s.running.id := rfl
@[simp] theorem State.writeMem_x (a : DWord) (n : Nat) (v : BitVec (8 * n)) : (s.writeMem a n v).running.x = s.running.x := rfl
@[simp] theorem State.writeMem_f (a : DWord) (n : Nat) (v : BitVec (8 * n)) : (s.writeMem a n v).running.f = s.running.f := rfl
@[simp] theorem State.writeMem_pc (a : DWord) (n : Nat) (v : BitVec (8 * n)) : (s.writeMem a n v).running.pc = s.running.pc := rfl
@[simp] theorem State.writeMem_fflags (a : DWord) (n : Nat) (v : BitVec (8 * n)) : (s.writeMem a n v).running.fflags = s.running.fflags := rfl
@[simp] theorem State.writeMem_frm (a : DWord) (n : Nat) (v : BitVec (8 * n)) : (s.writeMem a n v).running.frm = s.running.frm := rfl
@[simp] theorem State.writeMem_ustatus (a : DWord) (n : Nat) (v : BitVec (8 * n)) : (s.writeMem a n v).running.ustatus = s.running.ustatus := rfl
@[simp] theorem State.writeMem_uepc (a : DWord) (n : Nat) (v : BitVec (8 * n)) : (s.writeMem a n v).running.uepc = s.running.uepc := rfl
@[simp] theorem State.writeMem_extra (a : DWord) (n : Nat) (v : BitVec (8 * n)) : (s.writeMem a n v).running.extra = s.running.extra := rfl
@[simp] theorem State.writeMem_res (a : DWord) (n : Nat) (v : BitVec (8 * n)) : (s.writeMem a n v).running.res = surviving a.toNat n s.running.res := rfl
@[simp] theorem State.writeMem_signal (a : DWord) (n : Nat) (v : BitVec (8 * n)) : (s.writeMem a n v).running.signal = s.running.signal := rfl
@[simp] theorem State.writeMem_stored (a : DWord) (n : Nat) (v : BitVec (8 * n)) (q : Reg) : (s.writeMem a n v).stored q = s.stored q := rfl
@[simp] theorem State.writeMem_readF (a : DWord) (n : Nat) (v : BitVec (8 * n)) (q : Reg) : (s.writeMem a n v).readF q = s.readF q := rfl
@[simp] theorem State.writeMem_memValid (a : DWord) (n : Nat) (v : BitVec (8 * n)) (k : AccessKind) (b m : Nat) : (s.writeMem a n v).memValid k b m = s.memValid k b m := rfl
@[simp] theorem State.writeMem_accessOk (a : DWord) (n : Nat) (v : BitVec (8 * n)) (k : AccessKind) (b : DWord) (m : Nat) : (s.writeMem a n v).accessOk k b m = s.accessOk k b m := rfl

/-! ### `signalHost` -/

@[simp] theorem State.signalHost_m64 (g : Signal) : (s.signalHost g).m64 = s.m64 := rfl
@[simp] theorem State.signalHost_regions (g : Signal) : (s.signalHost g).regions = s.regions := rfl
@[simp] theorem State.signalHost_catalog (g : Signal) : (s.signalHost g).catalog = s.catalog := rfl
@[simp] theorem State.signalHost_parked (g : Signal) : (s.signalHost g).parked = s.parked := rfl
@[simp] theorem State.signalHost_mem (g : Signal) : (s.signalHost g).mem = s.mem := rfl
@[simp] theorem State.signalHost_moves (g : Signal) : (s.signalHost g).moves = s.moves := rfl
@[simp] theorem State.signalHost_id (g : Signal) : (s.signalHost g).running.id = s.running.id := rfl
@[simp] theorem State.signalHost_x (g : Signal) : (s.signalHost g).running.x = s.running.x := rfl
@[simp] theorem State.signalHost_f (g : Signal) : (s.signalHost g).running.f = s.running.f := rfl
@[simp] theorem State.signalHost_pc (g : Signal) : (s.signalHost g).running.pc = s.running.pc := rfl
@[simp] theorem State.signalHost_fflags (g : Signal) : (s.signalHost g).running.fflags = s.running.fflags := rfl
@[simp] theorem State.signalHost_frm (g : Signal) : (s.signalHost g).running.frm = s.running.frm := rfl
@[simp] theorem State.signalHost_ustatus (g : Signal) : (s.signalHost g).running.ustatus = s.running.ustatus := rfl
@[simp] theorem State.signalHost_uepc (g : Signal) : (s.signalHost g).running.uepc = s.running.uepc := rfl
@[simp] theorem State.signalHost_extra (g : Signal) : (s.signalHost g).running.extra = s.running.extra := rfl
@[simp] theorem State.signalHost_res (g : Signal) : (s.signalHost g).running.res = s.running.res := rfl
@[simp] theorem State.signalHost_signal (g : Signal) : (s.signalHost g).running.signal = some g := rfl
@[simp] theorem State.signalHost_stored (g : Signal) (q : Reg) : (s.signalHost g).stored q = s.stored q := rfl
@[simp] theorem State.signalHost_readF (g : Signal) (q : Reg) : (s.signalHost g).readF q = s.readF q := rfl
@[simp] theorem State.signalHost_memValid (g : Signal) (k : AccessKind) (b m : Nat) : (s.signalHost g).memValid k b m = s.memValid k b m := rfl
@[simp] theorem State.signalHost_accessOk (g : Signal) (k : AccessKind) (b : DWord) (m : Nat) : (s.signalHost g).accessOk k b m = s.accessOk k b m := rfl

/-! ### `csrWrite` -/

@[simp] theorem State.csrWrite_m64 (c : CsrAddr) (v : DWord) : (s.csrWrite c v).m64 = s.m64 := rfl
@[simp] theorem State.csrWrite_regions (c : CsrAddr) (v : DWord) : (s.csrWrite c v).regions = s.regions := rfl
@[simp] theorem State.csrWrite_catalog (c : CsrAddr) (v : DWord) : (s.csrWrite c v).catalog = s.catalog := rfl
@[simp] theorem State.csrWrite_parked (c : CsrAddr) (v : DWord) : (s.csrWrite c v).parked = s.parked := rfl
@[simp] theorem State.csrWrite_mem (c : CsrAddr) (v : DWord) : (s.csrWrite c v).mem = s.mem := rfl
@[simp] theorem State.csrWrite_moves (c : CsrAddr) (v : DWord) : (s.csrWrite c v).moves = s.moves := rfl
@[simp] theorem State.csrWrite_id (c : CsrAddr) (v : DWord) : (s.csrWrite c v).running.id = s.running.id := rfl
@[simp] theorem State.csrWrite_x (c : CsrAddr) (v : DWord) : (s.csrWrite c v).running.x = s.running.x := rfl
@[simp] theorem State.csrWrite_f (c : CsrAddr) (v : DWord) : (s.csrWrite c v).running.f = s.running.f := rfl
@[simp] theorem State.csrWrite_pc (c : CsrAddr) (v : DWord) : (s.csrWrite c v).running.pc = s.running.pc := rfl
@[simp] theorem State.csrWrite_fflags (c : CsrAddr) (v : DWord) : (s.csrWrite c v).running.fflags = if c = csrFflags ∨ c = csrFcsr then v.setWidth 5 else s.running.fflags := rfl
@[simp] theorem State.csrWrite_frm (c : CsrAddr) (v : DWord) : (s.csrWrite c v).running.frm = if c = csrFrm then v.setWidth 3 else if c = csrFcsr then v.extractLsb' 5 3 else s.running.frm := rfl
@[simp] theorem State.csrWrite_ustatus (c : CsrAddr) (v : DWord) : (s.csrWrite c v).running.ustatus = if c = csrUstatus then v &&& 0x11 else s.running.ustatus := rfl
@[simp] theorem State.csrWrite_uepc (c : CsrAddr) (v : DWord) : (s.csrWrite c v).running.uepc = if c = csrUepc then toXlen s.m64 v &&& ~~~1 else s.running.uepc := rfl
@[simp] theorem State.csrWrite_res (c : CsrAddr) (v : DWord) : (s.csrWrite c v).running.res = s.running.res := rfl
@[simp] theorem State.csrWrite_signal (c : CsrAddr) (v : DWord) : (s.csrWrite c v).running.signal = s.running.signal := rfl
@[simp] theorem State.csrWrite_stored (c : CsrAddr) (v : DWord) (q : Reg) : (s.csrWrite c v).stored q = s.stored q := rfl
@[simp] theorem State.csrWrite_readF (c : CsrAddr) (v : DWord) (q : Reg) : (s.csrWrite c v).readF q = s.readF q := rfl
@[simp] theorem State.csrWrite_memValid (c : CsrAddr) (v : DWord) (k : AccessKind) (b m : Nat) : (s.csrWrite c v).memValid k b m = s.memValid k b m := rfl
@[simp] theorem State.csrWrite_accessOk (c : CsrAddr) (v : DWord) (k : AccessKind) (b : DWord) (m : Nat) : (s.csrWrite c v).accessOk k b m = s.accessOk k b m := rfl

/-! ### `trapReturn` -/

@[simp] theorem State.trapReturn_m64 : (s.trapReturn).m64 = s.m64 := rfl
@[simp] theorem State.trapReturn_regions : (s.trapReturn).regions = s.regions := rfl
@[simp] theorem State.trapReturn_catalog : (s.trapReturn).catalog = s.catalog := rfl
@[simp] theorem State.trapReturn_parked : (s.trapReturn).parked = s.parked := rfl
@[simp] theorem State.trapReturn_mem : (s.trapReturn).mem = s.mem := rfl
@[simp] theorem State.trapReturn_moves : (s.trapReturn).moves = s.moves := rfl
@[simp] theorem State.trapReturn_id : (s.trapReturn).running.id = s.running.id := rfl
@[simp] theorem State.trapReturn_x : (s.trapReturn).running.x = s.running.x := rfl
@[simp] theorem State.trapReturn_f : (s.trapReturn).running.f = s.running.f := rfl
@[simp] theorem State.trapReturn_pc : (s.trapReturn).running.pc = s.readUepc := rfl
@[simp] theorem State.trapReturn_fflags : (s.trapReturn).running.fflags = s.running.fflags := rfl
@[simp] theorem State.trapReturn_frm : (s.trapReturn).running.frm = s.running.frm := rfl
@[simp] theorem State.trapReturn_uepc : (s.trapReturn).running.uepc = s.running.uepc := rfl
@[simp] theorem State.trapReturn_extra : (s.trapReturn).running.extra = s.running.extra := rfl
@[simp] theorem State.trapReturn_res : (s.trapReturn).running.res = s.running.res := rfl
@[simp] theorem State.trapReturn_signal : (s.trapReturn).running.signal = s.running.signal := rfl
@[simp] theorem State.trapReturn_stored (q : Reg) : (s.trapReturn).stored q = s.stored q := rfl
@[simp] theorem State.trapReturn_readF (q : Reg) : (s.trapReturn).readF q = s.readF q := rfl
@[simp] theorem State.trapReturn_memValid (k : AccessKind) (b m : Nat) : (s.trapReturn).memValid k b m = s.memValid k b m := rfl
@[simp] theorem State.trapReturn_accessOk (k : AccessKind) (b : DWord) (m : Nat) : (s.trapReturn).accessOk k b m = s.accessOk k b m := rfl

/-! ### `beginStep` -/

@[simp] theorem State.beginStep_m64 : (s.beginStep).m64 = s.m64 := rfl
@[simp] theorem State.beginStep_regions : (s.beginStep).regions = s.regions := rfl
@[simp] theorem State.beginStep_catalog : (s.beginStep).catalog = s.catalog := rfl
@[simp] theorem State.beginStep_parked : (s.beginStep).parked = s.parked := rfl
@[simp] theorem State.beginStep_mem : (s.beginStep).mem = s.mem := rfl
@[simp] theorem State.beginStep_moves : (s.beginStep).moves = s.moves := rfl
@[simp] theorem State.beginStep_id : (s.beginStep).running.id = s.running.id := rfl
@[simp] theorem State.beginStep_x : (s.beginStep).running.x = s.running.x := rfl
@[simp] theorem State.beginStep_f : (s.beginStep).running.f = s.running.f := rfl
@[simp] theorem State.beginStep_pc : (s.beginStep).running.pc = s.running.pc := rfl
@[simp] theorem State.beginStep_fflags : (s.beginStep).running.fflags = s.running.fflags := rfl
@[simp] theorem State.beginStep_frm : (s.beginStep).running.frm = s.running.frm := rfl
@[simp] theorem State.beginStep_ustatus : (s.beginStep).running.ustatus = s.running.ustatus := rfl
@[simp] theorem State.beginStep_uepc : (s.beginStep).running.uepc = s.running.uepc := rfl
@[simp] theorem State.beginStep_extra : (s.beginStep).running.extra = s.running.extra := rfl
@[simp] theorem State.beginStep_res : (s.beginStep).running.res = s.running.res := rfl
@[simp] theorem State.beginStep_signal : (s.beginStep).running.signal = none := rfl
@[simp] theorem State.beginStep_stored (q : Reg) : (s.beginStep).stored q = s.stored q := rfl
@[simp] theorem State.beginStep_readF (q : Reg) : (s.beginStep).readF q = s.readF q := rfl
@[simp] theorem State.beginStep_memValid (k : AccessKind) (b m : Nat) : (s.beginStep).memValid k b m = s.memValid k b m := rfl
@[simp] theorem State.beginStep_accessOk (k : AccessKind) (b : DWord) (m : Nat) : (s.beginStep).accessOk k b m = s.accessOk k b m := rfl

/-! ### `resume` -/

@[simp] theorem State.resume_m64 : (s.resume).m64 = s.m64 := rfl
@[simp] theorem State.resume_regions : (s.resume).regions = s.regions := rfl
@[simp] theorem State.resume_catalog : (s.resume).catalog = s.catalog := rfl
@[simp] theorem State.resume_parked : (s.resume).parked = s.parked := rfl
@[simp] theorem State.resume_mem : (s.resume).mem = s.mem := rfl
@[simp] theorem State.resume_moves : (s.resume).moves = s.moves := rfl
@[simp] theorem State.resume_id : (s.resume).running.id = s.running.id := rfl
@[simp] theorem State.resume_x : (s.resume).running.x = s.running.x := rfl
@[simp] theorem State.resume_f : (s.resume).running.f = s.running.f := rfl
@[simp] theorem State.resume_pc : (s.resume).running.pc = toXlen s.m64 (s.running.pc + 4) := rfl
@[simp] theorem State.resume_fflags : (s.resume).running.fflags = s.running.fflags := rfl
@[simp] theorem State.resume_frm : (s.resume).running.frm = s.running.frm := rfl
@[simp] theorem State.resume_ustatus : (s.resume).running.ustatus = s.running.ustatus := rfl
@[simp] theorem State.resume_uepc : (s.resume).running.uepc = s.running.uepc := rfl
@[simp] theorem State.resume_extra : (s.resume).running.extra = s.running.extra := rfl
@[simp] theorem State.resume_res : (s.resume).running.res = s.running.res := rfl
@[simp] theorem State.resume_signal : (s.resume).running.signal = none := rfl
@[simp] theorem State.resume_stored (q : Reg) : (s.resume).stored q = s.stored q := rfl
@[simp] theorem State.resume_readF (q : Reg) : (s.resume).readF q = s.readF q := rfl
@[simp] theorem State.resume_memValid (k : AccessKind) (b m : Nat) : (s.resume).memValid k b m = s.memValid k b m := rfl
@[simp] theorem State.resume_accessOk (k : AccessKind) (b : DWord) (m : Nat) : (s.resume).accessOk k b m = s.accessOk k b m := rfl

/-! ### A register read after a register write -/

theorem Hart.stored_zero (h : Hart) : h.stored 0 = 0 := rfl
@[simp] theorem State.stored_zero : s.stored 0 = 0 := rfl

theorem State.stored_writeX (r q : Reg) (v : DWord) :
    (s.writeX r v).stored q =
      if q = r ∧ r ≠ 0 then (if s.m64 then v else sext64 (low32 v)) else s.stored q := by
  unfold State.stored Hart.stored State.writeX
  by_cases hq : q = 0
  · rw [if_pos hq, if_pos hq, if_neg (fun h => h.2 (h.1 ▸ hq))]
  · rw [if_neg hq, if_neg hq]
    by_cases hr : r = 0
    · simp only [hr, if_true, ne_eq, not_true, and_false, if_false]
    · by_cases h : q = r
      · subst h
        simp only [hq, if_false, ne_eq, not_false_iff, and_self, if_true, Vector.getElem_set_self]
      · have : r.toNat ≠ q.toNat := fun e => h (BitVec.eq_of_toNat_eq e.symm)
        simp only [hr, h, if_false, false_and, Vector.getElem_set_ne _ _ this]

@[simp] theorem State.stored_writeX_self (r : Reg) (v : DWord) :
    (s.writeX r v).stored r = if r = 0 then 0 else if s.m64 then v else sext64 (low32 v) := by
  rw [State.stored_writeX]
  by_cases h : r = 0
  · rw [if_neg (fun c => c.2 h), if_pos h, h, State.stored_zero]
  · rw [if_pos ⟨rfl, h⟩, if_neg h]

theorem State.stored_writeX_ne {r q : Reg} (v : DWord) (h : q ≠ r) : (s.writeX r v).stored q = s.stored q := by
  rw [State.stored_writeX, if_neg (fun c => h c.1)]

theorem State.readF_writeF (r q : Reg) (v : DWord) : (s.writeF r v).readF q = if q = r then v else s.readF q := by
  unfold State.readF State.writeF
  by_cases h : q = r
  · subst h; simp only [Vector.getElem_set_self, if_true]
  · have : r.toNat ≠ q.toNat := fun e => h (BitVec.eq_of_toNat_eq e.symm)
    simp only [h, if_false, Vector.getElem_set_ne _ _ this]

@[simp] theorem State.readF_writeF_self (r : Reg) (v : DWord) : (s.writeF r v).readF r = v := by
  simp [State.readF_writeF]

theorem State.readF_writeF_ne {r q : Reg} (v : DWord) (h : q ≠ r) : (s.writeF r v).readF q = s.readF q := by
  simp [State.readF_writeF, h]

/-! ### Widths -/

@[simp] theorem low32_sext64 (v : Word) : low32 (sext64 v) = v := by
  unfold low32 sext64
  ext i hi
  simp only [BitVec.getElem_setWidth, BitVec.getLsbD_signExtend, hi, if_true, BitVec.getLsbD_eq_getElem]
  simp; omega

@[simp] theorem low32_zext64 (v : Word) : low32 (zext64 v) = v := by
  unfold low32 zext64; simp

@[simp] theorem toXlen_true (v : DWord) : toXlen true v = v := rfl
@[simp] theorem toXlen_false (v : DWord) : toXlen false v = zext64 (low32 v) := rfl

@[simp] theorem toXlen_toXlen (m64 : Bool) (v : DWord) : toXlen m64 (toXlen m64 v) = toXlen m64 v := by
  cases m64 <;> simp

theorem zext64_toNat (v : Word) : (zext64 v).toNat = v.toNat := by
  unfold zext64; rw [BitVec.toNat_setWidth]; omega

theorem toXlen_toNat (m64 : Bool) (v : DWord) : (toXlen m64 v).toNat = v.toNat % 2 ^ xlen m64 := by
  cases m64
  · rw [toXlen_false, zext64_toNat]; simp [xlen, low32]
  · simp [toXlen, xlen]; omega

/-- What a register reads as after a value was written to it (R27, R28, R29). -/
@[simp] theorem State.readX_writeX_self (r : Reg) (v : DWord) :
    (s.writeX r v).readX r = if r = 0 then 0 else toXlen s.m64 v := by
  unfold State.readX
  rw [State.stored_writeX_self, State.writeX_m64]
  by_cases h : r = 0
  · rw [if_pos h, if_pos h]; cases s.m64 <;> rfl
  · rw [if_neg h, if_neg h]; cases s.m64 <;> simp

/-- The boxed single reads back (R33, R34). -/
theorem State.readFs_of_boxed {r : Reg} {v : Word} (h : s.readF r = 0xFFFFFFFF#32 ++ v) : s.readFs r = v := by
  have h1 : (0xFFFFFFFF#32 ++ v).extractLsb' 32 32 = 0xFFFFFFFF#32 := by
    ext i hi
    have := BitVec.getLsbD_append (x := 0xFFFFFFFF#32) (y := v) (i := 32 + i)
    simp only [BitVec.getElem_extractLsb', this]
    rw [if_neg (by omega), Nat.add_sub_cancel_left, BitVec.getLsbD_eq_getElem hi]
  have h2 : low32 (0xFFFFFFFF#32 ++ v) = v := by
    unfold low32
    ext i hi
    have := BitVec.getLsbD_append (x := 0xFFFFFFFF#32) (y := v) (i := i)
    simp only [BitVec.getElem_setWidth, this, hi, if_true, BitVec.getLsbD_eq_getElem]
  unfold State.readFs
  rw [h, if_pos h1, h2]

end Sys2Proof.Machine
end

