-- ==== Sys2Proof/Laws/Ops.lean ====
section
/-! SUPPORT. For each shared operation one lemma that says when it answers a next state and which one, and for the
operations that can stop one lemma each that says how. Proofs cite these and do not unfold the operations. -/

namespace Sys2Proof.Machine

variable {s t : State} {i : Instr}

/-! ### Checks -/

theorem State.checked_next {k : AccessKind} {a : DWord} {n : Nat} {r : Result} :
    s.checked i k a n r = .next t ↔ s.accessOk k a n = true ∧ r = .next t := by
  unfold State.checked
  by_cases h : s.accessOk k a n = true
  · simp [h]
  · simp [h, State.addressError, raise]

theorem State.checked_of_ok {k : AccessKind} {a : DWord} {n : Nat} {r : Result} (h : s.accessOk k a n = true) :
    s.checked i k a n r = r := by
  unfold State.checked; rw [if_pos h]

theorem State.checked_of_not {k : AccessKind} {a : DWord} {n : Nat} {r : Result} (h : s.accessOk k a n = false) :
    s.checked i k a n r = .fault (.addressError k a (some (s.statement i))) := by
  unfold State.checked; rw [h]; rfl

/-- The check in the spec's terms (R63, R64): aligned and valid. -/
theorem State.accessOk_iff {k : AccessKind} {a : DWord} {n : Nat} :
    s.accessOk k a n = true ↔ a.toNat % n = 0 ∧ s.memValid k a.toNat n = true := by
  simp [State.accessOk]

/-- A valid range ends inside the address space (R70). -/
theorem State.memValid_le {k : AccessKind} {a n : Nat} (h : s.memValid k a n = true) : a + n ≤ 2 ^ xlen s.m64 := by
  simp only [State.memValid, Bool.and_eq_true, decide_eq_true_eq] at h
  exact h.1

theorem State.withRounding_next {p : Rm} {k : RoundingMode → Result} :
    s.withRounding i p k = .next t ↔ ∃ m, s.resolveRm p = some m ∧ k m = .next t := by
  unfold State.withRounding
  cases h : s.resolveRm p <;> simp [raise]

theorem State.withRounding_of_some {p : Rm} {k : RoundingMode → Result} {m : RoundingMode}
    (h : s.resolveRm p = some m) : s.withRounding i p k = k m := by
  unfold State.withRounding; rw [h]

theorem State.withRounding_of_none {p : Rm} {k : RoundingMode → Result} (h : s.resolveRm p = none) :
    s.withRounding i p k = .fault (.invalidRoundingMode (s.statement i)) := by
  unfold State.withRounding; rw [h]; rfl

/-- Which selectors resolve (R341). -/
theorem State.resolveRm_isSome {p : Rm} :
    (s.resolveRm p).isSome = true ↔ (if p = 7 then s.running.frm else p).toNat ≤ 4 := by
  unfold State.resolveRm roundingMode
  generalize (if p = 7 then s.running.frm else p) = m
  revert m
  decide

/-! ### Integer families -/

theorem arithmetic_next {op : AluOp} {rd rs1 rs2 : Reg} :
    arithmetic op rd rs1 rs2 s = .next t ↔
      t = (s.writeX rd (atXlen s.m64 op (s.readX rs1) (s.readX rs2))).advance := by
  simp [arithmetic, eq_comm]

theorem arithmeticW_next {op : AluOp} {rd rs1 rs2 : Reg} :
    arithmeticW op rd rs1 rs2 s = .next t ↔
      t = (s.writeX rd (sext64 (op 32 (s.readXw rs1) (s.readXw rs2)))).advance := by
  simp [arithmeticW, eq_comm]

theorem arithmeticImm_next {op : AluOp} {rd rs1 : Reg} {b : DWord} :
    arithmeticImm op rd rs1 b s = .next t ↔ t = (s.writeX rd (atXlen s.m64 op (s.readX rs1) b)).advance := by
  simp [arithmeticImm, eq_comm]

theorem arithmeticImmW_next {op : AluOp} {rd rs1 : Reg} {b : DWord} :
    arithmeticImmW op rd rs1 b s = .next t ↔
      t = (s.writeX rd (sext64 (op 32 (s.readXw rs1) (low32 b)))).advance := by
  simp [arithmeticImmW, eq_comm]

theorem writeAndAdvance_next {rd : Reg} {v : DWord} :
    writeAndAdvance rd v s = .next t ↔ t = (s.writeX rd v).advance := by
  simp [writeAndAdvance, eq_comm]

/-! ### Memory families -/

theorem load_next {n : Nat} {signed : Bool} {rd rs1 : Reg} {imm : Imm12} :
    load n signed i rd rs1 imm s = .next t ↔
      s.accessOk .load (s.effAddr rs1 imm) n = true ∧
      t = (s.writeX rd (extendLoad signed (s.readMem (s.effAddr rs1 imm) n))).advance := by
  simp only [load, State.checked_next, Host.Outcome.next.injEq]
  exact and_congr_right fun _ => eq_comm

theorem storeAt_next {n : Nat} {ea v : DWord} :
    storeAt n i ea v s = .next t ↔
      s.accessOk .store ea n = true ∧ t = (s.writeMem ea n (v.setWidth (8 * n))).advance := by
  simp only [storeAt, State.checked_next, Host.Outcome.next.injEq]
  exact and_congr_right fun _ => eq_comm

theorem loadSingle_next {rd rs1 : Reg} {imm : Imm12} :
    loadSingle i rd rs1 imm s = .next t ↔
      s.accessOk .load (s.effAddr rs1 imm) 4 = true ∧
      t = (s.writeFs rd (s.readMem (s.effAddr rs1 imm) 4)).advance := by
  simp only [loadSingle, State.checked_next, Host.Outcome.next.injEq]
  exact and_congr_right fun _ => eq_comm

theorem loadDouble_next {rd rs1 : Reg} {imm : Imm12} :
    loadDouble i rd rs1 imm s = .next t ↔
      s.accessOk .load (s.effAddr rs1 imm) 8 = true ∧
      t = (s.writeF rd (s.readMem (s.effAddr rs1 imm) 8)).advance := by
  simp only [loadDouble, State.checked_next, Host.Outcome.next.injEq]
  exact and_congr_right fun _ => eq_comm

theorem loadReserved_next {w : ResWidth} {rd rs1 : Reg} :
    loadReserved w i rd rs1 s = .next t ↔
      s.accessOk .load (s.readX rs1) w.bytes = true ∧
      t = ((s.setRes (some { addr := s.readX rs1, width := w })).writeX rd
        (extendLoad true (s.readMem (s.readX rs1) w.bytes))).advance := by
  simp only [loadReserved, State.checked_next, Host.Outcome.next.injEq]
  exact and_congr_right fun _ => eq_comm

/-- A store-conditional either stores, clears and writes 0, or makes no access, clears and writes `scFail`. -/
theorem storeConditional_next {n : Nat} {rd rs1 rs2 : Reg} :
    storeConditional n i rd rs1 rs2 s = .next t ↔
      (s.reservationCovers (s.readX rs1) n = true ∧ s.accessOk .store (s.readX rs1) n = true ∧
        t = (((s.writeMem (s.readX rs1) n ((s.stored rs2).setWidth (8 * n))).setRes none).writeX rd 0).advance) ∨
      (s.reservationCovers (s.readX rs1) n = false ∧ t = ((s.setRes none).writeX rd scFail).advance) := by
  unfold storeConditional
  by_cases h : s.reservationCovers (s.readX rs1) n = true
  · simp only [h, if_true, State.checked_next, Host.Outcome.next.injEq, true_and, Bool.true_eq_false, false_and,
      or_false]
    exact and_congr_right fun _ => eq_comm
  · have h' : s.reservationCovers (s.readX rs1) n = false := by simpa using h
    rw [if_neg h, h']
    simp only [Host.Outcome.next.injEq, Bool.false_eq_true, false_and, false_or, true_and]
    exact eq_comm

theorem amo_next {n : Nat} {op : AluOp} {rd rs1 rs2 : Reg} :
    amo n op i rd rs1 rs2 s = .next t ↔
      s.accessOk .load (s.readX rs1) n = true ∧ s.accessOk .store (s.readX rs1) n = true ∧
      t = ((s.writeMem (s.readX rs1) n
            (op (8 * n) (s.readMem (s.readX rs1) n) ((s.stored rs2).setWidth (8 * n)))).writeX rd
          (extendLoad true (s.readMem (s.readX rs1) n))).advance := by
  simp only [amo, State.checked_next, Host.Outcome.next.injEq]
  exact and_congr_right fun _ => and_congr_right fun _ => eq_comm

/-! ### Control -/

theorem branch_next {will : (w : Nat) → BitVec w → BitVec w → Bool} {rs1 rs2 : Reg} {imm : Imm12} :
    branch will rs1 rs2 imm s = .next t ↔
      t = if (if s.m64 then will 64 (s.readX rs1) (s.readX rs2) else will 32 (s.readXw rs1) (s.readXw rs2))
          then s.setPc (s.running.pc + immB imm) else s.advance := by
  simp only [branch, Host.Outcome.next.injEq]
  exact eq_comm

theorem jump_next {rd : Reg} {target : DWord} :
    jump rd target s = .next t ↔ t = (s.writeX rd s.nextPc).setPc target := by
  simp [jump, eq_comm]

theorem csrAccess_next {c : CsrAddr} {rd : Reg} {writes : Bool} {new : DWord → DWord} :
    csrAccess c rd writes new s = .next t ↔
      ∃ old, s.csrRead c = some old ∧
        t = ((if writes then s.csrWrite c (new old) else s).writeX rd old).advance := by
  unfold csrAccess
  cases h : s.csrRead c with
  | none => simp
  | some old => simp only [Host.Outcome.next.injEq, Option.some.injEq, exists_eq_left']; exact eq_comm

theorem csrAccess_refused {c : CsrAddr} {rd : Reg} {writes : Bool} {new : DWord → DWord}
    (h : s.csrRead c = none) : csrAccess c rd writes new s = .refused (.unknownCsr c) := by
  unfold csrAccess; rw [h]

/-! ### Floating point -/

theorem finishFs_next {rd : Reg} {r : FResult 32} :
    finishFs rd r s = .next t ↔ t = ((s.accrue r.2).writeFs rd r.1).advance := by
  simp only [finishFs, Host.Outcome.next.injEq]; exact eq_comm

theorem finishF_next {rd : Reg} {r : FResult 64} :
    finishF rd r s = .next t ↔ t = ((s.accrue r.2).writeF rd r.1).advance := by
  simp only [finishF, Host.Outcome.next.injEq]; exact eq_comm

theorem finishX_next {rd : Reg} {r : DWord × Flags} :
    finishX rd r s = .next t ↔ t = ((s.accrue r.2).writeX rd r.1).advance := by
  simp only [finishX, Host.Outcome.next.injEq]; exact eq_comm

theorem moveFs_next {rd : Reg} {v : Word} : moveFs rd v s = .next t ↔ t = (s.writeFs rd v).advance := by
  simp only [moveFs, Host.Outcome.next.injEq]; exact eq_comm

theorem moveF_next {rd : Reg} {v : DWord} : moveF rd v s = .next t ↔ t = (s.writeF rd v).advance := by
  simp only [moveF, Host.Outcome.next.injEq]; exact eq_comm

/-! ### Reservations -/

theorem overlap_iff {a n b m : Nat} : overlap a n b m = true ↔ a < b + m ∧ b < a + n := by
  simp [overlap]

theorem surviving_some {a n : Nat} {r : Reservation} :
    surviving a n (some r) =
      if r.addr.toNat < a + n ∧ a < r.addr.toNat + r.width.bytes then none else some r := by
  unfold surviving
  by_cases h : overlap a n r.addr.toNat r.width.bytes = true
  · simp [h, (overlap_iff.1 h).1, (overlap_iff.1 h).2]
  · have : ¬(r.addr.toNat < a + n ∧ a < r.addr.toNat + r.width.bytes) := fun c => h (overlap_iff.2 ⟨c.2, c.1⟩)
    simp [h, this]

theorem covers_iff {r : Reservation} {ea : DWord} {n : Nat} :
    r.covers ea n = true ↔ r.addr.toNat ≤ ea.toNat ∧ ea.toNat + n ≤ r.addr.toNat + r.width.bytes := by
  simp [Reservation.covers]

end Sys2Proof.Machine
end

