-- ==== Sys2Proof/Laws/Claims.lean ====
section
/-! SUPPORT. How the terms of the per-instruction claims (`WritesX`, `WritesF`, `GoesTo`, `StoresTo`) follow from the
equation of an instruction, so that no claim's proof goes through the fields of the state. -/

namespace Sys2Proof.Machine

variable {s t : State} {i : Instr}

/-! ### Widths -/

/-- Two values a register stores alike. -/
def SameStored (m64 : Bool) (v w : DWord) : Prop := if m64 then v = w else low32 v = low32 w

theorem SameStored.stored {m64 : Bool} {v w : DWord} (h : SameStored m64 v w) :
    (if m64 then v else sext64 (low32 v)) = if m64 then w else sext64 (low32 w) := by
  cases m64
  · exact congrArg sext64 h
  · exact h

theorem SameStored.refl {m64 : Bool} {v : DWord} : SameStored m64 v v := by
  unfold SameStored; split <;> rfl

theorem low32_readX (s : State) (r : Reg) : low32 (s.readX r) = s.readXw r := by
  unfold State.readX State.readXw; cases s.m64 <;> simp

theorem low32_toXlen (m64 : Bool) (v : DWord) : low32 (toXlen m64 v) = low32 v := by cases m64 <;> simp

/-- The two widths of an operation that is stated at each (R170). -/
theorem SameStored.of_op {m64 : Bool} {op : AluOp} {a b v : DWord} (h64 : m64 = true → op 64 a b = v)
    (h32 : m64 = false → op 32 (low32 a) (low32 b) = low32 v) : SameStored m64 (atXlen m64 op a b) v := by
  cases m64
  · simpa [SameStored, atXlen] using h32 rfl
  · simpa [SameStored, atXlen] using h64 rfl

/-! ### Registers -/

/-- A value to an integer register, flags, and a new pc. -/
theorem WritesX.of_eq {rd : Reg} {v w p pc : DWord} {fl : Flags}
    (h : exec i s = .next (((s.accrue fl).writeX rd v).setPc p)) (hv : SameStored s.m64 v w)
    (hp : toXlen s.m64 p = pc) : WritesX i s rd w fl pc := by
  refine ⟨_, h, ?_, hp, rfl, ⟨fun q hq => ?_, fun _ _ => rfl, rfl, rfl, rfl, rfl, rfl, rfl, rfl, rfl, rfl, rfl⟩,
    ⟨fun _ => rfl, rfl, rfl⟩⟩
  · rw [State.setPc_stored, State.stored_writeX_self]
    exact congrArg (fun u => if rd = 0 then 0 else u) hv.stored
  · rw [State.setPc_stored, State.stored_writeX_ne _ _ (fun e => hq (List.mem_singleton.2 e)), State.accrue_stored]

theorem State.accrue_noFlags (s : State) : s.accrue noFlags = s := by
  unfold State.accrue noFlags; simp

/-- The same where no flag is raised. -/
theorem WritesX.of_eq_quiet {rd : Reg} {v w p pc : DWord} (h : exec i s = .next ((s.writeX rd v).setPc p))
    (hv : SameStored s.m64 v w) (hp : toXlen s.m64 p = pc) : WritesX i s rd w noFlags pc :=
  .of_eq (by rw [State.accrue_noFlags]; exact h) hv hp

/-- A value to a floating-point register, with flags. -/
theorem WritesF.of_eq {rd : Reg} {v : DWord} {fl : Flags} (h : exec i s = .next ((s.accrue fl).writeF rd v).advance) :
    WritesF i s rd v fl := by
  refine ⟨_, h, State.readF_writeF_self _ _ _, rfl, rfl,
    ⟨fun _ _ => rfl, fun q hq => ?_, rfl, rfl, rfl, rfl, rfl, rfl, rfl, rfl, rfl, rfl⟩, ⟨fun _ => rfl, rfl, rfl⟩⟩
  exact State.readF_writeF_ne _ _ (fun e => hq (List.mem_singleton.2 e))

/-- The same where no flag is raised. -/
theorem WritesF.of_eq_quiet {rd : Reg} {v : DWord} (h : exec i s = .next (s.writeF rd v).advance) :
    WritesF i s rd v noFlags :=
  .of_eq (by rw [State.accrue_noFlags]; exact h)

/-- A new pc alone. -/
theorem GoesTo.of_eq {p pc : DWord} (h : exec i s = .next (s.setPc p)) (hp : toXlen s.m64 p = pc) : GoesTo i s pc :=
  ⟨_, h, hp, rfl, ⟨fun _ _ => rfl, fun _ _ => rfl, rfl, rfl, rfl, rfl, rfl, rfl, rfl, rfl, rfl, rfl⟩,
    ⟨fun _ => rfl, rfl, rfl⟩⟩

/-! ### Memory -/

/-- The bytes of a store (R62, R73). -/
theorem StoredAt.of_writeLe {a n v w : Nat} (hw : s.mem.wf) (ht : t.mem = s.mem.writeLe a n w)
    (hv : w = v % 256 ^ n) : StoredAt a n v s t := by
  refine ⟨fun k hk => ?_, fun b hb => ?_⟩
  · rw [ht, Memory.read_writeLe_inside hw _ _ _ _ hk, hv]
    apply BitVec.eq_of_toNat_eq
    rw [BitVec.toNat_ofNat, BitVec.toNat_ofNat]
    obtain ⟨j, rfl⟩ : ∃ j, n = k + 1 + j := ⟨n - (k + 1), by omega⟩
    rw [Nat.pow_add, Nat.pow_succ, Nat.mul_assoc, Nat.mod_mul_right_div_self, Nat.mod_mul_right_mod]
  · rw [ht]; exact Memory.read_writeLe_outside hw _ _ _ _ hb

/-- A record before and after a write (R69, R70). -/
theorem clearedByWrite_surviving (a n : Nat) (r : Option Reservation) : ClearedByWrite a n r (surviving a n r) := by
  cases r with
  | none => exact ⟨fun _ h => (by cases h), fun _ h => (by cases h), fun _ => rfl⟩
  | some r =>
    rw [surviving_some]
    refine ⟨fun q hq h1 h2 => ?_, fun q hq h => ?_, fun h => (by cases h)⟩
    · cases hq; rw [if_pos ⟨h1, h2⟩]
    · cases hq; rw [if_neg (by omega)]

/-- The other harts after a write (R69, R480). -/
theorem parkedAfterWrite_map {a n : Nat} (h : t.parked = s.parked.map (Hart.invalidate a n)) :
    ParkedAfterWrite a n s t := by
  refine ⟨by rw [h, List.length_map], fun k p q hp hq => ?_⟩
  rw [h, List.getElem?_map, hp] at hq
  cases hq
  exact ⟨rfl, clearedByWrite_surviving a n p.res⟩

/-- A store. -/
theorem StoresTo.of_eq {a : DWord} {n v : Nat} {w : BitVec (8 * n)} (hw : s.mem.wf)
    (h : exec i s = .next (s.writeMem a n w).advance) (hv : w.toNat = v % 256 ^ n) : StoresTo i s a.toNat n v :=
  ⟨_, h, rfl, rfl, ⟨fun _ _ => rfl, fun _ _ => rfl, rfl, rfl, rfl, rfl, rfl, rfl, rfl, rfl, rfl, rfl⟩,
    .of_writeLe hw rfl hv, clearedByWrite_surviving _ _ _, parkedAfterWrite_map rfl⟩

end Sys2Proof.Machine
end

