-- ==== Sys2Proof/Laws/Custom.lean ====
section
/-! SUPPORT. What the step of a custom handler can do, whatever the handler answers, and how an outcome carries its
statement. -/

namespace Sys2Proof.Machine

variable {s t : State} {st : Statement} {r : Result}

/-! ### The statement of an outcome (R157) -/

theorem carrying_next : carrying st r = .next t ↔ r = .next t := by cases r <;> simp [carrying]

theorem carrying_refused {q : Refusal} : carrying st r = .refused q ↔ r = .refused q := by cases r <;> simp [carrying]

theorem carrying_fault {f : Fault} : carrying st r = .fault f ↔ ∃ g, r = .fault g ∧ g.carrying st = f := by
  cases r <;> simp [carrying]

theorem Fault.carrying_illegal {f : Fault} {w : Word} {a : DWord} :
    f.carrying st = .illegalInstruction w a ↔ f = .illegalInstruction w a := by
  cases f with
  | addressError k a o => cases o <;> simp [Fault.carrying]
  | _ => simp [Fault.carrying]

/-! ### The step of a custom handler -/

/-- A write never stops with a next state, and with IllegalInstruction neither (R160). -/
theorem HandlerWrite.stop_some {e : HandlerWrite} (h : e.stop s st = some r) :
    (∃ k a, k ≠ .fetch ∧ r = .fault (.addressError k a (some st))) ∨ ∃ c, r = .refused (.unknownCsr c) := by
  cases e with
  | mem a k v =>
    simp only [HandlerWrite.stop] at h
    split at h
    · cases h
    · cases h; exact Or.inl ⟨.store, a, by decide, rfl⟩
  | reserve w a =>
    simp only [HandlerWrite.stop] at h
    split at h
    · cases h
    · cases h; exact Or.inl ⟨.load, a, by decide, rfl⟩
  | csr c v =>
    simp only [HandlerWrite.stop] at h
    split at h
    · cases h
    · cases h; exact Or.inr ⟨c, rfl⟩
  | _ => cases h

/-- All a handler's answer can come to in a next state: its writes, none of which stops, or a signal. -/
theorem State.finish_next {o : HandlerOutcome} :
    s.finish st o = .next t ↔
      (∃ writes, o = .ok writes ∧ (∀ e ∈ writes, e.stop s st = none) ∧ t = writes.foldl HandlerWrite.run s.advance) ∨
      ∃ g, o = .signal g ∧ t = s.signalHost g := by
  cases o with
  | ok writes =>
    simp only [State.finish, HandlerOutcome.ok.injEq, reduceCtorEq, false_and, exists_false, or_false, exists_eq_left']
    rw [← List.findSome?_eq_none_iff]
    cases hf : writes.findSome? (HandlerWrite.stop s st) with
    | none => simp [eq_comm]
    | some r =>
      obtain ⟨e, -, he⟩ := List.exists_of_findSome?_eq_some hf
      rcases HandlerWrite.stop_some he with ⟨k, a, -, rfl⟩ | ⟨c, rfl⟩ <;> simp
  | signal g => simp [State.finish, eq_comm]
  | _ => simp [State.finish, raise]

/-- What every write keeps, the writes of a handler keep. -/
theorem HandlerWrite.foldl_induction {P : State → Prop} {writes : List HandlerWrite} (h0 : P s)
    (h : ∀ u, ∀ e ∈ writes, P u → P (e.run u)) : P (writes.foldl HandlerWrite.run s) := by
  induction writes generalizing s with
  | nil => exact h0
  | cons e rest ih =>
    exact ih (h s e List.mem_cons_self h0) fun u d hd hu => h u d (List.mem_cons_of_mem _ hd) hu

variable (e : HandlerWrite) (u : State)

@[simp] theorem HandlerWrite.run_m64 : (e.run u).m64 = u.m64 := by cases e <;> rfl
@[simp] theorem HandlerWrite.run_catalog : (e.run u).catalog = u.catalog := by cases e <;> rfl
@[simp] theorem HandlerWrite.run_regions : (e.run u).regions = u.regions := by cases e <;> rfl
@[simp] theorem HandlerWrite.run_moves : (e.run u).moves = u.moves := by cases e <;> rfl
@[simp] theorem HandlerWrite.run_id : (e.run u).running.id = u.running.id := by cases e <;> rfl
@[simp] theorem HandlerWrite.run_signal : (e.run u).running.signal = u.running.signal := by cases e <;> rfl

end Sys2Proof.Machine
end

