-- ==== Sys2Proof/Laws/Effect.lean ====
section
/-! SUPPORT. All that an instruction can do to the machine, said once: every next state of `exec` is one of these
effects, with the checks that guard it. An invariant of `exec` is proved by cases on the effect, not on the
instruction. -/

namespace Sys2Proof.Machine

/-- The instruction writes no memory. -/
def NoWrite (i : Instr) (s : State) : Prop := ∀ d, s.dataAccess i = some d → d.writes = false

/-- The next states of `exec i` from `s`. Only the constructors `store`, `condStore`, `condFail` and `atomic` are of an
instruction that writes memory, and their access is the instruction's own. -/
inductive Effect (i : Instr) (s : State) : State → Prop where
  /-- A value to an integer register and a new pc: arithmetic, loads, jumps, moves, a CSR instruction that only reads. -/
  | toX (quiet : NoWrite i s) (rd : Reg) (v t : DWord) : Effect i s ((s.writeX rd v).setPc t)
  /-- A new pc alone: branches, fences, `WFI`. -/
  | goto (quiet : NoWrite i s) (t : DWord) : Effect i s (s.setPc t)
  /-- A value to a floating-point register, with the flags the computation raised. -/
  | toF (quiet : NoWrite i s) (fl : Flags) (rd : Reg) (v : DWord) : Effect i s ((s.accrue fl).writeF rd v).advance
  /-- A moved pattern to a floating-point register. -/
  | moveF (quiet : NoWrite i s) (rd : Reg) (v : DWord) : Effect i s (s.writeF rd v).advance
  /-- A value computed from floating-point registers to an integer register, with its flags. -/
  | flagsToX (quiet : NoWrite i s) (fl : Flags) (rd : Reg) (v : DWord) : Effect i s ((s.accrue fl).writeX rd v).advance
  /-- A store. -/
  | store (a : DWord) (n : Nat) (v : BitVec (8 * n)) (width : n ∈ [1, 2, 4, 8])
      (own : s.dataAccess i = some ⟨false, true, a, n⟩) (ok : s.accessOk .store a n = true) :
      Effect i s (s.writeMem a n v).advance
  /-- A load-reserved. -/
  | reserve (quiet : NoWrite i s) (w : ResWidth) (a : DWord) (rd : Reg) (v : DWord)
      (own : s.dataAccess i = some ⟨true, false, a, w.bytes⟩) (ok : s.accessOk .load a w.bytes = true) :
      Effect i s ((s.setRes (some { addr := a, width := w })).writeX rd v).advance
  /-- A store-conditional that stores. -/
  | condStore (a : DWord) (n : Nat) (v : BitVec (8 * n)) (rd : Reg) (w : DWord) (width : n ∈ [1, 2, 4, 8])
      (own : s.dataAccess i = some ⟨false, true, a, n⟩) (ok : s.accessOk .store a n = true) :
      Effect i s (((s.writeMem a n v).setRes none).writeX rd w).advance
  /-- A store-conditional that fails. -/
  | condFail (isSc : isSc i = true) (rd : Reg) (w : DWord) : Effect i s ((s.setRes none).writeX rd w).advance
  /-- An atomic memory operation. -/
  | atomic (a : DWord) (n : Nat) (v : BitVec (8 * n)) (rd : Reg) (w : DWord) (width : n ∈ [1, 2, 4, 8])
      (own : s.dataAccess i = some ⟨true, true, a, n⟩) (ok : s.accessOk .store a n = true) :
      Effect i s ((s.writeMem a n v).writeX rd w).advance
  /-- A CSR instruction that writes its control register. -/
  | csr (quiet : NoWrite i s) (c : CsrAddr) (v : DWord) (rd : Reg) (w : DWord) (isCsr : isCsr i = true) :
      Effect i s ((s.csrWrite c v).writeX rd w).advance
  /-- `URET`. -/
  | trapReturn (quiet : NoWrite i s) (isUret : i = .uret) : Effect i s s.trapReturn
  /-- `ECALL`, `EBREAK`. -/
  | signal (quiet : NoWrite i s) (g : Signal) : Effect i s (s.signalHost g)

variable {s t : State} {i : Instr}

/-! ### The effect of each shared operation -/

theorem arithmetic_effect {op : AluOp} {rd rs1 rs2 : Reg} (h : arithmetic op rd rs1 rs2 s = .next t)
    (q : NoWrite i s := by intro d hd; cases hd <;> rfl) : Effect i s t :=
  arithmetic_next.1 h ▸ .toX q _ _ _

theorem arithmeticW_effect {op : AluOp} {rd rs1 rs2 : Reg} (h : arithmeticW op rd rs1 rs2 s = .next t)
    (q : NoWrite i s := by intro d hd; cases hd <;> rfl) : Effect i s t :=
  arithmeticW_next.1 h ▸ .toX q _ _ _

theorem arithmeticImm_effect {op : AluOp} {rd rs1 : Reg} {b : DWord} (h : arithmeticImm op rd rs1 b s = .next t)
    (q : NoWrite i s := by intro d hd; cases hd <;> rfl) : Effect i s t :=
  arithmeticImm_next.1 h ▸ .toX q _ _ _

theorem arithmeticImmW_effect {op : AluOp} {rd rs1 : Reg} {b : DWord} (h : arithmeticImmW op rd rs1 b s = .next t)
    (q : NoWrite i s := by intro d hd; cases hd <;> rfl) : Effect i s t :=
  arithmeticImmW_next.1 h ▸ .toX q _ _ _

theorem writeAndAdvance_effect {rd : Reg} {v : DWord} (h : writeAndAdvance rd v s = .next t)
    (q : NoWrite i s := by intro d hd; cases hd <;> rfl) : Effect i s t :=
  writeAndAdvance_next.1 h ▸ .toX q _ _ _

theorem jump_effect {rd : Reg} {v : DWord} (h : jump rd v s = .next t)
    (q : NoWrite i s := by intro d hd; cases hd <;> rfl) : Effect i s t :=
  jump_next.1 h ▸ .toX q _ _ _

theorem finishFs_effect {rd : Reg} {r : FResult 32} (h : finishFs rd r s = .next t)
    (q : NoWrite i s := by intro d hd; cases hd <;> rfl) : Effect i s t :=
  finishFs_next.1 h ▸ .toF q _ _ _

theorem finishF_effect {rd : Reg} {r : FResult 64} (h : finishF rd r s = .next t)
    (q : NoWrite i s := by intro d hd; cases hd <;> rfl) : Effect i s t :=
  finishF_next.1 h ▸ .toF q _ _ _

theorem finishX_effect {rd : Reg} {r : DWord × Flags} (h : finishX rd r s = .next t)
    (q : NoWrite i s := by intro d hd; cases hd <;> rfl) : Effect i s t :=
  finishX_next.1 h ▸ .flagsToX q _ _ _

theorem moveFs_effect {rd : Reg} {v : Word} (h : moveFs rd v s = .next t)
    (q : NoWrite i s := by intro d hd; cases hd <;> rfl) : Effect i s t :=
  moveFs_next.1 h ▸ .moveF q _ _

theorem moveF_effect {rd : Reg} {v : DWord} (h : moveF rd v s = .next t)
    (q : NoWrite i s := by intro d hd; cases hd <;> rfl) : Effect i s t :=
  moveF_next.1 h ▸ .moveF q _ _

theorem load_effect {j : Instr} {n : Nat} {sg : Bool} {rd rs1 : Reg} {imm : Imm12} (h : load n sg j rd rs1 imm s = .next t)
    (q : NoWrite i s := by intro d hd; cases hd <;> rfl) :
    Effect i s t := (load_next.1 h).2 ▸ .toX q _ _ _

theorem loadSingle_effect {j : Instr} {rd rs1 : Reg} {imm : Imm12} (h : loadSingle j rd rs1 imm s = .next t)
    (q : NoWrite i s := by intro d hd; cases hd <;> rfl) :
    Effect i s t := (loadSingle_next.1 h).2 ▸ .moveF q _ _

theorem loadDouble_effect {j : Instr} {rd rs1 : Reg} {imm : Imm12} (h : loadDouble j rd rs1 imm s = .next t)
    (q : NoWrite i s := by intro d hd; cases hd <;> rfl) :
    Effect i s t := (loadDouble_next.1 h).2 ▸ .moveF q _ _

theorem storeAt_effect {j : Instr} {n : Nat} {ea v : DWord} (h : storeAt n j ea v s = .next t)
    (hn : n ∈ [1, 2, 4, 8] := by decide) (own : s.dataAccess i = some ⟨false, true, ea, n⟩ := by rfl) : Effect i s t :=
  (storeAt_next.1 h).2 ▸ .store _ _ _ hn own (storeAt_next.1 h).1

theorem store_effect {j : Instr} {n : Nat} {rs1 rs2 : Reg} {imm : Imm12} (h : store n j rs1 rs2 imm s = .next t)
    (hn : n ∈ [1, 2, 4, 8] := by decide)
    (own : s.dataAccess i = some ⟨false, true, s.effAddr rs1 imm, n⟩ := by rfl) : Effect i s t := storeAt_effect h hn own

theorem storeFloat_effect {j : Instr} {n : Nat} {rs1 rs2 : Reg} {imm : Imm12}
    (h : storeFloat n j rs1 rs2 imm s = .next t) (hn : n ∈ [1, 2, 4, 8] := by decide)
    (own : s.dataAccess i = some ⟨false, true, s.effAddr rs1 imm, n⟩ := by rfl) : Effect i s t := storeAt_effect h hn own

theorem loadReserved_effect {j : Instr} {w : ResWidth} {rd rs1 : Reg} (h : loadReserved w j rd rs1 s = .next t)
    (own : s.dataAccess i = some ⟨true, false, s.readX rs1, w.bytes⟩ := by rfl) : Effect i s t :=
  (loadReserved_next.1 h).2 ▸ .reserve (fun d hd => by rw [own] at hd; cases hd; rfl) _ _ _ _ own
    (loadReserved_next.1 h).1

theorem storeConditional_effect {j : Instr} {n : Nat} {rd rs1 rs2 : Reg}
    (h : storeConditional n j rd rs1 rs2 s = .next t) (hn : n ∈ [1, 2, 4, 8] := by decide)
    (own : s.dataAccess i = some ⟨false, true, s.readX rs1, n⟩ := by rfl) (sc : isSc i = true := by rfl) :
    Effect i s t := by
  rcases storeConditional_next.1 h with ⟨-, ok, rfl⟩ | ⟨-, rfl⟩
  · exact .condStore _ _ _ _ _ hn own ok
  · exact .condFail sc _ _

theorem amo_effect {j : Instr} {n : Nat} {op : AluOp} {rd rs1 rs2 : Reg} (h : amo n op j rd rs1 rs2 s = .next t)
    (hn : n ∈ [1, 2, 4, 8] := by decide)
    (own : s.dataAccess i = some ⟨true, true, s.readX rs1, n⟩ := by rfl) : Effect i s t :=
  (amo_next.1 h).2.2 ▸ .atomic _ _ _ _ _ hn own (amo_next.1 h).2.1

theorem branch_effect {will : (w : Nat) → BitVec w → BitVec w → Bool} {rs1 rs2 : Reg} {imm : Imm12}
    (h : branch will rs1 rs2 imm s = .next t)
    (q : NoWrite i s := by intro d hd; cases hd <;> rfl) : Effect i s t := by
  rw [branch_next.1 h]
  generalize (if s.m64 then _ else _ : Bool) = taken
  cases taken <;> exact .goto q _

theorem advance_effect (h : Host.Outcome.next s.advance = (.next t : Result))
    (q : NoWrite i s := by intro d hd; cases hd <;> rfl) : Effect i s t := by
  cases h; exact .goto q _

theorem signal_effect {g : Signal} (h : Host.Outcome.next (s.signalHost g) = (.next t : Result))
    (q : NoWrite i s := by intro d hd; cases hd <;> rfl) : Effect i s t := by
  cases h; exact .signal q g

theorem csrAccess_effect {c : CsrAddr} {rd : Reg} {writes : Bool} {new : DWord → DWord} (hi : isCsr i = true)
    (h : csrAccess c rd writes new s = .next t)
    (q : NoWrite i s := by intro d hd; cases hd <;> rfl) : Effect i s t := by
  obtain ⟨old, -, rfl⟩ := csrAccess_next.1 h
  cases writes
  · exact .toX q _ _ _
  · exact .csr q _ _ _ _ hi

theorem withRounding_effect {j : Instr} {p : Rm} {k : RoundingMode → Result}
    (hk : ∀ m, k m = .next t → Effect i s t) (h : s.withRounding j p k = .next t) : Effect i s t :=
  have ⟨m, _, hm⟩ := State.withRounding_next.1 h
  hk m hm

/-! ### Every instruction -/

/-- The inversion of `exec`: what a next state can be. -/
theorem exec_effect (h : exec i s = .next t) : Effect i s t := by
  cases i with
  | add _ _ _ => exact arithmetic_effect h
  | sub _ _ _ => exact arithmetic_effect h
  | sll _ _ _ => exact arithmetic_effect h
  | slt _ _ _ => exact arithmetic_effect h
  | sltu _ _ _ => exact arithmetic_effect h
  | xor _ _ _ => exact arithmetic_effect h
  | srl _ _ _ => exact arithmetic_effect h
  | sra _ _ _ => exact arithmetic_effect h
  | or _ _ _ => exact arithmetic_effect h
  | and _ _ _ => exact arithmetic_effect h
  | mul _ _ _ => exact arithmetic_effect h
  | mulh _ _ _ => exact arithmetic_effect h
  | mulhsu _ _ _ => exact arithmetic_effect h
  | mulhu _ _ _ => exact arithmetic_effect h
  | div _ _ _ => exact arithmetic_effect h
  | divu _ _ _ => exact arithmetic_effect h
  | rem _ _ _ => exact arithmetic_effect h
  | remu _ _ _ => exact arithmetic_effect h
  | addw _ _ _ => exact arithmeticW_effect h
  | subw _ _ _ => exact arithmeticW_effect h
  | sllw _ _ _ => exact arithmeticW_effect h
  | srlw _ _ _ => exact arithmeticW_effect h
  | sraw _ _ _ => exact arithmeticW_effect h
  | mulw _ _ _ => exact arithmeticW_effect h
  | divw _ _ _ => exact arithmeticW_effect h
  | divuw _ _ _ => exact arithmeticW_effect h
  | remw _ _ _ => exact arithmeticW_effect h
  | remuw _ _ _ => exact arithmeticW_effect h
  | addi _ _ _ => exact arithmeticImm_effect h
  | slti _ _ _ => exact arithmeticImm_effect h
  | sltiu _ _ _ => exact arithmeticImm_effect h
  | xori _ _ _ => exact arithmeticImm_effect h
  | ori _ _ _ => exact arithmeticImm_effect h
  | andi _ _ _ => exact arithmeticImm_effect h
  | slli _ _ _ => exact arithmeticImm_effect h
  | srli _ _ _ => exact arithmeticImm_effect h
  | srai _ _ _ => exact arithmeticImm_effect h
  | slliHi _ _ _ => exact arithmeticImm_effect h
  | srliHi _ _ _ => exact arithmeticImm_effect h
  | sraiHi _ _ _ => exact arithmeticImm_effect h
  | addiw _ _ _ => exact arithmeticImmW_effect h
  | slliw _ _ _ => exact arithmeticImmW_effect h
  | srliw _ _ _ => exact arithmeticImmW_effect h
  | sraiw _ _ _ => exact arithmeticImmW_effect h
  | lui _ _ => exact writeAndAdvance_effect h
  | auipc _ _ => exact writeAndAdvance_effect h
  | lb _ _ _ => exact load_effect h
  | lh _ _ _ => exact load_effect h
  | lw _ _ _ => exact load_effect h
  | lbu _ _ _ => exact load_effect h
  | lhu _ _ _ => exact load_effect h
  | lwu _ _ _ => exact load_effect h
  | ld _ _ _ => exact load_effect h
  | sb _ _ _ => exact store_effect h
  | sh _ _ _ => exact store_effect h
  | sw _ _ _ => exact store_effect h
  | sd _ _ _ => exact store_effect h
  | beq _ _ _ => unfold exec execBeq at h; exact branch_effect h
  | bne _ _ _ => unfold exec execBne at h; exact branch_effect h
  | blt _ _ _ => unfold exec execBlt at h; exact branch_effect h
  | bge _ _ _ => unfold exec execBge at h; exact branch_effect h
  | bltu _ _ _ => unfold exec execBltu at h; exact branch_effect h
  | bgeu _ _ _ => unfold exec execBgeu at h; exact branch_effect h
  | jal _ _ => exact jump_effect h
  | jalr _ _ _ => exact jump_effect h
  | lrW _ _ _ _ => exact loadReserved_effect h
  | scW _ _ _ _ _ => exact storeConditional_effect h
  | amoswapW _ _ _ _ _ => exact amo_effect h
  | amoaddW _ _ _ _ _ => exact amo_effect h
  | amoxorW _ _ _ _ _ => exact amo_effect h
  | amoandW _ _ _ _ _ => exact amo_effect h
  | amoorW _ _ _ _ _ => exact amo_effect h
  | amominW _ _ _ _ _ => exact amo_effect h
  | amomaxW _ _ _ _ _ => exact amo_effect h
  | amominuW _ _ _ _ _ => exact amo_effect h
  | amomaxuW _ _ _ _ _ => exact amo_effect h
  | lrD _ _ _ _ => exact loadReserved_effect h
  | scD _ _ _ _ _ => exact storeConditional_effect h
  | amoswapD _ _ _ _ _ => exact amo_effect h
  | amoaddD _ _ _ _ _ => exact amo_effect h
  | amoxorD _ _ _ _ _ => exact amo_effect h
  | amoandD _ _ _ _ _ => exact amo_effect h
  | amoorD _ _ _ _ _ => exact amo_effect h
  | amominD _ _ _ _ _ => exact amo_effect h
  | amomaxD _ _ _ _ _ => exact amo_effect h
  | amominuD _ _ _ _ _ => exact amo_effect h
  | amomaxuD _ _ _ _ _ => exact amo_effect h
  | flw _ _ _ => exact loadSingle_effect h
  | fsw _ _ _ => exact storeFloat_effect h
  | fmaddS _ _ _ _ _ => exact withRounding_effect (fun _ h => finishFs_effect h) h
  | fmsubS _ _ _ _ _ => exact withRounding_effect (fun _ h => finishFs_effect h) h
  | fnmsubS _ _ _ _ _ => exact withRounding_effect (fun _ h => finishFs_effect h) h
  | fnmaddS _ _ _ _ _ => exact withRounding_effect (fun _ h => finishFs_effect h) h
  | faddS _ _ _ _ => exact withRounding_effect (fun _ h => finishFs_effect h) h
  | fsubS _ _ _ _ => exact withRounding_effect (fun _ h => finishFs_effect h) h
  | fmulS _ _ _ _ => exact withRounding_effect (fun _ h => finishFs_effect h) h
  | fdivS _ _ _ _ => exact withRounding_effect (fun _ h => finishFs_effect h) h
  | fsqrtS _ _ _ => exact withRounding_effect (fun _ h => finishFs_effect h) h
  | fsgnjS _ _ _ => exact moveFs_effect h
  | fsgnjnS _ _ _ => exact moveFs_effect h
  | fsgnjxS _ _ _ => exact moveFs_effect h
  | fminS _ _ _ => exact finishFs_effect h
  | fmaxS _ _ _ => exact finishFs_effect h
  | feqS _ _ _ => exact finishX_effect h
  | fltS _ _ _ => exact finishX_effect h
  | fleS _ _ _ => exact finishX_effect h
  | fclassS _ _ => exact writeAndAdvance_effect h
  | fcvtWS _ _ _ => exact withRounding_effect (fun _ h => finishX_effect h) h
  | fcvtSW _ _ _ => exact withRounding_effect (fun _ h => finishFs_effect h) h
  | fcvtWuS _ _ _ => exact withRounding_effect (fun _ h => finishX_effect h) h
  | fcvtSWu _ _ _ => exact withRounding_effect (fun _ h => finishFs_effect h) h
  | fcvtLS _ _ _ => exact withRounding_effect (fun _ h => finishX_effect h) h
  | fcvtSL _ _ _ => exact withRounding_effect (fun _ h => finishFs_effect h) h
  | fcvtLuS _ _ _ => exact withRounding_effect (fun _ h => finishX_effect h) h
  | fcvtSLu _ _ _ => exact withRounding_effect (fun _ h => finishFs_effect h) h
  | fmvXW _ _ => exact writeAndAdvance_effect h
  | fmvWX _ _ => exact moveFs_effect h
  | fld _ _ _ => exact loadDouble_effect h
  | fsd _ _ _ => exact storeFloat_effect h
  | fmaddD _ _ _ _ _ => exact withRounding_effect (fun _ h => finishF_effect h) h
  | fmsubD _ _ _ _ _ => exact withRounding_effect (fun _ h => finishF_effect h) h
  | fnmsubD _ _ _ _ _ => exact withRounding_effect (fun _ h => finishF_effect h) h
  | fnmaddD _ _ _ _ _ => exact withRounding_effect (fun _ h => finishF_effect h) h
  | faddD _ _ _ _ => exact withRounding_effect (fun _ h => finishF_effect h) h
  | fsubD _ _ _ _ => exact withRounding_effect (fun _ h => finishF_effect h) h
  | fmulD _ _ _ _ => exact withRounding_effect (fun _ h => finishF_effect h) h
  | fdivD _ _ _ _ => exact withRounding_effect (fun _ h => finishF_effect h) h
  | fsqrtD _ _ _ => exact withRounding_effect (fun _ h => finishF_effect h) h
  | fsgnjD _ _ _ => exact moveF_effect h
  | fsgnjnD _ _ _ => exact moveF_effect h
  | fsgnjxD _ _ _ => exact moveF_effect h
  | fminD _ _ _ => exact finishF_effect h
  | fmaxD _ _ _ => exact finishF_effect h
  | feqD _ _ _ => exact finishX_effect h
  | fltD _ _ _ => exact finishX_effect h
  | fleD _ _ _ => exact finishX_effect h
  | fclassD _ _ => exact writeAndAdvance_effect h
  | fcvtWD _ _ _ => exact withRounding_effect (fun _ h => finishX_effect h) h
  | fcvtDW _ _ _ => exact withRounding_effect (fun _ h => finishF_effect h) h
  | fcvtWuD _ _ _ => exact withRounding_effect (fun _ h => finishX_effect h) h
  | fcvtDWu _ _ _ => exact withRounding_effect (fun _ h => finishF_effect h) h
  | fcvtLD _ _ _ => exact withRounding_effect (fun _ h => finishX_effect h) h
  | fcvtDL _ _ _ => exact withRounding_effect (fun _ h => finishF_effect h) h
  | fcvtLuD _ _ _ => exact withRounding_effect (fun _ h => finishX_effect h) h
  | fcvtDLu _ _ _ => exact withRounding_effect (fun _ h => finishF_effect h) h
  | fcvtSD _ _ _ => exact withRounding_effect (fun _ h => finishFs_effect h) h
  | fcvtDS _ _ _ => exact withRounding_effect (fun _ h => finishF_effect h) h
  | fmvXD _ _ => exact writeAndAdvance_effect h
  | fmvDX _ _ => exact moveF_effect h
  | fence _ _ _ _ _ => exact advance_effect h
  | fenceI _ _ _ => exact advance_effect h
  | ecall => exact signal_effect h
  | ebreak => exact signal_effect h
  | uret => exact by cases h; exact .trapReturn (fun _ hd => by cases hd) rfl
  | wfi => exact advance_effect h
  | csrrw _ _ _ => exact csrAccess_effect rfl h
  | csrrs _ _ _ => exact csrAccess_effect rfl h
  | csrrc _ _ _ => exact csrAccess_effect rfl h
  | csrrwi _ _ _ => exact csrAccess_effect rfl h
  | csrrsi _ _ _ => exact csrAccess_effect rfl h
  | csrrci _ _ _ => exact csrAccess_effect rfl h

end Sys2Proof.Machine
end

