-- ==== Sys2Proof/Laws/PerInstr.lean ====
section
/-! SUPPORT. The family `Encoding` (LAWS.json): how each instruction and its descriptor belong together, one lemma per
constructor. -/

namespace Sys2Proof.Laws.Encoding

/-- The descriptor's handler gives the instruction back from its operand array, which has one entry per field, each in
the range of its field (R142 to R144); the descriptor stands at the instruction's index of the reference catalog
(R22) and is marked 64-bit exactly when the instruction is (R112). -/
def Statement (i : Instr) : Prop :=
  i.descriptor.instr i.operands = some i ∧
  i.operands.length = i.descriptor.fields.length ∧
  (∀ fv ∈ i.descriptor.fields.zip i.operands, fv.2 < 2 ^ fv.1.positions.length) ∧
  refCatalog[i.index]? = some i.descriptor ∧
  i.descriptor.requires64 = i.requires64

theorem ofNat_toNat {w : Nat} (v : BitVec w) : BitVec.ofNat w v.toNat = v := by simp

/-- The operand of a field that a bit vector of the field's width fills is in range. -/
theorem allInRange_cons {f : Field} {fs : List Field} {w : Nat} {v : BitVec w} {vs : List Nat}
    (h : f.positions.length = w) (hs : ∀ fv ∈ fs.zip vs, fv.2 < 2 ^ fv.1.positions.length) :
    ∀ fv ∈ (f :: fs).zip (v.toNat :: vs), fv.2 < 2 ^ fv.1.positions.length := by
  subst h
  intro fv hfv
  rcases List.mem_cons.1 hfv with rfl | hfv
  · exact v.isLt
  · exact hs fv hfv

theorem allInRange_nil : ∀ fv ∈ ([] : List Field).zip ([] : List Nat), fv.2 < 2 ^ fv.1.positions.length :=
  fun _ h => nomatch h

theorem add (rd rs1 rs2 : Reg) : Statement (.add rd rs1 rs2) :=
  ⟨congrArg some (by simp only [ofNat_toNat] : Instr.add (.ofNat _ rd.toNat) (.ofNat _ rs1.toNat) (.ofNat _ rs2.toNat) = Instr.add rd rs1 rs2),
    rfl, allInRange_cons rfl (allInRange_cons rfl (allInRange_cons rfl allInRange_nil)), rfl, rfl⟩
theorem sub (rd rs1 rs2 : Reg) : Statement (.sub rd rs1 rs2) :=
  ⟨congrArg some (by simp only [ofNat_toNat] : Instr.sub (.ofNat _ rd.toNat) (.ofNat _ rs1.toNat) (.ofNat _ rs2.toNat) = Instr.sub rd rs1 rs2),
    rfl, allInRange_cons rfl (allInRange_cons rfl (allInRange_cons rfl allInRange_nil)), rfl, rfl⟩
theorem sll (rd rs1 rs2 : Reg) : Statement (.sll rd rs1 rs2) :=
  ⟨congrArg some (by simp only [ofNat_toNat] : Instr.sll (.ofNat _ rd.toNat) (.ofNat _ rs1.toNat) (.ofNat _ rs2.toNat) = Instr.sll rd rs1 rs2),
    rfl, allInRange_cons rfl (allInRange_cons rfl (allInRange_cons rfl allInRange_nil)), rfl, rfl⟩
theorem slt (rd rs1 rs2 : Reg) : Statement (.slt rd rs1 rs2) :=
  ⟨congrArg some (by simp only [ofNat_toNat] : Instr.slt (.ofNat _ rd.toNat) (.ofNat _ rs1.toNat) (.ofNat _ rs2.toNat) = Instr.slt rd rs1 rs2),
    rfl, allInRange_cons rfl (allInRange_cons rfl (allInRange_cons rfl allInRange_nil)), rfl, rfl⟩
theorem sltu (rd rs1 rs2 : Reg) : Statement (.sltu rd rs1 rs2) :=
  ⟨congrArg some (by simp only [ofNat_toNat] : Instr.sltu (.ofNat _ rd.toNat) (.ofNat _ rs1.toNat) (.ofNat _ rs2.toNat) = Instr.sltu rd rs1 rs2),
    rfl, allInRange_cons rfl (allInRange_cons rfl (allInRange_cons rfl allInRange_nil)), rfl, rfl⟩
theorem xor (rd rs1 rs2 : Reg) : Statement (.xor rd rs1 rs2) :=
  ⟨congrArg some (by simp only [ofNat_toNat] : Instr.xor (.ofNat _ rd.toNat) (.ofNat _ rs1.toNat) (.ofNat _ rs2.toNat) = Instr.xor rd rs1 rs2),
    rfl, allInRange_cons rfl (allInRange_cons rfl (allInRange_cons rfl allInRange_nil)), rfl, rfl⟩
theorem srl (rd rs1 rs2 : Reg) : Statement (.srl rd rs1 rs2) :=
  ⟨congrArg some (by simp only [ofNat_toNat] : Instr.srl (.ofNat _ rd.toNat) (.ofNat _ rs1.toNat) (.ofNat _ rs2.toNat) = Instr.srl rd rs1 rs2),
    rfl, allInRange_cons rfl (allInRange_cons rfl (allInRange_cons rfl allInRange_nil)), rfl, rfl⟩
theorem sra (rd rs1 rs2 : Reg) : Statement (.sra rd rs1 rs2) :=
  ⟨congrArg some (by simp only [ofNat_toNat] : Instr.sra (.ofNat _ rd.toNat) (.ofNat _ rs1.toNat) (.ofNat _ rs2.toNat) = Instr.sra rd rs1 rs2),
    rfl, allInRange_cons rfl (allInRange_cons rfl (allInRange_cons rfl allInRange_nil)), rfl, rfl⟩
theorem or (rd rs1 rs2 : Reg) : Statement (.or rd rs1 rs2) :=
  ⟨congrArg some (by simp only [ofNat_toNat] : Instr.or (.ofNat _ rd.toNat) (.ofNat _ rs1.toNat) (.ofNat _ rs2.toNat) = Instr.or rd rs1 rs2),
    rfl, allInRange_cons rfl (allInRange_cons rfl (allInRange_cons rfl allInRange_nil)), rfl, rfl⟩
theorem and (rd rs1 rs2 : Reg) : Statement (.and rd rs1 rs2) :=
  ⟨congrArg some (by simp only [ofNat_toNat] : Instr.and (.ofNat _ rd.toNat) (.ofNat _ rs1.toNat) (.ofNat _ rs2.toNat) = Instr.and rd rs1 rs2),
    rfl, allInRange_cons rfl (allInRange_cons rfl (allInRange_cons rfl allInRange_nil)), rfl, rfl⟩
theorem mul (rd rs1 rs2 : Reg) : Statement (.mul rd rs1 rs2) :=
  ⟨congrArg some (by simp only [ofNat_toNat] : Instr.mul (.ofNat _ rd.toNat) (.ofNat _ rs1.toNat) (.ofNat _ rs2.toNat) = Instr.mul rd rs1 rs2),
    rfl, allInRange_cons rfl (allInRange_cons rfl (allInRange_cons rfl allInRange_nil)), rfl, rfl⟩
theorem mulh (rd rs1 rs2 : Reg) : Statement (.mulh rd rs1 rs2) :=
  ⟨congrArg some (by simp only [ofNat_toNat] : Instr.mulh (.ofNat _ rd.toNat) (.ofNat _ rs1.toNat) (.ofNat _ rs2.toNat) = Instr.mulh rd rs1 rs2),
    rfl, allInRange_cons rfl (allInRange_cons rfl (allInRange_cons rfl allInRange_nil)), rfl, rfl⟩
theorem mulhsu (rd rs1 rs2 : Reg) : Statement (.mulhsu rd rs1 rs2) :=
  ⟨congrArg some (by simp only [ofNat_toNat] : Instr.mulhsu (.ofNat _ rd.toNat) (.ofNat _ rs1.toNat) (.ofNat _ rs2.toNat) = Instr.mulhsu rd rs1 rs2),
    rfl, allInRange_cons rfl (allInRange_cons rfl (allInRange_cons rfl allInRange_nil)), rfl, rfl⟩
theorem mulhu (rd rs1 rs2 : Reg) : Statement (.mulhu rd rs1 rs2) :=
  ⟨congrArg some (by simp only [ofNat_toNat] : Instr.mulhu (.ofNat _ rd.toNat) (.ofNat _ rs1.toNat) (.ofNat _ rs2.toNat) = Instr.mulhu rd rs1 rs2),
    rfl, allInRange_cons rfl (allInRange_cons rfl (allInRange_cons rfl allInRange_nil)), rfl, rfl⟩
theorem div (rd rs1 rs2 : Reg) : Statement (.div rd rs1 rs2) :=
  ⟨congrArg some (by simp only [ofNat_toNat] : Instr.div (.ofNat _ rd.toNat) (.ofNat _ rs1.toNat) (.ofNat _ rs2.toNat) = Instr.div rd rs1 rs2),
    rfl, allInRange_cons rfl (allInRange_cons rfl (allInRange_cons rfl allInRange_nil)), rfl, rfl⟩
theorem divu (rd rs1 rs2 : Reg) : Statement (.divu rd rs1 rs2) :=
  ⟨congrArg some (by simp only [ofNat_toNat] : Instr.divu (.ofNat _ rd.toNat) (.ofNat _ rs1.toNat) (.ofNat _ rs2.toNat) = Instr.divu rd rs1 rs2),
    rfl, allInRange_cons rfl (allInRange_cons rfl (allInRange_cons rfl allInRange_nil)), rfl, rfl⟩
theorem rem (rd rs1 rs2 : Reg) : Statement (.rem rd rs1 rs2) :=
  ⟨congrArg some (by simp only [ofNat_toNat] : Instr.rem (.ofNat _ rd.toNat) (.ofNat _ rs1.toNat) (.ofNat _ rs2.toNat) = Instr.rem rd rs1 rs2),
    rfl, allInRange_cons rfl (allInRange_cons rfl (allInRange_cons rfl allInRange_nil)), rfl, rfl⟩
theorem remu (rd rs1 rs2 : Reg) : Statement (.remu rd rs1 rs2) :=
  ⟨congrArg some (by simp only [ofNat_toNat] : Instr.remu (.ofNat _ rd.toNat) (.ofNat _ rs1.toNat) (.ofNat _ rs2.toNat) = Instr.remu rd rs1 rs2),
    rfl, allInRange_cons rfl (allInRange_cons rfl (allInRange_cons rfl allInRange_nil)), rfl, rfl⟩
theorem addw (rd rs1 rs2 : Reg) : Statement (.addw rd rs1 rs2) :=
  ⟨congrArg some (by simp only [ofNat_toNat] : Instr.addw (.ofNat _ rd.toNat) (.ofNat _ rs1.toNat) (.ofNat _ rs2.toNat) = Instr.addw rd rs1 rs2),
    rfl, allInRange_cons rfl (allInRange_cons rfl (allInRange_cons rfl allInRange_nil)), rfl, rfl⟩
theorem subw (rd rs1 rs2 : Reg) : Statement (.subw rd rs1 rs2) :=
  ⟨congrArg some (by simp only [ofNat_toNat] : Instr.subw (.ofNat _ rd.toNat) (.ofNat _ rs1.toNat) (.ofNat _ rs2.toNat) = Instr.subw rd rs1 rs2),
    rfl, allInRange_cons rfl (allInRange_cons rfl (allInRange_cons rfl allInRange_nil)), rfl, rfl⟩
theorem sllw (rd rs1 rs2 : Reg) : Statement (.sllw rd rs1 rs2) :=
  ⟨congrArg some (by simp only [ofNat_toNat] : Instr.sllw (.ofNat _ rd.toNat) (.ofNat _ rs1.toNat) (.ofNat _ rs2.toNat) = Instr.sllw rd rs1 rs2),
    rfl, allInRange_cons rfl (allInRange_cons rfl (allInRange_cons rfl allInRange_nil)), rfl, rfl⟩
theorem srlw (rd rs1 rs2 : Reg) : Statement (.srlw rd rs1 rs2) :=
  ⟨congrArg some (by simp only [ofNat_toNat] : Instr.srlw (.ofNat _ rd.toNat) (.ofNat _ rs1.toNat) (.ofNat _ rs2.toNat) = Instr.srlw rd rs1 rs2),
    rfl, allInRange_cons rfl (allInRange_cons rfl (allInRange_cons rfl allInRange_nil)), rfl, rfl⟩
theorem sraw (rd rs1 rs2 : Reg) : Statement (.sraw rd rs1 rs2) :=
  ⟨congrArg some (by simp only [ofNat_toNat] : Instr.sraw (.ofNat _ rd.toNat) (.ofNat _ rs1.toNat) (.ofNat _ rs2.toNat) = Instr.sraw rd rs1 rs2),
    rfl, allInRange_cons rfl (allInRange_cons rfl (allInRange_cons rfl allInRange_nil)), rfl, rfl⟩
theorem mulw (rd rs1 rs2 : Reg) : Statement (.mulw rd rs1 rs2) :=
  ⟨congrArg some (by simp only [ofNat_toNat] : Instr.mulw (.ofNat _ rd.toNat) (.ofNat _ rs1.toNat) (.ofNat _ rs2.toNat) = Instr.mulw rd rs1 rs2),
    rfl, allInRange_cons rfl (allInRange_cons rfl (allInRange_cons rfl allInRange_nil)), rfl, rfl⟩
theorem divw (rd rs1 rs2 : Reg) : Statement (.divw rd rs1 rs2) :=
  ⟨congrArg some (by simp only [ofNat_toNat] : Instr.divw (.ofNat _ rd.toNat) (.ofNat _ rs1.toNat) (.ofNat _ rs2.toNat) = Instr.divw rd rs1 rs2),
    rfl, allInRange_cons rfl (allInRange_cons rfl (allInRange_cons rfl allInRange_nil)), rfl, rfl⟩
theorem divuw (rd rs1 rs2 : Reg) : Statement (.divuw rd rs1 rs2) :=
  ⟨congrArg some (by simp only [ofNat_toNat] : Instr.divuw (.ofNat _ rd.toNat) (.ofNat _ rs1.toNat) (.ofNat _ rs2.toNat) = Instr.divuw rd rs1 rs2),
    rfl, allInRange_cons rfl (allInRange_cons rfl (allInRange_cons rfl allInRange_nil)), rfl, rfl⟩
theorem remw (rd rs1 rs2 : Reg) : Statement (.remw rd rs1 rs2) :=
  ⟨congrArg some (by simp only [ofNat_toNat] : Instr.remw (.ofNat _ rd.toNat) (.ofNat _ rs1.toNat) (.ofNat _ rs2.toNat) = Instr.remw rd rs1 rs2),
    rfl, allInRange_cons rfl (allInRange_cons rfl (allInRange_cons rfl allInRange_nil)), rfl, rfl⟩
theorem remuw (rd rs1 rs2 : Reg) : Statement (.remuw rd rs1 rs2) :=
  ⟨congrArg some (by simp only [ofNat_toNat] : Instr.remuw (.ofNat _ rd.toNat) (.ofNat _ rs1.toNat) (.ofNat _ rs2.toNat) = Instr.remuw rd rs1 rs2),
    rfl, allInRange_cons rfl (allInRange_cons rfl (allInRange_cons rfl allInRange_nil)), rfl, rfl⟩
theorem addi (rd rs1 : Reg) (imm : Imm12) : Statement (.addi rd rs1 imm) :=
  ⟨congrArg some (by simp only [ofNat_toNat] : Instr.addi (.ofNat _ rd.toNat) (.ofNat _ rs1.toNat) (.ofNat _ imm.toNat) = Instr.addi rd rs1 imm),
    rfl, allInRange_cons rfl (allInRange_cons rfl (allInRange_cons rfl allInRange_nil)), rfl, rfl⟩
theorem slti (rd rs1 : Reg) (imm : Imm12) : Statement (.slti rd rs1 imm) :=
  ⟨congrArg some (by simp only [ofNat_toNat] : Instr.slti (.ofNat _ rd.toNat) (.ofNat _ rs1.toNat) (.ofNat _ imm.toNat) = Instr.slti rd rs1 imm),
    rfl, allInRange_cons rfl (allInRange_cons rfl (allInRange_cons rfl allInRange_nil)), rfl, rfl⟩
theorem sltiu (rd rs1 : Reg) (imm : Imm12) : Statement (.sltiu rd rs1 imm) :=
  ⟨congrArg some (by simp only [ofNat_toNat] : Instr.sltiu (.ofNat _ rd.toNat) (.ofNat _ rs1.toNat) (.ofNat _ imm.toNat) = Instr.sltiu rd rs1 imm),
    rfl, allInRange_cons rfl (allInRange_cons rfl (allInRange_cons rfl allInRange_nil)), rfl, rfl⟩
theorem xori (rd rs1 : Reg) (imm : Imm12) : Statement (.xori rd rs1 imm) :=
  ⟨congrArg some (by simp only [ofNat_toNat] : Instr.xori (.ofNat _ rd.toNat) (.ofNat _ rs1.toNat) (.ofNat _ imm.toNat) = Instr.xori rd rs1 imm),
    rfl, allInRange_cons rfl (allInRange_cons rfl (allInRange_cons rfl allInRange_nil)), rfl, rfl⟩
theorem ori (rd rs1 : Reg) (imm : Imm12) : Statement (.ori rd rs1 imm) :=
  ⟨congrArg some (by simp only [ofNat_toNat] : Instr.ori (.ofNat _ rd.toNat) (.ofNat _ rs1.toNat) (.ofNat _ imm.toNat) = Instr.ori rd rs1 imm),
    rfl, allInRange_cons rfl (allInRange_cons rfl (allInRange_cons rfl allInRange_nil)), rfl, rfl⟩
theorem andi (rd rs1 : Reg) (imm : Imm12) : Statement (.andi rd rs1 imm) :=
  ⟨congrArg some (by simp only [ofNat_toNat] : Instr.andi (.ofNat _ rd.toNat) (.ofNat _ rs1.toNat) (.ofNat _ imm.toNat) = Instr.andi rd rs1 imm),
    rfl, allInRange_cons rfl (allInRange_cons rfl (allInRange_cons rfl allInRange_nil)), rfl, rfl⟩
theorem slli (rd rs1 : Reg) (shamt : Shamt) : Statement (.slli rd rs1 shamt) :=
  ⟨congrArg some (by simp only [ofNat_toNat] : Instr.slli (.ofNat _ rd.toNat) (.ofNat _ rs1.toNat) (.ofNat _ shamt.toNat) = Instr.slli rd rs1 shamt),
    rfl, allInRange_cons rfl (allInRange_cons rfl (allInRange_cons rfl allInRange_nil)), rfl, rfl⟩
theorem srli (rd rs1 : Reg) (shamt : Shamt) : Statement (.srli rd rs1 shamt) :=
  ⟨congrArg some (by simp only [ofNat_toNat] : Instr.srli (.ofNat _ rd.toNat) (.ofNat _ rs1.toNat) (.ofNat _ shamt.toNat) = Instr.srli rd rs1 shamt),
    rfl, allInRange_cons rfl (allInRange_cons rfl (allInRange_cons rfl allInRange_nil)), rfl, rfl⟩
theorem srai (rd rs1 : Reg) (shamt : Shamt) : Statement (.srai rd rs1 shamt) :=
  ⟨congrArg some (by simp only [ofNat_toNat] : Instr.srai (.ofNat _ rd.toNat) (.ofNat _ rs1.toNat) (.ofNat _ shamt.toNat) = Instr.srai rd rs1 shamt),
    rfl, allInRange_cons rfl (allInRange_cons rfl (allInRange_cons rfl allInRange_nil)), rfl, rfl⟩
theorem slliHi (rd rs1 : Reg) (shamt : Shamt) : Statement (.slliHi rd rs1 shamt) :=
  ⟨congrArg some (by simp only [ofNat_toNat] : Instr.slliHi (.ofNat _ rd.toNat) (.ofNat _ rs1.toNat) (.ofNat _ shamt.toNat) = Instr.slliHi rd rs1 shamt),
    rfl, allInRange_cons rfl (allInRange_cons rfl (allInRange_cons rfl allInRange_nil)), rfl, rfl⟩
theorem srliHi (rd rs1 : Reg) (shamt : Shamt) : Statement (.srliHi rd rs1 shamt) :=
  ⟨congrArg some (by simp only [ofNat_toNat] : Instr.srliHi (.ofNat _ rd.toNat) (.ofNat _ rs1.toNat) (.ofNat _ shamt.toNat) = Instr.srliHi rd rs1 shamt),
    rfl, allInRange_cons rfl (allInRange_cons rfl (allInRange_cons rfl allInRange_nil)), rfl, rfl⟩
theorem sraiHi (rd rs1 : Reg) (shamt : Shamt) : Statement (.sraiHi rd rs1 shamt) :=
  ⟨congrArg some (by simp only [ofNat_toNat] : Instr.sraiHi (.ofNat _ rd.toNat) (.ofNat _ rs1.toNat) (.ofNat _ shamt.toNat) = Instr.sraiHi rd rs1 shamt),
    rfl, allInRange_cons rfl (allInRange_cons rfl (allInRange_cons rfl allInRange_nil)), rfl, rfl⟩
theorem addiw (rd rs1 : Reg) (imm : Imm12) : Statement (.addiw rd rs1 imm) :=
  ⟨congrArg some (by simp only [ofNat_toNat] : Instr.addiw (.ofNat _ rd.toNat) (.ofNat _ rs1.toNat) (.ofNat _ imm.toNat) = Instr.addiw rd rs1 imm),
    rfl, allInRange_cons rfl (allInRange_cons rfl (allInRange_cons rfl allInRange_nil)), rfl, rfl⟩
theorem slliw (rd rs1 : Reg) (shamt : Shamt) : Statement (.slliw rd rs1 shamt) :=
  ⟨congrArg some (by simp only [ofNat_toNat] : Instr.slliw (.ofNat _ rd.toNat) (.ofNat _ rs1.toNat) (.ofNat _ shamt.toNat) = Instr.slliw rd rs1 shamt),
    rfl, allInRange_cons rfl (allInRange_cons rfl (allInRange_cons rfl allInRange_nil)), rfl, rfl⟩
theorem srliw (rd rs1 : Reg) (shamt : Shamt) : Statement (.srliw rd rs1 shamt) :=
  ⟨congrArg some (by simp only [ofNat_toNat] : Instr.srliw (.ofNat _ rd.toNat) (.ofNat _ rs1.toNat) (.ofNat _ shamt.toNat) = Instr.srliw rd rs1 shamt),
    rfl, allInRange_cons rfl (allInRange_cons rfl (allInRange_cons rfl allInRange_nil)), rfl, rfl⟩
theorem sraiw (rd rs1 : Reg) (shamt : Shamt) : Statement (.sraiw rd rs1 shamt) :=
  ⟨congrArg some (by simp only [ofNat_toNat] : Instr.sraiw (.ofNat _ rd.toNat) (.ofNat _ rs1.toNat) (.ofNat _ shamt.toNat) = Instr.sraiw rd rs1 shamt),
    rfl, allInRange_cons rfl (allInRange_cons rfl (allInRange_cons rfl allInRange_nil)), rfl, rfl⟩
theorem lui (rd : Reg) (imm : Imm20) : Statement (.lui rd imm) :=
  ⟨congrArg some (by simp only [ofNat_toNat] : Instr.lui (.ofNat _ rd.toNat) (.ofNat _ imm.toNat) = Instr.lui rd imm),
    rfl, allInRange_cons rfl (allInRange_cons rfl allInRange_nil), rfl, rfl⟩
theorem auipc (rd : Reg) (imm : Imm20) : Statement (.auipc rd imm) :=
  ⟨congrArg some (by simp only [ofNat_toNat] : Instr.auipc (.ofNat _ rd.toNat) (.ofNat _ imm.toNat) = Instr.auipc rd imm),
    rfl, allInRange_cons rfl (allInRange_cons rfl allInRange_nil), rfl, rfl⟩
theorem lb (rd rs1 : Reg) (imm : Imm12) : Statement (.lb rd rs1 imm) :=
  ⟨congrArg some (by simp only [ofNat_toNat] : Instr.lb (.ofNat _ rd.toNat) (.ofNat _ rs1.toNat) (.ofNat _ imm.toNat) = Instr.lb rd rs1 imm),
    rfl, allInRange_cons rfl (allInRange_cons rfl (allInRange_cons rfl allInRange_nil)), rfl, rfl⟩
theorem lh (rd rs1 : Reg) (imm : Imm12) : Statement (.lh rd rs1 imm) :=
  ⟨congrArg some (by simp only [ofNat_toNat] : Instr.lh (.ofNat _ rd.toNat) (.ofNat _ rs1.toNat) (.ofNat _ imm.toNat) = Instr.lh rd rs1 imm),
    rfl, allInRange_cons rfl (allInRange_cons rfl (allInRange_cons rfl allInRange_nil)), rfl, rfl⟩
theorem lw (rd rs1 : Reg) (imm : Imm12) : Statement (.lw rd rs1 imm) :=
  ⟨congrArg some (by simp only [ofNat_toNat] : Instr.lw (.ofNat _ rd.toNat) (.ofNat _ rs1.toNat) (.ofNat _ imm.toNat) = Instr.lw rd rs1 imm),
    rfl, allInRange_cons rfl (allInRange_cons rfl (allInRange_cons rfl allInRange_nil)), rfl, rfl⟩
theorem lbu (rd rs1 : Reg) (imm : Imm12) : Statement (.lbu rd rs1 imm) :=
  ⟨congrArg some (by simp only [ofNat_toNat] : Instr.lbu (.ofNat _ rd.toNat) (.ofNat _ rs1.toNat) (.ofNat _ imm.toNat) = Instr.lbu rd rs1 imm),
    rfl, allInRange_cons rfl (allInRange_cons rfl (allInRange_cons rfl allInRange_nil)), rfl, rfl⟩
theorem lhu (rd rs1 : Reg) (imm : Imm12) : Statement (.lhu rd rs1 imm) :=
  ⟨congrArg some (by simp only [ofNat_toNat] : Instr.lhu (.ofNat _ rd.toNat) (.ofNat _ rs1.toNat) (.ofNat _ imm.toNat) = Instr.lhu rd rs1 imm),
    rfl, allInRange_cons rfl (allInRange_cons rfl (allInRange_cons rfl allInRange_nil)), rfl, rfl⟩
theorem lwu (rd rs1 : Reg) (imm : Imm12) : Statement (.lwu rd rs1 imm) :=
  ⟨congrArg some (by simp only [ofNat_toNat] : Instr.lwu (.ofNat _ rd.toNat) (.ofNat _ rs1.toNat) (.ofNat _ imm.toNat) = Instr.lwu rd rs1 imm),
    rfl, allInRange_cons rfl (allInRange_cons rfl (allInRange_cons rfl allInRange_nil)), rfl, rfl⟩
theorem ld (rd rs1 : Reg) (imm : Imm12) : Statement (.ld rd rs1 imm) :=
  ⟨congrArg some (by simp only [ofNat_toNat] : Instr.ld (.ofNat _ rd.toNat) (.ofNat _ rs1.toNat) (.ofNat _ imm.toNat) = Instr.ld rd rs1 imm),
    rfl, allInRange_cons rfl (allInRange_cons rfl (allInRange_cons rfl allInRange_nil)), rfl, rfl⟩
theorem sb (rs1 rs2 : Reg) (imm : Imm12) : Statement (.sb rs1 rs2 imm) :=
  ⟨congrArg some (by simp only [ofNat_toNat] : Instr.sb (.ofNat _ rs1.toNat) (.ofNat _ rs2.toNat) (.ofNat _ imm.toNat) = Instr.sb rs1 rs2 imm),
    rfl, allInRange_cons rfl (allInRange_cons rfl (allInRange_cons rfl allInRange_nil)), rfl, rfl⟩
theorem sh (rs1 rs2 : Reg) (imm : Imm12) : Statement (.sh rs1 rs2 imm) :=
  ⟨congrArg some (by simp only [ofNat_toNat] : Instr.sh (.ofNat _ rs1.toNat) (.ofNat _ rs2.toNat) (.ofNat _ imm.toNat) = Instr.sh rs1 rs2 imm),
    rfl, allInRange_cons rfl (allInRange_cons rfl (allInRange_cons rfl allInRange_nil)), rfl, rfl⟩
theorem sw (rs1 rs2 : Reg) (imm : Imm12) : Statement (.sw rs1 rs2 imm) :=
  ⟨congrArg some (by simp only [ofNat_toNat] : Instr.sw (.ofNat _ rs1.toNat) (.ofNat _ rs2.toNat) (.ofNat _ imm.toNat) = Instr.sw rs1 rs2 imm),
    rfl, allInRange_cons rfl (allInRange_cons rfl (allInRange_cons rfl allInRange_nil)), rfl, rfl⟩
theorem sd (rs1 rs2 : Reg) (imm : Imm12) : Statement (.sd rs1 rs2 imm) :=
  ⟨congrArg some (by simp only [ofNat_toNat] : Instr.sd (.ofNat _ rs1.toNat) (.ofNat _ rs2.toNat) (.ofNat _ imm.toNat) = Instr.sd rs1 rs2 imm),
    rfl, allInRange_cons rfl (allInRange_cons rfl (allInRange_cons rfl allInRange_nil)), rfl, rfl⟩
theorem beq (rs1 rs2 : Reg) (imm : Imm12) : Statement (.beq rs1 rs2 imm) :=
  ⟨congrArg some (by simp only [ofNat_toNat] : Instr.beq (.ofNat _ rs1.toNat) (.ofNat _ rs2.toNat) (.ofNat _ imm.toNat) = Instr.beq rs1 rs2 imm),
    rfl, allInRange_cons rfl (allInRange_cons rfl (allInRange_cons rfl allInRange_nil)), rfl, rfl⟩
theorem bne (rs1 rs2 : Reg) (imm : Imm12) : Statement (.bne rs1 rs2 imm) :=
  ⟨congrArg some (by simp only [ofNat_toNat] : Instr.bne (.ofNat _ rs1.toNat) (.ofNat _ rs2.toNat) (.ofNat _ imm.toNat) = Instr.bne rs1 rs2 imm),
    rfl, allInRange_cons rfl (allInRange_cons rfl (allInRange_cons rfl allInRange_nil)), rfl, rfl⟩
theorem blt (rs1 rs2 : Reg) (imm : Imm12) : Statement (.blt rs1 rs2 imm) :=
  ⟨congrArg some (by simp only [ofNat_toNat] : Instr.blt (.ofNat _ rs1.toNat) (.ofNat _ rs2.toNat) (.ofNat _ imm.toNat) = Instr.blt rs1 rs2 imm),
    rfl, allInRange_cons rfl (allInRange_cons rfl (allInRange_cons rfl allInRange_nil)), rfl, rfl⟩
theorem bge (rs1 rs2 : Reg) (imm : Imm12) : Statement (.bge rs1 rs2 imm) :=
  ⟨congrArg some (by simp only [ofNat_toNat] : Instr.bge (.ofNat _ rs1.toNat) (.ofNat _ rs2.toNat) (.ofNat _ imm.toNat) = Instr.bge rs1 rs2 imm),
    rfl, allInRange_cons rfl (allInRange_cons rfl (allInRange_cons rfl allInRange_nil)), rfl, rfl⟩
theorem bltu (rs1 rs2 : Reg) (imm : Imm12) : Statement (.bltu rs1 rs2 imm) :=
  ⟨congrArg some (by simp only [ofNat_toNat] : Instr.bltu (.ofNat _ rs1.toNat) (.ofNat _ rs2.toNat) (.ofNat _ imm.toNat) = Instr.bltu rs1 rs2 imm),
    rfl, allInRange_cons rfl (allInRange_cons rfl (allInRange_cons rfl allInRange_nil)), rfl, rfl⟩
theorem bgeu (rs1 rs2 : Reg) (imm : Imm12) : Statement (.bgeu rs1 rs2 imm) :=
  ⟨congrArg some (by simp only [ofNat_toNat] : Instr.bgeu (.ofNat _ rs1.toNat) (.ofNat _ rs2.toNat) (.ofNat _ imm.toNat) = Instr.bgeu rs1 rs2 imm),
    rfl, allInRange_cons rfl (allInRange_cons rfl (allInRange_cons rfl allInRange_nil)), rfl, rfl⟩
theorem jal (rd : Reg) (imm : Imm20) : Statement (.jal rd imm) :=
  ⟨congrArg some (by simp only [ofNat_toNat] : Instr.jal (.ofNat _ rd.toNat) (.ofNat _ imm.toNat) = Instr.jal rd imm),
    rfl, allInRange_cons rfl (allInRange_cons rfl allInRange_nil), rfl, rfl⟩
theorem jalr (rd rs1 : Reg) (imm : Imm12) : Statement (.jalr rd rs1 imm) :=
  ⟨congrArg some (by simp only [ofNat_toNat] : Instr.jalr (.ofNat _ rd.toNat) (.ofNat _ rs1.toNat) (.ofNat _ imm.toNat) = Instr.jalr rd rs1 imm),
    rfl, allInRange_cons rfl (allInRange_cons rfl (allInRange_cons rfl allInRange_nil)), rfl, rfl⟩
theorem lrW (rd rs1 : Reg) (aq rl : BitVec 1) : Statement (.lrW rd rs1 aq rl) :=
  ⟨congrArg some (by simp only [ofNat_toNat] : Instr.lrW (.ofNat _ rd.toNat) (.ofNat _ rs1.toNat) (.ofNat _ aq.toNat) (.ofNat _ rl.toNat) = Instr.lrW rd rs1 aq rl),
    rfl, allInRange_cons rfl (allInRange_cons rfl (allInRange_cons rfl (allInRange_cons rfl allInRange_nil))), rfl, rfl⟩
theorem scW (rd rs1 rs2 : Reg) (aq rl : BitVec 1) : Statement (.scW rd rs1 rs2 aq rl) :=
  ⟨congrArg some (by simp only [ofNat_toNat] : Instr.scW (.ofNat _ rd.toNat) (.ofNat _ rs1.toNat) (.ofNat _ rs2.toNat) (.ofNat _ aq.toNat) (.ofNat _ rl.toNat) = Instr.scW rd rs1 rs2 aq rl),
    rfl, allInRange_cons rfl (allInRange_cons rfl (allInRange_cons rfl (allInRange_cons rfl (allInRange_cons rfl allInRange_nil)))), rfl, rfl⟩
theorem amoswapW (rd rs1 rs2 : Reg) (aq rl : BitVec 1) : Statement (.amoswapW rd rs1 rs2 aq rl) :=
  ⟨congrArg some (by simp only [ofNat_toNat] : Instr.amoswapW (.ofNat _ rd.toNat) (.ofNat _ rs1.toNat) (.ofNat _ rs2.toNat) (.ofNat _ aq.toNat) (.ofNat _ rl.toNat) = Instr.amoswapW rd rs1 rs2 aq rl),
    rfl, allInRange_cons rfl (allInRange_cons rfl (allInRange_cons rfl (allInRange_cons rfl (allInRange_cons rfl allInRange_nil)))), rfl, rfl⟩
theorem amoaddW (rd rs1 rs2 : Reg) (aq rl : BitVec 1) : Statement (.amoaddW rd rs1 rs2 aq rl) :=
  ⟨congrArg some (by simp only [ofNat_toNat] : Instr.amoaddW (.ofNat _ rd.toNat) (.ofNat _ rs1.toNat) (.ofNat _ rs2.toNat) (.ofNat _ aq.toNat) (.ofNat _ rl.toNat) = Instr.amoaddW rd rs1 rs2 aq rl),
    rfl, allInRange_cons rfl (allInRange_cons rfl (allInRange_cons rfl (allInRange_cons rfl (allInRange_cons rfl allInRange_nil)))), rfl, rfl⟩
theorem amoxorW (rd rs1 rs2 : Reg) (aq rl : BitVec 1) : Statement (.amoxorW rd rs1 rs2 aq rl) :=
  ⟨congrArg some (by simp only [ofNat_toNat] : Instr.amoxorW (.ofNat _ rd.toNat) (.ofNat _ rs1.toNat) (.ofNat _ rs2.toNat) (.ofNat _ aq.toNat) (.ofNat _ rl.toNat) = Instr.amoxorW rd rs1 rs2 aq rl),
    rfl, allInRange_cons rfl (allInRange_cons rfl (allInRange_cons rfl (allInRange_cons rfl (allInRange_cons rfl allInRange_nil)))), rfl, rfl⟩
theorem amoandW (rd rs1 rs2 : Reg) (aq rl : BitVec 1) : Statement (.amoandW rd rs1 rs2 aq rl) :=
  ⟨congrArg some (by simp only [ofNat_toNat] : Instr.amoandW (.ofNat _ rd.toNat) (.ofNat _ rs1.toNat) (.ofNat _ rs2.toNat) (.ofNat _ aq.toNat) (.ofNat _ rl.toNat) = Instr.amoandW rd rs1 rs2 aq rl),
    rfl, allInRange_cons rfl (allInRange_cons rfl (allInRange_cons rfl (allInRange_cons rfl (allInRange_cons rfl allInRange_nil)))), rfl, rfl⟩
theorem amoorW (rd rs1 rs2 : Reg) (aq rl : BitVec 1) : Statement (.amoorW rd rs1 rs2 aq rl) :=
  ⟨congrArg some (by simp only [ofNat_toNat] : Instr.amoorW (.ofNat _ rd.toNat) (.ofNat _ rs1.toNat) (.ofNat _ rs2.toNat) (.ofNat _ aq.toNat) (.ofNat _ rl.toNat) = Instr.amoorW rd rs1 rs2 aq rl),
    rfl, allInRange_cons rfl (allInRange_cons rfl (allInRange_cons rfl (allInRange_cons rfl (allInRange_cons rfl allInRange_nil)))), rfl, rfl⟩
theorem amominW (rd rs1 rs2 : Reg) (aq rl : BitVec 1) : Statement (.amominW rd rs1 rs2 aq rl) :=
  ⟨congrArg some (by simp only [ofNat_toNat] : Instr.amominW (.ofNat _ rd.toNat) (.ofNat _ rs1.toNat) (.ofNat _ rs2.toNat) (.ofNat _ aq.toNat) (.ofNat _ rl.toNat) = Instr.amominW rd rs1 rs2 aq rl),
    rfl, allInRange_cons rfl (allInRange_cons rfl (allInRange_cons rfl (allInRange_cons rfl (allInRange_cons rfl allInRange_nil)))), rfl, rfl⟩
theorem amomaxW (rd rs1 rs2 : Reg) (aq rl : BitVec 1) : Statement (.amomaxW rd rs1 rs2 aq rl) :=
  ⟨congrArg some (by simp only [ofNat_toNat] : Instr.amomaxW (.ofNat _ rd.toNat) (.ofNat _ rs1.toNat) (.ofNat _ rs2.toNat) (.ofNat _ aq.toNat) (.ofNat _ rl.toNat) = Instr.amomaxW rd rs1 rs2 aq rl),
    rfl, allInRange_cons rfl (allInRange_cons rfl (allInRange_cons rfl (allInRange_cons rfl (allInRange_cons rfl allInRange_nil)))), rfl, rfl⟩
theorem amominuW (rd rs1 rs2 : Reg) (aq rl : BitVec 1) : Statement (.amominuW rd rs1 rs2 aq rl) :=
  ⟨congrArg some (by simp only [ofNat_toNat] : Instr.amominuW (.ofNat _ rd.toNat) (.ofNat _ rs1.toNat) (.ofNat _ rs2.toNat) (.ofNat _ aq.toNat) (.ofNat _ rl.toNat) = Instr.amominuW rd rs1 rs2 aq rl),
    rfl, allInRange_cons rfl (allInRange_cons rfl (allInRange_cons rfl (allInRange_cons rfl (allInRange_cons rfl allInRange_nil)))), rfl, rfl⟩
theorem amomaxuW (rd rs1 rs2 : Reg) (aq rl : BitVec 1) : Statement (.amomaxuW rd rs1 rs2 aq rl) :=
  ⟨congrArg some (by simp only [ofNat_toNat] : Instr.amomaxuW (.ofNat _ rd.toNat) (.ofNat _ rs1.toNat) (.ofNat _ rs2.toNat) (.ofNat _ aq.toNat) (.ofNat _ rl.toNat) = Instr.amomaxuW rd rs1 rs2 aq rl),
    rfl, allInRange_cons rfl (allInRange_cons rfl (allInRange_cons rfl (allInRange_cons rfl (allInRange_cons rfl allInRange_nil)))), rfl, rfl⟩
theorem lrD (rd rs1 : Reg) (aq rl : BitVec 1) : Statement (.lrD rd rs1 aq rl) :=
  ⟨congrArg some (by simp only [ofNat_toNat] : Instr.lrD (.ofNat _ rd.toNat) (.ofNat _ rs1.toNat) (.ofNat _ aq.toNat) (.ofNat _ rl.toNat) = Instr.lrD rd rs1 aq rl),
    rfl, allInRange_cons rfl (allInRange_cons rfl (allInRange_cons rfl (allInRange_cons rfl allInRange_nil))), rfl, rfl⟩
theorem scD (rd rs1 rs2 : Reg) (aq rl : BitVec 1) : Statement (.scD rd rs1 rs2 aq rl) :=
  ⟨congrArg some (by simp only [ofNat_toNat] : Instr.scD (.ofNat _ rd.toNat) (.ofNat _ rs1.toNat) (.ofNat _ rs2.toNat) (.ofNat _ aq.toNat) (.ofNat _ rl.toNat) = Instr.scD rd rs1 rs2 aq rl),
    rfl, allInRange_cons rfl (allInRange_cons rfl (allInRange_cons rfl (allInRange_cons rfl (allInRange_cons rfl allInRange_nil)))), rfl, rfl⟩
theorem amoswapD (rd rs1 rs2 : Reg) (aq rl : BitVec 1) : Statement (.amoswapD rd rs1 rs2 aq rl) :=
  ⟨congrArg some (by simp only [ofNat_toNat] : Instr.amoswapD (.ofNat _ rd.toNat) (.ofNat _ rs1.toNat) (.ofNat _ rs2.toNat) (.ofNat _ aq.toNat) (.ofNat _ rl.toNat) = Instr.amoswapD rd rs1 rs2 aq rl),
    rfl, allInRange_cons rfl (allInRange_cons rfl (allInRange_cons rfl (allInRange_cons rfl (allInRange_cons rfl allInRange_nil)))), rfl, rfl⟩
theorem amoaddD (rd rs1 rs2 : Reg) (aq rl : BitVec 1) : Statement (.amoaddD rd rs1 rs2 aq rl) :=
  ⟨congrArg some (by simp only [ofNat_toNat] : Instr.amoaddD (.ofNat _ rd.toNat) (.ofNat _ rs1.toNat) (.ofNat _ rs2.toNat) (.ofNat _ aq.toNat) (.ofNat _ rl.toNat) = Instr.amoaddD rd rs1 rs2 aq rl),
    rfl, allInRange_cons rfl (allInRange_cons rfl (allInRange_cons rfl (allInRange_cons rfl (allInRange_cons rfl allInRange_nil)))), rfl, rfl⟩
theorem amoxorD (rd rs1 rs2 : Reg) (aq rl : BitVec 1) : Statement (.amoxorD rd rs1 rs2 aq rl) :=
  ⟨congrArg some (by simp only [ofNat_toNat] : Instr.amoxorD (.ofNat _ rd.toNat) (.ofNat _ rs1.toNat) (.ofNat _ rs2.toNat) (.ofNat _ aq.toNat) (.ofNat _ rl.toNat) = Instr.amoxorD rd rs1 rs2 aq rl),
    rfl, allInRange_cons rfl (allInRange_cons rfl (allInRange_cons rfl (allInRange_cons rfl (allInRange_cons rfl allInRange_nil)))), rfl, rfl⟩
theorem amoandD (rd rs1 rs2 : Reg) (aq rl : BitVec 1) : Statement (.amoandD rd rs1 rs2 aq rl) :=
  ⟨congrArg some (by simp only [ofNat_toNat] : Instr.amoandD (.ofNat _ rd.toNat) (.ofNat _ rs1.toNat) (.ofNat _ rs2.toNat) (.ofNat _ aq.toNat) (.ofNat _ rl.toNat) = Instr.amoandD rd rs1 rs2 aq rl),
    rfl, allInRange_cons rfl (allInRange_cons rfl (allInRange_cons rfl (allInRange_cons rfl (allInRange_cons rfl allInRange_nil)))), rfl, rfl⟩
theorem amoorD (rd rs1 rs2 : Reg) (aq rl : BitVec 1) : Statement (.amoorD rd rs1 rs2 aq rl) :=
  ⟨congrArg some (by simp only [ofNat_toNat] : Instr.amoorD (.ofNat _ rd.toNat) (.ofNat _ rs1.toNat) (.ofNat _ rs2.toNat) (.ofNat _ aq.toNat) (.ofNat _ rl.toNat) = Instr.amoorD rd rs1 rs2 aq rl),
    rfl, allInRange_cons rfl (allInRange_cons rfl (allInRange_cons rfl (allInRange_cons rfl (allInRange_cons rfl allInRange_nil)))), rfl, rfl⟩
theorem amominD (rd rs1 rs2 : Reg) (aq rl : BitVec 1) : Statement (.amominD rd rs1 rs2 aq rl) :=
  ⟨congrArg some (by simp only [ofNat_toNat] : Instr.amominD (.ofNat _ rd.toNat) (.ofNat _ rs1.toNat) (.ofNat _ rs2.toNat) (.ofNat _ aq.toNat) (.ofNat _ rl.toNat) = Instr.amominD rd rs1 rs2 aq rl),
    rfl, allInRange_cons rfl (allInRange_cons rfl (allInRange_cons rfl (allInRange_cons rfl (allInRange_cons rfl allInRange_nil)))), rfl, rfl⟩
theorem amomaxD (rd rs1 rs2 : Reg) (aq rl : BitVec 1) : Statement (.amomaxD rd rs1 rs2 aq rl) :=
  ⟨congrArg some (by simp only [ofNat_toNat] : Instr.amomaxD (.ofNat _ rd.toNat) (.ofNat _ rs1.toNat) (.ofNat _ rs2.toNat) (.ofNat _ aq.toNat) (.ofNat _ rl.toNat) = Instr.amomaxD rd rs1 rs2 aq rl),
    rfl, allInRange_cons rfl (allInRange_cons rfl (allInRange_cons rfl (allInRange_cons rfl (allInRange_cons rfl allInRange_nil)))), rfl, rfl⟩
theorem amominuD (rd rs1 rs2 : Reg) (aq rl : BitVec 1) : Statement (.amominuD rd rs1 rs2 aq rl) :=
  ⟨congrArg some (by simp only [ofNat_toNat] : Instr.amominuD (.ofNat _ rd.toNat) (.ofNat _ rs1.toNat) (.ofNat _ rs2.toNat) (.ofNat _ aq.toNat) (.ofNat _ rl.toNat) = Instr.amominuD rd rs1 rs2 aq rl),
    rfl, allInRange_cons rfl (allInRange_cons rfl (allInRange_cons rfl (allInRange_cons rfl (allInRange_cons rfl allInRange_nil)))), rfl, rfl⟩
theorem amomaxuD (rd rs1 rs2 : Reg) (aq rl : BitVec 1) : Statement (.amomaxuD rd rs1 rs2 aq rl) :=
  ⟨congrArg some (by simp only [ofNat_toNat] : Instr.amomaxuD (.ofNat _ rd.toNat) (.ofNat _ rs1.toNat) (.ofNat _ rs2.toNat) (.ofNat _ aq.toNat) (.ofNat _ rl.toNat) = Instr.amomaxuD rd rs1 rs2 aq rl),
    rfl, allInRange_cons rfl (allInRange_cons rfl (allInRange_cons rfl (allInRange_cons rfl (allInRange_cons rfl allInRange_nil)))), rfl, rfl⟩
theorem flw (rd rs1 : Reg) (imm : Imm12) : Statement (.flw rd rs1 imm) :=
  ⟨congrArg some (by simp only [ofNat_toNat] : Instr.flw (.ofNat _ rd.toNat) (.ofNat _ rs1.toNat) (.ofNat _ imm.toNat) = Instr.flw rd rs1 imm),
    rfl, allInRange_cons rfl (allInRange_cons rfl (allInRange_cons rfl allInRange_nil)), rfl, rfl⟩
theorem fsw (rs1 rs2 : Reg) (imm : Imm12) : Statement (.fsw rs1 rs2 imm) :=
  ⟨congrArg some (by simp only [ofNat_toNat] : Instr.fsw (.ofNat _ rs1.toNat) (.ofNat _ rs2.toNat) (.ofNat _ imm.toNat) = Instr.fsw rs1 rs2 imm),
    rfl, allInRange_cons rfl (allInRange_cons rfl (allInRange_cons rfl allInRange_nil)), rfl, rfl⟩
theorem fmaddS (rd rs1 rs2 rs3 : Reg) (rm : Rm) : Statement (.fmaddS rd rs1 rs2 rs3 rm) :=
  ⟨congrArg some (by simp only [ofNat_toNat] : Instr.fmaddS (.ofNat _ rd.toNat) (.ofNat _ rs1.toNat) (.ofNat _ rs2.toNat) (.ofNat _ rs3.toNat) (.ofNat _ rm.toNat) = Instr.fmaddS rd rs1 rs2 rs3 rm),
    rfl, allInRange_cons rfl (allInRange_cons rfl (allInRange_cons rfl (allInRange_cons rfl (allInRange_cons rfl allInRange_nil)))), rfl, rfl⟩
theorem fmsubS (rd rs1 rs2 rs3 : Reg) (rm : Rm) : Statement (.fmsubS rd rs1 rs2 rs3 rm) :=
  ⟨congrArg some (by simp only [ofNat_toNat] : Instr.fmsubS (.ofNat _ rd.toNat) (.ofNat _ rs1.toNat) (.ofNat _ rs2.toNat) (.ofNat _ rs3.toNat) (.ofNat _ rm.toNat) = Instr.fmsubS rd rs1 rs2 rs3 rm),
    rfl, allInRange_cons rfl (allInRange_cons rfl (allInRange_cons rfl (allInRange_cons rfl (allInRange_cons rfl allInRange_nil)))), rfl, rfl⟩
theorem fnmsubS (rd rs1 rs2 rs3 : Reg) (rm : Rm) : Statement (.fnmsubS rd rs1 rs2 rs3 rm) :=
  ⟨congrArg some (by simp only [ofNat_toNat] : Instr.fnmsubS (.ofNat _ rd.toNat) (.ofNat _ rs1.toNat) (.ofNat _ rs2.toNat) (.ofNat _ rs3.toNat) (.ofNat _ rm.toNat) = Instr.fnmsubS rd rs1 rs2 rs3 rm),
    rfl, allInRange_cons rfl (allInRange_cons rfl (allInRange_cons rfl (allInRange_cons rfl (allInRange_cons rfl allInRange_nil)))), rfl, rfl⟩
theorem fnmaddS (rd rs1 rs2 rs3 : Reg) (rm : Rm) : Statement (.fnmaddS rd rs1 rs2 rs3 rm) :=
  ⟨congrArg some (by simp only [ofNat_toNat] : Instr.fnmaddS (.ofNat _ rd.toNat) (.ofNat _ rs1.toNat) (.ofNat _ rs2.toNat) (.ofNat _ rs3.toNat) (.ofNat _ rm.toNat) = Instr.fnmaddS rd rs1 rs2 rs3 rm),
    rfl, allInRange_cons rfl (allInRange_cons rfl (allInRange_cons rfl (allInRange_cons rfl (allInRange_cons rfl allInRange_nil)))), rfl, rfl⟩
theorem faddS (rd rs1 rs2 : Reg) (rm : Rm) : Statement (.faddS rd rs1 rs2 rm) :=
  ⟨congrArg some (by simp only [ofNat_toNat] : Instr.faddS (.ofNat _ rd.toNat) (.ofNat _ rs1.toNat) (.ofNat _ rs2.toNat) (.ofNat _ rm.toNat) = Instr.faddS rd rs1 rs2 rm),
    rfl, allInRange_cons rfl (allInRange_cons rfl (allInRange_cons rfl (allInRange_cons rfl allInRange_nil))), rfl, rfl⟩
theorem fsubS (rd rs1 rs2 : Reg) (rm : Rm) : Statement (.fsubS rd rs1 rs2 rm) :=
  ⟨congrArg some (by simp only [ofNat_toNat] : Instr.fsubS (.ofNat _ rd.toNat) (.ofNat _ rs1.toNat) (.ofNat _ rs2.toNat) (.ofNat _ rm.toNat) = Instr.fsubS rd rs1 rs2 rm),
    rfl, allInRange_cons rfl (allInRange_cons rfl (allInRange_cons rfl (allInRange_cons rfl allInRange_nil))), rfl, rfl⟩
theorem fmulS (rd rs1 rs2 : Reg) (rm : Rm) : Statement (.fmulS rd rs1 rs2 rm) :=
  ⟨congrArg some (by simp only [ofNat_toNat] : Instr.fmulS (.ofNat _ rd.toNat) (.ofNat _ rs1.toNat) (.ofNat _ rs2.toNat) (.ofNat _ rm.toNat) = Instr.fmulS rd rs1 rs2 rm),
    rfl, allInRange_cons rfl (allInRange_cons rfl (allInRange_cons rfl (allInRange_cons rfl allInRange_nil))), rfl, rfl⟩
theorem fdivS (rd rs1 rs2 : Reg) (rm : Rm) : Statement (.fdivS rd rs1 rs2 rm) :=
  ⟨congrArg some (by simp only [ofNat_toNat] : Instr.fdivS (.ofNat _ rd.toNat) (.ofNat _ rs1.toNat) (.ofNat _ rs2.toNat) (.ofNat _ rm.toNat) = Instr.fdivS rd rs1 rs2 rm),
    rfl, allInRange_cons rfl (allInRange_cons rfl (allInRange_cons rfl (allInRange_cons rfl allInRange_nil))), rfl, rfl⟩
theorem fsqrtS (rd rs1 : Reg) (rm : Rm) : Statement (.fsqrtS rd rs1 rm) :=
  ⟨congrArg some (by simp only [ofNat_toNat] : Instr.fsqrtS (.ofNat _ rd.toNat) (.ofNat _ rs1.toNat) (.ofNat _ rm.toNat) = Instr.fsqrtS rd rs1 rm),
    rfl, allInRange_cons rfl (allInRange_cons rfl (allInRange_cons rfl allInRange_nil)), rfl, rfl⟩
theorem fsgnjS (rd rs1 rs2 : Reg) : Statement (.fsgnjS rd rs1 rs2) :=
  ⟨congrArg some (by simp only [ofNat_toNat] : Instr.fsgnjS (.ofNat _ rd.toNat) (.ofNat _ rs1.toNat) (.ofNat _ rs2.toNat) = Instr.fsgnjS rd rs1 rs2),
    rfl, allInRange_cons rfl (allInRange_cons rfl (allInRange_cons rfl allInRange_nil)), rfl, rfl⟩
theorem fsgnjnS (rd rs1 rs2 : Reg) : Statement (.fsgnjnS rd rs1 rs2) :=
  ⟨congrArg some (by simp only [ofNat_toNat] : Instr.fsgnjnS (.ofNat _ rd.toNat) (.ofNat _ rs1.toNat) (.ofNat _ rs2.toNat) = Instr.fsgnjnS rd rs1 rs2),
    rfl, allInRange_cons rfl (allInRange_cons rfl (allInRange_cons rfl allInRange_nil)), rfl, rfl⟩
theorem fsgnjxS (rd rs1 rs2 : Reg) : Statement (.fsgnjxS rd rs1 rs2) :=
  ⟨congrArg some (by simp only [ofNat_toNat] : Instr.fsgnjxS (.ofNat _ rd.toNat) (.ofNat _ rs1.toNat) (.ofNat _ rs2.toNat) = Instr.fsgnjxS rd rs1 rs2),
    rfl, allInRange_cons rfl (allInRange_cons rfl (allInRange_cons rfl allInRange_nil)), rfl, rfl⟩
theorem fminS (rd rs1 rs2 : Reg) : Statement (.fminS rd rs1 rs2) :=
  ⟨congrArg some (by simp only [ofNat_toNat] : Instr.fminS (.ofNat _ rd.toNat) (.ofNat _ rs1.toNat) (.ofNat _ rs2.toNat) = Instr.fminS rd rs1 rs2),
    rfl, allInRange_cons rfl (allInRange_cons rfl (allInRange_cons rfl allInRange_nil)), rfl, rfl⟩
theorem fmaxS (rd rs1 rs2 : Reg) : Statement (.fmaxS rd rs1 rs2) :=
  ⟨congrArg some (by simp only [ofNat_toNat] : Instr.fmaxS (.ofNat _ rd.toNat) (.ofNat _ rs1.toNat) (.ofNat _ rs2.toNat) = Instr.fmaxS rd rs1 rs2),
    rfl, allInRange_cons rfl (allInRange_cons rfl (allInRange_cons rfl allInRange_nil)), rfl, rfl⟩
theorem feqS (rd rs1 rs2 : Reg) : Statement (.feqS rd rs1 rs2) :=
  ⟨congrArg some (by simp only [ofNat_toNat] : Instr.feqS (.ofNat _ rd.toNat) (.ofNat _ rs1.toNat) (.ofNat _ rs2.toNat) = Instr.feqS rd rs1 rs2),
    rfl, allInRange_cons rfl (allInRange_cons rfl (allInRange_cons rfl allInRange_nil)), rfl, rfl⟩
theorem fltS (rd rs1 rs2 : Reg) : Statement (.fltS rd rs1 rs2) :=
  ⟨congrArg some (by simp only [ofNat_toNat] : Instr.fltS (.ofNat _ rd.toNat) (.ofNat _ rs1.toNat) (.ofNat _ rs2.toNat) = Instr.fltS rd rs1 rs2),
    rfl, allInRange_cons rfl (allInRange_cons rfl (allInRange_cons rfl allInRange_nil)), rfl, rfl⟩
theorem fleS (rd rs1 rs2 : Reg) : Statement (.fleS rd rs1 rs2) :=
  ⟨congrArg some (by simp only [ofNat_toNat] : Instr.fleS (.ofNat _ rd.toNat) (.ofNat _ rs1.toNat) (.ofNat _ rs2.toNat) = Instr.fleS rd rs1 rs2),
    rfl, allInRange_cons rfl (allInRange_cons rfl (allInRange_cons rfl allInRange_nil)), rfl, rfl⟩
theorem fclassS (rd rs1 : Reg) : Statement (.fclassS rd rs1) :=
  ⟨congrArg some (by simp only [ofNat_toNat] : Instr.fclassS (.ofNat _ rd.toNat) (.ofNat _ rs1.toNat) = Instr.fclassS rd rs1),
    rfl, allInRange_cons rfl (allInRange_cons rfl allInRange_nil), rfl, rfl⟩
theorem fcvtWS (rd rs1 : Reg) (rm : Rm) : Statement (.fcvtWS rd rs1 rm) :=
  ⟨congrArg some (by simp only [ofNat_toNat] : Instr.fcvtWS (.ofNat _ rd.toNat) (.ofNat _ rs1.toNat) (.ofNat _ rm.toNat) = Instr.fcvtWS rd rs1 rm),
    rfl, allInRange_cons rfl (allInRange_cons rfl (allInRange_cons rfl allInRange_nil)), rfl, rfl⟩
theorem fcvtSW (rd rs1 : Reg) (rm : Rm) : Statement (.fcvtSW rd rs1 rm) :=
  ⟨congrArg some (by simp only [ofNat_toNat] : Instr.fcvtSW (.ofNat _ rd.toNat) (.ofNat _ rs1.toNat) (.ofNat _ rm.toNat) = Instr.fcvtSW rd rs1 rm),
    rfl, allInRange_cons rfl (allInRange_cons rfl (allInRange_cons rfl allInRange_nil)), rfl, rfl⟩
theorem fcvtWuS (rd rs1 : Reg) (rm : Rm) : Statement (.fcvtWuS rd rs1 rm) :=
  ⟨congrArg some (by simp only [ofNat_toNat] : Instr.fcvtWuS (.ofNat _ rd.toNat) (.ofNat _ rs1.toNat) (.ofNat _ rm.toNat) = Instr.fcvtWuS rd rs1 rm),
    rfl, allInRange_cons rfl (allInRange_cons rfl (allInRange_cons rfl allInRange_nil)), rfl, rfl⟩
theorem fcvtSWu (rd rs1 : Reg) (rm : Rm) : Statement (.fcvtSWu rd rs1 rm) :=
  ⟨congrArg some (by simp only [ofNat_toNat] : Instr.fcvtSWu (.ofNat _ rd.toNat) (.ofNat _ rs1.toNat) (.ofNat _ rm.toNat) = Instr.fcvtSWu rd rs1 rm),
    rfl, allInRange_cons rfl (allInRange_cons rfl (allInRange_cons rfl allInRange_nil)), rfl, rfl⟩
theorem fcvtLS (rd rs1 : Reg) (rm : Rm) : Statement (.fcvtLS rd rs1 rm) :=
  ⟨congrArg some (by simp only [ofNat_toNat] : Instr.fcvtLS (.ofNat _ rd.toNat) (.ofNat _ rs1.toNat) (.ofNat _ rm.toNat) = Instr.fcvtLS rd rs1 rm),
    rfl, allInRange_cons rfl (allInRange_cons rfl (allInRange_cons rfl allInRange_nil)), rfl, rfl⟩
theorem fcvtSL (rd rs1 : Reg) (rm : Rm) : Statement (.fcvtSL rd rs1 rm) :=
  ⟨congrArg some (by simp only [ofNat_toNat] : Instr.fcvtSL (.ofNat _ rd.toNat) (.ofNat _ rs1.toNat) (.ofNat _ rm.toNat) = Instr.fcvtSL rd rs1 rm),
    rfl, allInRange_cons rfl (allInRange_cons rfl (allInRange_cons rfl allInRange_nil)), rfl, rfl⟩
theorem fcvtLuS (rd rs1 : Reg) (rm : Rm) : Statement (.fcvtLuS rd rs1 rm) :=
  ⟨congrArg some (by simp only [ofNat_toNat] : Instr.fcvtLuS (.ofNat _ rd.toNat) (.ofNat _ rs1.toNat) (.ofNat _ rm.toNat) = Instr.fcvtLuS rd rs1 rm),
    rfl, allInRange_cons rfl (allInRange_cons rfl (allInRange_cons rfl allInRange_nil)), rfl, rfl⟩
theorem fcvtSLu (rd rs1 : Reg) (rm : Rm) : Statement (.fcvtSLu rd rs1 rm) :=
  ⟨congrArg some (by simp only [ofNat_toNat] : Instr.fcvtSLu (.ofNat _ rd.toNat) (.ofNat _ rs1.toNat) (.ofNat _ rm.toNat) = Instr.fcvtSLu rd rs1 rm),
    rfl, allInRange_cons rfl (allInRange_cons rfl (allInRange_cons rfl allInRange_nil)), rfl, rfl⟩
theorem fmvXW (rd rs1 : Reg) : Statement (.fmvXW rd rs1) :=
  ⟨congrArg some (by simp only [ofNat_toNat] : Instr.fmvXW (.ofNat _ rd.toNat) (.ofNat _ rs1.toNat) = Instr.fmvXW rd rs1),
    rfl, allInRange_cons rfl (allInRange_cons rfl allInRange_nil), rfl, rfl⟩
theorem fmvWX (rd rs1 : Reg) : Statement (.fmvWX rd rs1) :=
  ⟨congrArg some (by simp only [ofNat_toNat] : Instr.fmvWX (.ofNat _ rd.toNat) (.ofNat _ rs1.toNat) = Instr.fmvWX rd rs1),
    rfl, allInRange_cons rfl (allInRange_cons rfl allInRange_nil), rfl, rfl⟩
theorem fld (rd rs1 : Reg) (imm : Imm12) : Statement (.fld rd rs1 imm) :=
  ⟨congrArg some (by simp only [ofNat_toNat] : Instr.fld (.ofNat _ rd.toNat) (.ofNat _ rs1.toNat) (.ofNat _ imm.toNat) = Instr.fld rd rs1 imm),
    rfl, allInRange_cons rfl (allInRange_cons rfl (allInRange_cons rfl allInRange_nil)), rfl, rfl⟩
theorem fsd (rs1 rs2 : Reg) (imm : Imm12) : Statement (.fsd rs1 rs2 imm) :=
  ⟨congrArg some (by simp only [ofNat_toNat] : Instr.fsd (.ofNat _ rs1.toNat) (.ofNat _ rs2.toNat) (.ofNat _ imm.toNat) = Instr.fsd rs1 rs2 imm),
    rfl, allInRange_cons rfl (allInRange_cons rfl (allInRange_cons rfl allInRange_nil)), rfl, rfl⟩
theorem fmaddD (rd rs1 rs2 rs3 : Reg) (rm : Rm) : Statement (.fmaddD rd rs1 rs2 rs3 rm) :=
  ⟨congrArg some (by simp only [ofNat_toNat] : Instr.fmaddD (.ofNat _ rd.toNat) (.ofNat _ rs1.toNat) (.ofNat _ rs2.toNat) (.ofNat _ rs3.toNat) (.ofNat _ rm.toNat) = Instr.fmaddD rd rs1 rs2 rs3 rm),
    rfl, allInRange_cons rfl (allInRange_cons rfl (allInRange_cons rfl (allInRange_cons rfl (allInRange_cons rfl allInRange_nil)))), rfl, rfl⟩
theorem fmsubD (rd rs1 rs2 rs3 : Reg) (rm : Rm) : Statement (.fmsubD rd rs1 rs2 rs3 rm) :=
  ⟨congrArg some (by simp only [ofNat_toNat] : Instr.fmsubD (.ofNat _ rd.toNat) (.ofNat _ rs1.toNat) (.ofNat _ rs2.toNat) (.ofNat _ rs3.toNat) (.ofNat _ rm.toNat) = Instr.fmsubD rd rs1 rs2 rs3 rm),
    rfl, allInRange_cons rfl (allInRange_cons rfl (allInRange_cons rfl (allInRange_cons rfl (allInRange_cons rfl allInRange_nil)))), rfl, rfl⟩
theorem fnmsubD (rd rs1 rs2 rs3 : Reg) (rm : Rm) : Statement (.fnmsubD rd rs1 rs2 rs3 rm) :=
  ⟨congrArg some (by simp only [ofNat_toNat] : Instr.fnmsubD (.ofNat _ rd.toNat) (.ofNat _ rs1.toNat) (.ofNat _ rs2.toNat) (.ofNat _ rs3.toNat) (.ofNat _ rm.toNat) = Instr.fnmsubD rd rs1 rs2 rs3 rm),
    rfl, allInRange_cons rfl (allInRange_cons rfl (allInRange_cons rfl (allInRange_cons rfl (allInRange_cons rfl allInRange_nil)))), rfl, rfl⟩
theorem fnmaddD (rd rs1 rs2 rs3 : Reg) (rm : Rm) : Statement (.fnmaddD rd rs1 rs2 rs3 rm) :=
  ⟨congrArg some (by simp only [ofNat_toNat] : Instr.fnmaddD (.ofNat _ rd.toNat) (.ofNat _ rs1.toNat) (.ofNat _ rs2.toNat) (.ofNat _ rs3.toNat) (.ofNat _ rm.toNat) = Instr.fnmaddD rd rs1 rs2 rs3 rm),
    rfl, allInRange_cons rfl (allInRange_cons rfl (allInRange_cons rfl (allInRange_cons rfl (allInRange_cons rfl allInRange_nil)))), rfl, rfl⟩
theorem faddD (rd rs1 rs2 : Reg) (rm : Rm) : Statement (.faddD rd rs1 rs2 rm) :=
  ⟨congrArg some (by simp only [ofNat_toNat] : Instr.faddD (.ofNat _ rd.toNat) (.ofNat _ rs1.toNat) (.ofNat _ rs2.toNat) (.ofNat _ rm.toNat) = Instr.faddD rd rs1 rs2 rm),
    rfl, allInRange_cons rfl (allInRange_cons rfl (allInRange_cons rfl (allInRange_cons rfl allInRange_nil))), rfl, rfl⟩
theorem fsubD (rd rs1 rs2 : Reg) (rm : Rm) : Statement (.fsubD rd rs1 rs2 rm) :=
  ⟨congrArg some (by simp only [ofNat_toNat] : Instr.fsubD (.ofNat _ rd.toNat) (.ofNat _ rs1.toNat) (.ofNat _ rs2.toNat) (.ofNat _ rm.toNat) = Instr.fsubD rd rs1 rs2 rm),
    rfl, allInRange_cons rfl (allInRange_cons rfl (allInRange_cons rfl (allInRange_cons rfl allInRange_nil))), rfl, rfl⟩
theorem fmulD (rd rs1 rs2 : Reg) (rm : Rm) : Statement (.fmulD rd rs1 rs2 rm) :=
  ⟨congrArg some (by simp only [ofNat_toNat] : Instr.fmulD (.ofNat _ rd.toNat) (.ofNat _ rs1.toNat) (.ofNat _ rs2.toNat) (.ofNat _ rm.toNat) = Instr.fmulD rd rs1 rs2 rm),
    rfl, allInRange_cons rfl (allInRange_cons rfl (allInRange_cons rfl (allInRange_cons rfl allInRange_nil))), rfl, rfl⟩
theorem fdivD (rd rs1 rs2 : Reg) (rm : Rm) : Statement (.fdivD rd rs1 rs2 rm) :=
  ⟨congrArg some (by simp only [ofNat_toNat] : Instr.fdivD (.ofNat _ rd.toNat) (.ofNat _ rs1.toNat) (.ofNat _ rs2.toNat) (.ofNat _ rm.toNat) = Instr.fdivD rd rs1 rs2 rm),
    rfl, allInRange_cons rfl (allInRange_cons rfl (allInRange_cons rfl (allInRange_cons rfl allInRange_nil))), rfl, rfl⟩
theorem fsqrtD (rd rs1 : Reg) (rm : Rm) : Statement (.fsqrtD rd rs1 rm) :=
  ⟨congrArg some (by simp only [ofNat_toNat] : Instr.fsqrtD (.ofNat _ rd.toNat) (.ofNat _ rs1.toNat) (.ofNat _ rm.toNat) = Instr.fsqrtD rd rs1 rm),
    rfl, allInRange_cons rfl (allInRange_cons rfl (allInRange_cons rfl allInRange_nil)), rfl, rfl⟩
theorem fsgnjD (rd rs1 rs2 : Reg) : Statement (.fsgnjD rd rs1 rs2) :=
  ⟨congrArg some (by simp only [ofNat_toNat] : Instr.fsgnjD (.ofNat _ rd.toNat) (.ofNat _ rs1.toNat) (.ofNat _ rs2.toNat) = Instr.fsgnjD rd rs1 rs2),
    rfl, allInRange_cons rfl (allInRange_cons rfl (allInRange_cons rfl allInRange_nil)), rfl, rfl⟩
theorem fsgnjnD (rd rs1 rs2 : Reg) : Statement (.fsgnjnD rd rs1 rs2) :=
  ⟨congrArg some (by simp only [ofNat_toNat] : Instr.fsgnjnD (.ofNat _ rd.toNat) (.ofNat _ rs1.toNat) (.ofNat _ rs2.toNat) = Instr.fsgnjnD rd rs1 rs2),
    rfl, allInRange_cons rfl (allInRange_cons rfl (allInRange_cons rfl allInRange_nil)), rfl, rfl⟩
theorem fsgnjxD (rd rs1 rs2 : Reg) : Statement (.fsgnjxD rd rs1 rs2) :=
  ⟨congrArg some (by simp only [ofNat_toNat] : Instr.fsgnjxD (.ofNat _ rd.toNat) (.ofNat _ rs1.toNat) (.ofNat _ rs2.toNat) = Instr.fsgnjxD rd rs1 rs2),
    rfl, allInRange_cons rfl (allInRange_cons rfl (allInRange_cons rfl allInRange_nil)), rfl, rfl⟩
theorem fminD (rd rs1 rs2 : Reg) : Statement (.fminD rd rs1 rs2) :=
  ⟨congrArg some (by simp only [ofNat_toNat] : Instr.fminD (.ofNat _ rd.toNat) (.ofNat _ rs1.toNat) (.ofNat _ rs2.toNat) = Instr.fminD rd rs1 rs2),
    rfl, allInRange_cons rfl (allInRange_cons rfl (allInRange_cons rfl allInRange_nil)), rfl, rfl⟩
theorem fmaxD (rd rs1 rs2 : Reg) : Statement (.fmaxD rd rs1 rs2) :=
  ⟨congrArg some (by simp only [ofNat_toNat] : Instr.fmaxD (.ofNat _ rd.toNat) (.ofNat _ rs1.toNat) (.ofNat _ rs2.toNat) = Instr.fmaxD rd rs1 rs2),
    rfl, allInRange_cons rfl (allInRange_cons rfl (allInRange_cons rfl allInRange_nil)), rfl, rfl⟩
theorem feqD (rd rs1 rs2 : Reg) : Statement (.feqD rd rs1 rs2) :=
  ⟨congrArg some (by simp only [ofNat_toNat] : Instr.feqD (.ofNat _ rd.toNat) (.ofNat _ rs1.toNat) (.ofNat _ rs2.toNat) = Instr.feqD rd rs1 rs2),
    rfl, allInRange_cons rfl (allInRange_cons rfl (allInRange_cons rfl allInRange_nil)), rfl, rfl⟩
theorem fltD (rd rs1 rs2 : Reg) : Statement (.fltD rd rs1 rs2) :=
  ⟨congrArg some (by simp only [ofNat_toNat] : Instr.fltD (.ofNat _ rd.toNat) (.ofNat _ rs1.toNat) (.ofNat _ rs2.toNat) = Instr.fltD rd rs1 rs2),
    rfl, allInRange_cons rfl (allInRange_cons rfl (allInRange_cons rfl allInRange_nil)), rfl, rfl⟩
theorem fleD (rd rs1 rs2 : Reg) : Statement (.fleD rd rs1 rs2) :=
  ⟨congrArg some (by simp only [ofNat_toNat] : Instr.fleD (.ofNat _ rd.toNat) (.ofNat _ rs1.toNat) (.ofNat _ rs2.toNat) = Instr.fleD rd rs1 rs2),
    rfl, allInRange_cons rfl (allInRange_cons rfl (allInRange_cons rfl allInRange_nil)), rfl, rfl⟩
theorem fclassD (rd rs1 : Reg) : Statement (.fclassD rd rs1) :=
  ⟨congrArg some (by simp only [ofNat_toNat] : Instr.fclassD (.ofNat _ rd.toNat) (.ofNat _ rs1.toNat) = Instr.fclassD rd rs1),
    rfl, allInRange_cons rfl (allInRange_cons rfl allInRange_nil), rfl, rfl⟩
theorem fcvtWD (rd rs1 : Reg) (rm : Rm) : Statement (.fcvtWD rd rs1 rm) :=
  ⟨congrArg some (by simp only [ofNat_toNat] : Instr.fcvtWD (.ofNat _ rd.toNat) (.ofNat _ rs1.toNat) (.ofNat _ rm.toNat) = Instr.fcvtWD rd rs1 rm),
    rfl, allInRange_cons rfl (allInRange_cons rfl (allInRange_cons rfl allInRange_nil)), rfl, rfl⟩
theorem fcvtDW (rd rs1 : Reg) (rm : Rm) : Statement (.fcvtDW rd rs1 rm) :=
  ⟨congrArg some (by simp only [ofNat_toNat] : Instr.fcvtDW (.ofNat _ rd.toNat) (.ofNat _ rs1.toNat) (.ofNat _ rm.toNat) = Instr.fcvtDW rd rs1 rm),
    rfl, allInRange_cons rfl (allInRange_cons rfl (allInRange_cons rfl allInRange_nil)), rfl, rfl⟩
theorem fcvtWuD (rd rs1 : Reg) (rm : Rm) : Statement (.fcvtWuD rd rs1 rm) :=
  ⟨congrArg some (by simp only [ofNat_toNat] : Instr.fcvtWuD (.ofNat _ rd.toNat) (.ofNat _ rs1.toNat) (.ofNat _ rm.toNat) = Instr.fcvtWuD rd rs1 rm),
    rfl, allInRange_cons rfl (allInRange_cons rfl (allInRange_cons rfl allInRange_nil)), rfl, rfl⟩
theorem fcvtDWu (rd rs1 : Reg) (rm : Rm) : Statement (.fcvtDWu rd rs1 rm) :=
  ⟨congrArg some (by simp only [ofNat_toNat] : Instr.fcvtDWu (.ofNat _ rd.toNat) (.ofNat _ rs1.toNat) (.ofNat _ rm.toNat) = Instr.fcvtDWu rd rs1 rm),
    rfl, allInRange_cons rfl (allInRange_cons rfl (allInRange_cons rfl allInRange_nil)), rfl, rfl⟩
theorem fcvtLD (rd rs1 : Reg) (rm : Rm) : Statement (.fcvtLD rd rs1 rm) :=
  ⟨congrArg some (by simp only [ofNat_toNat] : Instr.fcvtLD (.ofNat _ rd.toNat) (.ofNat _ rs1.toNat) (.ofNat _ rm.toNat) = Instr.fcvtLD rd rs1 rm),
    rfl, allInRange_cons rfl (allInRange_cons rfl (allInRange_cons rfl allInRange_nil)), rfl, rfl⟩
theorem fcvtDL (rd rs1 : Reg) (rm : Rm) : Statement (.fcvtDL rd rs1 rm) :=
  ⟨congrArg some (by simp only [ofNat_toNat] : Instr.fcvtDL (.ofNat _ rd.toNat) (.ofNat _ rs1.toNat) (.ofNat _ rm.toNat) = Instr.fcvtDL rd rs1 rm),
    rfl, allInRange_cons rfl (allInRange_cons rfl (allInRange_cons rfl allInRange_nil)), rfl, rfl⟩
theorem fcvtLuD (rd rs1 : Reg) (rm : Rm) : Statement (.fcvtLuD rd rs1 rm) :=
  ⟨congrArg some (by simp only [ofNat_toNat] : Instr.fcvtLuD (.ofNat _ rd.toNat) (.ofNat _ rs1.toNat) (.ofNat _ rm.toNat) = Instr.fcvtLuD rd rs1 rm),
    rfl, allInRange_cons rfl (allInRange_cons rfl (allInRange_cons rfl allInRange_nil)), rfl, rfl⟩
theorem fcvtDLu (rd rs1 : Reg) (rm : Rm) : Statement (.fcvtDLu rd rs1 rm) :=
  ⟨congrArg some (by simp only [ofNat_toNat] : Instr.fcvtDLu (.ofNat _ rd.toNat) (.ofNat _ rs1.toNat) (.ofNat _ rm.toNat) = Instr.fcvtDLu rd rs1 rm),
    rfl, allInRange_cons rfl (allInRange_cons rfl (allInRange_cons rfl allInRange_nil)), rfl, rfl⟩
theorem fcvtSD (rd rs1 : Reg) (rm : Rm) : Statement (.fcvtSD rd rs1 rm) :=
  ⟨congrArg some (by simp only [ofNat_toNat] : Instr.fcvtSD (.ofNat _ rd.toNat) (.ofNat _ rs1.toNat) (.ofNat _ rm.toNat) = Instr.fcvtSD rd rs1 rm),
    rfl, allInRange_cons rfl (allInRange_cons rfl (allInRange_cons rfl allInRange_nil)), rfl, rfl⟩
theorem fcvtDS (rd rs1 : Reg) (rm : Rm) : Statement (.fcvtDS rd rs1 rm) :=
  ⟨congrArg some (by simp only [ofNat_toNat] : Instr.fcvtDS (.ofNat _ rd.toNat) (.ofNat _ rs1.toNat) (.ofNat _ rm.toNat) = Instr.fcvtDS rd rs1 rm),
    rfl, allInRange_cons rfl (allInRange_cons rfl (allInRange_cons rfl allInRange_nil)), rfl, rfl⟩
theorem fmvXD (rd rs1 : Reg) : Statement (.fmvXD rd rs1) :=
  ⟨congrArg some (by simp only [ofNat_toNat] : Instr.fmvXD (.ofNat _ rd.toNat) (.ofNat _ rs1.toNat) = Instr.fmvXD rd rs1),
    rfl, allInRange_cons rfl (allInRange_cons rfl allInRange_nil), rfl, rfl⟩
theorem fmvDX (rd rs1 : Reg) : Statement (.fmvDX rd rs1) :=
  ⟨congrArg some (by simp only [ofNat_toNat] : Instr.fmvDX (.ofNat _ rd.toNat) (.ofNat _ rs1.toNat) = Instr.fmvDX rd rs1),
    rfl, allInRange_cons rfl (allInRange_cons rfl allInRange_nil), rfl, rfl⟩
theorem fence (rd rs1 : Reg) (fm pred succ : BitVec 4) : Statement (.fence rd rs1 fm pred succ) :=
  ⟨congrArg some (by simp only [ofNat_toNat] : Instr.fence (.ofNat _ rd.toNat) (.ofNat _ rs1.toNat) (.ofNat _ fm.toNat) (.ofNat _ pred.toNat) (.ofNat _ succ.toNat) = Instr.fence rd rs1 fm pred succ),
    rfl, allInRange_cons rfl (allInRange_cons rfl (allInRange_cons rfl (allInRange_cons rfl (allInRange_cons rfl allInRange_nil)))), rfl, rfl⟩
theorem fenceI (rd rs1 : Reg) (imm : Imm12) : Statement (.fenceI rd rs1 imm) :=
  ⟨congrArg some (by simp only [ofNat_toNat] : Instr.fenceI (.ofNat _ rd.toNat) (.ofNat _ rs1.toNat) (.ofNat _ imm.toNat) = Instr.fenceI rd rs1 imm),
    rfl, allInRange_cons rfl (allInRange_cons rfl (allInRange_cons rfl allInRange_nil)), rfl, rfl⟩
theorem ecall : Statement (.ecall) :=
  ⟨rfl,
    rfl, allInRange_nil, rfl, rfl⟩
theorem ebreak : Statement (.ebreak) :=
  ⟨rfl,
    rfl, allInRange_nil, rfl, rfl⟩
theorem uret : Statement (.uret) :=
  ⟨rfl,
    rfl, allInRange_nil, rfl, rfl⟩
theorem wfi : Statement (.wfi) :=
  ⟨rfl,
    rfl, allInRange_nil, rfl, rfl⟩
theorem csrrw (rd : Reg) (csr : CsrAddr) (rs1 : Reg) : Statement (.csrrw rd csr rs1) :=
  ⟨congrArg some (by simp only [ofNat_toNat] : Instr.csrrw (.ofNat _ rd.toNat) (.ofNat _ csr.toNat) (.ofNat _ rs1.toNat) = Instr.csrrw rd csr rs1),
    rfl, allInRange_cons rfl (allInRange_cons rfl (allInRange_cons rfl allInRange_nil)), rfl, rfl⟩
theorem csrrs (rd : Reg) (csr : CsrAddr) (rs1 : Reg) : Statement (.csrrs rd csr rs1) :=
  ⟨congrArg some (by simp only [ofNat_toNat] : Instr.csrrs (.ofNat _ rd.toNat) (.ofNat _ csr.toNat) (.ofNat _ rs1.toNat) = Instr.csrrs rd csr rs1),
    rfl, allInRange_cons rfl (allInRange_cons rfl (allInRange_cons rfl allInRange_nil)), rfl, rfl⟩
theorem csrrc (rd : Reg) (csr : CsrAddr) (rs1 : Reg) : Statement (.csrrc rd csr rs1) :=
  ⟨congrArg some (by simp only [ofNat_toNat] : Instr.csrrc (.ofNat _ rd.toNat) (.ofNat _ csr.toNat) (.ofNat _ rs1.toNat) = Instr.csrrc rd csr rs1),
    rfl, allInRange_cons rfl (allInRange_cons rfl (allInRange_cons rfl allInRange_nil)), rfl, rfl⟩
theorem csrrwi (rd : Reg) (csr : CsrAddr) (zimm : Zimm) : Statement (.csrrwi rd csr zimm) :=
  ⟨congrArg some (by simp only [ofNat_toNat] : Instr.csrrwi (.ofNat _ rd.toNat) (.ofNat _ csr.toNat) (.ofNat _ zimm.toNat) = Instr.csrrwi rd csr zimm),
    rfl, allInRange_cons rfl (allInRange_cons rfl (allInRange_cons rfl allInRange_nil)), rfl, rfl⟩
theorem csrrsi (rd : Reg) (csr : CsrAddr) (zimm : Zimm) : Statement (.csrrsi rd csr zimm) :=
  ⟨congrArg some (by simp only [ofNat_toNat] : Instr.csrrsi (.ofNat _ rd.toNat) (.ofNat _ csr.toNat) (.ofNat _ zimm.toNat) = Instr.csrrsi rd csr zimm),
    rfl, allInRange_cons rfl (allInRange_cons rfl (allInRange_cons rfl allInRange_nil)), rfl, rfl⟩
theorem csrrci (rd : Reg) (csr : CsrAddr) (zimm : Zimm) : Statement (.csrrci rd csr zimm) :=
  ⟨congrArg some (by simp only [ofNat_toNat] : Instr.csrrci (.ofNat _ rd.toNat) (.ofNat _ csr.toNat) (.ofNat _ zimm.toNat) = Instr.csrrci rd csr zimm),
    rfl, allInRange_cons rfl (allInRange_cons rfl (allInRange_cons rfl allInRange_nil)), rfl, rfl⟩

end Sys2Proof.Laws.Encoding
end

