-- ==== Sys2Proof/Laws/Statement.lean ====
section
/-! SUPPORT. The statement an instruction's outcome carries (42_dispatch.md R157): over the reference catalog the one
that `exec` gives is the one a step decodes. -/

namespace Sys2Proof.Machine

variable {s : State} {i : Instr}

theorem checked_carrying {kind : AccessKind} {a : DWord} {n : Nat} {r : Result}
    (h : carrying (s.statement i) r = r) :
    carrying (s.statement i) (s.checked i kind a n r) = s.checked i kind a n r := by
  unfold State.checked
  split
  · exact h
  · rfl

theorem withRounding_carrying {p : Rm} {k : RoundingMode → Result} (h : ∀ m, carrying (s.statement i) (k m) = k m) :
    carrying (s.statement i) (s.withRounding i p k) = s.withRounding i p k := by
  unfold State.withRounding
  split
  · exact h _
  · rfl

theorem csrAccess_carrying {st : Statement} {c : CsrAddr} {rd : Reg} {writes : Bool} {new : DWord → DWord} :
    carrying st (csrAccess c rd writes new s) = csrAccess c rd writes new s := by
  unfold csrAccess
  split <;> rfl

theorem storeConditional_carrying {n : Nat} {rd rs1 rs2 : Reg} :
    carrying (s.statement i) (storeConditional n i rd rs1 rs2 s) = storeConditional n i rd rs1 rs2 s := by
  unfold storeConditional
  simp only
  split
  · exact checked_carrying rfl
  · rfl

/-- An outcome of `exec i` carries the statement of `i`, where it carries one. -/
theorem exec_carrying : carrying (s.statement i) (exec i s) = exec i s := by
  cases i with
  | add _ _ _ => rfl
  | sub _ _ _ => rfl
  | sll _ _ _ => rfl
  | slt _ _ _ => rfl
  | sltu _ _ _ => rfl
  | xor _ _ _ => rfl
  | srl _ _ _ => rfl
  | sra _ _ _ => rfl
  | or _ _ _ => rfl
  | and _ _ _ => rfl
  | mul _ _ _ => rfl
  | mulh _ _ _ => rfl
  | mulhsu _ _ _ => rfl
  | mulhu _ _ _ => rfl
  | div _ _ _ => rfl
  | divu _ _ _ => rfl
  | rem _ _ _ => rfl
  | remu _ _ _ => rfl
  | addw _ _ _ => rfl
  | subw _ _ _ => rfl
  | sllw _ _ _ => rfl
  | srlw _ _ _ => rfl
  | sraw _ _ _ => rfl
  | mulw _ _ _ => rfl
  | divw _ _ _ => rfl
  | divuw _ _ _ => rfl
  | remw _ _ _ => rfl
  | remuw _ _ _ => rfl
  | addi _ _ _ => rfl
  | slti _ _ _ => rfl
  | sltiu _ _ _ => rfl
  | xori _ _ _ => rfl
  | ori _ _ _ => rfl
  | andi _ _ _ => rfl
  | slli _ _ _ => rfl
  | srli _ _ _ => rfl
  | srai _ _ _ => rfl
  | slliHi _ _ _ => rfl
  | srliHi _ _ _ => rfl
  | sraiHi _ _ _ => rfl
  | addiw _ _ _ => rfl
  | slliw _ _ _ => rfl
  | srliw _ _ _ => rfl
  | sraiw _ _ _ => rfl
  | lui _ _ => rfl
  | auipc _ _ => rfl
  | lb _ _ _ => exact checked_carrying rfl
  | lh _ _ _ => exact checked_carrying rfl
  | lw _ _ _ => exact checked_carrying rfl
  | lbu _ _ _ => exact checked_carrying rfl
  | lhu _ _ _ => exact checked_carrying rfl
  | lwu _ _ _ => exact checked_carrying rfl
  | ld _ _ _ => exact checked_carrying rfl
  | sb _ _ _ => exact checked_carrying rfl
  | sh _ _ _ => exact checked_carrying rfl
  | sw _ _ _ => exact checked_carrying rfl
  | sd _ _ _ => exact checked_carrying rfl
  | beq _ _ _ => rfl
  | bne _ _ _ => rfl
  | blt _ _ _ => rfl
  | bge _ _ _ => rfl
  | bltu _ _ _ => rfl
  | bgeu _ _ _ => rfl
  | jal _ _ => rfl
  | jalr _ _ _ => rfl
  | lrW _ _ _ _ => exact checked_carrying rfl
  | scW _ _ _ _ _ => exact storeConditional_carrying
  | amoswapW _ _ _ _ _ => exact checked_carrying (checked_carrying rfl)
  | amoaddW _ _ _ _ _ => exact checked_carrying (checked_carrying rfl)
  | amoxorW _ _ _ _ _ => exact checked_carrying (checked_carrying rfl)
  | amoandW _ _ _ _ _ => exact checked_carrying (checked_carrying rfl)
  | amoorW _ _ _ _ _ => exact checked_carrying (checked_carrying rfl)
  | amominW _ _ _ _ _ => exact checked_carrying (checked_carrying rfl)
  | amomaxW _ _ _ _ _ => exact checked_carrying (checked_carrying rfl)
  | amominuW _ _ _ _ _ => exact checked_carrying (checked_carrying rfl)
  | amomaxuW _ _ _ _ _ => exact checked_carrying (checked_carrying rfl)
  | lrD _ _ _ _ => exact checked_carrying rfl
  | scD _ _ _ _ _ => exact storeConditional_carrying
  | amoswapD _ _ _ _ _ => exact checked_carrying (checked_carrying rfl)
  | amoaddD _ _ _ _ _ => exact checked_carrying (checked_carrying rfl)
  | amoxorD _ _ _ _ _ => exact checked_carrying (checked_carrying rfl)
  | amoandD _ _ _ _ _ => exact checked_carrying (checked_carrying rfl)
  | amoorD _ _ _ _ _ => exact checked_carrying (checked_carrying rfl)
  | amominD _ _ _ _ _ => exact checked_carrying (checked_carrying rfl)
  | amomaxD _ _ _ _ _ => exact checked_carrying (checked_carrying rfl)
  | amominuD _ _ _ _ _ => exact checked_carrying (checked_carrying rfl)
  | amomaxuD _ _ _ _ _ => exact checked_carrying (checked_carrying rfl)
  | flw _ _ _ => exact checked_carrying rfl
  | fsw _ _ _ => exact checked_carrying rfl
  | fmaddS _ _ _ _ _ => exact withRounding_carrying fun _ => rfl
  | fmsubS _ _ _ _ _ => exact withRounding_carrying fun _ => rfl
  | fnmsubS _ _ _ _ _ => exact withRounding_carrying fun _ => rfl
  | fnmaddS _ _ _ _ _ => exact withRounding_carrying fun _ => rfl
  | faddS _ _ _ _ => exact withRounding_carrying fun _ => rfl
  | fsubS _ _ _ _ => exact withRounding_carrying fun _ => rfl
  | fmulS _ _ _ _ => exact withRounding_carrying fun _ => rfl
  | fdivS _ _ _ _ => exact withRounding_carrying fun _ => rfl
  | fsqrtS _ _ _ => exact withRounding_carrying fun _ => rfl
  | fsgnjS _ _ _ => rfl
  | fsgnjnS _ _ _ => rfl
  | fsgnjxS _ _ _ => rfl
  | fminS _ _ _ => rfl
  | fmaxS _ _ _ => rfl
  | feqS _ _ _ => rfl
  | fltS _ _ _ => rfl
  | fleS _ _ _ => rfl
  | fclassS _ _ => rfl
  | fcvtWS _ _ _ => exact withRounding_carrying fun _ => rfl
  | fcvtSW _ _ _ => exact withRounding_carrying fun _ => rfl
  | fcvtWuS _ _ _ => exact withRounding_carrying fun _ => rfl
  | fcvtSWu _ _ _ => exact withRounding_carrying fun _ => rfl
  | fcvtLS _ _ _ => exact withRounding_carrying fun _ => rfl
  | fcvtSL _ _ _ => exact withRounding_carrying fun _ => rfl
  | fcvtLuS _ _ _ => exact withRounding_carrying fun _ => rfl
  | fcvtSLu _ _ _ => exact withRounding_carrying fun _ => rfl
  | fmvXW _ _ => rfl
  | fmvWX _ _ => rfl
  | fld _ _ _ => exact checked_carrying rfl
  | fsd _ _ _ => exact checked_carrying rfl
  | fmaddD _ _ _ _ _ => exact withRounding_carrying fun _ => rfl
  | fmsubD _ _ _ _ _ => exact withRounding_carrying fun _ => rfl
  | fnmsubD _ _ _ _ _ => exact withRounding_carrying fun _ => rfl
  | fnmaddD _ _ _ _ _ => exact withRounding_carrying fun _ => rfl
  | faddD _ _ _ _ => exact withRounding_carrying fun _ => rfl
  | fsubD _ _ _ _ => exact withRounding_carrying fun _ => rfl
  | fmulD _ _ _ _ => exact withRounding_carrying fun _ => rfl
  | fdivD _ _ _ _ => exact withRounding_carrying fun _ => rfl
  | fsqrtD _ _ _ => exact withRounding_carrying fun _ => rfl
  | fsgnjD _ _ _ => rfl
  | fsgnjnD _ _ _ => rfl
  | fsgnjxD _ _ _ => rfl
  | fminD _ _ _ => rfl
  | fmaxD _ _ _ => rfl
  | feqD _ _ _ => rfl
  | fltD _ _ _ => rfl
  | fleD _ _ _ => rfl
  | fclassD _ _ => rfl
  | fcvtWD _ _ _ => exact withRounding_carrying fun _ => rfl
  | fcvtDW _ _ _ => exact withRounding_carrying fun _ => rfl
  | fcvtWuD _ _ _ => exact withRounding_carrying fun _ => rfl
  | fcvtDWu _ _ _ => exact withRounding_carrying fun _ => rfl
  | fcvtLD _ _ _ => exact withRounding_carrying fun _ => rfl
  | fcvtDL _ _ _ => exact withRounding_carrying fun _ => rfl
  | fcvtLuD _ _ _ => exact withRounding_carrying fun _ => rfl
  | fcvtDLu _ _ _ => exact withRounding_carrying fun _ => rfl
  | fcvtSD _ _ _ => exact withRounding_carrying fun _ => rfl
  | fcvtDS _ _ _ => exact withRounding_carrying fun _ => rfl
  | fmvXD _ _ => rfl
  | fmvDX _ _ => rfl
  | fence _ _ _ _ _ => rfl
  | fenceI _ _ _ => rfl
  | ecall => rfl
  | ebreak => rfl
  | uret => rfl
  | wfi => rfl
  | csrrw _ _ _ => exact csrAccess_carrying
  | csrrs _ _ _ => exact csrAccess_carrying
  | csrrc _ _ _ => exact csrAccess_carrying
  | csrrwi _ _ _ => exact csrAccess_carrying
  | csrrsi _ _ _ => exact csrAccess_carrying
  | csrrci _ _ _ => exact csrAccess_carrying

end Sys2Proof.Machine
end

