-- ==== Sys2Proof/Laws/Step.lean ====
section
/-! SUPPORT. What one step can be: the host's move, then a fetch, a decode and the meaning of the decoded instruction
(42_dispatch.md R162, 60_exceptions.md R474, R481). -/

namespace Sys2Proof.Machine

variable {s t : State}

/-! ### Choosing a hart -/

/-- Taking a hart out of the list and putting another in keeps the harts but for the exchange. -/
theorem swapHart_some {h : HartId} {other p : Hart} {ps qs : List Hart} (e : swapHart h other ps = some (p, qs)) :
    p.id = h ∧ (p :: qs).Perm (other :: ps) := by
  induction ps generalizing qs with
  | nil => simp [swapHart] at e
  | cons q rest ih =>
    simp only [swapHart] at e
    split at e
    · rename_i hq
      obtain ⟨rfl, rfl⟩ := Prod.mk.inj (Option.some.inj e)
      exact ⟨hq, List.Perm.swap _ _ _⟩
    · cases hr : swapHart h other rest with
      | none => simp [hr] at e
      | some r =>
        obtain ⟨p', rest'⟩ := r
        simp only [hr, Option.map_some, Option.some.injEq, Prod.mk.injEq] at e
        obtain ⟨rfl, rfl⟩ := e
        obtain ⟨hid, hp⟩ := ih hr
        exact ⟨hid, ((List.Perm.swap _ _ _).trans (hp.cons q)).trans (List.Perm.swap _ _ _)⟩

theorem swapHart_none {h : HartId} {other : Hart} {ps : List Hart} :
    swapHart h other ps = none ↔ ∀ p ∈ ps, p.id ≠ h := by
  induction ps with
  | nil => simp [swapHart]
  | cons q rest ih =>
    simp only [swapHart, List.mem_cons, forall_eq_or_imp]
    by_cases hq : q.id = h
    · simp [hq]
    · simp [hq, ih]

/-- The host's choice of a hart moves harts between running and parked and changes nothing else. -/
theorem State.select_some {h : HartId} (e : s.select h = some t) :
    t.running.id = h ∧ (t.running :: t.parked).Perm (s.running :: s.parked) ∧ t.mem = s.mem ∧ t.m64 = s.m64 ∧
      t.catalog = s.catalog ∧ t.regions = s.regions ∧ t.moves = s.moves := by
  unfold State.select at e
  split at e
  · rename_i hid
    cases Option.some.inj e
    exact ⟨hid, List.Perm.refl _, rfl, rfl, rfl, rfl, rfl⟩
  · cases hr : swapHart h s.running s.parked with
    | none => simp [hr] at e
    | some r =>
      rw [hr] at e
      cases Option.some.inj e
      obtain ⟨hid, hp⟩ := swapHart_some hr
      exact ⟨hid, hp, rfl, rfl, rfl, rfl, rfl⟩

/-! ### One instruction -/

/-- A decoded instruction comes from a selected descriptor, whose index and operands make the statement. -/
theorem Catalog.decodeInstr_ok {c : Catalog} {m64 : Bool} {w : Word} {i : Instr} (hd : c.decodeInstr m64 w = .ok i) :
    ∃ n d h, c.selectFrom m64 w 0 = some (n, d) ∧ d.handler = .spec h ∧ i = h.instr (d.op (d.extract w)) ∧
      c.decode w m64 = some { descriptor := n, operands := d.extract w } := by
  unfold Catalog.decodeInstr at hd
  unfold Catalog.decode
  cases hs : c.selectFrom m64 w 0 with
  | none => rw [hs] at hd; cases hd
  | some nd =>
    obtain ⟨n, d⟩ := nd
    rw [hs] at hd
    simp only at hd
    split at hd
    · rename_i h hh
      cases hd
      exact ⟨n, d, h, rfl, hh, rfl, rfl⟩
    · cases hd

/-- The same for a custom handler. -/
theorem Catalog.decodeInstr_custom {c : Catalog} {m64 : Bool} {w : Word} {k : Nat}
    (hd : c.decodeInstr m64 w = .error (.customHandler k)) :
    ∃ n d, c.selectFrom m64 w 0 = some (n, d) ∧ d.handler = .custom k ∧
      c.decode w m64 = some { descriptor := n, operands := d.extract w } := by
  unfold Catalog.decodeInstr at hd
  unfold Catalog.decode
  cases hs : c.selectFrom m64 w 0 with
  | none => rw [hs] at hd; cases hd
  | some nd =>
    obtain ⟨n, d⟩ := nd
    rw [hs] at hd
    simp only at hd
    split at hd
    · cases hd
    · rename_i hh
      cases hd
      exact ⟨n, d, rfl, hh, rfl⟩

/-- Fetch, decode, execute (R162): the outcome of the meaning, with the statement that was decoded (R157). -/
theorem State.runOne_of_decode {w : Word} {i : Instr} {n : Nat} {ops : List Nat} (hf : s.fetch = .ok w)
    (hs : s.catalog.decode w s.m64 = some { descriptor := n, operands := ops })
    (hd : s.catalog.decodeInstr s.m64 w = .ok i) :
    s.runOne = carrying { descriptor := n, operands := ops, hart := s.running.id } (exec i s) := by
  obtain ⟨n', d, h, h1, h2, rfl, h3⟩ := Catalog.decodeInstr_ok hd
  rw [h3] at hs
  cases hs
  unfold State.runOne
  rw [hf]
  simp only
  rw [h1]
  simp only [State.simulate]
  rw [h2]

/-- The same where the descriptor names a custom handler. -/
theorem State.runOne_of_custom {w : Word} {k n : Nat} {ops : List Nat} (hf : s.fetch = .ok w)
    (hs : s.catalog.decode w s.m64 = some { descriptor := n, operands := ops })
    (hd : s.catalog.decodeInstr s.m64 w = .error (.customHandler k)) :
    s.runOne = s.runCustom k { descriptor := n, operands := ops, hart := s.running.id } := by
  obtain ⟨n', d, h1, h2, h3⟩ := Catalog.decodeInstr_custom hd
  rw [h3] at hs
  cases hs
  unfold State.runOne
  rw [hf]
  simp only
  rw [h1]
  simp only [State.simulate]
  rw [h2]

/-- A next state comes from a decoded instruction or from a custom handler. -/
theorem State.runOne_next (h : s.runOne = .next t) :
    ∃ w, s.fetch = .ok w ∧ ((∃ i, s.catalog.decodeInstr s.m64 w = .ok i ∧ exec i s = .next t) ∨
      ∃ k st, s.catalog.decodeInstr s.m64 w = .error (.customHandler k) ∧ s.runCustom k st = .next t) := by
  unfold State.runOne at h
  cases hf : s.fetch with
  | error e => rw [hf] at h; cases h
  | ok w =>
    rw [hf] at h
    simp only at h
    cases hs : s.catalog.selectFrom s.m64 w 0 with
    | none => rw [hs] at h; cases h
    | some nd =>
      obtain ⟨n, d⟩ := nd
      rw [hs] at h
      simp only [State.simulate] at h
      refine ⟨w, rfl, ?_⟩
      cases hh : d.handler with
      | spec g =>
        rw [hh] at h
        refine Or.inl ⟨g.instr (d.op (d.extract w)), ?_, carrying_next.1 h⟩
        unfold Catalog.decodeInstr
        rw [hs]
        simp only [hh]
      | custom k =>
        rw [hh] at h
        refine Or.inr ⟨k, _, ?_, h⟩
        unfold Catalog.decodeInstr
        rw [hs]
        simp only [hh]

/-! ### One step -/

/-- A next state of a step is the next state of one instruction or custom handler, run by the hart the host's move
selects with no signal pending, or it is the answer to a signal. -/
theorem step_next (h : step s = .next t) :
    (∃ u, s.takeTurn = .run u ∧ ((∃ i, exec i u = .next t) ∨ ∃ k st, u.runCustom k st = .next t)) ∨
      s.takeTurn = .done (.next t) := by
  unfold step at h
  cases ht : s.takeTurn with
  | run u => 
    rw [ht] at h
    obtain ⟨w, -, ⟨i, -, hi⟩ | ⟨k, st, -, hk⟩⟩ := State.runOne_next h
    · exact Or.inl ⟨u, rfl, Or.inl ⟨i, hi⟩⟩
    · exact Or.inl ⟨u, rfl, Or.inr ⟨k, st, hk⟩⟩
  | done r => rw [ht] at h; exact Or.inr (congrArg Turn.done h)

/-- The hart that runs comes from `select`, or it is the running one. -/
theorem State.takeTurn_run {u : State} (h : s.takeTurn = .run u) :
    (s.moves = [] ∧ u = s.beginStep) ∨
      ∃ a rest v, s.moves = .step a :: rest ∧ ({ s with moves := rest } : State).select a = some v ∧
        u = v.beginStep := by
  unfold State.takeTurn at h
  split at h
  · exact Or.inl ⟨by assumption, by cases h; rfl⟩
  · rename_i a rest hm
    split at h
    · cases h
    · rename_i v hv
      cases h
      exact Or.inr ⟨a, rest, v, hm, hv, rfl⟩
  · split at h
    · cases h
    · split at h <;> cases h

/-- A move that is a whole step and succeeds is the answer to a signal (R474). -/
theorem State.takeTurn_done (h : s.takeTurn = .done (.next t)) :
    ∃ a rest v g, s.moves = .resume a :: rest ∧ ({ s with moves := rest } : State).select a = some v ∧
      v.running.signal = some g ∧ t = v.resume := by
  unfold State.takeTurn at h
  split at h
  · cases h
  · split at h <;> cases h
  · rename_i a rest hm
    split at h
    · cases h
    · rename_i v hv
      split at h
      · cases h
      · rename_i g hg
        cases h
        exact ⟨a, rest, v, g, hm, hv, hg, rfl⟩

/-! ### The start -/

/-- What a launch answers once its catalog is built. -/
theorem launch_of_build {l : Launch} {c : Catalog} (h : l.catalog.build = .ok c) :
    State.launch l = (match launchHarts l with
      | [] => .error .noHart
      | h :: rest =>
        .ok { m64 := l.m64, catalog := c, regions := l.regions, running := h, parked := rest,
              mem := Memory.ofImage l.image, moves := [] }) := by
  unfold State.launch
  simp only [h] <;> rfl

/-- Reset is the start of the default launch. -/
theorem launch_default : State.launch Launch.default = .ok State.reset :=
  launch_of_build (l := Launch.default) refCatalog_build

end Sys2Proof.Machine
end

