-- ==== Sys2Proof/Tests/Slice0.lean ====
section
/-! SUPPORT. Tests: small single steps whose expected results are rows of the spec's test vectors, words decoded bit by
bit, ill-formed terms refused, and for every statement with hypotheses a witness that meets them. -/

open Sys2Proof Sys2Proof.Machine

namespace Sys2Proof.Tests

/-! ### Helpers -/

/-- A part of the machine a test vector names. -/
inductive Place where
  | x (r : Reg)
  | f (r : Reg)
  | pc
  | fflags
  | frm
  | ustatus
  | uepc
  | byte (a : Nat)
  | resW
  | resD
  | noRes

/-- Put a value in a place. -/
def put (s : State) : Place × DWord → State
  | (.x r, v) => s.writeX r v
  | (.f r, v) => s.writeF r v
  | (.pc, v) => s.setPc v
  | (.fflags, v) => { s with running := { s.running with fflags := v.setWidth 5 } }
  | (.frm, v) => { s with running := { s.running with frm := v.setWidth 3 } }
  | (.ustatus, v) => { s with running := { s.running with ustatus := v } }
  | (.uepc, v) => { s with running := { s.running with uepc := v } }
  | (.byte a, v) => { s with mem := s.mem.write a (v.setWidth 8) }
  | (.resW, v) => s.setRes (some { addr := v, width := .word })
  | (.resD, v) => s.setRes (some { addr := v, width := .double })
  | (.noRes, _) => s.setRes none

/-- Does the place hold the value? -/
def holds (s : State) : Place × DWord → Bool
  | (.x r, v) => s.readX r == v
  | (.f r, v) => s.readF r == v
  | (.pc, v) => s.running.pc == v
  | (.fflags, v) => s.running.fflags == v.setWidth 5
  | (.frm, v) => s.running.frm == v.setWidth 3
  | (.ustatus, v) => s.running.ustatus == v
  | (.uepc, v) => s.running.uepc == v
  | (.byte a, v) => s.mem.read a == v.setWidth 8
  | (.resW, v) => s.running.res == some { addr := v, width := .word }
  | (.resD, v) => s.running.res == some { addr := v, width := .double }
  | (.noRes, _) => s.running.res == none

/-- The conventions of 95_test_vectors.md section 2: one hart at 0x1000, memory from 0 to 0xFFFFF, zeros elsewhere. -/
def blank (m64 : Bool) : State :=
  { State.reset with
    m64 := m64
    regions := [{ base := 0, size := 0x100000, load := true, store := true, fetch := true }]
    running := Hart.atReset .default 0x1000 [] }

/-- The blank machine with these places set. -/
def start (m64 : Bool) (places : List (Place × DWord)) : State := places.foldl put (blank m64)

/-- One step on the word from the places `before` completes and leaves `after`. -/
def goes (m64 : Bool) (w : Nat) (before after : List (Place × DWord)) : Bool :=
  match step ((start m64 before).withFetchWord 32 w) with
  | .next t => t.running.signal == none && after.all (holds t)
  | _ => false

/-- One step on the word raises this fault. -/
def faults (m64 : Bool) (w : Nat) (before : List (Place × DWord)) (f : Fault) : Bool :=
  match step ((start m64 before).withFetchWord 32 w) with
  | .fault g => g == f
  | _ => false

/-! ### One step of every instruction: rows of the spec's vectors -/

/-- 95_test_vectors.md 2.4, vectors 2, 21, 23, 31. -/
theorem test_add_sub_sll_slt :
    goes true 0x007302B3 [(.x 6, 0x7FFFFFFF), (.x 7, 0x1)] [(.x 5, 0x80000000), (.pc, 0x1004)] = true ∧
    goes false 0x407302B3 [(.x 6, 0x0), (.x 7, 0x1)] [(.x 5, 0xFFFFFFFF), (.pc, 0x1004)] = true ∧
    goes false 0x007312B3 [(.x 6, 0x1), (.x 7, 0xFFFFFFFF)] [(.x 5, 0x80000000), (.pc, 0x1004)] = true ∧
    goes false 0x007322B3 [(.x 6, 0xFFFFFFFF), (.x 7, 0x1)] [(.x 5, 0x1), (.pc, 0x1004)] = true := by decide

/-- 95_test_vectors.md 2.4, vectors 33, 34, 27, 29. -/
theorem test_sltu_xor_srl_sra :
    goes false 0x007032B3 [(.x 7, 0x9)] [(.x 5, 0x1), (.pc, 0x1004)] = true ∧
    goes false 0x007342B3 [(.x 6, 0xFF00FF00), (.x 7, 0xFF00FF0)] [(.x 5, 0xF0F0F0F0), (.pc, 0x1004)] = true ∧
    goes false 0x007352B3 [(.x 6, 0x80000000), (.x 7, 0x1F)] [(.x 5, 0x1), (.pc, 0x1004)] = true ∧
    goes false 0x407352B3 [(.x 6, 0x80000000), (.x 7, 0x1F)] [(.x 5, 0xFFFFFFFF), (.pc, 0x1004)] = true := by decide

/-- 95_test_vectors.md 2.4, vectors 35, 36, 38, 40. -/
theorem test_or_and_mul_mulh :
    goes false 0x007362B3 [(.x 6, 0xFF00FF00), (.x 7, 0xFF00FF0)] [(.x 5, 0xFFF0FFF0), (.pc, 0x1004)] = true ∧
    goes false 0x007372B3 [(.x 6, 0xFF00FF00), (.x 7, 0xFF00FF0)] [(.x 5, 0xF000F00), (.pc, 0x1004)] = true ∧
    goes true 0x027302B3 [(.x 6, 0x10000), (.x 7, 0x10000)] [(.x 5, 0x100000000), (.pc, 0x1004)] = true ∧
    goes false 0x027312B3 [(.x 6, 0x80000000), (.x 7, 0x80000000)] [(.x 5, 0x40000000), (.pc, 0x1004)] = true := by decide

/-- 95_test_vectors.md 2.4, vectors 43, 5, 47, 52. -/
theorem test_mulhsu_mulhu_div_divu :
    goes false 0x027322B3 [(.x 6, 0xFFFFFFFF), (.x 7, 0xFFFFFFFF)] [(.x 5, 0xFFFFFFFF), (.pc, 0x1004)] = true ∧
    goes true 0x027332B3 [(.x 6, 0xFFFFFFFFFFFFFFFF), (.x 7, 0xFFFFFFFFFFFFFFFF)] [(.x 5, 0xFFFFFFFFFFFFFFFE),
      (.pc, 0x1004)] = true ∧
    goes false 0x027342B3 [(.x 6, 0x7), (.x 7, 0x0)] [(.x 5, 0xFFFFFFFF), (.pc, 0x1004)] = true ∧
    goes false 0x027352B3 [(.x 6, 0x7), (.x 7, 0x0)] [(.x 5, 0xFFFFFFFF), (.pc, 0x1004)] = true := by decide

/-- 95_test_vectors.md 2.4, vectors 55, 59, 1, 61. -/
theorem test_rem_remu_addw_subw :
    goes false 0x027362B3 [(.x 6, 0xFFFFFFF9), (.x 7, 0x0)] [(.x 5, 0xFFFFFFF9), (.pc, 0x1004)] = true ∧
    goes false 0x027372B3 [(.x 6, 0xFFFFFFF9), (.x 7, 0x0)] [(.x 5, 0xFFFFFFF9), (.pc, 0x1004)] = true ∧
    goes true 0x007302BB [(.x 6, 0x7FFFFFFF), (.x 7, 0x1)] [(.x 5, 0xFFFFFFFF80000000), (.pc, 0x1004)] = true ∧
    goes true 0x407302BB [(.x 6, 0x80000000), (.x 7, 0x1)] [(.x 5, 0x7FFFFFFF), (.pc, 0x1004)] = true := by decide

/-- 95_test_vectors.md 2.4, vectors 62, 64, 66, 67. -/
theorem test_sllw_srlw_sraw_mulw :
    goes true 0x007312BB [(.x 6, 0x1), (.x 7, 0x1F)] [(.x 5, 0xFFFFFFFF80000000), (.pc, 0x1004)] = true ∧
    goes true 0x007352BB [(.x 6, 0xFFFFFFFF80000000), (.x 7, 0x4)] [(.x 5, 0x8000000), (.pc, 0x1004)] = true ∧
    goes true 0x407352BB [(.x 6, 0x80000000), (.x 7, 0x4)] [(.x 5, 0xFFFFFFFFF8000000), (.pc, 0x1004)] = true ∧
    goes true 0x027302BB [(.x 6, 0x10000), (.x 7, 0x8000)] [(.x 5, 0xFFFFFFFF80000000), (.pc, 0x1004)] = true := by decide

/-- 95_test_vectors.md 2.4, vectors 68, 70, 73, 74. -/
theorem test_divw_divuw_remw_remuw :
    goes true 0x027342BB [(.x 6, 0x80000000), (.x 7, 0xFFFFFFFF)] [(.x 5, 0xFFFFFFFF80000000), (.pc, 0x1004)] = true ∧
    goes true 0x027352BB [(.x 6, 0xFFFFFFFFFFFFFFF9), (.x 7, 0x2)] [(.x 5, 0x7FFFFFFC), (.pc, 0x1004)] = true ∧
    goes true 0x027362BB [(.x 6, 0xFFFFFFF9), (.x 7, 0x0)] [(.x 5, 0xFFFFFFFFFFFFFFF9), (.pc, 0x1004)] = true ∧
    goes true 0x027372BB [(.x 6, 0xFFFFFFF9), (.x 7, 0x0)] [(.x 5, 0xFFFFFFFFFFFFFFF9), (.pc, 0x1004)] = true := by decide

/-- 95_test_vectors.md 2.4, vectors 76, 79, 80, 82. -/
theorem test_addi_slti_sltiu_xori :
    goes false 0xFFF30293 [(.x 6, 0x0)] [(.x 5, 0xFFFFFFFF), (.pc, 0x1004)] = true ∧
    goes false 0xFFF32293 [(.x 6, 0xFFFFFFFE)] [(.x 5, 0x1), (.pc, 0x1004)] = true ∧
    goes false 0xFFF33293 [(.x 6, 0xFFFFFFFE)] [(.x 5, 0x1), (.pc, 0x1004)] = true ∧
    goes false 0xFFF34293 [(.x 6, 0xF0F0F0F)] [(.x 5, 0xF0F0F0F0), (.pc, 0x1004)] = true := by decide

/-- 95_test_vectors.md 2.4, vectors 83, 84, 85, 88. -/
theorem test_ori_andi_slli_srli :
    goes true 0x80036293 [(.x 6, 0xF)] [(.x 5, 0xFFFFFFFFFFFFF80F), (.pc, 0x1004)] = true ∧
    goes false 0x0FF37293 [(.x 6, 0x12345678)] [(.x 5, 0x78), (.pc, 0x1004)] = true ∧
    goes false 0x01F31293 [(.x 6, 0x3)] [(.x 5, 0x80000000), (.pc, 0x1004)] = true ∧
    goes false 0x00135293 [(.x 6, 0x80000000)] [(.x 5, 0x40000000), (.pc, 0x1004)] = true := by decide

/-- 95_test_vectors.md 2.4, vectors 90, 87, 89, 91. -/
theorem test_srai_slli_hi_srli_hi_srai_hi :
    goes false 0x40135293 [(.x 6, 0x80000000)] [(.x 5, 0xC0000000), (.pc, 0x1004)] = true ∧
    goes true 0x03F31293 [(.x 6, 0x3)] [(.x 5, 0x8000000000000000), (.pc, 0x1004)] = true ∧
    goes true 0x02035293 [(.x 6, 0x8000000000000000)] [(.x 5, 0x80000000), (.pc, 0x1004)] = true ∧
    goes true 0x43F35293 [(.x 6, 0x8000000000000000)] [(.x 5, 0xFFFFFFFFFFFFFFFF), (.pc, 0x1004)] = true := by decide

/-- 95_test_vectors.md 2.4, vectors 92, 94, 95, 96. -/
theorem test_addiw_slliw_srliw_sraiw :
    goes true 0x0013029B [(.x 6, 0x7FFFFFFF)] [(.x 5, 0xFFFFFFFF80000000), (.pc, 0x1004)] = true ∧
    goes true 0x01F3129B [(.x 6, 0x1)] [(.x 5, 0xFFFFFFFF80000000), (.pc, 0x1004)] = true ∧
    goes true 0x01F3529B [(.x 6, 0xFFFFFFFF80000000)] [(.x 5, 0x1), (.pc, 0x1004)] = true ∧
    goes true 0x41F3529B [(.x 6, 0x80000000)] [(.x 5, 0xFFFFFFFFFFFFFFFF), (.pc, 0x1004)] = true := by decide

/-- 95_test_vectors.md 2.4, vectors 99, 102. -/
theorem test_lui_auipc :
    goes true 0x123452B7 [(.x 5, 0xFFFFFFFFFFFFFFFF)] [(.x 5, 0x12345000), (.pc, 0x1004)] = true ∧
    goes true 0x80000297 [(.pc, 0x4000)] [(.x 5, 0xFFFFFFFF80004000), (.pc, 0x4004)] = true := by decide

/-- 95_test_vectors.md 2.5, vectors 103, 106, 109, 104. -/
theorem test_lb_lh_lw_lbu :
    goes false 0x00050283 [(.x 10, 0x2000), (.byte 0x2000, 0x80), (.byte 0x2001, 0xFF), (.byte 0x2002, 0x7F),
      (.byte 0x2003, 0x1), (.byte 0x2004, 0xEF), (.byte 0x2005, 0xCD), (.byte 0x2006, 0xAB), (.byte 0x2007,
      0x89)] [(.x 5, 0xFFFFFF80), (.pc, 0x1004)] = true ∧
    goes false 0x00051283 [(.x 10, 0x2000), (.byte 0x2000, 0x80), (.byte 0x2001, 0xFF), (.byte 0x2002, 0x7F),
      (.byte 0x2003, 0x1), (.byte 0x2004, 0xEF), (.byte 0x2005, 0xCD), (.byte 0x2006, 0xAB), (.byte 0x2007,
      0x89)] [(.x 5, 0xFFFFFF80), (.pc, 0x1004)] = true ∧
    goes false 0x00452283 [(.x 10, 0x2000), (.byte 0x2000, 0x80), (.byte 0x2001, 0xFF), (.byte 0x2002, 0x7F),
      (.byte 0x2003, 0x1), (.byte 0x2004, 0xEF), (.byte 0x2005, 0xCD), (.byte 0x2006, 0xAB), (.byte 0x2007,
      0x89)] [(.x 5, 0x89ABCDEF), (.pc, 0x1004)] = true ∧
    goes false 0x00054283 [(.x 10, 0x2000), (.byte 0x2000, 0x80), (.byte 0x2001, 0xFF), (.byte 0x2002, 0x7F),
      (.byte 0x2003, 0x1), (.byte 0x2004, 0xEF), (.byte 0x2005, 0xCD), (.byte 0x2006, 0xAB), (.byte 0x2007,
      0x89)] [(.x 5, 0x80), (.pc, 0x1004)] = true := by decide

/-- 95_test_vectors.md 2.5, vectors 107, 111, 112, 139. -/
theorem test_lhu_lwu_ld_sb :
    goes true 0x00055283 [(.x 10, 0x2000), (.byte 0x2000, 0x80), (.byte 0x2001, 0xFF), (.byte 0x2002, 0x7F),
      (.byte 0x2003, 0x1), (.byte 0x2004, 0xEF), (.byte 0x2005, 0xCD), (.byte 0x2006, 0xAB), (.byte 0x2007,
      0x89)] [(.x 5, 0xFF80), (.pc, 0x1004)] = true ∧
    goes true 0x00456283 [(.x 10, 0x2000), (.byte 0x2000, 0x80), (.byte 0x2001, 0xFF), (.byte 0x2002, 0x7F),
      (.byte 0x2003, 0x1), (.byte 0x2004, 0xEF), (.byte 0x2005, 0xCD), (.byte 0x2006, 0xAB), (.byte 0x2007,
      0x89)] [(.x 5, 0x89ABCDEF), (.pc, 0x1004)] = true ∧
    goes true 0x00053283 [(.x 10, 0x2000), (.byte 0x2000, 0x80), (.byte 0x2001, 0xFF), (.byte 0x2002, 0x7F),
      (.byte 0x2003, 0x1), (.byte 0x2004, 0xEF), (.byte 0x2005, 0xCD), (.byte 0x2006, 0xAB), (.byte 0x2007,
      0x89)] [(.x 5, 0x89ABCDEF017FFF80), (.pc, 0x1004)] = true ∧
    goes false 0x005501A3 [(.x 5, 0x77), (.x 10, 0x2000), (.resW, 0x2000)] [(.noRes, 0x0), (.pc, 0x1004),
      (.byte 0x2003, 0x77)] = true := by decide

/-- 95_test_vectors.md 2.5, vectors 126, 131, 129. -/
theorem test_sh_sw_sd :
    goes false 0x00551123 [(.x 5, 0x12345678), (.x 10, 0x2000)] [(.pc, 0x1004), (.byte 0x2002, 0x78),
      (.byte 0x2003, 0x56)] = true ∧
    goes false 0x00052023 [(.x 10, 0x2000), (.byte 0x2000, 0xFF), (.byte 0x2001, 0xFF), (.byte 0x2002, 0xFF),
      (.byte 0x2003, 0xFF)] [(.pc, 0x1004), (.byte 0x2000, 0x0), (.byte 0x2001, 0x0), (.byte 0x2002, 0x0),
      (.byte 0x2003, 0x0)] = true ∧
    goes true 0x00553023 [(.x 5, 0xAABBCCDD12345678), (.x 10, 0x2000)] [(.pc, 0x1004), (.byte 0x2000, 0x78),
      (.byte 0x2001, 0x56), (.byte 0x2002, 0x34), (.byte 0x2003, 0x12), (.byte 0x2004, 0xDD), (.byte 0x2005,
      0xCC), (.byte 0x2006, 0xBB), (.byte 0x2007, 0xAA)] = true := by decide

/-- 95_test_vectors.md 2.6, vectors 140, 142, 144, 146. -/
theorem test_beq_bne_blt_bge :
    goes false 0x00628863 [(.x 5, 0x7), (.x 6, 0x7)] [(.pc, 0x1010)] = true ∧
    goes false 0xFE629CE3 [(.x 5, 0x7), (.x 6, 0x8)] [(.pc, 0xFF8)] = true ∧
    goes false 0x0062C463 [(.x 5, 0xFFFFFFFF), (.x 6, 0x1)] [(.pc, 0x1008)] = true ∧
    goes false 0x0062D463 [(.x 5, 0x7), (.x 6, 0x7)] [(.pc, 0x1008)] = true := by decide

/-- 95_test_vectors.md 2.6, vectors 145, 148, 159, 160. -/
theorem test_bltu_bgeu_jal_jalr :
    goes false 0x0062E463 [(.x 5, 0xFFFFFFFF), (.x 6, 0x1)] [(.pc, 0x1004)] = true ∧
    goes true 0x0062F463 [(.x 5, 0x8000000000000000), (.x 6, 0x0)] [(.pc, 0x1008)] = true ∧
    goes true 0x800000EF [(.pc, 0xFFFFC)] [(.x 1, 0x100000), (.pc, 0xFFFFFFFFFFFFFFFC)] = true ∧
    goes false 0x000280E7 [(.x 5, 0x2000)] [(.x 1, 0x1004), (.pc, 0x2000)] = true := by decide

/-- 95_test_vectors.md 2.7, vectors 169, 173, 180, 181. -/
theorem test_lr_w_sc_w_amoswap_w_amoadd_w :
    goes false 0x100522AF [(.x 10, 0x2004), (.resW, 0x2000), (.byte 0x2000, 0xFE), (.byte 0x2001, 0xFF),
      (.byte 0x2002, 0xFF), (.byte 0x2003, 0xFF), (.byte 0x2004, 0x5), (.byte 0x2005, 0x0), (.byte 0x2006, 0x0),
      (.byte 0x2007, 0x0)] [(.x 5, 0x5), (.resW, 0x2004), (.pc, 0x1004)] = true ∧
    goes false 0x187522AF [(.x 5, 0x55), (.x 7, 0x11223344), (.x 10, 0x2004), (.resW, 0x2000), (.byte 0x2000,
      0xFE), (.byte 0x2001, 0xFF), (.byte 0x2002, 0xFF), (.byte 0x2003, 0xFF), (.byte 0x2004, 0x5),
      (.byte 0x2005, 0x0), (.byte 0x2006, 0x0), (.byte 0x2007, 0x0)] [(.x 5, 0x1), (.noRes, 0x0), (.pc,
      0x1004)] = true ∧
    goes false 0x087522AF [(.x 7, 0x9), (.x 10, 0x2000), (.byte 0x2000, 0xFE), (.byte 0x2001, 0xFF),
      (.byte 0x2002, 0xFF), (.byte 0x2003, 0xFF), (.byte 0x2004, 0x5), (.byte 0x2005, 0x0), (.byte 0x2006, 0x0),
      (.byte 0x2007, 0x0)] [(.x 5, 0xFFFFFFFE), (.pc, 0x1004), (.byte 0x2000, 0x9), (.byte 0x2001, 0x0),
      (.byte 0x2002, 0x0), (.byte 0x2003, 0x0)] = true ∧
    goes false 0x007522AF [(.x 7, 0x3), (.x 10, 0x2000), (.byte 0x2000, 0xFE), (.byte 0x2001, 0xFF),
      (.byte 0x2002, 0xFF), (.byte 0x2003, 0xFF), (.byte 0x2004, 0x5), (.byte 0x2005, 0x0), (.byte 0x2006, 0x0),
      (.byte 0x2007, 0x0)] [(.x 5, 0xFFFFFFFE), (.pc, 0x1004), (.byte 0x2000, 0x1), (.byte 0x2001, 0x0),
      (.byte 0x2002, 0x0), (.byte 0x2003, 0x0)] = true := by decide

/-- 95_test_vectors.md 2.7, vectors 182, 183, 184, 185. -/
theorem test_amoxor_w_amoand_w_amoor_w_amomin_w :
    goes false 0x207522AF [(.x 7, 0xFF), (.x 10, 0x2000), (.byte 0x2000, 0xFE), (.byte 0x2001, 0xFF),
      (.byte 0x2002, 0xFF), (.byte 0x2003, 0xFF), (.byte 0x2004, 0x5), (.byte 0x2005, 0x0), (.byte 0x2006, 0x0),
      (.byte 0x2007, 0x0)] [(.x 5, 0xFFFFFFFE), (.pc, 0x1004), (.byte 0x2000, 0x1)] = true ∧
    goes false 0x607522AF [(.x 7, 0xFF), (.x 10, 0x2000), (.byte 0x2000, 0xFE), (.byte 0x2001, 0xFF),
      (.byte 0x2002, 0xFF), (.byte 0x2003, 0xFF), (.byte 0x2004, 0x5), (.byte 0x2005, 0x0), (.byte 0x2006, 0x0),
      (.byte 0x2007, 0x0)] [(.x 5, 0xFFFFFFFE), (.pc, 0x1004), (.byte 0x2001, 0x0), (.byte 0x2002, 0x0),
      (.byte 0x2003, 0x0)] = true ∧
    goes false 0x407522AF [(.x 7, 0x1), (.x 10, 0x2000), (.byte 0x2000, 0xFE), (.byte 0x2001, 0xFF),
      (.byte 0x2002, 0xFF), (.byte 0x2003, 0xFF), (.byte 0x2004, 0x5), (.byte 0x2005, 0x0), (.byte 0x2006, 0x0),
      (.byte 0x2007, 0x0)] [(.x 5, 0xFFFFFFFE), (.pc, 0x1004), (.byte 0x2000, 0xFF)] = true ∧
    goes false 0x807522AF [(.x 7, 0x1), (.x 10, 0x2000), (.byte 0x2000, 0xFE), (.byte 0x2001, 0xFF),
      (.byte 0x2002, 0xFF), (.byte 0x2003, 0xFF), (.byte 0x2004, 0x5), (.byte 0x2005, 0x0), (.byte 0x2006, 0x0),
      (.byte 0x2007, 0x0)] [(.x 5, 0xFFFFFFFE), (.pc, 0x1004)] = true := by decide

/-- 95_test_vectors.md 2.7, vectors 186, 187, 188, 168. -/
theorem test_amomax_w_amominu_w_amomaxu_w_lr_d :
    goes false 0xA07522AF [(.x 7, 0x1), (.x 10, 0x2000), (.byte 0x2000, 0xFE), (.byte 0x2001, 0xFF),
      (.byte 0x2002, 0xFF), (.byte 0x2003, 0xFF), (.byte 0x2004, 0x5), (.byte 0x2005, 0x0), (.byte 0x2006, 0x0),
      (.byte 0x2007, 0x0)] [(.x 5, 0xFFFFFFFE), (.pc, 0x1004), (.byte 0x2000, 0x1), (.byte 0x2001, 0x0),
      (.byte 0x2002, 0x0), (.byte 0x2003, 0x0)] = true ∧
    goes false 0xC07522AF [(.x 7, 0x1), (.x 10, 0x2000), (.byte 0x2000, 0xFE), (.byte 0x2001, 0xFF),
      (.byte 0x2002, 0xFF), (.byte 0x2003, 0xFF), (.byte 0x2004, 0x5), (.byte 0x2005, 0x0), (.byte 0x2006, 0x0),
      (.byte 0x2007, 0x0)] [(.x 5, 0xFFFFFFFE), (.pc, 0x1004), (.byte 0x2000, 0x1), (.byte 0x2001, 0x0),
      (.byte 0x2002, 0x0), (.byte 0x2003, 0x0)] = true ∧
    goes false 0xE07522AF [(.x 7, 0x1), (.x 10, 0x2000), (.byte 0x2000, 0xFE), (.byte 0x2001, 0xFF),
      (.byte 0x2002, 0xFF), (.byte 0x2003, 0xFF), (.byte 0x2004, 0x5), (.byte 0x2005, 0x0), (.byte 0x2006, 0x0),
      (.byte 0x2007, 0x0)] [(.x 5, 0xFFFFFFFE), (.pc, 0x1004)] = true ∧
    goes true 0x100532AF [(.x 10, 0x2000), (.byte 0x2000, 0xFE), (.byte 0x2001, 0xFF), (.byte 0x2002, 0xFF),
      (.byte 0x2003, 0xFF), (.byte 0x2004, 0x5), (.byte 0x2005, 0x0), (.byte 0x2006, 0x0), (.byte 0x2007,
      0x0)] [(.x 5, 0x5FFFFFFFE), (.resD, 0x2000), (.pc, 0x1004)] = true := by decide

/-- 95_test_vectors.md 2.7, vectors 175, 191, 192, 193. -/
theorem test_sc_d_amoswap_d_amoadd_d_amoxor_d :
    goes true 0x187532AF [(.x 5, 0x55), (.x 7, 0x1122334455667788), (.x 10, 0x2000), (.resW, 0x2000),
      (.byte 0x2000, 0xFE), (.byte 0x2001, 0xFF), (.byte 0x2002, 0xFF), (.byte 0x2003, 0xFF), (.byte 0x2004,
      0x5), (.byte 0x2005, 0x0), (.byte 0x2006, 0x0), (.byte 0x2007, 0x0)] [(.x 5, 0x1), (.noRes, 0x0), (.pc,
      0x1004)] = true ∧
    goes true 0x087532AF [(.x 7, 0x9), (.x 10, 0x2000), (.byte 0x2000, 0xFE), (.byte 0x2001, 0xFF),
      (.byte 0x2002, 0xFF), (.byte 0x2003, 0xFF), (.byte 0x2004, 0x5), (.byte 0x2005, 0x0), (.byte 0x2006, 0x0),
      (.byte 0x2007, 0x0)] [(.x 5, 0x5FFFFFFFE), (.pc, 0x1004), (.byte 0x2000, 0x9), (.byte 0x2001, 0x0),
      (.byte 0x2002, 0x0), (.byte 0x2003, 0x0), (.byte 0x2004, 0x0)] = true ∧
    goes true 0x007532AF [(.x 7, 0x3), (.x 10, 0x2000), (.byte 0x2000, 0xFE), (.byte 0x2001, 0xFF),
      (.byte 0x2002, 0xFF), (.byte 0x2003, 0xFF), (.byte 0x2004, 0x5), (.byte 0x2005, 0x0), (.byte 0x2006, 0x0),
      (.byte 0x2007, 0x0)] [(.x 5, 0x5FFFFFFFE), (.pc, 0x1004), (.byte 0x2000, 0x1), (.byte 0x2001, 0x0),
      (.byte 0x2002, 0x0), (.byte 0x2003, 0x0), (.byte 0x2004, 0x6)] = true ∧
    goes true 0x207532AF [(.x 7, 0xFF), (.x 10, 0x2000), (.byte 0x2000, 0xFE), (.byte 0x2001, 0xFF),
      (.byte 0x2002, 0xFF), (.byte 0x2003, 0xFF), (.byte 0x2004, 0x5), (.byte 0x2005, 0x0), (.byte 0x2006, 0x0),
      (.byte 0x2007, 0x0)] [(.x 5, 0x5FFFFFFFE), (.pc, 0x1004), (.byte 0x2000, 0x1)] = true := by decide

/-- 95_test_vectors.md 2.7, vectors 194, 195, 196, 197. -/
theorem test_amoand_d_amoor_d_amomin_d_amomax_d :
    goes true 0x607532AF [(.x 7, 0xFF), (.x 10, 0x2000), (.byte 0x2000, 0xFE), (.byte 0x2001, 0xFF),
      (.byte 0x2002, 0xFF), (.byte 0x2003, 0xFF), (.byte 0x2004, 0x5), (.byte 0x2005, 0x0), (.byte 0x2006, 0x0),
      (.byte 0x2007, 0x0)] [(.x 5, 0x5FFFFFFFE), (.pc, 0x1004), (.byte 0x2001, 0x0), (.byte 0x2002, 0x0),
      (.byte 0x2003, 0x0), (.byte 0x2004, 0x0)] = true ∧
    goes true 0x407532AF [(.x 7, 0x1), (.x 10, 0x2000), (.byte 0x2000, 0xFE), (.byte 0x2001, 0xFF),
      (.byte 0x2002, 0xFF), (.byte 0x2003, 0xFF), (.byte 0x2004, 0x5), (.byte 0x2005, 0x0), (.byte 0x2006, 0x0),
      (.byte 0x2007, 0x0)] [(.x 5, 0x5FFFFFFFE), (.pc, 0x1004), (.byte 0x2000, 0xFF)] = true ∧
    goes true 0x807532AF [(.x 7, 0xFFFFFFFFFFFFFFFF), (.x 10, 0x2000), (.byte 0x2000, 0xFE), (.byte 0x2001,
      0xFF), (.byte 0x2002, 0xFF), (.byte 0x2003, 0xFF), (.byte 0x2004, 0x5), (.byte 0x2005, 0x0), (.byte 0x2006,
      0x0), (.byte 0x2007, 0x0)] [(.x 5, 0x5FFFFFFFE), (.pc, 0x1004), (.byte 0x2000, 0xFF), (.byte 0x2004, 0xFF),
      (.byte 0x2005, 0xFF), (.byte 0x2006, 0xFF), (.byte 0x2007, 0xFF)] = true ∧
    goes true 0xA07532AF [(.x 7, 0xFFFFFFFFFFFFFFFF), (.x 10, 0x2000), (.byte 0x2000, 0xFE), (.byte 0x2001,
      0xFF), (.byte 0x2002, 0xFF), (.byte 0x2003, 0xFF), (.byte 0x2004, 0x5), (.byte 0x2005, 0x0), (.byte 0x2006,
      0x0), (.byte 0x2007, 0x0)] [(.x 5, 0x5FFFFFFFE), (.pc, 0x1004)] = true := by decide

/-- 95_test_vectors.md 2.7, vectors 198, 199. -/
theorem test_amominu_d_amomaxu_d :
    goes true 0xC07532AF [(.x 7, 0xFFFFFFFFFFFFFFFF), (.x 10, 0x2000), (.byte 0x2000, 0xFE), (.byte 0x2001,
      0xFF), (.byte 0x2002, 0xFF), (.byte 0x2003, 0xFF), (.byte 0x2004, 0x5), (.byte 0x2005, 0x0), (.byte 0x2006,
      0x0), (.byte 0x2007, 0x0)] [(.x 5, 0x5FFFFFFFE), (.pc, 0x1004)] = true ∧
    goes true 0xE07532AF [(.x 7, 0xFFFFFFFFFFFFFFFF), (.x 10, 0x2000), (.byte 0x2000, 0xFE), (.byte 0x2001,
      0xFF), (.byte 0x2002, 0xFF), (.byte 0x2003, 0xFF), (.byte 0x2004, 0x5), (.byte 0x2005, 0x0), (.byte 0x2006,
      0x0), (.byte 0x2007, 0x0)] [(.x 5, 0x5FFFFFFFE), (.pc, 0x1004), (.byte 0x2000, 0xFF), (.byte 0x2004, 0xFF),
      (.byte 0x2005, 0xFF), (.byte 0x2006, 0xFF), (.byte 0x2007, 0xFF)] = true := by decide

/-- 96_test_vectors_fp_system.md 2.8, vectors 311, 313, 243, 238. -/
theorem test_flw_fsw_fmadd_s_fmsub_s :
    goes false 0x00452087 [(.x 10, 0x2000), (.byte 0x2004, 0x1), (.byte 0x2005, 0x0), (.byte 0x2006, 0x80),
      (.byte 0x2007, 0x7F)] [(.f 1, 0xFFFFFFFF7F800001), (.pc, 0x1004)] = true ∧
    goes false 0x00152027 [(.x 10, 0x2000), (.f 1, 0xFFFFFFFF40490FDB)] [(.pc, 0x1004), (.byte 0x2000, 0xDB),
      (.byte 0x2001, 0xF), (.byte 0x2002, 0x49), (.byte 0x2003, 0x40)] = true ∧
    goes false 0x202082C3 [(.f 1, 0xFFFFFFFF7F800000), (.f 2, 0xFFFFFFFF00000000), (.f 4,
      0xFFFFFFFF7FC00000)] [(.f 5, 0xFFFFFFFF7FC00000), (.fflags, 0x10), (.pc, 0x1004)] = true ∧
    goes false 0x202082C7 [(.f 1, 0xFFFFFFFF40000000), (.f 2, 0xFFFFFFFF40400000), (.f 4,
      0xFFFFFFFF40800000)] [(.f 5, 0xFFFFFFFF40000000), (.pc, 0x1004)] = true := by decide +kernel

/-- 96_test_vectors_fp_system.md 2.8, vectors 239, 240, 208, 222. -/
theorem test_fnmsub_s_fnmadd_s_fadd_s_fsub_s :
    goes false 0x202082CB [(.f 1, 0xFFFFFFFF40000000), (.f 2, 0xFFFFFFFF40400000), (.f 4,
      0xFFFFFFFF40800000)] [(.f 5, 0xFFFFFFFFC0000000), (.pc, 0x1004)] = true ∧
    goes false 0x202082CF [(.f 1, 0xFFFFFFFF40000000), (.f 2, 0xFFFFFFFF40400000), (.f 4,
      0xFFFFFFFF40800000)] [(.f 5, 0xFFFFFFFFC1200000), (.pc, 0x1004)] = true ∧
    goes false 0x002081D3 [(.f 1, 0xFFFFFFFF3DCCCCCD), (.f 2, 0xFFFFFFFF3E4CCCCD)] [(.f 3, 0xFFFFFFFF3E99999A),
      (.fflags, 0x1), (.pc, 0x1004)] = true ∧
    goes false 0x082081D3 [(.f 1, 0xFFFFFFFF7F800000), (.f 2, 0xFFFFFFFF7F800000)] [(.f 3, 0xFFFFFFFF7FC00000),
      (.fflags, 0x10), (.pc, 0x1004)] = true := by decide +kernel

/-- 96_test_vectors_fp_system.md 2.8, vectors 224, 7, 233, 245. -/
theorem test_fmul_s_fdiv_s_fsqrt_s_fsgnj_s :
    goes false 0x102081D3 [(.f 1, 0xFFFFFFFF00800001), (.f 2, 0xFFFFFFFF3F000000)] [(.f 3, 0xFFFFFFFF00400000),
      (.fflags, 0x3), (.pc, 0x1004)] = true ∧
    goes false 0x1820F1D3 [(.f 1, 0xFFFFFFFF3F800000), (.f 2, 0xFFFFFFFF40400000), (.frm, 0x1)] [(.f 3,
      0xFFFFFFFF3EAAAAAA), (.fflags, 0x1), (.pc, 0x1004)] = true ∧
    goes false 0x580081D3 [(.f 1, 0xFFFFFFFF40000000)] [(.f 3, 0xFFFFFFFF3FB504F3), (.fflags, 0x1), (.pc,
      0x1004)] = true ∧
    goes false 0x202081D3 [(.f 1, 0xFFFFFFFF3F800000), (.f 2, 0xFFFFFFFFC0000000)] [(.f 3, 0xFFFFFFFFBF800000),
      (.pc, 0x1004)] = true := by decide +kernel

/-- 96_test_vectors_fp_system.md 2.8, vectors 246, 247, 250, 253. -/
theorem test_fsgnjn_s_fsgnjx_s_fmin_s_fmax_s :
    goes false 0x202091D3 [(.f 1, 0xFFFFFFFF3F800000), (.f 2, 0xFFFFFFFFC0000000)] [(.f 3, 0xFFFFFFFF3F800000),
      (.pc, 0x1004)] = true ∧
    goes false 0x2020A1D3 [(.f 1, 0xFFFFFFFFBF800000), (.f 2, 0xFFFFFFFFC0000000)] [(.f 3, 0xFFFFFFFF3F800000),
      (.pc, 0x1004)] = true ∧
    goes false 0x282081D3 [(.f 1, 0xFFFFFFFF80000000), (.f 2, 0xFFFFFFFF00000000)] [(.f 3, 0xFFFFFFFF80000000),
      (.pc, 0x1004)] = true ∧
    goes false 0x282091D3 [(.f 1, 0xFFFFFFFF7F800001), (.f 2, 0xFFFFFFFF3F800000)] [(.f 3, 0xFFFFFFFF3F800000),
      (.fflags, 0x10), (.pc, 0x1004)] = true := by decide +kernel

/-- 96_test_vectors_fp_system.md 2.8, vectors 255, 258, 260, 262. -/
theorem test_feq_s_flt_s_fle_s_fclass_s :
    goes false 0xA020A2D3 [(.f 1, 0xFFFFFFFF80000000), (.f 2, 0xFFFFFFFF00000000)] [(.x 5, 0x1), (.pc,
      0x1004)] = true ∧
    goes false 0xA02092D3 [(.f 1, 0xFFFFFFFFBF800000), (.f 2, 0xFFFFFFFF3F800000)] [(.x 5, 0x1), (.pc,
      0x1004)] = true ∧
    goes false 0xA02082D3 [(.f 1, 0xFFFFFFFF3F800000), (.f 2, 0xFFFFFFFF3F800000)] [(.x 5, 0x1), (.pc,
      0x1004)] = true ∧
    goes false 0xE00092D3 [(.f 1, 0xFFFFFFFFFF800000)] [(.x 5, 0x1), (.pc, 0x1004)] = true := by decide +kernel

/-- 96_test_vectors_fp_system.md 2.8, vectors 273, 301, 293, 299. -/
theorem test_fcvt_w_s_fcvt_s_w_fcvt_wu_s_fcvt_s_wu :
    goes false 0xC00082D3 [(.f 1, 0xFFFFFFFFBFC00000)] [(.x 5, 0xFFFFFFFE), (.fflags, 0x1), (.pc, 0x1004)] = true ∧
    goes false 0xD00280D3 [(.x 5, 0x1000001)] [(.f 1, 0xFFFFFFFF4B800000), (.fflags, 0x1), (.pc, 0x1004)] = true ∧
    goes true 0xC01092D3 [(.f 1, 0xFFFFFFFF4F800000)] [(.x 5, 0xFFFFFFFFFFFFFFFF), (.fflags, 0x10), (.pc,
      0x1004)] = true ∧
    goes false 0xD01280D3 [(.x 5, 0xFFFFFFFF)] [(.f 1, 0xFFFFFFFF4F800000), (.fflags, 0x1), (.pc, 0x1004)] = true := by decide +kernel

/-- 96_test_vectors_fp_system.md 2.8, vectors 295, 304, 297, 305. -/
theorem test_fcvt_l_s_fcvt_s_l_fcvt_lu_s_fcvt_s_lu :
    goes true 0xC02092D3 [(.f 1, 0xFFFFFFFF5F000000)] [(.x 5, 0x7FFFFFFFFFFFFFFF), (.fflags, 0x10), (.pc,
      0x1004)] = true ∧
    goes true 0xD02280D3 [(.x 5, 0xFFFFFFFFFFFFFFFF)] [(.f 1, 0xFFFFFFFFBF800000), (.pc, 0x1004)] = true ∧
    goes true 0xC03092D3 [(.f 1, 0xFFFFFFFF7FC00000)] [(.x 5, 0xFFFFFFFFFFFFFFFF), (.fflags, 0x10), (.pc,
      0x1004)] = true ∧
    goes true 0xD03280D3 [(.x 5, 0xFFFFFFFFFFFFFFFF)] [(.f 1, 0xFFFFFFFF5F800000), (.fflags, 0x1), (.pc,
      0x1004)] = true := by decide +kernel

/-- 96_test_vectors_fp_system.md 2.8, vectors 307, 310. -/
theorem test_fmv_x_w_fmv_w_x :
    goes false 0xE00082D3 [(.f 1, 0xFFFFFFFFBF800000)] [(.x 5, 0xBF800000), (.pc, 0x1004)] = true ∧
    goes true 0xF00280D3 [(.x 5, 0x123456787F800001)] [(.f 1, 0xFFFFFFFF7F800001), (.pc, 0x1004)] = true := by decide +kernel

/-- 96_test_vectors_fp_system.md 2.9, vectors 378, 381, 333, 334. -/
theorem test_fld_fsd_fmadd_d_fmsub_d :
    goes false 0x00853087 [(.x 10, 0x2000), (.byte 0x2008, 0x18), (.byte 0x2009, 0x2D), (.byte 0x200A, 0x44),
      (.byte 0x200B, 0x54), (.byte 0x200C, 0xFB), (.byte 0x200D, 0x21), (.byte 0x200E, 0x9), (.byte 0x200F,
      0x40)] [(.f 1, 0x400921FB54442D18), (.pc, 0x1004)] = true ∧
    goes false 0x00153027 [(.x 10, 0x2000), (.f 1, 0x400921FB54442D18), (.resW, 0x2004)] [(.noRes, 0x0), (.pc,
      0x1004), (.byte 0x2000, 0x18), (.byte 0x2001, 0x2D), (.byte 0x2002, 0x44), (.byte 0x2003, 0x54),
      (.byte 0x2004, 0xFB), (.byte 0x2005, 0x21), (.byte 0x2006, 0x9), (.byte 0x2007, 0x40)] = true ∧
    goes false 0x222082C3 [(.f 1, 0x4000000000000000), (.f 2, 0x4008000000000000), (.f 4,
      0x4010000000000000)] [(.f 5, 0x4024000000000000), (.pc, 0x1004)] = true ∧
    goes false 0x222082C7 [(.f 1, 0x4000000000000000), (.f 2, 0x4008000000000000), (.f 4,
      0x4010000000000000)] [(.f 5, 0x4000000000000000), (.pc, 0x1004)] = true := by decide +kernel

/-- 96_test_vectors_fp_system.md 2.9, vectors 335, 336, 322, 325. -/
theorem test_fnmsub_d_fnmadd_d_fadd_d_fsub_d :
    goes false 0x222082CB [(.f 1, 0x4000000000000000), (.f 2, 0x4008000000000000), (.f 4,
      0x4010000000000000)] [(.f 5, 0xC000000000000000), (.pc, 0x1004)] = true ∧
    goes false 0x222082CF [(.f 1, 0x4000000000000000), (.f 2, 0x4008000000000000), (.f 4,
      0x4010000000000000)] [(.f 5, 0xC024000000000000), (.pc, 0x1004)] = true ∧
    goes false 0x0220F1D3 [(.f 1, 0x3FB999999999999A), (.f 2, 0x3FC999999999999A), (.frm, 0x1)] [(.f 3,
      0x3FD3333333333333), (.fflags, 0x1), (.pc, 0x1004)] = true ∧
    goes false 0x0A2081D3 [(.f 1, 0x7FF0000000000000), (.f 2, 0x7FF0000000000000)] [(.f 3, 0x7FF8000000000000),
      (.fflags, 0x10), (.pc, 0x1004)] = true := by decide +kernel

/-- 96_test_vectors_fp_system.md 2.9, vectors 326, 329, 331, 339. -/
theorem test_fmul_d_fdiv_d_fsqrt_d_fsgnj_d :
    goes false 0x122081D3 [(.f 1, 0x7FEFFFFFFFFFFFFF), (.f 2, 0x4000000000000000)] [(.f 3, 0x7FF0000000000000),
      (.fflags, 0x5), (.pc, 0x1004)] = true ∧
    goes false 0x1A2081D3 [(.f 1, 0x3FF0000000000000), (.f 2, 0x4008000000000000)] [(.f 3, 0x3FD5555555555555),
      (.fflags, 0x1), (.pc, 0x1004)] = true ∧
    goes false 0x5A0081D3 [(.f 1, 0x4000000000000000)] [(.f 3, 0x3FF6A09E667F3BCD), (.fflags, 0x1), (.pc,
      0x1004)] = true ∧
    goes false 0x222081D3 [(.f 1, 0x3FF0000000000000), (.f 2, 0xC000000000000000)] [(.f 3, 0xBFF0000000000000),
      (.pc, 0x1004)] = true := by decide +kernel

/-- 96_test_vectors_fp_system.md 2.9, vectors 340, 341, 342, 343. -/
theorem test_fsgnjn_d_fsgnjx_d_fmin_d_fmax_d :
    goes false 0x222091D3 [(.f 1, 0x3FF0000000000000), (.f 2, 0xC000000000000000)] [(.f 3, 0x3FF0000000000000),
      (.pc, 0x1004)] = true ∧
    goes false 0x2220A1D3 [(.f 1, 0xBFF0000000000000), (.f 2, 0xC000000000000000)] [(.f 3, 0x3FF0000000000000),
      (.pc, 0x1004)] = true ∧
    goes false 0x2A2081D3 [(.f 1, 0x8000000000000000), (.f 2, 0x0)] [(.f 3, 0x8000000000000000), (.pc,
      0x1004)] = true ∧
    goes false 0x2A2091D3 [(.f 1, 0x7FF0000000000001), (.f 2, 0x3FF0000000000000)] [(.f 3, 0x3FF0000000000000),
      (.fflags, 0x10), (.pc, 0x1004)] = true := by decide +kernel

/-- 96_test_vectors_fp_system.md 2.9, vectors 344, 345, 346, 347. -/
theorem test_feq_d_flt_d_fle_d_fclass_d :
    goes false 0xA220A2D3 [(.x 5, 0x55), (.f 1, 0x7FF8000000000000), (.f 2, 0x3FF0000000000000)] [(.x 5, 0x0),
      (.pc, 0x1004)] = true ∧
    goes false 0xA22092D3 [(.x 5, 0x55), (.f 1, 0x7FF8000000000000), (.f 2, 0x3FF0000000000000)] [(.x 5, 0x0),
      (.fflags, 0x10), (.pc, 0x1004)] = true ∧
    goes false 0xA22082D3 [(.f 1, 0xC000000000000000), (.f 2, 0x3FF0000000000000)] [(.x 5, 0x1), (.pc,
      0x1004)] = true ∧
    goes false 0xE20092D3 [(.f 1, 0xFFF0000000000000)] [(.x 5, 0x1), (.pc, 0x1004)] = true := by decide +kernel

/-- 96_test_vectors_fp_system.md 2.9, vectors 354, 362, 358, 363. -/
theorem test_fcvt_w_d_fcvt_d_w_fcvt_wu_d_fcvt_d_wu :
    goes false 0xC20082D3 [(.f 1, 0x4004000000000000)] [(.x 5, 0x2), (.fflags, 0x1), (.pc, 0x1004)] = true ∧
    goes false 0xD20280D3 [(.x 5, 0x80000000)] [(.f 1, 0xC1E0000000000000), (.pc, 0x1004)] = true ∧
    goes true 0xC21092D3 [(.f 1, 0x41EFFFFFFFE00000)] [(.x 5, 0xFFFFFFFFFFFFFFFF), (.pc, 0x1004)] = true ∧
    goes false 0xD21280D3 [(.x 5, 0x80000000)] [(.f 1, 0x41E0000000000000), (.pc, 0x1004)] = true := by decide +kernel

/-- 96_test_vectors_fp_system.md 2.9, vectors 359, 364, 361, 366. -/
theorem test_fcvt_l_d_fcvt_d_l_fcvt_lu_d_fcvt_d_lu :
    goes true 0xC22092D3 [(.f 1, 0x43E0000000000000)] [(.x 5, 0x7FFFFFFFFFFFFFFF), (.fflags, 0x10), (.pc,
      0x1004)] = true ∧
    goes true 0xD22280D3 [(.x 5, 0x20000000000001)] [(.f 1, 0x4340000000000000), (.fflags, 0x1), (.pc,
      0x1004)] = true ∧
    goes true 0xC23092D3 [(.f 1, 0xBFF0000000000000)] [(.x 5, 0x0), (.fflags, 0x10), (.pc, 0x1004)] = true ∧
    goes true 0xD23280D3 [(.x 5, 0xFFFFFFFFFFFFFFFF)] [(.f 1, 0x43F0000000000000), (.fflags, 0x1), (.pc,
      0x1004)] = true := by decide +kernel

/-- 96_test_vectors_fp_system.md 2.9, vectors 367, 373, 376, 377. -/
theorem test_fcvt_s_d_fcvt_d_s_fmv_x_d_fmv_d_x :
    goes false 0x401081D3 [(.f 1, 0x3FB999999999999A)] [(.f 3, 0xFFFFFFFF3DCCCCCD), (.fflags, 0x1), (.pc,
      0x1004)] = true ∧
    goes false 0x420081D3 [(.f 1, 0xFFFFFFFF7F800001)] [(.f 3, 0x7FF8000000000000), (.fflags, 0x10), (.pc,
      0x1004)] = true ∧
    goes true 0xE20082D3 [(.f 1, 0x7FF0000000000001)] [(.x 5, 0x7FF0000000000001), (.pc, 0x1004)] = true ∧
    goes true 0xF20280D3 [(.x 5, 0x7FF0000000000001)] [(.f 1, 0x7FF0000000000001), (.pc, 0x1004)] = true := by decide +kernel

/-- 96_test_vectors_fp_system.md 2.10, vectors 410, 412, 402, 407. -/
theorem test_fence_fence_i_uret_wfi :
    goes false 0x0FF3028F [(.x 5, 0x55), (.x 6, 0x66)] [(.pc, 0x1004)] = true ∧
    goes false 0xFFF3128F [(.x 5, 0x55)] [(.pc, 0x1004)] = true ∧
    goes false 0x00200073 [(.uepc, 0x2000), (.ustatus, 0x10)] [(.ustatus, 0x11), (.pc, 0x2000)] = true ∧
    goes false 0x10500073 [] [(.pc, 0x1004)] = true := by decide

/-- 96_test_vectors_fp_system.md 2.10, vectors 384, 387, 388, 391. -/
theorem test_csrrw_csrrs_csrrc_csrrwi :
    goes false 0x003312F3 [(.x 6, 0xFFFFFFFF), (.frm, 0x3), (.fflags, 0x11)] [(.x 5, 0x71), (.fflags, 0x1F),
      (.frm, 0x7), (.pc, 0x1004)] = true ∧
    goes false 0x001322F3 [(.x 6, 0x104), (.fflags, 0x1)] [(.x 5, 0x1), (.fflags, 0x5), (.pc, 0x1004)] = true ∧
    goes false 0x001332F3 [(.x 6, 0x11), (.fflags, 0x1F)] [(.x 5, 0x1F), (.fflags, 0xE), (.pc, 0x1004)] = true ∧
    goes false 0x0023D2F3 [(.frm, 0x2)] [(.x 5, 0x2), (.frm, 0x7), (.pc, 0x1004)] = true := by decide

/-- 96_test_vectors_fp_system.md 2.10, vectors 393, 395. -/
theorem test_csrrsi_csrrci :
    goes false 0x001862F3 [(.fflags, 0x1)] [(.x 5, 0x1), (.fflags, 0x11), (.pc, 0x1004)] = true ∧
    goes false 0x003FF2F3 [(.frm, 0x3), (.fflags, 0x1F)] [(.x 5, 0x7F), (.fflags, 0x0), (.pc, 0x1004)] = true := by decide

/-! ### Outcomes other than Ok -/

/-- 95_test_vectors.md 2.11 (a), (b), (d), (e): the fetch and the decode of a step. -/
theorem test_fetch_and_illegal :
    (match step ((start false []).setPc 0x1002) with
      | .fault f => f == .addressError .fetch 0x1002 none
      | _ => false) = true ∧
    (match step ((start false []).setPc 0x100000) with
      | .fault f => f == .addressError .fetch 0x100000 none
      | _ => false) = true ∧
    faults false 0 [] (.illegalInstruction 0 0x1000) = true ∧
    faults true 0xFFFFFFFF [] (.illegalInstruction 0xFFFFFFFF 0x1000) = true := by decide

/-- 95_test_vectors.md 2.11 (f), 96_test_vectors_fp_system.md 2.10: a signal leaves the pc where it is. -/
theorem test_signals :
    (match step ((start false [(.x 5, 9)]).withFetchWord 32 0x00100073) with
      | .next t => t.running.signal == some .breakpoint && t.running.pc == 0x1000 && t.readX 5 == 9
      | _ => false) = true ∧
    (match step ((start false []).withFetchWord 32 0x00000073) with
      | .next t => t.running.signal == some .environmentCall && t.running.pc == 0x1000
      | _ => false) = true := by decide

/-- 95_test_vectors.md 2.5, 2.7: misaligned and invalid accesses, of kind Load and of kind Store, with the triple of
R157: the row of opcode_table.json, the operand array in first-appearance order, the hart. -/
theorem test_address_errors :
    faults false 0x00202283 [(.x 5, 0x55)] (.addressError .load 2
      (some { descriptor := 48, operands := [2, 0, 5], hart := .default })) = true ∧
    faults false 0x00552023 [(.x 10, 0x100000)]
      (.addressError .store 0x100000 (some { descriptor := 55, operands := [0, 5, 10], hart := .default })) = true := by decide

/-- 96_test_vectors_fp_system.md 2.8: a reserved mode in the field, and `frm` holding 7. -/
theorem test_invalid_rounding :
    faults false 0x1820F1D3 [(.frm, 7)] (.invalidRoundingMode
      { descriptor := 96, operands := [2, 1, 7, 3], hart := .default }) = true ∧
    faults false 0x1820D1D3 [] (.invalidRoundingMode
      { descriptor := 96, operands := [2, 1, 5, 3], hart := .default }) = true := by decide

/-- 96_test_vectors_fp_system.md 2.10: an address that names no control register is refused. -/
theorem test_unknown_csr :
    (match step ((start false []).withFetchWord 32 0xC00012F3) with
      | .refused r => r == .unknownCsr 0xC00
      | _ => false) = true := by decide

/-! ### Well-formedness -/

/-- The one check: a 64-bit instruction is ill formed in 32-bit mode (R151), and no other is. -/
theorem test_wellFormed :
    (Instr.ld 5 10 8).wellFormed false = false ∧ (Instr.ld 5 10 8).wellFormed true = true ∧
    (Instr.addw 5 6 7).wellFormed false = false ∧ (Instr.slliHi 1 2 3).wellFormed false = false ∧
    (Instr.amoaddD 1 2 3 0 0).wellFormed false = false ∧ (Instr.fcvtLS 5 1 7).wellFormed false = false ∧
    (Instr.lw 5 10 8).wellFormed false = true ∧ (Instr.fld 5 10 8).wellFormed false = true := by decide

/-- An ill-formed term's word is refused by the decoder of that mode (95_test_vectors.md 2.3). -/
theorem test_illFormed_illegal : decode false (encode (.ld 5 10 8)) = .error .illegalInstruction := by rfl

/-! ### Words written out from the encodings of 30_encoding.md and opcode_table.json -/

/-- Format R (R98, R103 on): funct7, rs2, rs1, funct3, rd, opcode. -/
theorem test_decode_add :
    decode false (0b0000000#7 ++ 0b00111#5 ++ 0b00110#5 ++ 0b000#3 ++ 0b00101#5 ++ 0b0110011#7) = .ok (.add 5 6 7) := by rfl

/-- Family ArithmeticW: opcode 0111011. -/
theorem test_decode_divuw :
    decode true (0b0000001#7 ++ 0b00111#5 ++ 0b00110#5 ++ 0b101#3 ++ 0b00101#5 ++ 0b0111011#7) = .ok (.divuw 5 6 7) := by rfl

/-- Format I: imm[11:0], rs1, funct3, rd, opcode. -/
theorem test_decode_addi :
    decode false (0b111111111110#12 ++ 0b00110#5 ++ 0b000#3 ++ 0b00101#5 ++ 0b0010011#7) = .ok (.addi 5 6 0xFFE) := by rfl

/-- A shift amount of 32 to 63 has bit 25 set (R108). -/
theorem test_decode_srai_hi :
    decode true (0b0100001#7 ++ 0b00011#5 ++ 0b00110#5 ++ 0b101#3 ++ 0b00101#5 ++ 0b0010011#7) = .ok (.sraiHi 5 6 3) := by rfl

/-- Format U (R106). -/
theorem test_decode_lui :
    decode false (0b10000000000000000001#20 ++ 0b00101#5 ++ 0b0110111#7) = .ok (.lui 5 0x80001) := by rfl

/-- Loads. -/
theorem test_decode_lhu :
    decode false (0b000000000100#12 ++ 0b01010#5 ++ 0b101#3 ++ 0b00101#5 ++ 0b0000011#7) = .ok (.lhu 5 10 4) := by rfl

/-- Format S (R104): imm[11:5], rs2, rs1, funct3, imm[4:0]. -/
theorem test_decode_sw :
    decode false (0b1111111#7 ++ 0b00101#5 ++ 0b01010#5 ++ 0b010#3 ++ 0b11100#5 ++ 0b0100011#7) = .ok (.sw 10 5 0xFFC) := by rfl

/-- Format B (R105): imm[12|10:5], rs2, rs1, funct3, imm[4:1|11]; the field is raw, in encoded order. -/
theorem test_decode_beq :
    decode false (0b1111111#7 ++ 0b00110#5 ++ 0b00101#5 ++ 0b000#3 ++ 0b11001#5 ++ 0b1100011#7) = .ok (.beq 5 6 0xFF9) ∧
    immB 0xFF9 = -8 := ⟨by rfl, by decide⟩

/-- Format J (R107): imm[20|10:1|11|19:12], rd; the field is raw, in encoded order. -/
theorem test_decode_jal :
    decode false (0b0#1 ++ 0b0000000001#10 ++ 0b0#1 ++ 0b00000000#8 ++ 0b00001#5 ++ 0b1101111#7) = .ok (.jal 1 0x200) ∧
    immJ 0x200 = 2 := ⟨by rfl, by decide⟩

/-- Atomics: funct5, aq, rl, rs2, rs1, funct3, rd. -/
theorem test_decode_amomaxu :
    decode false (0b11100#5 ++ 0b1#1 ++ 0b0#1 ++ 0b00111#5 ++ 0b01010#5 ++ 0b010#3 ++ 0b00101#5 ++ 0b0101111#7) =
      .ok (.amomaxuW 5 10 7 1 0) := by rfl

/-- Fused operations: rs3 in bits 31:27. -/
theorem test_decode_fnmsub_s :
    decode false (0b00100#5 ++ 0b00#2 ++ 0b00011#5 ++ 0b00010#5 ++ 0b111#3 ++ 0b00001#5 ++ 0b1001011#7) =
      .ok (.fnmsubS 1 2 3 4 7) := by rfl

/-- Double precision: bits 26:25 are 01. -/
theorem test_decode_fdiv_d :
    decode false (0b0001101#7 ++ 0b00010#5 ++ 0b00001#5 ++ 0b001#3 ++ 0b00011#5 ++ 0b1010011#7) = .ok (.fdivD 3 1 2 1) := by rfl

/-- System: the control register address in bits 31:20. -/
theorem test_decode_csrrci :
    decode false (0b000000000010#12 ++ 0b00011#5 ++ 0b111#3 ++ 0b00101#5 ++ 0b1110011#7) = .ok (.csrrci 5 2 3) := by rfl

/-- `FENCE`: fm, pred, succ, rs1, 000, rd. -/
theorem test_decode_fence :
    decode false (0b1000#4 ++ 0b0011#4 ++ 0b0011#4 ++ 0b00001#5 ++ 0b000#3 ++ 0b00010#5 ++ 0b0001111#7) =
      .ok (.fence 2 1 8 3 3) := by rfl

/-- The opcode table's numbering of bits is the word's own. -/
theorem test_decodeTableWord :
    decodeTableWord 32 0x00730333 = some (.add 6 6 7) ∧ decodeTableWord 32 0 = none := by decide

/-- The placed word is what the next step from reset runs: `addi x5, x6, -1`. -/
theorem test_withFetchWord :
    (match step (State.reset.withFetchWord 32 0xFFF30293) with
      | .next t => t.readX 5 == 0xFFFFFFFFFFFFFFFF && t.running.pc == 4
      | _ => false) = true := by decide

/-- R22, R23, R132: a catalog is built; one with a row twice, or with a template of 31 bits, is refused. -/
theorem test_catalog_built : (match Catalog.build [descAdd, descSub, descUret] with
    | .ok c => c.map fun d => (d.mask, d.value)
    | .error _ => []) = [(0xFE00707F, 0x00000033), (0xFE00707F, 0x40000033), (0xFFFFFFFF, 0x00200073)] := by decide +kernel
theorem test_catalog_refused :
    (match Catalog.build [descSub, descAdd, descSub] with
    | .ok _ => none
    | .error e => some e) = some .ambiguous ∧
    (match Catalog.build [{ descAdd with template := "000000 ttttt sssss 000 fffff 0110011" }] with
    | .ok _ => none
    | .error e => some e) = some (.badTemplate "ADD" (.wrongLength 31)) ∧
    (match Catalog.build [{ descAdd with template := "0000000 00000 sssss 000 fffff 0110011" }] with
    | .ok _ => none
    | .error e => some e) = some (.badOperands "ADD") := by decide +kernel

/-- R146, R156: the outputs on `add x5, x6, x7` (R142: the array is rs2, rs1, rd), and on an illegal word. -/
theorem test_outputs :
    refCatalog.outputs 0x007302B3 false = { illegal := false, sel := some 0, nops := 3, operand := [7, 6, 5, 0, 0] } ∧
    refCatalog.outputs 0 true = { illegal := true, sel := none, nops := 0, operand := [0, 0, 0, 0, 0] } ∧
    refCatalog.maxFields = 5 ∧ refCatalog.selWidth = 8 := by decide +kernel

/-- A descriptor in the custom-0 opcode space (30_encoding.md R116) with a field of 12 bits in two places, and the wrong
derived values. -/
def customAddi : Descriptor :=
  { descAddi with mnemonic := "CADDI", template := "iiii fffff 0 sssss 00 iiiiiiii 0001011", mask := 0, fields := [] }

/-- R5, R21, R140: a machine of another catalog runs its descriptors, their fields where their templates have them, and
no other: `CADDI x5, x0, 0x123`, then a word of the reference catalog. -/
theorem test_other_catalog :
    (match Catalog.build [descSub, customAddi] with
    | .ok c =>
      (match step { (start false []).withFetchWord 32
          (0b0001#4 ++ 0b00101#5 ++ 0b0#1 ++ 0b00000#5 ++ 0b00#2 ++ 0b00100011#8 ++ 0b0001011#7).toNat with catalog := c } with
      | .next t => t.readX 5 == 0x123
      | _ => false) &&
      (match step { (start false []).withFetchWord 32 0x00730333 with catalog := c } with
      | .fault f => f == .illegalInstruction 0x00730333 0x1000
      | _ => false)
    | .error _ => false) = true := by decide +kernel

/-- R307, R440, R116: a fence whose template has none of the fields it ignores, and an atomic without the ordering bits,
are built; one descriptor names a custom handler, with a field no other handler reads. -/
def widerCatalog : Catalog :=
  [{ descFence with template := "0000 0000 0000 00000 000 00000 0101011" },
    { descAmoaddW with template := "00000 00 ttttt sssss 010 fffff 0001011" },
    { descAdd with mnemonic := "MYOP", template := "kkkkkkkkkkkk sssss 000 fffff 1011011", handler := .custom 3 },
    { descLw with template := "iiiiiiiiiiii sssss 000 fffff 1111011" }, descLw]

/-- The fence advances the pc; the custom word decodes to its handler; of two descriptors with one handler each outcome
names its own (R157). -/
theorem test_wider_catalog :
    (match Catalog.build widerCatalog with
    | .ok c =>
      (match step { (start false []).withFetchWord 32 0x0000002B with catalog := c } with
      | .next t => t.running.pc == 0x1004
      | _ => false) &&
      (match c.decodeInstr false 0x1230005B with
      | .error e => e == .customHandler 3
      | .ok _ => false) &&
      c.decode 0x1230005B false == some { descriptor := 2, operands := [0x123, 0, 0] } &&
      (match step { (start false []).withFetchWord 32 0x002002FB with catalog := c } with
      | .fault f => f == .addressError .load 2 (some { descriptor := 3, operands := [2, 0, 5], hart := .default })
      | _ => false) &&
      (match step { (start false []).withFetchWord 32 0x00202283 with catalog := c } with
      | .fault f => f == .addressError .load 2 (some { descriptor := 4, operands := [2, 0, 5], hart := .default })
      | _ => false)
    | .error _ => false) = true := by decide +kernel

/-- The step of a custom handler on three answers (R160, R161 to R163, R461): writes in order, a bad store among the
writes, a signal. -/
theorem test_custom_handler :
    let st : Statement := { descriptor := 2, operands := [0x123, 0, 0], hart := .default }
    (match (start true []).finish st (.ok [.x 5 7, .mem 0x2000 2 0x11223344, .pc 0x3000]) with
      | .next t => t.readX 5 == 7 && t.mem.read 0x2001 == 0x33 && t.running.pc == 0x3000
      | _ => false) = true ∧
    (match (start true []).finish st (.ok [.x 5 7, .mem 0x2002 2 0]) with
      | .fault f => f == .addressError .store 0x2002 (some st)
      | _ => false) = true ∧
    (match (start true []).finish st (.signal .breakpoint) with
      | .next t => t.running.signal == some .breakpoint && t.running.pc == 0x1000
      | _ => false) = true := by decide

/-! ### Witnesses: for every statement with hypotheses, a state and operands that meet them together -/

/-- A machine of two harts, in 32-bit or 64-bit mode, that runs the word next; `Hart(1)` holds a reservation at
0x2000. -/
def twoHarts (m64 : Bool) (w : Nat) : State :=
  { (start m64 []).withFetchWord 32 w with
    running := Hart.atReset (.hart 0) 0x1000 []
    parked := [{ Hart.atReset (.hart 1) 0x1000 [] with res := some { addr := 0x2000, width := .word } }] }

/-- The machine with a host's list of moves. -/
def withMoves (s : State) (ms : List HostMove) : State := { s with moves := ms }

theorem witness_DecodeOfEncode : (Instr.ld 31 31 0xFFF).wellFormed true = true ∧
    (Instr.csrrwi 5 0xFFF 31).wellFormed false = true := by decide

theorem witness_EncodeOfDecode : decode true 0x00853283 = .ok (.ld 5 10 8) ∧ decode false 0x30500073 = .error .illegalInstruction ∧
    decode false 0x10500073 = .ok .wfi := ⟨by rfl, by rfl, by rfl⟩

/-- The reference catalog is a built one. Serves RoundTripEveryDescriptor, SelectionRule, CompiledFromTemplates and
ExtractedFields too. -/
theorem witness_RoundTripEveryDescriptor :
    refCatalog.build = .ok refCatalog ∧ (refCatalog[160]? = some descCsrrci ∧ descCsrrci.enabled true = true ∧
      (0xFFFFFFFF : Word) = (0xFFFFFFFF &&& ~~~descCsrrci.mask) ||| 0xFFFFFFFF) ∧
    refCatalog.decode 0 true = none := ⟨refCatalog_build, ⟨rfl, rfl, by decide⟩, by decide +kernel⟩

theorem witness_SelectionRule :
    refCatalog.build = .ok refCatalog ∧ refCatalog.decode 0x00730333 false = some { descriptor := 0, operands := [7, 6, 6] } ∧
    refCatalog.decode 0xFFFFFFFF true = none ∧ refCatalog.reverse.Perm refCatalog :=
  ⟨refCatalog_build, by decide +kernel, by decide +kernel, List.reverse_perm _⟩

theorem witness_OverlapExactly :
    (descAdd.value &&& ~~~descAdd.mask = 0 ∧ descSub.value &&& ~~~descSub.mask = 0 ∧ descAdd.overlaps descSub = false ∧
      descAdd.overlaps descAdd = true) ∧
    Catalog.compileAll refCatalog = .ok refCatalog ∧ Catalog.compileAll [descSub, descSub] = .ok [descSub, descSub] :=
  ⟨by decide, (Catalog.build_ok.1 refCatalog_build).1, by decide +kernel⟩

theorem witness_CompiledFromTemplates :
    refCatalog.build = .ok refCatalog ∧ refCatalog[0]? = some descAdd ∧
    (significant "000000 ttttt sssss 000 fffff 0110011").length ≠ 32 := ⟨refCatalog_build, rfl, by decide +kernel⟩

theorem witness_ExtractedFields : 20 ≤ 31 ∧ 31 ≤ 31 ∧ refCatalog.build = .ok refCatalog ∧ (descAdd ∈ refCatalog) ∧
    gather 0x80000013 ((List.range (31 - 20 + 1)).map fun j => 31 - j) = 0x800 :=
  ⟨by decide, by decide, refCatalog_build, List.mem_of_getElem? (i := 0) rfl, by decide⟩

theorem witness_IllegalExactly : (0x00000001 : Word).extractLsb' 0 2 ≠ 3#2 ∧ (0x00730332 : Word).extractLsb' 0 2 ≠ 3#2 ∧
    (start false []).moves = [] := by
  decide

theorem witness_StepRunsDecoded :
    (∀ s ∈ [(start false []).withFetchWord 32 0x00730333,
        withMoves ((start true []).withFetchWord 32 0x00730333) [.step .default]],
      (s.moves = [] ∨ s.moves = .step s.running.id :: []) ∧ s.running.pc.toNat % 4 = 0 ∧
      s.memValid .fetch s.running.pc.toNat 4 = true) ∧
    (blank false).catalog = refCatalog ∧ decode false (wordOfBytes 0x33 0x03 0x73 0x00) = .ok (.add 6 6 7) ∧
    refCatalog.decode (wordOfBytes 0x33 0x03 0x73 0x00) false = some { descriptor := 0, operands := [7, 6, 6] } ∧
    (let c : Catalog := [{ descAdd with handler := .custom 3 }];
      c.decodeInstr false 0x00730333 = .error (.customHandler 3) ∧
      c.decode 0x00730333 false = some { descriptor := 0, operands := [7, 6, 6] }) ∧
    decode false (wordOfBytes 0 0 0 0) = .error .illegalInstruction :=
  ⟨by decide, rfl, by rfl, by decide +kernel, ⟨rfl, by decide⟩, by rfl⟩

/-- The last valid word, and the first address beyond it. -/
theorem witness_FetchRules :
    (((start false []).setPc 0xFFFFC).running.pc.toNat % 4 = 0 ∧
      ((start false []).setPc 0xFFFFC).memValid .fetch 0xFFFFC 4 = true) ∧
    ((start false []).moves = [] ∧ ((start false []).setPc 0x1002).running.pc.toNat % 4 ≠ 0) ∧
    ((start false []).setPc 0x100000).memValid .fetch 0x100000 4 = false := by decide

theorem witness_HostMoves :
    (∃ t, (withMoves (twoHarts false 0) [.step (.hart 1)]).moves = [.step (.hart 1)] ∧
      (twoHarts false 0).select (.hart 1) = some t) ∧
    (∃ t g, ({ start true [] with running := { (start true []).running with signal := some .breakpoint } } :
      State).select .default = some t ∧ t.running.signal = some g) ∧
    (∃ t, (twoHarts false 0).select (.hart 1) = some t ∧ t.running.signal = none) ∧
    (twoHarts false 0).select .default = none ∧ HartId.default ∉ (twoHarts false 0).hartIds :=
  ⟨⟨_, rfl, rfl⟩, ⟨_, _, rfl, rfl⟩, ⟨_, rfl, rfl⟩, rfl, by decide⟩

/-- The refusals of a step: a move that names no hart, and a resume with no signal pending. -/
theorem test_moves_refused :
    step (withMoves (twoHarts false 0) [.step (.hart 2)]) = .refused (.noSuchHart (.hart 2)) ∧
    step (withMoves (twoHarts false 0) [.resume .default]) = .refused (.noSuchHart .default) ∧
    step (withMoves (twoHarts false 0) [.resume (.hart 1)]) = .refused (.nothingToResume (.hart 1)) := ⟨rfl, rfl, rfl⟩

/-- The harts of the example machines are as the invariant asks. -/
theorem atReset_ok (m64 : Bool) (id : HartId) (pc : DWord) (hpc : fitsXlen m64 pc) (res : Option Reservation)
    (hres : ∀ r, res = some r → r.ok m64) : Hart.Ok m64 { Hart.atReset id pc [] with res := res } where
  x0 := by show (Vector.replicate 32 (0 : DWord)).get 0 = 0; decide
  extended := by
    intro _
    show ∀ r : Fin 32, (Vector.replicate 32 (0 : DWord)).get r = sext64 (low32 ((Vector.replicate 32 0).get r))
    decide
  pc := hpc
  ustatus := by show (0 : DWord) &&& ~~~0x11 = 0; decide
  uepc := by show toXlen m64 0 = 0; cases m64 <;> decide
  uepcBit0 := by show (0 : DWord).getLsbD 0 = false; decide
  extra := by intro e he; cases he
  res := hres

theorem twoHarts_inv (w : Nat) : (twoHarts false w).Inv where
  catalog := refCatalog_build
  memory := by
    show Memory.wf (Memory.writeLe _ _ _ _)
    exact Memory.wf_writeLe (by decide) _ _ _
  harts := by
    intro h hm
    rcases List.mem_cons.1 hm with rfl | hm
    · exact atReset_ok false (.hart 0) 0x1000 (by show toXlen false 0x1000 = 0x1000; decide) none (by intro r hr; cases hr)
    · rw [List.mem_singleton.1 hm]
      refine atReset_ok false (.hart 1) 0x1000 (by show toXlen false 0x1000 = 0x1000; decide) _ ?_
      intro r hr
      cases hr
      show Reservation.ok _ _
      unfold Reservation.ok
      decide
  ids := Or.inr (by show [HartId.hart 0, .hart 1].Perm ((List.range 2).map .hart); decide)

theorem witness_StepKeepsInv :
    (twoHarts false 0x00730333).Inv ∧ ∃ t, step (twoHarts false 0x00730333) = .next t :=
  ⟨twoHarts_inv _, ⟨_, rfl⟩⟩

/-- A launch of one hart, one of two harts with an image, a catalog that cannot be built, and no hart. -/
theorem witness_LaunchStates :
    (State.launch Launch.default = .ok State.reset ∧ Launch.default.harts = .single 0) ∧
    (∃ t, State.launch { Launch.default with m64 := false, harts := .multi [0x1000, 0x2000], image := [(0x1000, 0x13)] } =
      .ok t) ∧
    (([(0x1000, 0x13)] : List (Nat × Byte)).map Prod.fst).Nodup ∧ Catalog.build [descSub, descSub] = .error .ambiguous ∧
    State.launch { Launch.default with harts := .multi [] } = .error .noHart :=
  ⟨⟨launch_default, rfl⟩, ⟨_, launch_of_build refCatalog_build⟩, by decide, by decide +kernel,
    launch_of_build refCatalog_build⟩

theorem witness_ModeAndMapConstant : ∃ t, step (twoHarts true 0x00730333) = .next t := ⟨_, rfl⟩

/-- A store of one hart that clears the reservation of another; a form that writes no memory; a failing
store-conditional. -/
theorem witness_OtherHartsOnlyLoseReservations :
    (∃ t, exec (.sw 10 5 0) (put (twoHarts false 0) (.x 10, 0x2000)) = .next t ∧
      t.parked.map (·.res) = [none] ∧ (twoHarts false 0).parked.map (·.res) ≠ [none]) ∧
    (twoHarts false 0).dataAccess (.add 1 2 3) = none ∧
    (∃ t, exec (.scW 5 10 6 0 0) (twoHarts false 0) = .next t ∧ t.parked = (twoHarts false 0).parked) ∧
    (∃ t, (twoHarts false 0).finish { descriptor := 0, operands := [], hart := .hart 0 } (.ok [.x 5 7]) = .next t) ∧
    (∀ a n v, HandlerWrite.mem a n v ∉ [HandlerWrite.x 5 7]) :=
  ⟨⟨_, rfl, by decide, by decide⟩, rfl, ⟨_, rfl, rfl⟩, ⟨_, rfl⟩, by simp⟩

theorem witness_ControlRegistersKept :
    (∃ t, exec (.fdivS 3 1 2 0) (start false []) = .next t) ∧ isCsr (.fdivS 3 1 2 0) = false ∧
    (Instr.fdivS 3 1 2 0) ≠ .uret := ⟨⟨_, rfl⟩, by decide, by decide⟩

/-- Both sides of each equivalence are met somewhere. -/
theorem witness_InvalidRoundingExactly :
    (start false [(.frm, 5)]).resolveRm 7 = none ∧ (start false [(.frm, 4)]).resolveRm 7 = some .rmm ∧
    (start false []).resolveRm 5 = none ∧ (start false []).resolveRm 4 = some .rmm ∧
    operandOf 'p' (.faddS 1 2 3 5) = some 5 ∧ operandOf 'p' (.add 1 2 3) = none := by decide

/-- A load, a store, and an atomic memory operation that may read its bytes and not write them. -/
theorem witness_AddressErrorCause :
    (∃ st, exec (.ld 5 10 1) (start true [(.x 10, 0x2000)]) = .fault (.addressError .load 0x2001 st)) ∧
    (∃ st, exec (.sh 10 5 0) (start true [(.x 10, 0x100000)]) = .fault (.addressError .store 0x100000 st)) ∧
    (∃ st, exec (.amoaddW 5 10 6 0 0) { start true [(.x 10, 0x2000)] with
      regions := [{ base := 0, size := 0x100000, load := true, store := false, fetch := true }] } =
        .fault (.addressError .store 0x2000 st)) := ⟨⟨_, rfl⟩, ⟨_, rfl⟩, ⟨_, rfl⟩⟩

theorem witness_RefusedExactly :
    exec (.csrrw 5 0xC00 6) (start true []) = .refused (.unknownCsr 0xC00) ∧ isCsr (.csrrw 5 0xC00 6) = true ∧
    operandOf 'c' (.csrrw 5 0xC00 6) = some 0xC00 := ⟨rfl, rfl, by decide⟩

theorem witness_RegisterFile :
    (31 : Reg) ≠ 0 ∧ (blank false).m64 = false ∧ (0 : Reg) ≠ 31 ∧
    ((blank false).readF 3).extractLsb' 32 32 ≠ 0xFFFFFFFF#32 ∧
    ((start false [(.f 3, 0xFFFFFFFF3F800000)]).readF 3).extractLsb' 32 32 = 0xFFFFFFFF#32 := by decide

theorem witness_NarrowAccessSeesStoredBytes :
    (start false [(.byte 0x2000, 7)]).mem.wf ∧ (2 + 2 ≤ 4 ∧ 0 + 8 ≤ 8 ∧ 0 + 0 ≤ 0) := by decide

theorem witness_Shifts : 31 = ((start false [(.x 7, 0xFFFFFFFF)]).readX 7).toNat % xlen false ∧
    63 = ((start true [(.x 7, 0xFFFFFFFFFFFFFFFF)]).readX 7).toNat % xlen true := by decide

/-- The 64-bit clauses of the integer statements. -/
theorem witness_64bit : (blank true).m64 = true ∧
    ((start true [(.x 6, 0x180000000)]).readX 6).setWidth 32 = (0x80000000 : Word) := by decide

/-- Valid aligned addresses of each width, the last ones of the memory of the examples. -/
theorem witness_Loads :
    0xFFFFF = (toXlen true ((start true [(.x 10, 0x100000)]).readX 10 + (0xFFF : Imm12).signExtend 64)).toNat ∧
    (blank true).memValid .load 0xFFFFF 1 = true ∧
    (0xFFFFE % 2 = 0 ∧ (blank true).memValid .load 0xFFFFE 2 = true) ∧
    (0xFFFFC % 4 = 0 ∧ (blank false).memValid .load 0xFFFFC 4 = true) ∧
    (0xFFFF8 % 8 = 0 ∧ (blank true).memValid .load 0xFFFF8 8 = true) := by decide

theorem witness_Stores :
    (start true [(.byte 0x2000, 1)]).mem.wf ∧ 0xFFFF8 = ((start true [(.x 10, 0xFFFF8)]).effAddr 10 0).toNat ∧
    (blank true).memValid .store 0xFFFF8 1 = true ∧ (blank true).memValid .store 0xFFFF8 2 = true ∧
    (blank true).memValid .store 0xFFFF8 4 = true ∧ (0xFFFF8 % 8 = 0 ∧ (blank true).memValid .store 0xFFFF8 8 = true) := by
  decide

/-- A misaligned address for each width that has one, and an aligned one past the end for all. -/
theorem witness_LoadStoreRaises :
    0x2001 = (start true [(.x 10, 0x2000)]).effAddr 10 1 ∧ 0x2001 % 2 ≠ 0 ∧ 0x2001 % 4 ≠ 0 ∧ 0x2001 % 8 ≠ 0 ∧
    (blank true).memValid .load 0x100000 1 = false ∧ (blank true).memValid .store 0x100000 8 = false := by decide

theorem witness_LoadReserved :
    (((start true [(.x 10, 0xFFFF8)]).readX 10).toNat % ResWidth.double.bytes = 0 ∧
      (blank true).memValid .load 0xFFFF8 ResWidth.double.bytes = true) ∧
    ((start false [(.x 10, 0x2002)]).readX 10).toNat % ResWidth.word.bytes ≠ 0 ∧
    (blank false).memValid .load 0x100000 ResWidth.word.bytes = false := by decide

/-- A covering reservation with a good address, with a bad one, and a reservation that does not cover. -/
theorem witness_StoreConditional :
    (start true [(.x 10, 0x2004), (.resD, 0x2000)]).running.res = some { addr := 0x2000, width := .double } ∧
    Claims.covers { addr := 0x2000, width := .double } 0x2004 4 ∧
    (0x2004 % 4 = 0 ∧ (blank true).memValid .store 0x2004 4 = true ∧ (blank true).mem.wf) ∧
    (Claims.covers { addr := 0x2000, width := .double } 0x2002 4 ∧ 0x2002 % 4 ≠ 0) ∧
    ¬Claims.covers { addr := 0x2000, width := .word } 0x2000 8 ∧ (blank true).running.res = none := by
  unfold Claims.covers; decide

theorem witness_ReservationProtocol :
    ((5 : Reg) = 10 → (5 : Reg) = 0) ∧ (start false [(.x 10, 0x2000)]).mem.wf ∧
    (∃ t, exec (.lrW 5 10 0 0) (start false [(.x 10, 0x2000)]) = .next t) ∧
    (∃ t, exec (.lrD 5 10 0 0) (start true [(.x 10, 0x2000)]) = .next t) ∧ (blank true).m64 = true ∧
    (blank false).memValid .store 0x2000 4 = true ∧ (blank true).memValid .store 0x2000 8 = true ∧
    (0x2000 < 0x2003 + 1 ∧ 0x2003 < 0x2000 + 4) ∧ (0x2000 < 0x2007 + 1 ∧ 0x2007 < 0x2000 + 8) :=
  ⟨by decide, by decide, ⟨_, rfl⟩, ⟨_, rfl⟩, rfl, by decide, by decide, by decide, by decide⟩

/-- AtomicMemoryOperations: read and write valid; read bad; read valid where only the write is bad. -/
theorem witness_Amo :
    (0x2000 % 8 = 0 ∧ (blank true).memValid .load 0x2000 8 = true ∧ (blank true).memValid .store 0x2000 8 = true ∧
      (blank true).mem.wf) ∧
    (0x2002 % 4 ≠ 0 ∧ (blank true).memValid .load 0x100000 4 = false) ∧
    (({ blank true with regions := [{ base := 0, size := 0x100000, load := true, store := false, fetch := true }] } :
        State).memValid .load 0x2000 4 = true ∧
      ({ blank true with regions := [{ base := 0, size := 0x100000, load := true, store := false, fetch := true }] } :
        State).memValid .store 0x2000 4 = false) := by decide

theorem witness_Branches :
    0xFF8 = toXlen false ((blank false).running.pc + .ofInt 64 (Claims.branchOffset 0xFF9)) ∧
    0x1FFE = toXlen true ((blank true).running.pc + .ofInt 64 (Claims.branchOffset 0x7FF)) := by decide

/-- The 64-bit mode that DivideAndRemainder, Immediates, WordArithmetic, AtomicMemoryOperations, FloatToInteger, ToFloatConversions and
RawBitMoves assume, with the low halves WordArithmetic names. -/
theorem witness_mode64 :
    (blank true).m64 = true ∧
    (0xFFFFFFFF : Word) = ((start true [(.x 6, 0x1FFFFFFFF)]).readX 6).setWidth 32 := by decide

/-- Every selector that resolves: the five modes, and 7 through `frm`. Serves FloatArithmetic, FusedMultiplyAdd,
FloatToInteger and ToFloatConversions. -/
theorem witness_rounding :
    (blank true).resolveRm 0 = some .rne ∧ (blank true).resolveRm 1 = some .rtz ∧ (blank true).resolveRm 2 = some .rdn ∧
    (blank true).resolveRm 3 = some .rup ∧ (blank true).resolveRm 4 = some .rmm ∧
    (start true [(.frm, 2)]).resolveRm 7 = some .rdn := by decide

/-- The sources that RawBitMoves, MinMax, Comparisons and Classify name: `-1.0` boxed, and a double signaling NaN. -/
theorem witness_patterns :
    (0xBF800000 : Word) = (start true [(.f 1, 0xFFFFFFFFBF800000)]).readFs 1 ∧
    (0x7FF0000000000001 : DWord) = (start true [(.f 2, 0x7FF0000000000001)]).readF 2 := by decide

/-- One third, and the smallest exponent of a single. -/
theorem witness_RoundRule :
    (0 < 1 ∧ 0 < 3 ∧ (1 : ℚ) / 3 = ((1 : Nat) : ℚ) / (3 : Nat) * 2 ^ (0 : Int) ∧ (2 : ℚ) ^ (-2 : Int) ≤ 1 / 3 ∧
      (1 : ℚ) / 3 < 2 ^ ((-2 : Int) + 1) ∧ (-25 : Int) = max (-2) binary32.emin - binary32.prec + 1) ∧
    (-149 : Int) = max (-149) binary32.emin - binary32.prec + 1 := by
  refine ⟨⟨by decide, by decide, by norm_num, by norm_num, by norm_num, by decide⟩, by decide⟩

/-- Zero, the largest subnormal, a normal number and a carry to the next power of two. -/
theorem witness_EncodeRule :
    binary32 ∈ [binary32, binary64] ∧
    (∀ nq ∈ [(0, -149), (2 ^ 23 - 1, -149), (2 ^ 23, -149), (2 ^ 24, -149)],
      binary32.qmin ≤ nq.2 ∧ nq.1 ≤ 2 ^ binary32.prec ∧ (2 ^ binary32.fracBits ≤ nq.1 ∨ nq.2 = binary32.qmin)) ∧
    ((2 ^ 24 : Nat) : ℚ) * 2 ^ (-149 : Int) < 2 ^ (binary32.emax + 1) := by
  refine ⟨by decide, by decide, ?_⟩
  rw [show binary32.emax = 127 by decide]
  norm_num

theorem witness_SquareRootRule :
    binary32.value (0x80000000 : Word) = .zero true ∧ binary32.value (0x7F800000 : Word) = .inf false ∧
    binary32.value (0xFF800000 : Word) = .inf true ∧ binary32.value (0xC0000000 : Word) = .finite true 8388608 (-22) ∧
    binary32.value (0x40000000 : Word) = .finite false 8388608 (-22) ∧
    (2 : ℚ) ^ (2 * (0 : Int)) ≤ (8388608 : ℚ) * 2 ^ (-22 : Int) ∧ (8388608 : ℚ) * 2 ^ (-22 : Int) < 2 ^ (2 * ((0 : Int) + 1)) ∧
    ((11863283 : Nat) : ℚ) ^ 2 ≤ 8388608 * 2 ^ ((-22 : Int) - 2 * (-23)) ∧
    (8388608 : ℚ) * 2 ^ ((-22 : Int) - 2 * (-23)) < (((11863283 : Nat) : ℚ) + 1) ^ 2 := by
  refine ⟨by decide, by decide, by decide, by decide, by decide, ?_, ?_, ?_, ?_⟩ <;> norm_num

/-- `1.5`, `-1.5` and `0.0` as singles. -/
theorem witness_ExactOperations :
    Claims.realOf (binary32.value (0x3FC00000 : Word)) = .rat (3 / 2) ∧
    Claims.realOf (binary32.value (0xBFC00000 : Word)) = .rat (-3 / 2) ∧
    Claims.realOf (binary32.value (0x00000000 : Word)) = .rat 0 := by
  refine ⟨?_, ?_, rfl⟩
  · rw [show binary32.value (0x3FC00000 : Word) = .finite false 12582912 (-23) by decide]
    unfold Claims.realOf
    norm_num
  · rw [show binary32.value (0xBFC00000 : Word) = .finite true 12582912 (-23) by decide]
    unfold Claims.realOf
    norm_num

/-- Finite values, then infinities. -/
theorem witness_FusedRule :
    Claims.realOf (binary32.value (0x00000000 : Word)) = .rat 0 ∧ (1 : ℚ) = (if false then -1 else 1) * (1 * 1) + (if false then -1 else 1) * 0 ∧
    binary32.value (0x3F800000 : Word) = .finite false 8388608 (-23) ∧ binary32.value (0xFF800000 : Word) = .inf true ∧
    infTimesZero (binary32.value (0x3F800000 : Word)) (binary32.value (0xFF800000 : Word)) = false ∧
    (binary32.value (0xFF800000 : Word)).isInf = true ∧ (binary32.value (0x3F800000 : Word)).isInf = false ∧
    (binary32.value (0x3F800000 : Word)).isNaN = false := by
  refine ⟨rfl, by norm_num, by decide, by decide, by decide, by decide, by decide, by decide⟩

theorem witness_SpecialInputs :
    (binary32.value (0x7FC00000 : Word)).isNaN = true ∧ (binary32.value (0x7F800001 : Word)).isSignaling = true ∧
    binary32.value (0x7F800000 : Word) = .inf false ∧ binary32.value (0x80000000 : Word) = .zero true ∧
    infTimesZero (binary32.value (0x7F800000 : Word)) (binary32.value (0x80000000 : Word)) = true ∧
    infTimesZero (binary32.value (0x7F800000 : Word)) (binary32.value (0x3F800000 : Word)) = false ∧
    (binary32.value (0x3F800000 : Word)).isNaN = false ∧ (binary32.value (0x3F800000 : Word)).isInf = false := by decide

/-- One input of each kind. -/
theorem witness_ToIntegerRule :
    (-2 ^ 31 : Int) = (if true then -2 ^ (32 - 1) else 0) ∧ (2 ^ 32 - 1 : Int) = (if false then 2 ^ (32 - 1) - 1 else 2 ^ 32 - 1) ∧
    binary32.value (0x7FC00000 : Word) = .nan false ∧ binary32.value (0x7F800000 : Word) = .inf false ∧
    binary32.value (0xFF800000 : Word) = .inf true ∧ binary32.value (0x80000000 : Word) = .zero true ∧
    binary32.value (0x3FC00000 : Word) = .finite false 12582912 (-23) := by decide

theorem witness_TrapReturn : (1 : Nat) ≠ 0 ∧ (1 : Nat) ≠ 4 := by decide

/-- A machine with one register of `CSR_SET`. -/
def withExtra : State :=
  let e : ExtraCsr := { spec := { addr := 0x340, name := "uscratch", width := 64, mask := ~~~0, reset := 0 }, value := 9 }
  { blank true with running := Hart.atReset .default 0x1000 [e] }

/-- Every register that has an address, one of `CSR_SET` among them, and both ways of the write condition. -/
theorem witness_CsrInstructions :
    (∀ c ∈ ([0x000, 0x001, 0x002, 0x003, 0x041] : List CsrAddr), ((start true [(.uepc, 0x1234)]).csrRead c).isSome = true) ∧
    withExtra.csrRead 0x340 = some 9 ∧
    ((6 : Reg) ≠ 0 ∧ ¬(0 : Reg) ≠ 0) ∧ ((3 : Zimm) ≠ 0 ∧ ¬(0 : Zimm) ≠ 0) := by decide +kernel

theorem witness_CsrWriteMasks : toXlen (blank false).m64 0xFFFFFFFF = 0xFFFFFFFF ∧
    toXlen (blank true).m64 0xFFFFFFFFFFFFFFFF = 0xFFFFFFFFFFFFFFFF ∧
    (∃ e, withExtra.running.extra = [] ++ e :: [] ∧
      e.spec.addr ∉ ([0x000, 0x001, 0x002, 0x003, 0x041] : List CsrAddr)) :=
  ⟨by decide, by decide, ⟨_, rfl, by decide⟩⟩

/-- A register of `CSR_SET` keeps the bits its mask leaves out (R41; log 14). -/
theorem test_extraCsr_masked :
    let e : ExtraCsr := { spec := { addr := 0x340, name := "uscratch", width := 32, mask := 0xF0, reset := 0 }, value := 9 }
    let s : State := { blank true with running := Hart.atReset .default 0x1000 [e] }
    (s.csrWrite 0x340 0xFFFF).csrRead 0x340 = some 0xF9 := by decide

end Sys2Proof.Tests
end

section
/-! The invariant of the machine: what each update of the state keeps of it, then every instruction, custom handler and
step (10_state.md R21 to R42). -/

namespace Sys2Proof.Machine

variable {s t : State} {m64 : Bool} {p : Hart}

/-! ### Widths -/

theorem fitsXlen_toXlen (m64 : Bool) (v : DWord) : fitsXlen m64 (toXlen m64 v) := toXlen_toXlen m64 v

/-- Clearing bit 0 keeps an `XLEN`-bit value one. -/
theorem fitsXlen_clearBit0 {v : DWord} (h : fitsXlen m64 v) : fitsXlen m64 (v &&& ~~~1) := by
  cases m64 with
  | true => rfl
  | false =>
    unfold fitsXlen at h ⊢
    rw [← h]
    simp only [toXlen_false, zext64, low32]
    ext b hb
    simp only [BitVec.getElem_setWidth, BitVec.getLsbD_setWidth, BitVec.getLsbD_and, BitVec.getElem_and]
    by_cases h32 : b < 32 <;> simp [h32, hb]

theorem keepLow_keepLow (n : Nat) (v : DWord) : keepLow n (keepLow n v) = keepLow n v := by
  simp only [keepLow, BitVec.and_assoc, BitVec.and_self]

/-- A written control register of `CSR_SET` holds no bit beyond its width, and the others are as before (R41). -/
theorem writeExtra_keepLow {c : CsrAddr} {v : DWord} {es : List ExtraCsr}
    (h : ∀ e ∈ es, keepLow e.spec.width e.value = e.value) :
    ∀ e ∈ writeExtra c v es, keepLow e.spec.width e.value = e.value := by
  induction es with
  | nil => exact h
  | cons d rest ih =>
    obtain ⟨hd, hrest⟩ := List.forall_mem_cons.1 h
    unfold writeExtra
    split
    · exact List.forall_mem_cons.2 ⟨keepLow_keepLow _ _, hrest⟩
    · exact List.forall_mem_cons.2 ⟨hd, ih hrest⟩

/-! ### The fields of one hart -/

/-- The stored registers after a write, slot by slot (R28, R29). -/
theorem State.writeX_get (s : State) (r : Reg) (v : DWord) (q : Fin 32) :
    (s.writeX r v).running.x.get q =
      if r ≠ 0 ∧ r.toNat = q then (if s.m64 then v else sext64 (low32 v)) else s.running.x.get q := by
  simp only [State.writeX, Vector.get_eq_getElem]
  by_cases hr : r = 0
  · simp [hr]
  · simp only [hr, if_false, ne_eq, not_false_eq_true, true_and, Vector.getElem_set]

theorem State.csrWrite_extra (s : State) (c : CsrAddr) (v : DWord) :
    (s.csrWrite c v).running.extra =
      if c = csrUstatus ∨ c = csrFflags ∨ c = csrFrm ∨ c = csrFcsr ∨ c = csrUepc then s.running.extra
      else writeExtra c (toXlen s.m64 v) s.running.extra := rfl

theorem State.trapReturn_ustatus (s : State) :
    s.trapReturn.running.ustatus =
      (s.running.ustatus &&& ~~~0x11) ||| 0x10 ||| (if s.running.ustatus.getLsbD 4 then 1#64 else 0#64) := rfl

/-- An access that passes its check at a record's address makes a record as `LR` does (R63, R303). -/
theorem Reservation.ok_of_accessOk {k : AccessKind} {a : DWord} {w : ResWidth}
    (h : s.accessOk k a w.bytes = true) : Reservation.ok s.m64 { addr := a, width := w } := by
  obtain ⟨aligned, valid⟩ := State.accessOk_iff.1 h
  exact ⟨aligned, State.memValid_le valid⟩

/-- A record after a write is the record before it. -/
theorem surviving_eq_some {a n : Nat} {o : Option Reservation} {r : Reservation} (h : surviving a n o = some r) :
    o = some r := by
  cases o with
  | none => exact h
  | some q =>
    rw [surviving_some] at h
    split at h
    · cases h
    · exact h

theorem Hart.Ok.invalidate (h : p.Ok m64) (a n : Nat) : (p.invalidate a n).Ok m64 :=
  { h with res := fun r hr => h.res r (surviving_eq_some hr) }

/-! ### The harts of a run (R25) -/

theorem idsOk.perm {ids ids' : List HartId} (h : idsOk ids) (hp : ids'.Perm ids) : idsOk ids' := by
  rcases h with rfl | h
  · exact .inl (List.perm_singleton.1 hp)
  · exact .inr (by rw [hp.length_eq]; exact hp.trans h)

namespace State.Inv

theorem running (h : s.Inv) : s.running.Ok s.m64 := h.harts _ List.mem_cons_self

/-- The harts in another order. -/
theorem of_perm (h : s.Inv) (hm : t.m64 = s.m64) (hc : t.catalog = s.catalog) (hmem : t.mem = s.mem)
    (hp : t.harts.Perm s.harts) : t.Inv where
  catalog := hc ▸ h.catalog
  memory := hmem ▸ h.memory
  harts q hq := hm ▸ h.harts q (hp.mem_iff.1 hq)
  ids := h.ids.perm (hp.map _)

/-- An update of the running hart alone. -/
theorem withRunning (h : s.Inv) (hid : p.id = s.running.id) (hp : p.Ok s.m64) :
    State.Inv { s with running := p } where
  catalog := h.catalog
  memory := h.memory
  harts := List.forall_mem_cons.2 ⟨hp, (List.forall_mem_cons.1 h.harts).2⟩
  ids := by simpa only [State.hartIds, State.harts, List.map_cons, hid] using h.ids

/-! ### Each update of the state -/

theorem writeX (h : s.Inv) (r : Reg) (v : DWord) : (s.writeX r v).Inv := by
  have hp : (s.writeX r v).running.Ok s.m64 := { h.running with
    x0 := by
      have hslot : ¬(r ≠ 0 ∧ r.toNat = (0 : Fin 32).val) := fun c => c.1 (BitVec.eq_of_toNat_eq c.2)
      rw [State.writeX_get, if_neg hslot]
      exact h.running.x0
    extended := fun hm q => by
      rw [State.writeX_get, hm]
      split
      · simp
      · exact h.running.extended hm q }
  exact h.withRunning rfl hp

theorem setPc (h : s.Inv) (v : DWord) : (s.setPc v).Inv :=
  h.withRunning rfl { h.running with pc := fitsXlen_toXlen s.m64 v }

theorem writeF (h : s.Inv) (r : Reg) (v : DWord) : (s.writeF r v).Inv := h.withRunning rfl { h.running with }

theorem accrue (h : s.Inv) (fl : Flags) : (s.accrue fl).Inv := h.withRunning rfl { h.running with }

theorem signalHost (h : s.Inv) (g : Signal) : (s.signalHost g).Inv := h.withRunning rfl { h.running with }

theorem beginStep (h : s.Inv) : s.beginStep.Inv := h.withRunning rfl { h.running with }

theorem advance (h : s.Inv) : s.advance.Inv := h.setPc _

theorem resume (h : s.Inv) : s.resume.Inv := h.advance.withRunning rfl { h.advance.running with }

theorem setRes (h : s.Inv) {o : Option Reservation} (ho : ∀ r, o = some r → r.ok s.m64) : (s.setRes o).Inv :=
  h.withRunning rfl { h.running with res := ho }

theorem clearRes (h : s.Inv) : (s.setRes none).Inv := h.setRes fun _ hr => by cases hr

theorem reserve (h : s.Inv) {a : DWord} {w : ResWidth} (ok : s.accessOk .load a w.bytes = true) :
    (s.setRes (some { addr := a, width := w })).Inv :=
  h.setRes fun _ hr => by cases hr; exact Reservation.ok_of_accessOk ok

/-- A store changes memory, and of the harts the reservations alone (R67, R69). -/
theorem writeMem (h : s.Inv) (a : DWord) (n : Nat) (v : BitVec (8 * n)) : (s.writeMem a n v).Inv where
  catalog := h.catalog
  memory := Memory.wf_writeLe h.memory _ _ _
  harts q hq := by
    have hq : q ∈ s.harts.map (Hart.invalidate a.toNat n) := hq
    obtain ⟨p, hp, rfl⟩ := List.mem_map.1 hq
    exact (h.harts p hp).invalidate _ _
  ids := by
    have hids : (s.writeMem a n v).hartIds = s.hartIds := by
      show (s.harts.map (Hart.invalidate a.toNat n)).map (·.id) = s.harts.map (·.id)
      rw [List.map_map]
      rfl
    rw [hids]
    exact h.ids

/-- A control register keeps the bits that read as zero clear (R39, R40, R41). -/
theorem csrWrite (h : s.Inv) (c : CsrAddr) (v : DWord) : (s.csrWrite c v).Inv := by
  have hp : (s.csrWrite c v).running.Ok s.m64 := { h.running with
    ustatus := by
      rw [State.csrWrite_ustatus]
      split
      · rw [BitVec.and_assoc]; simp
      · exact h.running.ustatus
    uepc := by
      rw [State.csrWrite_uepc]
      split
      · exact fitsXlen_clearBit0 (fitsXlen_toXlen _ _)
      · exact h.running.uepc
    uepcBit0 := by
      rw [State.csrWrite_uepc]
      split
      · simp
      · exact h.running.uepcBit0
    extra := by
      rw [State.csrWrite_extra]
      split
      · exact h.running.extra
      · exact writeExtra_keepLow h.running.extra }
  exact h.withRunning rfl hp

/-- `URET` writes `UIE` and `UPIE` alone, and its target is an `XLEN`-bit value (R446). -/
theorem trapReturn (h : s.Inv) : s.trapReturn.Inv := by
  have hp : s.trapReturn.running.Ok s.m64 := { h.running with
    ustatus := by
      rw [State.trapReturn_ustatus, h.running.ustatus]
      split <;> decide
    pc := fitsXlen_clearBit0 (fitsXlen_toXlen _ _) }
  exact h.withRunning rfl hp

/-! ### Instructions, custom handlers, the host's choice -/

/-- Every instruction keeps the invariant. -/
theorem exec {i : Instr} (h : s.Inv) (he : exec i s = .next t) : t.Inv := by
  cases exec_effect he with
  | toX _ rd v pc => exact (h.writeX rd v).setPc pc
  | goto _ pc => exact h.setPc pc
  | toF _ fl rd v => exact ((h.accrue fl).writeF rd v).advance
  | moveF _ rd v => exact (h.writeF rd v).advance
  | flagsToX _ fl rd v => exact ((h.accrue fl).writeX rd v).advance
  | store a n v => exact (h.writeMem a n v).advance
  | reserve _ _ _ rd v _ ok => exact ((h.reserve ok).writeX rd v).advance
  | condStore a n v rd w => exact (((h.writeMem a n v).clearRes).writeX rd w).advance
  | condFail _ rd w => exact (h.clearRes.writeX rd w).advance
  | atomic a n v rd w => exact ((h.writeMem a n v).writeX rd w).advance
  | csr _ c v rd w => exact ((h.csrWrite c v).writeX rd w).advance
  | trapReturn => exact h.trapReturn
  | signal _ g => exact h.signalHost g

/-- A write of a custom handler keeps the invariant in a state of the same width mode and map, once its check in the
state before the first write has passed. -/
theorem handlerWrite {u : State} {st : Statement} {e : HandlerWrite} (h : u.Inv) (hm : u.m64 = s.m64)
    (hr : u.regions = s.regions) (he : e.stop s st = none) : (e.run u).Inv := by
  cases e with
  | x r v => exact h.writeX r v
  | f r v => exact h.writeF r v
  | pc v => exact h.setPc v
  | flags fl => exact h.accrue fl
  | csr c v => exact h.csrWrite c v
  | mem a k v => exact h.writeMem a _ _
  | reserve w a =>
    have ok : s.accessOk .load a w.bytes = true := by
      by_contra hn
      simp [HandlerWrite.stop, hn] at he
    refine h.reserve ?_
    simpa only [State.accessOk, State.memValid, hm, hr] using ok
  | clearRes => exact h.clearRes

/-- Every custom handler keeps the invariant, whatever it answers. -/
theorem finish {o : HandlerOutcome} {st : Statement} (h : s.Inv) (hf : s.finish st o = .next t) : t.Inv := by
  rcases State.finish_next.1 hf with ⟨writes, -, hstop, rfl⟩ | ⟨g, -, rfl⟩
  · have hall := HandlerWrite.foldl_induction (P := fun u => u.Inv ∧ u.m64 = s.m64 ∧ u.regions = s.regions)
      (writes := writes) ⟨h.advance, rfl, rfl⟩ fun u e he ⟨hu, hm, hr⟩ =>
        ⟨hu.handlerWrite hm hr (hstop e he), (e.run_m64 u).trans hm, (e.run_regions u).trans hr⟩
    exact hall.1
  · exact h.signalHost g

/-- The host's choice of a hart keeps the invariant (R481). -/
theorem select {a : HartId} (h : s.Inv) (hs : s.select a = some t) : t.Inv := by
  obtain ⟨-, hp, hmem, hm, hc, -, -⟩ := State.select_some hs
  exact h.of_perm hm hc hmem hp

theorem withMoves (h : s.Inv) (moves : List HostMove) : State.Inv { s with moves := moves } :=
  ⟨h.catalog, h.memory, h.harts, h.ids⟩

/-- The hart that is to run does so in a state with the invariant. -/
theorem takeTurn_run {u : State} (h : s.Inv) (ht : s.takeTurn = .run u) : u.Inv := by
  rcases State.takeTurn_run ht with ⟨-, rfl⟩ | ⟨a, rest, v, -, hv, rfl⟩
  · exact h.beginStep
  · exact ((h.withMoves rest).select hv).beginStep

/-- The answer to a signal keeps the invariant (R474). -/
theorem takeTurn_done (h : s.Inv) (ht : s.takeTurn = .done (.next t)) : t.Inv := by
  obtain ⟨a, rest, v, -, -, hv, -, rfl⟩ := State.takeTurn_done ht
  exact ((h.withMoves rest).select hv).resume

theorem step (h : s.Inv) (hs : step s = .next t) : t.Inv := by
  rcases step_next hs with ⟨u, hu, ⟨i, hi⟩ | ⟨k, st, hk⟩⟩ | hd
  · exact (h.takeTurn_run hu).exec hi
  · exact (h.takeTurn_run hu).finish hk
  · exact h.takeTurn_done hd

end State.Inv

/-- Settles O14: every update an effect or a custom handler is made of keeps the invariant, and so does the host's
choice of a hart. -/
theorem stepKeepsInv : Obligations.StepKeepsInv := fun _ _ h hs => h.step hs

end Sys2Proof.Machine
end

section
/-! The start of a run: what a launch answers, its harts at reset and its memory (R5, R23, R46, R492, R493). -/

namespace Sys2Proof.Machine

variable {t : State} {l : Launch}

/-! ### The harts -/

/-- The added control registers start within their widths (R41). -/
theorem extraAtReset_keepLow (set : List CsrSpec) :
    ∀ e ∈ extraAtReset set, keepLow e.spec.width e.value = e.value :=
  List.forall_mem_map.2 fun _ _ => keepLow_keepLow _ _

theorem hartsFrom_ids (m64 : Bool) (extra : List ExtraCsr) (n : Nat) (pcs : List DWord) :
    (hartsFrom m64 extra n pcs).map (·.id) = (List.range' n pcs.length).map .hart := by
  induction pcs generalizing n with
  | nil => rfl
  | cons pc rest ih => simp [hartsFrom, ih, Hart.atReset, List.range'_succ]

theorem hartsFrom_pcs (m64 : Bool) (extra : List ExtraCsr) (n : Nat) (pcs : List DWord) :
    (hartsFrom m64 extra n pcs).map (·.pc) = pcs.map (toXlen m64) := by
  induction pcs generalizing n with
  | nil => rfl
  | cons pc rest ih => simp [hartsFrom, ih, Hart.atReset]

theorem mem_hartsFrom {m64 : Bool} {extra : List ExtraCsr} {n : Nat} {pcs : List DWord} {h : Hart}
    (hh : h ∈ hartsFrom m64 extra n pcs) : ∃ id pc, h = Hart.atReset id (toXlen m64 pc) extra := by
  induction pcs generalizing n with
  | nil => cases hh
  | cons pc rest ih =>
    rcases List.mem_cons.1 hh with rfl | hh
    · exact ⟨_, _, rfl⟩
    · exact ih hh

/-- Every hart of a launch is at reset. -/
theorem mem_launchHarts {h : Hart} (hh : h ∈ launchHarts l) :
    ∃ id pc, h = Hart.atReset id (toXlen l.m64 pc) (extraAtReset l.csrSet) := by
  unfold launchHarts at hh
  split at hh
  · exact ⟨_, _, List.mem_singleton.1 hh⟩
  · exact mem_hartsFrom hh

theorem launchHarts_single {pc : DWord} (h : l.harts = .single pc) :
    (launchHarts l).map (·.id) = [.default] ∧ (launchHarts l).map (·.pc) = [toXlen l.m64 pc] := by
  simp [launchHarts, h, Hart.atReset]

theorem launchHarts_multi {pcs : List DWord} (h : l.harts = .multi pcs) :
    (launchHarts l).map (·.id) = (List.range pcs.length).map .hart ∧
      (launchHarts l).map (·.pc) = pcs.map (toXlen l.m64) := by
  simp only [launchHarts, h, hartsFrom_ids, hartsFrom_pcs, List.range_eq_range', and_self]

/-- The harts of a launch are those of one of the two kinds of run (R25). -/
theorem launchHarts_idsOk (l : Launch) : idsOk ((launchHarts l).map (·.id)) := by
  cases h : l.harts with
  | single pc => exact .inl (launchHarts_single h).1
  | multi pcs => exact .inr (by simp [(launchHarts_multi h).1])

theorem launchHarts_eq_nil : launchHarts l = [] ↔ l.harts = .multi [] := by
  unfold launchHarts
  cases l.harts with
  | single pc => simp
  | multi pcs => cases pcs <;> simp [hartsFrom]

/-- A hart at reset, at a pc of the width mode (R46). -/
theorem Hart.atReset_ok (id : HartId) {m64 : Bool} {pc : DWord} {extra : List ExtraCsr} (hpc : fitsXlen m64 pc)
    (he : ∀ e ∈ extra, keepLow e.spec.width e.value = e.value) : (Hart.atReset id pc extra).Ok m64 where
  x0 := by simp [Hart.atReset, Vector.get_eq_getElem]
  extended _ r := by simp [Hart.atReset, Vector.get_eq_getElem, sext64, low32]
  pc := hpc
  ustatus := by simp [Hart.atReset]
  uepc := by cases m64 <;> rfl
  uepcBit0 := by simp [Hart.atReset]
  extra := he
  res _ h := by cases h

/-- The registers of a hart at reset are zero (R46, D20). -/
theorem Hart.atReset_zero (id : HartId) (pc : DWord) (extra : List ExtraCsr) :
    (∀ r : Reg, (Hart.atReset id pc extra).stored r = 0) ∧ ∀ k : Fin 32, (Hart.atReset id pc extra).f[k] = 0 := by
  constructor
  · intro r; simp [Hart.stored, Hart.atReset]
  · intro k; simp [Hart.atReset]

/-! ### The image -/

section Image
variable {m : Memory} {image : List Host.Cell}

/-- `Memory.ofImage` over any memory, for induction on the image. -/
def Memory.place (m : Memory) (image : List Host.Cell) : Memory := image.foldl (fun m c => m.write c.1 c.2) m

theorem Memory.ofImage_eq (image : List Host.Cell) : Memory.ofImage image = Memory.place { cells := [] } image := rfl

theorem Memory.place_cons (m : Memory) (c : Host.Cell) (rest : List Host.Cell) :
    m.place (c :: rest) = (m.write c.1 c.2).place rest := rfl

theorem Memory.wf_place (h : m.wf) : (m.place image).wf := by
  induction image generalizing m with
  | nil => exact h
  | cons c rest ih => exact ih (m.wf_write h _ _)

/-- A byte the image does not list is as before. -/
theorem Memory.read_place_outside (h : m.wf) {a : Nat} (ha : a ∉ image.map Prod.fst) :
    (m.place image).read a = m.read a := by
  induction image generalizing m with
  | nil => rfl
  | cons c rest ih =>
    obtain ⟨hne, hrest⟩ := not_or.1 (List.mem_cons.not.1 ha)
    rw [Memory.place_cons, ih (m.wf_write h _ _) hrest, Memory.read_write h, if_neg hne]

/-- A byte listed once is in memory. -/
theorem Memory.read_place_inside (h : m.wf) (hd : (image.map Prod.fst).Nodup) {a : Nat} {v : Byte}
    (ha : (a, v) ∈ image) : (m.place image).read a = v := by
  induction image generalizing m with
  | nil => cases ha
  | cons c rest ih =>
    obtain ⟨hc, hrest⟩ := List.nodup_cons.1 hd
    rw [Memory.place_cons]
    rcases List.mem_cons.1 ha with rfl | ha
    · rw [Memory.read_place_outside (m.wf_write h _ _) hc, Memory.read_write h, if_pos rfl]
    · exact ih (m.wf_write h _ _) hrest ha

end Image

theorem Memory.wf_nil : Memory.wf { cells := [] } := ⟨.nil, fun _ h => nomatch h⟩

/-! ### The state a launch starts from -/

/-- What a launch that starts is made of. -/
theorem launch_ok (h : State.launch l = .ok t) :
    l.catalog.build = .ok t.catalog ∧ t.harts = launchHarts l ∧ t.m64 = l.m64 ∧ t.regions = l.regions ∧
      t.mem = Memory.ofImage l.image := by
  cases hb : l.catalog.build with
  | error e => simp [State.launch, hb] at h
  | ok c =>
    rw [launch_of_build hb] at h
    cases hl : launchHarts l with
    | nil => rw [hl] at h; cases h
    | cons p rest => rw [hl] at h; cases h; exact ⟨rfl, rfl, rfl, rfl, rfl⟩

/-- A launch with a hart and a catalog that can be built starts. -/
theorem launch_starts {c : Catalog} (hb : l.catalog.build = .ok c) (hh : l.harts ≠ .multi []) :
    ∃ t, State.launch l = .ok t := by
  rw [launch_of_build hb]
  cases hl : launchHarts l with
  | nil => exact absurd (launchHarts_eq_nil.1 hl) hh
  | cons p rest => exact ⟨_, rfl⟩

/-- Every launch starts with the invariant. -/
theorem launch_inv (h : State.launch l = .ok t) : t.Inv := by
  obtain ⟨hb, hharts, hm, -, hmem⟩ := launch_ok h
  exact {
    catalog := Catalog.build_idem hb
    memory := by
      rw [hmem, Memory.ofImage_eq]
      exact Memory.wf_place Memory.wf_nil
    harts := fun p hp => by
      rw [hharts] at hp
      obtain ⟨id, pc, rfl⟩ := mem_launchHarts hp
      rw [hm]
      exact Hart.atReset_ok id (fitsXlen_toXlen _ _) (extraAtReset_keepLow _)
    ids := by
      rw [State.hartIds, hharts]
      exact launchHarts_idsOk l }

/-- Settles O16: the clauses are those of `launch_ok`, read off the harts at reset and the image. -/
theorem launchStates : Obligations.LaunchStates := by
  intro l
  refine ⟨fun e he => by simp [State.launch, he], fun c hc hh => launch_starts hc hh, fun t ht => ?_⟩
  obtain ⟨hb, hharts, hm, hr, hmem⟩ := launch_ok ht
  unfold State.hartIds
  rw [hharts, hmem, Memory.ofImage_eq]
  refine ⟨launch_inv ht, hm, hb, hr, fun p hp => ?_, fun pc => launchHarts_single, fun pcs => launchHarts_multi,
    fun a v ha hd => Memory.read_place_inside Memory.wf_nil hd ha,
    fun a ha => Memory.read_place_outside Memory.wf_nil ha⟩
  obtain ⟨id, pc, rfl⟩ := mem_launchHarts hp
  obtain ⟨hx, hf⟩ := Hart.atReset_zero id (toXlen l.m64 pc) (extraAtReset l.csrSet)
  exact ⟨hx, hf, rfl, rfl, rfl, rfl, rfl, rfl⟩

/-- Settles O15: reset is the start of the default launch, and every launch starts with the invariant. -/
theorem invAtReset : Obligations.InvAtReset := ⟨launch_inv launch_default, launch_default⟩

end Sys2Proof.Machine
end

section
/-! When a catalog is ambiguous: the overlap test is exact, and a catalog whose templates compile is refused exactly
when a word is accepted by two of its descriptors (10_state.md R23, D27). -/

namespace Sys2Proof

/-- A match has no bit where its template has no fixed bit (R131). -/
theorem value_getElem_of_free {mask value : Word} (h : value &&& ~~~mask = 0) {k : Nat} (hk : k < 32)
    (hm : mask[k] = false) : value[k] = false := by
  have hbit := congrArg (·.getLsbD k) h
  simpa [hk, hm] using hbit

/-- Where both have a fixed bit, descriptors that overlap have the same one. -/
theorem value_getElem_of_overlaps {a b : Descriptor} (h : a.overlaps b = true) {k : Nat} (hk : k < 32)
    (ha : a.mask[k] = true) (hb : b.mask[k] = true) : a.value[k] = b.value[k] := by
  simp only [Descriptor.overlaps, beq_iff_eq] at h
  have hbit := congrArg (·.getLsbD k) h
  simpa [hk, ha, hb] using hbit

/-- The word that has the fixed ones of both descriptors is accepted by either when no fixed bit of one contradicts a
fixed bit of the other. -/
theorem accepts_or_of_overlaps {a b : Descriptor} (ha : a.value &&& ~~~a.mask = 0) (hb : b.value &&& ~~~b.mask = 0)
    (h : a.overlaps b = true) : a.accepts (a.value ||| b.value) = true := by
  simp only [Descriptor.accepts, accepts, beq_iff_eq]
  ext k hk
  rw [BitVec.getElem_and, BitVec.getElem_or]
  cases hma : a.mask[k] with
  | false => rw [value_getElem_of_free ha hk hma, Bool.and_false]
  | true =>
    cases hmb : b.mask[k] with
    | false => rw [value_getElem_of_free hb hk hmb, Bool.or_false, Bool.and_true]
    | true => rw [value_getElem_of_overlaps h hk hma hmb, Bool.or_self, Bool.and_true]

theorem Descriptor.overlaps_comm (a b : Descriptor) : a.overlaps b = b.overlaps a := by
  simp only [Descriptor.overlaps, BitVec.xor_comm a.value, BitVec.and_assoc, BitVec.and_comm a.mask]

/-- The overlap test of R23 answers whether one word is accepted by both. -/
theorem Descriptor.overlaps_iff {a b : Descriptor} (ha : a.value &&& ~~~a.mask = 0) (hb : b.value &&& ~~~b.mask = 0) :
    a.overlaps b = true ↔ ∃ w, a.accepts w = true ∧ b.accepts w = true := by
  refine ⟨fun h => ⟨a.value ||| b.value, accepts_or_of_overlaps ha hb h, ?_⟩, fun ⟨w, hwa, hwb⟩ =>
    overlaps_of_accepts hwa hwb⟩
  rw [BitVec.or_comm]
  exact accepts_or_of_overlaps hb ha (a.overlaps_comm b ▸ h)

/-- A catalog has no overlap exactly when the descriptors at two places of it accept no common word. -/
theorem Catalog.noOverlap_iff {c : Catalog} (hc : ∀ d ∈ c, d.value &&& ~~~d.mask = 0) :
    c.noOverlap = true ↔ ∀ (i j : Nat) (a b : Descriptor) (w : Word), i ≠ j → (c)[i]? = some a → (c)[j]? = some b →
      a.accepts w = true → b.accepts w = false := by
  rw [Catalog.noOverlap_pairwise, List.pairwise_iff_getElem]
  constructor
  · intro h i j a b w hij hi hj hwa
    obtain ⟨hil, hia⟩ := List.getElem?_eq_some_iff.1 hi
    obtain ⟨hjl, hjb⟩ := List.getElem?_eq_some_iff.1 hj
    have hno : a.overlaps b = false := by
      rcases Nat.lt_or_gt_of_ne hij with hlt | hgt
      · exact hia ▸ hjb ▸ h i j hil hjl hlt
      · rw [Descriptor.overlaps_comm]
        exact hia ▸ hjb ▸ h j i hjl hil hgt
    by_contra hwb
    rw [overlaps_of_accepts hwa (by simpa using hwb)] at hno
    cases hno
  · intro h i j hi hj hlt
    by_contra hov
    obtain ⟨w, hwa, hwb⟩ := (Descriptor.overlaps_iff (hc _ (List.getElem_mem hi)) (hc _ (List.getElem_mem hj))).1
      (by simpa using hov)
    have hwb' := h i j _ _ w (Nat.ne_of_lt hlt) (List.getElem?_eq_getElem hi) (List.getElem?_eq_getElem hj) hwa
    rw [hwb] at hwb'
    cases hwb'

/-- A catalog whose templates compile is built or refused as ambiguous. -/
theorem Catalog.build_of_compileAll {c ds : Catalog} (h : c.compileAll = .ok ds) :
    c.build = .ok ds ∨ c.build = .error .ambiguous := by
  unfold Catalog.build
  rw [h]
  cases hn : ds.noOverlap <;> simp [hn]

/-- Settles O6: over compiled descriptors, whose match lies inside their mask, the overlap test is the common word. -/
theorem overlapExactly : Obligations.OverlapExactly := by
  refine ⟨fun a b ha hb => Descriptor.overlaps_iff ha hb, fun given built h => ⟨Catalog.build_of_compileAll h, ?_⟩⟩
  have hreg : ∀ d ∈ built, d.value &&& ~~~d.mask = 0 := by
    intro d hd
    obtain ⟨e, -, he⟩ := Catalog.compileAll_mem h d hd
    exact Descriptor.regular_value (Descriptor.compiled_regular he)
  rw [← Catalog.noOverlap_iff hreg, Catalog.build_ok]
  exact and_iff_right h

end Sys2Proof
end

section
/-! The register file (R26 to R34), and the control registers no instruction but the CSR ones writes (R36 to R40). -/

namespace Sys2Proof.Machine

variable {s t : State} {i : Instr}

/-- A register that is not boxed reads as the canonical NaN (R33). -/
theorem State.readFs_of_unboxed {r : Reg} (h : (s.readF r).extractLsb' 32 32 ≠ 0xFFFFFFFF#32) :
    s.readFs r = 0x7FC00000 := if_neg h

/-- A boxed register reads as its low half (R33). -/
theorem State.readFs_of_high_ones {r : Reg} (h : (s.readF r).extractLsb' 32 32 = 0xFFFFFFFF#32) :
    s.readFs r = (s.readF r).extractLsb' 0 32 := by
  unfold State.readFs
  rw [if_pos h, low32, BitVec.setWidth_eq_extractLsb' (by decide)]

/-- Settles O23, from the laws of a register read after a register write. -/
theorem registerFile : Obligations.RegisterFile := by
  intro s r q v w
  have hboxed : (s.writeFs r w).readF r = 0xFFFFFFFF#32 ++ w := State.readF_writeF_self s r _
  refine ⟨?_, State.readX_writeX_self s r v, fun hr hm => ?_,
    fun hq => ⟨State.stored_writeX_ne s v hq, State.readF_writeF_ne s v hq⟩, State.readF_writeF_self s r v,
    hboxed, State.readFs_of_boxed _ hboxed, State.readFs_of_unboxed, State.readFs_of_high_ones⟩
  · rw [State.readX, State.stored_zero]
    cases s.m64 <;> rfl
  · rw [State.stored_writeX_self, if_neg hr, hm]
    rfl

/-- The flags after an instruction that is no CSR instruction are those before it with more raised (R343), and the
control registers are as before but for `URET` and `ustatus`. -/
theorem exec_controlRegisters (h : exec i s = .next t) (hi : isCsr i = false) :
    (∃ fl, t.running.fflags = s.running.fflags ||| fl) ∧ t.running.frm = s.running.frm ∧
      t.running.uepc = s.running.uepc ∧ t.running.extra = s.running.extra ∧
      (i ≠ .uret → t.running.ustatus = s.running.ustatus) := by
  have quiet : ∃ fl, s.running.fflags = s.running.fflags ||| fl := ⟨0, BitVec.or_zero.symm⟩
  cases exec_effect h with
  | csr _ _ _ _ _ hcsr => rw [hcsr] at hi; cases hi
  | trapReturn _ huret => exact ⟨quiet, rfl, rfl, rfl, fun hne => absurd huret hne⟩
  | toF _ fl => exact ⟨⟨fl, rfl⟩, rfl, rfl, rfl, fun _ => rfl⟩
  | flagsToX _ fl => exact ⟨⟨fl, rfl⟩, rfl, rfl, rfl, fun _ => rfl⟩
  | _ => exact ⟨quiet, rfl, rfl, rfl, fun _ => rfl⟩

/-- Raising flags clears none. -/
theorem and_or_absorb {n : Nat} (a b : BitVec n) : a &&& (a ||| b) = a := by
  ext k hk
  simpa using Or.inl

/-- Settles O19, by cases on the effect of the instruction. -/
theorem controlRegistersKept : Obligations.ControlRegistersKept := by
  intro i s t h hi
  obtain ⟨⟨fl, hfl⟩, hkept⟩ := exec_controlRegisters h hi
  exact ⟨by rw [hfl, and_or_absorb], hkept⟩

end Sys2Proof.Machine
end

section
/-! Memory as accesses see it: a part of a stored value (R62), and the fetch of an instruction (R80, R162). -/

namespace Sys2Proof.Machine

variable {s : State} {m : Memory}

/-! ### A part of a stored value -/

/-- A read of bytes that are those of `v` is `v` cut to their number (R62). -/
theorem Memory.readLe_eq_mod {a n v : Nat} (h : ∀ k < n, m.read (a + k) = BitVec.ofNat 8 (v / 256 ^ k)) :
    m.readLe a n = v % 256 ^ n := by
  induction n generalizing a v with
  | zero => simp [Memory.readLe, Nat.mod_one]
  | succ n ih =>
    have hlow : m.read a = BitVec.ofNat 8 v := by simpa using h 0 n.succ_pos
    have hhigh : m.readLe (a + 1) n = v / 256 % 256 ^ n := ih fun k hk => by
      rw [Nat.add_assoc, Nat.add_comm 1, h (k + 1) (by omega), Nat.pow_succ', Nat.div_div_eq_div_mul]
    rw [Memory.readLe, hlow, hhigh, BitVec.toNat_ofNat, Nat.pow_succ' (m := 256), Nat.mod_mul]

/-- A read inside a stored range sees the part of the value stored there (R62). -/
theorem Memory.readLe_writeLe_part (h : m.wf) (a v : Nat) {n k j : Nat} (hkj : k + j ≤ n) :
    (m.writeLe a n v).readLe (a + k) j = v / 256 ^ k % 256 ^ j :=
  Memory.readLe_eq_mod fun i hi => by
    rw [Nat.add_assoc, Memory.read_writeLe_inside h a n v (k + i) (by omega), Nat.pow_add, Nat.div_div_eq_div_mul]

/-- Settles O24; the example is the general clause at `0x11223344`. -/
theorem narrowAccessSeesStoredBytes : Obligations.NarrowAccessSeesStoredBytes := fun m a h =>
  ⟨fun _ v _ _ => m.readLe_writeLe_part h a v, m.readLe_writeLe_part (k := 0) h a _ (by decide),
    m.readLe_writeLe_part h a _ (by decide)⟩

/-! ### The fetch -/

/-- A byte put below a word. -/
theorem toNat_append_byte {n : Nat} (w : BitVec n) (b : Byte) : (w ++ b).toNat = b.toNat + 256 * w.toNat := by
  rw [BitVec.toNat_append, ← Nat.shiftLeft_add_eq_or_of_lt b.isLt, Nat.shiftLeft_eq, Nat.add_comm, Nat.mul_comm]

/-- Four bytes read are the word of these bytes, the one at the lowest address first (R62). -/
theorem State.readMem_four (s : State) (a : DWord) :
    s.readMem a 4 = wordOfBytes (s.mem.read a.toNat) (s.mem.read (a.toNat + 1)) (s.mem.read (a.toNat + 2))
      (s.mem.read (a.toNat + 3)) := by
  apply BitVec.eq_of_toNat_eq
  have hword : s.mem.readLe a.toNat 4 < 2 ^ 32 := s.mem.readLe_lt a.toNat 4
  rw [State.readMem, BitVec.toNat_ofNat, Nat.mod_eq_of_lt hword]
  simp only [wordOfBytes, toNat_append_byte, Memory.readLe, Nat.mul_zero, Nat.add_zero]

theorem State.fetch_of_ok (h : s.accessOk .fetch s.running.pc 4 = true) : s.fetch = .ok (s.readMem s.running.pc 4) :=
  if_pos h

theorem State.fetch_of_not (h : s.accessOk .fetch s.running.pc 4 = false) :
    s.fetch = .error (.addressError .fetch s.running.pc none) :=
  if_neg (by simp [h])

/-- An instruction that cannot be fetched is a step that faults (R162). -/
theorem State.runOne_of_fetch_error {e : Fault} (h : s.fetch = .error e) : s.runOne = .fault e := by
  unfold State.runOne
  rw [h]
  rfl

/-- With no host move pending the running hart executes one instruction (log 9). -/
theorem step_of_no_moves (h : s.moves = []) : step s = s.beginStep.runOne := by
  simp only [step, State.takeTurn, h]

/-- Settles O12: the check of the access decides between the word and the fault. -/
theorem fetchRules : Obligations.FetchRules := by
  intro s
  refine ⟨fun aligned valid => ?_, fun hmoves bad => ?_⟩
  · rw [State.fetch_of_ok (State.accessOk_iff.2 ⟨aligned, valid⟩), State.readMem_four]
  · have hno : s.beginStep.accessOk .fetch s.beginStep.running.pc 4 = false := by
      rw [Bool.eq_false_iff, Ne, State.accessOk_iff]
      exact fun ⟨aligned, valid⟩ => bad.elim (· aligned) fun hv => Bool.false_ne_true (hv.symm.trans valid)
    rw [step_of_no_moves hmoves]
    exact State.runOne_of_fetch_error (State.fetch_of_not hno)

end Sys2Proof.Machine
end

section
/-! The decode block over a built catalog: what each given descriptor is built to (40_matcher.md R131, R132), and the
outputs on the words of a descriptor and on an illegal word (R135, R146, R156). -/

namespace Sys2Proof

variable {c ds : Catalog} {d : Descriptor} {w : Word} {m64 : Bool}

/-! ### Compiling descriptor by descriptor -/

/-- Compiling a catalog compiles its descriptors in order (R22). -/
theorem Catalog.compileAll_forall₂ (h : c.compileAll = .ok ds) :
    List.Forall₂ (fun d e : Descriptor => d.compiled = .ok e) c ds := by
  induction c generalizing ds with
  | nil => cases h; exact .nil
  | cons d rest ih =>
    unfold Catalog.compileAll at h
    cases hd : d.compiled with
    | error e => rw [hd] at h; cases h
    | ok d' =>
      cases hrest : Catalog.compileAll rest with
      | error e => rw [hd, hrest] at h; cases h
      | ok ds' => rw [hd, hrest] at h; cases h; exact .cons hd (ih hrest)

theorem Catalog.compileAll_getElem? (h : c.compileAll = .ok ds) {n : Nat} {e : Descriptor} (hd : (c)[n]? = some d)
    (he : (ds)[n]? = some e) : d.compiled = .ok e := by
  obtain ⟨hn, rfl⟩ := List.getElem?_eq_some_iff.1 hd
  obtain ⟨hn', rfl⟩ := List.getElem?_eq_some_iff.1 he
  exact (Catalog.compileAll_forall₂ h).get hn hn'

/-- Every descriptor of a catalog that compiles has a template of 32 significant characters (R132). -/
theorem Catalog.template_length_of_compileAll (h : c.compileAll = .ok ds) (hd : d ∈ c) :
    (significant d.template).length = 32 := by
  obtain ⟨n, hn⟩ := List.mem_iff_getElem?.1 hd
  obtain ⟨hlt, -⟩ := List.getElem?_eq_some_iff.1 hn
  have hlen := (Catalog.compileAll_forall₂ h).length_eq
  have hcompiled := Catalog.compileAll_getElem? h hn (List.getElem?_eq_getElem (hlen ▸ hlt))
  exact (Descriptor.compiledFrom_ok hcompiled).1

/-- The letters and positions of a field list are those the scan found (R141). -/
theorem fieldsOf_eq_map_fieldList (template : String) :
    fieldsOf template = (fieldList (significant template)).map fun f => (f.letter, f.positions) := by
  rw [fieldList, List.map_map]
  exact (List.map_id _).symm

/-- Settles O7: compiling goes descriptor by descriptor, and each is `Descriptor.compiled_ok`. -/
theorem compiledFromTemplates : Obligations.CompiledFromTemplates := by
  refine ⟨fun given built h => ?_, fun given ⟨d, hd, hlen⟩ => ?_, refCatalog_build⟩
  · have hall := (Catalog.build_ok.1 h).1
    refine ⟨(Catalog.compileAll_forall₂ hall).length_eq.symm, fun n d e hd he => ?_⟩
    obtain ⟨hmask, hfields, -, hkept⟩ := Descriptor.compiled_ok (Catalog.compileAll_getElem? hall hd he)
    exact ⟨hkept, hmask, by rw [fieldsOf_eq_map_fieldList, hfields]⟩
  · cases h : given.build with
    | error e => exact ⟨e, rfl⟩
    | ok built => exact absurd (Catalog.template_length_of_compileAll (Catalog.build_ok.1 h).1 hd) hlen

/-! ### The outputs (R146, R156) -/

@[simp] theorem operandSlots_nil (n : Nat) : operandSlots n [] = List.replicate n 0 := by
  induction n with
  | zero => rfl
  | succ n ih => rw [operandSlots, ih, List.replicate_succ]

/-- A slot holds the operand of its number, and zero beyond the operands (R146). -/
theorem getElem?_operandSlots (n : Nat) (ops : List Nat) (k : Nat) :
    (operandSlots n ops)[k]? = if k < n then some (BitVec.ofNat 32 (ops.getD k 0)) else none := by
  induction n generalizing ops k with
  | zero => rfl
  | succ n ih =>
    cases ops with
    | nil => simp [List.getElem?_replicate]
    | cons v vs =>
      cases k with
      | zero => simp [operandSlots]
      | succ k => simpa [operandSlots] using ih vs k

/-- No descriptor has more fields than `MAXF` (R5). -/
theorem Catalog.fields_length_le_maxFields (hd : d ∈ c) : d.fields.length ≤ c.maxFields := by
  induction c with
  | nil => cases hd
  | cons e rest ih =>
    rcases List.mem_cons.1 hd with rfl | hd
    · exact Nat.le_max_left _ _
    · exact Nat.le_trans (ih hd) (Nat.le_max_right _ _)

theorem Catalog.outputs_of_decode_some {r : Decoded} (h : c.decode w m64 = some r) :
    c.outputs w m64 =
      { illegal := false, sel := some r.descriptor, nops := r.operands.length,
        operand := operandSlots c.maxFields r.operands } := by
  rw [Catalog.outputs, h]

theorem Catalog.outputs_of_decode_none (h : c.decode w m64 = none) :
    c.outputs w m64 = { illegal := true, sel := none, nops := 0, operand := List.replicate c.maxFields 0 } := by
  rw [Catalog.outputs, h, operandSlots_nil]

/-! ### The words of a descriptor (R135, R164) -/

/-- The fixed bits of a regular descriptor put over a word leave the operands of the word (R135). -/
theorem Descriptor.extract_roundTrip (h : d.regular = true) (w : Word) :
    d.extract ((w &&& ~~~d.mask) ||| d.value) = d.extract w := by
  refine Descriptor.extract_congr fun p hp => ?_
  have hlt := Descriptor.regular_lt h hp
  have hmask := Descriptor.regular_free h hp
  rw [BitVec.getLsbD_eq_getElem hlt] at hmask
  have hvalue := value_getElem_of_free (Descriptor.regular_value h) hlt hmask
  simp [hlt, hmask, hvalue]

/-- Over an unambiguous catalog a word decodes to the enabled descriptor that accepts it (R152). -/
theorem Catalog.decode_of_accepts (hu : c.unambiguous m64) {n : Nat} (hn : (c)[n]? = some d)
    (he : d.enabled m64 = true) (ha : d.accepts w = true) :
    c.decode w m64 = some { descriptor := n, operands := d.extract w } := by
  rw [Catalog.decode, selectFrom_of_unambiguous hu hn he ha, Nat.zero_add, Option.map_some]

/-- Settles O3: a built descriptor accepts its words and leaves the field bits alone, no other descriptor of the catalog
accepts them, and the outputs are those of the decode. -/
theorem roundTripEveryDescriptor : Obligations.RoundTripEveryDescriptor := by
  intro given built h m64 w
  refine ⟨fun n d v hn he hv => ?_, Catalog.outputs_of_decode_none⟩
  have hmem := List.mem_of_getElem? hn
  have hreg := Descriptor.compiled_regular (Catalog.build_mem h hmem)
  have haccepts : d.accepts v = true := hv ▸ accepts_roundTrip (Descriptor.regular_value hreg)
  have hops : d.extract v = d.extract w := hv ▸ Descriptor.extract_roundTrip hreg w
  have hdecode := Catalog.decode_of_accepts (Catalog.build_unambiguous h m64) hn he haccepts
  rw [hops] at hdecode
  rw [Catalog.outputs_of_decode_some hdecode]
  exact ⟨haccepts, hdecode, rfl, rfl, List.length_map .., Catalog.fields_length_le_maxFields hmem,
    getElem?_operandSlots _ _⟩

end Sys2Proof
end

section
/-! O8: the value of an operand field (41_extractor.md R143) as a sum of weighted bits, and as a slice of the word where
the field's positions are adjacent. -/

namespace Sys2Proof

/-- The bit at the `j`-th position from the left weighs `2^(w-1-j)` (R143). -/
theorem gather_eq_sum (w : Word) (p : List Nat) :
    gather w p = ((List.range p.length).map fun j => (w.getLsbD (p.getD j 0)).toNat <<< (p.length - 1 - j)).sum := by
  induction p with
  | nil => rfl
  | cons q qs ih =>
    rw [gather_cons, ih, List.length_cons, List.range_succ_eq_map, List.map_cons, List.map_map, List.sum_cons]
    simp [Function.comp_def, Nat.shiftLeft_eq, Nat.sub_sub, Nat.add_comm 1]

/-- Adjacent positions hold the bits of the slice, so `gather_eq_of_bits` reads it off (R143). -/
theorem gather_adjacent (w : Word) {hi lo : Nat} (h : lo ≤ hi) :
    gather w ((List.range (hi - lo + 1)).map fun j => hi - j) = (w.extractLsb' lo (hi - lo + 1)).toNat := by
  rw [gather_eq_of_bits (v := (w.extractLsb' lo (hi - lo + 1)).toNat), List.length_map, List.length_range,
    Nat.mod_eq_of_lt (BitVec.isLt _)]
  intro j p hp
  obtain ⟨hj, rfl⟩ := List.getElem?_eq_some_iff.1 hp
  rw [List.length_map, List.length_range] at hj
  have hbit : lo + (hi - lo + 1 - 1 - j) = hi - j := by omega
  rw [List.length_map, List.length_range, BitVec.testBit_toNat, BitVec.getLsbD_extractLsb', hbit, List.getElem_map,
    List.getElem_range, decide_eq_true (by omega), Bool.true_and]

/-- Settles O8: a field's value is the weighted sum and the slice, `extract` is these values by definition, and a
descriptor of a built catalog is compiled, so its fields are those of its template. -/
theorem extractedFields : Obligations.ExtractedFields :=
  ⟨fun w p => ⟨gather_eq_sum w p, gather_lt w p⟩, fun w _ _ h => gather_adjacent w h, fun _ _ => rfl,
    fun _ _ hb _ hd w => Descriptor.extract_compiled (Catalog.build_mem hb hd) w⟩

end Sys2Proof
end

section
/-! O1 and O2: the reference catalog decodes the word of every instruction to it, and no other word (R151, R152, R164).
A word is fixed by the descriptor that accepts it and the operands extracted from it; an instruction is fixed by its
descriptor and its operands. -/

namespace Sys2Proof

variable {d e : Descriptor} {v w : Word} {m64 : Bool} {i : Instr}

/-! ### A word from its fixed bits and its operands (R135, R143) -/

/-- The first position of a field is the most significant bit of its value (R143). -/
theorem gather_cons_div_mod (w : Word) (p : Nat) (ps : List Nat) :
    gather w (p :: ps) / 2 ^ ps.length = (w.getLsbD p).toNat ∧ gather w (p :: ps) % 2 ^ ps.length = gather w ps :=
  (Nat.div_mod_unique (Nat.two_pow_pos _)).2 ⟨by rw [gather_cons, Nat.mul_comm, Nat.add_comm], gather_lt w ps⟩

/-- Words whose field gathers to one value have the same bits at its positions. -/
theorem gather_inj {ps : List Nat} (h : gather v ps = gather w ps) : ∀ p ∈ ps, v.getLsbD p = w.getLsbD p := by
  induction ps with
  | nil => exact fun _ hp => absurd hp List.not_mem_nil
  | cons q qs ih =>
    obtain ⟨hvq, hvs⟩ := gather_cons_div_mod v q qs
    obtain ⟨hwq, hws⟩ := gather_cons_div_mod w q qs
    rw [h] at hvq hvs
    refine List.forall_mem_cons.2 ⟨Bool.eq_iff_iff.2 ?_, ih (hvs.symm.trans hws)⟩
    rw [← Bool.toNat_eq_one, ← Bool.toNat_eq_one, ← hvq, hwq]

theorem Descriptor.extract_inj (h : d.extract v = d.extract w) : ∀ p ∈ d.positions, v.getLsbD p = w.getLsbD p := by
  intro p hp
  obtain ⟨f, hf, hpf⟩ := List.mem_flatMap.1 hp
  exact gather_inj (List.map_inj_left.1 h f hf) p hpf

/-- A descriptor accepts at most one word with given operands: its fixed bits and its fields are the whole word. -/
theorem Descriptor.eq_of_extract_eq (hreg : d.regular = true) (hv : d.accepts v = true) (hw : d.accepts w = true)
    (h : d.extract v = d.extract w) : v = w := by
  apply BitVec.eq_of_getLsbD_eq
  intro b hb
  by_cases hp : b ∈ d.positions
  · exact Descriptor.extract_inj h b hp
  · have hfixed := Descriptor.regular_fixed hreg hb hp
    exact (getLsbD_of_accepts hv hfixed).trans (getLsbD_of_accepts hw hfixed).symm

/-- The assembled word has the fixed bits of the descriptor (R135). -/
theorem Descriptor.accepts_assemble (hreg : d.regular = true) (ops : List Nat) : d.accepts (d.assemble ops) = true := by
  simp only [Descriptor.accepts, Sys2Proof.accepts, beq_iff_eq]
  apply BitVec.eq_of_getLsbD_eq
  intro b hb
  rw [BitVec.getLsbD_and]
  cases hm : d.mask.getLsbD b with
  | true =>
    have hp : b ∉ d.positions := fun hp => Bool.false_ne_true ((Descriptor.regular_free hreg hp).symm.trans hm)
    rw [Bool.and_true, Descriptor.assemble_eq, putFields_outside _ _ _ _ hp]
  | false =>
    rw [Bool.and_false, BitVec.getLsbD_eq_getElem hb, value_getElem_of_free (Descriptor.regular_value hreg) hb hm]

/-- The operands of the assembled word are those it was assembled from, when each fits its field (R142 to R144). -/
theorem Descriptor.extract_assemble (hreg : d.regular = true) {ops : List Nat} (hlen : ops.length = d.fields.length)
    (hfit : ∀ fv ∈ d.fields.zip ops, fv.2 < 2 ^ fv.1.positions.length) : d.extract (d.assemble ops) = ops := by
  refine gather_putFields d.fields ops d.value hlen (Descriptor.regular_nodup hreg)
    (fun p hp => Descriptor.regular_lt hreg hp) (fun p hp => ?_) hfit
  have hlt := Descriptor.regular_lt hreg hp
  rw [BitVec.getLsbD_eq_getElem hlt]
  exact value_getElem_of_free (Descriptor.regular_value hreg) hlt (Descriptor.regular_free hreg hp)

/-! ### An operand by its letter (R142) -/

theorem addPosition_letters (c : Char) (b : Nat) (found : List (Char × List Nat)) :
    (addPosition c b found).map Prod.fst =
      if c ∈ found.map Prod.fst then found.map Prod.fst else found.map Prod.fst ++ [c] := by
  induction found with
  | nil => rfl
  | cons f rest ih =>
    obtain ⟨d, ps⟩ := f
    by_cases hc : c = d
    · simp [addPosition, hc]
    · simp only [addPosition, beq_iff_eq, hc, if_false, List.map_cons, ih, List.mem_cons, false_or]
      split <;> rfl

/-- Each letter has one field (R141). -/
theorem scanFields_letters_nodup (cs : List Char) {found : List (Char × List Nat)} (h : (found.map Prod.fst).Nodup) :
    ((scanFields cs found).map Prod.fst).Nodup := by
  induction cs generalizing found with
  | nil => exact h
  | cons c cs ih =>
    unfold scanFields
    split
    · exact ih h
    · refine ih ?_
      rw [addPosition_letters]
      split
      · exact h
      · rename_i hc
        exact List.concat_eq_append ▸ h.concat hc

theorem Descriptor.letters_nodup (h : d.compiled = .ok e) : (e.fields.map (·.letter)).Nodup := by
  rw [(Descriptor.compiled_ok h).2.1, fieldList, List.map_map]
  exact scanFields_letters_nodup _ List.nodup_nil

/-- The operand a handler finds by a letter is the value of the field with that letter (R142). -/
theorem Descriptor.op_extract (hn : (d.fields.map (·.letter)).Nodup) (w : Word) {f : Field} (hf : f ∈ d.fields) :
    d.op (d.extract w) f.letter = gather w f.positions := by
  have hzip : d.fields.zip (d.extract w) = d.fields.map fun g => (g, gather w g.positions) := by
    rw [Descriptor.extract, List.map_prod_left_eq_zip]
  have hfind : d.fields.find? (fun g => g.letter == f.letter) = some f := by
    cases hg : d.fields.find? (fun g => g.letter == f.letter) with
    | none => exact absurd (List.find?_eq_none.1 hg f hf) (by simp)
    | some g =>
      have hletter : g.letter = f.letter := by simpa using List.find?_some hg
      rw [List.inj_on_of_nodup_map hn (List.mem_of_find?_eq_some hg) hf hletter]
  rw [Descriptor.op, hzip, List.find?_map]
  simp [hfind]

/-! ### Instructions and the rows of the reference catalog -/

namespace Laws.Encoding

/-- Every instruction and its descriptor belong together, constructor by constructor. -/
theorem statement (i : Instr) : Statement i :=
  match i with
  | .add .. => add .. | .sub .. => sub .. | .sll .. => sll .. | .slt .. => slt .. | .sltu .. => sltu ..
  | .xor .. => xor .. | .srl .. => srl .. | .sra .. => sra .. | .or .. => or .. | .and .. => and ..
  | .mul .. => mul .. | .mulh .. => mulh .. | .mulhsu .. => mulhsu .. | .mulhu .. => mulhu .. | .div .. => div ..
  | .divu .. => divu .. | .rem .. => rem .. | .remu .. => remu .. | .addw .. => addw .. | .subw .. => subw ..
  | .sllw .. => sllw .. | .srlw .. => srlw .. | .sraw .. => sraw .. | .mulw .. => mulw .. | .divw .. => divw ..
  | .divuw .. => divuw .. | .remw .. => remw .. | .remuw .. => remuw .. | .addi .. => addi .. | .slti .. => slti ..
  | .sltiu .. => sltiu .. | .xori .. => xori .. | .ori .. => ori .. | .andi .. => andi .. | .slli .. => slli ..
  | .srli .. => srli .. | .srai .. => srai .. | .slliHi .. => slliHi .. | .srliHi .. => srliHi ..
  | .sraiHi .. => sraiHi .. | .addiw .. => addiw .. | .slliw .. => slliw .. | .srliw .. => srliw ..
  | .sraiw .. => sraiw .. | .lui .. => lui .. | .auipc .. => auipc .. | .lb .. => lb .. | .lh .. => lh ..
  | .lw .. => lw .. | .lbu .. => lbu .. | .lhu .. => lhu .. | .lwu .. => lwu .. | .ld .. => ld .. | .sb .. => sb ..
  | .sh .. => sh .. | .sw .. => sw .. | .sd .. => sd .. | .beq .. => beq .. | .bne .. => bne .. | .blt .. => blt ..
  | .bge .. => bge .. | .bltu .. => bltu .. | .bgeu .. => bgeu .. | .jal .. => jal .. | .jalr .. => jalr ..
  | .lrW .. => lrW .. | .scW .. => scW .. | .amoswapW .. => amoswapW .. | .amoaddW .. => amoaddW ..
  | .amoxorW .. => amoxorW .. | .amoandW .. => amoandW .. | .amoorW .. => amoorW .. | .amominW .. => amominW ..
  | .amomaxW .. => amomaxW .. | .amominuW .. => amominuW .. | .amomaxuW .. => amomaxuW .. | .lrD .. => lrD ..
  | .scD .. => scD .. | .amoswapD .. => amoswapD .. | .amoaddD .. => amoaddD .. | .amoxorD .. => amoxorD ..
  | .amoandD .. => amoandD .. | .amoorD .. => amoorD .. | .amominD .. => amominD .. | .amomaxD .. => amomaxD ..
  | .amominuD .. => amominuD .. | .amomaxuD .. => amomaxuD .. | .flw .. => flw .. | .fsw .. => fsw ..
  | .fmaddS .. => fmaddS .. | .fmsubS .. => fmsubS .. | .fnmsubS .. => fnmsubS .. | .fnmaddS .. => fnmaddS ..
  | .faddS .. => faddS .. | .fsubS .. => fsubS .. | .fmulS .. => fmulS .. | .fdivS .. => fdivS ..
  | .fsqrtS .. => fsqrtS .. | .fsgnjS .. => fsgnjS .. | .fsgnjnS .. => fsgnjnS .. | .fsgnjxS .. => fsgnjxS ..
  | .fminS .. => fminS .. | .fmaxS .. => fmaxS .. | .feqS .. => feqS .. | .fltS .. => fltS .. | .fleS .. => fleS ..
  | .fclassS .. => fclassS .. | .fcvtWS .. => fcvtWS .. | .fcvtSW .. => fcvtSW .. | .fcvtWuS .. => fcvtWuS ..
  | .fcvtSWu .. => fcvtSWu .. | .fcvtLS .. => fcvtLS .. | .fcvtSL .. => fcvtSL .. | .fcvtLuS .. => fcvtLuS ..
  | .fcvtSLu .. => fcvtSLu .. | .fmvXW .. => fmvXW .. | .fmvWX .. => fmvWX .. | .fld .. => fld .. | .fsd .. => fsd ..
  | .fmaddD .. => fmaddD .. | .fmsubD .. => fmsubD .. | .fnmsubD .. => fnmsubD .. | .fnmaddD .. => fnmaddD ..
  | .faddD .. => faddD .. | .fsubD .. => fsubD .. | .fmulD .. => fmulD .. | .fdivD .. => fdivD ..
  | .fsqrtD .. => fsqrtD .. | .fsgnjD .. => fsgnjD .. | .fsgnjnD .. => fsgnjnD .. | .fsgnjxD .. => fsgnjxD ..
  | .fminD .. => fminD .. | .fmaxD .. => fmaxD .. | .feqD .. => feqD .. | .fltD .. => fltD .. | .fleD .. => fleD ..
  | .fclassD .. => fclassD .. | .fcvtWD .. => fcvtWD .. | .fcvtDW .. => fcvtDW .. | .fcvtWuD .. => fcvtWuD ..
  | .fcvtDWu .. => fcvtDWu .. | .fcvtLD .. => fcvtLD .. | .fcvtDL .. => fcvtDL .. | .fcvtLuD .. => fcvtLuD ..
  | .fcvtDLu .. => fcvtDLu .. | .fcvtSD .. => fcvtSD .. | .fcvtDS .. => fcvtDS .. | .fmvXD .. => fmvXD ..
  | .fmvDX .. => fmvDX .. | .fence .. => fence .. | .fenceI .. => fenceI .. | .ecall => ecall | .ebreak => ebreak
  | .uret => uret | .wfi => wfi | .csrrw .. => csrrw .. | .csrrs .. => csrrs .. | .csrrc .. => csrrc ..
  | .csrrwi .. => csrrwi .. | .csrrsi .. => csrrsi .. | .csrrci .. => csrrci ..

end Laws.Encoding

theorem Instr.getElem?_index (i : Instr) : (refCatalog)[i.index]? = some i.descriptor := by
  obtain ⟨-, -, -, hrow, -⟩ := Laws.Encoding.statement i
  exact hrow

theorem Instr.descriptor_mem (i : Instr) : i.descriptor ∈ refCatalog := List.mem_of_getElem? i.getElem?_index

theorem Instr.descriptor_enabled (i : Instr) : i.descriptor.enabled m64 = i.wellFormed m64 := by
  obtain ⟨-, -, -, -, h64⟩ := Laws.Encoding.statement i
  rw [Descriptor.enabled, Instr.wellFormed, h64]

/-- The descriptor of an instruction accepts its word (R135). -/
theorem accepts_encode (i : Instr) : i.descriptor.accepts (encode i) = true :=
  Descriptor.accepts_assemble (refCatalog_regular _ i.descriptor_mem) _

/-- The operands of an instruction come back from its word (R143). -/
theorem extract_encode (i : Instr) : i.descriptor.extract (encode i) = i.operands := by
  obtain ⟨-, hlen, hfit, -, -⟩ := Laws.Encoding.statement i
  exact Descriptor.extract_assemble (refCatalog_regular _ i.descriptor_mem) hlen hfit

/-- A selected descriptor whose handler makes `i` of the operands decodes to `i` (R152, R159). -/
theorem Catalog.decodeInstr_of_instr {c : Catalog} {n : Nat} (hs : c.selectFrom m64 w 0 = some (n, d))
    (hi : d.instr (d.extract w) = some i) : c.decodeInstr m64 w = .ok i := by
  unfold Descriptor.instr at hi
  unfold Catalog.decodeInstr
  simp only [hs]
  cases hd : d.handler with
  | spec h => rw [hd] at hi; exact congrArg Except.ok (Option.some.inj hi)
  | custom k => rw [hd] at hi; cases hi

/-- Settles O1: the descriptor of `i` is the one that accepts the word, and its handler makes `i` of the operands. -/
theorem decodeOfEncode : Obligations.DecodeOfEncode := by
  intro m64 i hwf
  obtain ⟨hinstr, -⟩ := Laws.Encoding.statement i
  have hselect := selectFrom_of_unambiguous (n := 0) (Catalog.build_unambiguous refCatalog_build m64) i.getElem?_index
    (i.descriptor_enabled.trans hwf) (accepts_encode i)
  exact Catalog.decodeInstr_of_instr hselect ((extract_encode i).symm ▸ hinstr)

/-! ### The instruction a row decodes to -/

/-- A handler makes the instruction of its own row. -/
theorem Handler.instr_index (h : Handler) (op : Char → Nat) : (h.instr op).index = h.ctorIdx := by
  cases h <;> rfl

/-- A handler reads every letter of its row and cuts each operand to the width of its field. -/
theorem Handler.instr_operands (h : Handler) (op : Char → Nat) :
    (h.instr op).operands =
      (h.instr op).descriptor.fields.map fun f => op f.letter % 2 ^ f.positions.length := by
  cases h <;> rfl

/-- Row `n` of the reference catalog names handler number `n`. -/
theorem refCatalog_ctorIdx {n : Nat} {h : Handler} (hn : (refCatalog)[n]? = some d) (hh : d.handler = .spec h) :
    h.ctorIdx = n := by
  have hrow := congrArg (·[n]?) refCatalog_handlers
  simp only [List.getElem?_map, hn, hh, Option.map_some] at hrow
  obtain ⟨m, hm, hmn⟩ := Option.map_eq_some_iff.1 hrow.symm
  obtain ⟨hlt, rfl⟩ := List.getElem?_eq_some_iff.1 hm
  simpa using hmn.symm

/-- A word that decodes to `i` selects the row of `i`, and its operands are those of `i` (R152, R142). -/
theorem selectFrom_of_decode (h : decode m64 w = .ok i) :
    refCatalog.selectFrom m64 w 0 = some (i.index, i.descriptor) ∧ i.descriptor.extract w = i.operands := by
  obtain ⟨n, d, g, hs, hg, rfl, -⟩ := Machine.Catalog.decodeInstr_ok h
  obtain ⟨-, hn, -, -⟩ := selectFrom_some hs
  have hindex : (g.instr (d.op (d.extract w))).index = n := (g.instr_index _).trans (refCatalog_ctorIdx hn hg)
  have hdesc : (g.instr (d.op (d.extract w))).descriptor = d :=
    Option.some.inj ((Instr.getElem?_index _).symm.trans (hindex ▸ hn))
  have hnodup := Descriptor.letters_nodup (refCatalog_compiled d (List.mem_of_getElem? hn))
  refine ⟨by rw [hindex, hdesc, hs], ?_⟩
  rw [g.instr_operands, hdesc]
  exact List.map_congr_left fun f hf => by
    rw [Descriptor.op_extract hnodup w hf, Nat.mod_eq_of_lt (gather_lt w f.positions)]

/-- Settles O2: the word and the encoding are accepted by one descriptor and have the same operands. -/
theorem encodeOfDecode : Obligations.EncodeOfDecode := by
  intro m64 w i h
  obtain ⟨hselect, hops⟩ := selectFrom_of_decode h
  obtain ⟨-, -, henabled, haccepts⟩ := selectFrom_some hselect
  exact ⟨Descriptor.eq_of_extract_eq (refCatalog_regular _ i.descriptor_mem) (accepts_encode i) haccepts
    ((extract_encode i).trans hops.symm), i.descriptor_enabled.symm.trans henabled⟩

end Sys2Proof
end

section
/-! O5 and O4: over a built catalog, which is unambiguous, the arbiter's choice does not depend on the order of the
descriptors (10_state.md R23, 42_dispatch.md R152, R154, R165). -/

namespace Sys2Proof

variable {c c' : Catalog} {d : Descriptor} {w : Word} {m64 : Bool} {n : Nat}

theorem Descriptor.enabled_iff : d.enabled m64 = true ↔ d.requires64 = false ∨ m64 = true := by
  simp [Descriptor.enabled]

theorem Descriptor.accepts_iff : d.accepts w = true ↔ w &&& d.mask = d.value := beq_iff_eq

/-- Over an unambiguous catalog the arbiter selects a descriptor exactly when it is enabled and accepts the word. -/
theorem selectFrom_eq_some_iff (hu : c.unambiguous m64) :
    c.selectFrom m64 w 0 = some (n, d) ↔ (c)[n]? = some d ∧ d.enabled m64 = true ∧ d.accepts w = true := by
  refine ⟨fun h => (selectFrom_some h).2, fun ⟨hn, he, ha⟩ => ?_⟩
  rw [selectFrom_of_unambiguous hu hn he ha, Nat.zero_add]

theorem Catalog.decode_eq_some_iff (hu : c.unambiguous m64) {ops : List Nat} :
    c.decode w m64 = some { descriptor := n, operands := ops } ↔
      ∃ d, (c)[n]? = some d ∧ d.enabled m64 = true ∧ d.accepts w = true ∧ ops = d.extract w := by
  refine ⟨fun h => ?_, fun ⟨d, hn, he, ha, hops⟩ => hops ▸ Catalog.decode_of_accepts hu hn he ha⟩
  obtain ⟨⟨k, d⟩, hs, hr⟩ := Option.map_eq_some_iff.1 h
  cases hr
  obtain ⟨hn, he, ha⟩ := (selectFrom_eq_some_iff hu).1 hs
  exact ⟨d, hn, he, ha, rfl⟩

/-- A word is illegal exactly when no enabled descriptor accepts it (R153). -/
theorem Catalog.decode_eq_none_iff :
    c.decode w m64 = none ↔ ∀ d ∈ c, ¬(d.enabled m64 = true ∧ d.accepts w = true) := by
  rw [Catalog.decode, Option.map_eq_none_iff, selectFrom_none]
  simp

/-- Two enabled descriptors of an unambiguous catalog that accept one word stand at one index (R23). -/
theorem Catalog.index_unique (hu : c.unambiguous m64) {k : Nat} {e : Descriptor} (hd : (c)[n]? = some d)
    (hdw : d.enabled m64 = true ∧ d.accepts w = true) (he : (c)[k]? = some e)
    (hew : e.enabled m64 = true ∧ e.accepts w = true) : n = k := by
  have hn := (selectFrom_eq_some_iff hu).2 ⟨hd, hdw⟩
  rw [(selectFrom_eq_some_iff hu).2 ⟨he, hew⟩] at hn
  cases hn
  rfl

/-! ### The order of the catalog -/

theorem Catalog.unambiguous_of_perm (hp : c'.Perm c) (hu : c.unambiguous m64) : c'.unambiguous m64 :=
  ((hp.filter _).pairwise_iff fun {a b} h => (b.overlaps_comm a).trans h).2 hu

/-- In another order of the catalog the arbiter selects the same descriptor (R152). -/
theorem selectFrom_snd_of_perm (hp : c'.Perm c) (hu : c.unambiguous m64) :
    (c'.selectFrom m64 w 0).map Prod.snd = (c.selectFrom m64 w 0).map Prod.snd := by
  cases hs : c.selectFrom m64 w 0 with
  | none =>
    have hnone := selectFrom_none.1 hs
    rw [selectFrom_none.2 fun d hd => hnone d (hp.mem_iff.1 hd)]
  | some nd =>
    obtain ⟨n, d⟩ := nd
    obtain ⟨hn, hhit⟩ := (selectFrom_eq_some_iff hu).1 hs
    obtain ⟨k, hk⟩ := List.mem_iff_getElem?.1 (hp.mem_iff.2 (List.mem_of_getElem? hn))
    rw [(selectFrom_eq_some_iff (Catalog.unambiguous_of_perm hp hu)).2 ⟨hk, hhit⟩]
    rfl

/-- The instruction of a word depends on the selected descriptor and not on its index. -/
theorem Catalog.decodeInstr_congr (h : (c'.selectFrom m64 w 0).map Prod.snd = (c.selectFrom m64 w 0).map Prod.snd) :
    c'.decodeInstr m64 w = c.decodeInstr m64 w := by
  unfold Catalog.decodeInstr
  cases hs' : c'.selectFrom m64 w 0 with
  | none => rw [Option.map_eq_none_iff.1 (h.symm.trans (by rw [hs']; rfl))]
  | some nd' =>
    rw [hs'] at h
    obtain ⟨nd, hs, hnd⟩ := Option.map_eq_some_iff.1 h.symm
    simp only [hs, hnd]

/-- Settles O5: a built catalog is unambiguous, so at most one enabled descriptor accepts the word, in any order. -/
theorem selectionRule : Obligations.SelectionRule := by
  intro given built h m64 w
  have hu := Catalog.build_unambiguous h m64
  have hextract : ∀ {n : Nat} {d : Descriptor}, (built)[n]? = some d → d.extract w = extract w d.template := fun hn =>
    Descriptor.extract_compiled (Catalog.build_mem h (List.mem_of_getElem? hn)) w
  simp only [← Descriptor.enabled_iff, ← Descriptor.accepts_iff]
  refine ⟨fun n ops => ?_, Catalog.decode_eq_none_iff, fun c' hp =>
    ⟨selectFrom_snd_of_perm hp hu, Catalog.decodeInstr_congr (selectFrom_snd_of_perm hp hu)⟩⟩
  rw [Catalog.decode_eq_some_iff hu]
  constructor
  · rintro ⟨d, hn, he, ha, hops⟩
    exact ⟨⟨d, hn, he, ha, hops.trans (hextract hn)⟩, fun k e hlt hk hhit =>
      Nat.ne_of_gt hlt (Catalog.index_unique hu hn ⟨he, ha⟩ hk hhit)⟩
  · rintro ⟨⟨d, hn, he, ha, hops⟩, -⟩
    exact ⟨d, hn, he, ha, hops.trans (hextract hn).symm⟩

/-- Settles O4: the reference catalog is a built one (`refCatalog_build`), with its pairs checked there. -/
theorem catalogUnambiguous : Obligations.CatalogUnambiguous :=
  ⟨rfl, Catalog.build_unambiguous refCatalog_build true, Catalog.build_unambiguous refCatalog_build false⟩

end Sys2Proof
end

section
/-! O11: a step of the running hart fetches, decodes and runs the selected handler on the decoded statement
(42_dispatch.md R157, R159, R162). -/

namespace Sys2Proof.Machine

variable {s : State} {w : Word} {m64 : Bool} {i : Instr}

/-- A word is illegal when the arbiter selects nothing (R153). -/
theorem Catalog.selectFrom_of_illegal {c : Catalog} (h : c.decodeInstr m64 w = .error .illegalInstruction) :
    c.selectFrom m64 w 0 = none := by
  unfold Catalog.decodeInstr at h
  cases hs : c.selectFrom m64 w 0 with
  | none => rfl
  | some nd =>
    obtain ⟨n, d⟩ := nd
    cases hd : d.handler <;> simp [hs, hd] at h

/-- A fetched word that is illegal is a step that raises IllegalInstruction with the word and its address (R462). -/
theorem State.runOne_of_illegal (hf : s.fetch = .ok w)
    (hd : s.catalog.decodeInstr s.m64 w = .error .illegalInstruction) :
    s.runOne = .fault (.illegalInstruction w s.running.pc) := by
  unfold State.runOne
  simp only [hf, Catalog.selectFrom_of_illegal hd, raise]

/-- Over the reference catalog the decoded statement is the one `exec` gives (R157; log 12). -/
theorem State.runOne_of_refCatalog (hc : s.catalog = refCatalog) (hf : s.fetch = .ok w)
    (hd : s.catalog.decodeInstr s.m64 w = .ok i) : s.runOne = exec i s := by
  have hdecode : s.catalog.decode w s.m64 = some { descriptor := i.index, operands := i.operands } := by
    rw [hc] at hd ⊢
    obtain ⟨hselect, hops⟩ := selectFrom_of_decode hd
    rw [Catalog.decode, hselect, Option.map_some, hops]
  exact (State.runOne_of_decode hf hdecode hd).trans exec_carrying

/-- With no host move left, or the running hart named, that hart executes one instruction, no signal pending (R481). -/
theorem step_of_own_turn {rest : List HostMove} (h : s.moves = [] ∨ s.moves = .step s.running.id :: rest) :
    step s = State.runOne { s with moves := s.moves.tail, running := { s.running with signal := none } } := by
  rcases h with h | h
  · rw [step_of_no_moves h, State.beginStep, h]
    rfl
  · simp only [step, State.takeTurn, h, State.select, if_true, State.beginStep, List.tail_cons]

/-- Settles O11: the turn is the running hart's, the fetch succeeds, and the decode decides which handler runs. -/
theorem stepRunsDecoded : Obligations.StepRunsDecoded := by
  intro s u rest w hturn aligned valid hw hu
  have hstep : step s = u.runOne := hu ▸ step_of_own_turn hturn
  have hfetch : u.fetch = .ok w := by
    subst hu hw
    exact (fetchRules _).1 aligned valid
  obtain ⟨hcatalog, hm64, hid, hpc⟩ : u.catalog = s.catalog ∧ u.m64 = s.m64 ∧ u.running.id = s.running.id ∧
      u.running.pc = s.running.pc := by simp [hu]
  rw [hstep, ← hcatalog, ← hm64, ← hid, ← hpc]
  refine ⟨fun i n ops hd hs => State.runOne_of_decode hfetch hs hd, fun i hd => ⟨?_, fun hc =>
    State.runOne_of_refCatalog hc hfetch hd⟩, fun k n ops hd hs => State.runOne_of_custom hfetch hs hd,
    State.runOne_of_illegal hfetch⟩
  obtain ⟨n, d, _, _, _, _, hs⟩ := Catalog.decodeInstr_ok hd
  exact ⟨n, d.extract w, hs⟩

end Sys2Proof.Machine
end

section
/-! What the families of integer arithmetic write to `rd` (43_arithmetic.md R170, R172, R175, R176). An operation is
read at the width of the mode, `xlen`: the two width modes are then one statement about `BitVec w`. -/

namespace Sys2Proof.Machine

variable {s : State} {i : Instr} {op : AluOp} {rd rs1 rs2 : Reg} {b u v : DWord} {m64 : Bool} {w k : Nat}

/-! ### Values at the width of the mode -/

theorem le_xlen (m64 : Bool) : 32 ≤ xlen m64 := by cases m64 <;> decide

theorem xlen_le (m64 : Bool) : xlen m64 ≤ 64 := by cases m64 <;> decide

theorem xlen_pos (m64 : Bool) : 0 < xlen m64 := Nat.lt_of_lt_of_le (by decide) (le_xlen m64)

theorem setWidth_ofInt (h : w ≤ 64) (z : Int) : (BitVec.ofInt 64 z).setWidth w = .ofInt w z := by
  have hdvd : 2 ^ w ∣ 2 ^ 64 := Nat.pow_dvd_pow 2 h
  rw [← BitVec.signExtend_eq_setWidth_of_le _ h]
  apply BitVec.eq_of_toInt_eq
  rw [BitVec.signExtend, BitVec.toInt_ofInt, BitVec.toInt_ofInt, BitVec.toInt_ofInt, Int.bmod_bmod_of_dvd hdvd]

theorem setWidth_sub {a : DWord} (h : w ≤ 64) : (a - b).setWidth w = a.setWidth w - b.setWidth w := by
  rw [BitVec.sub_eq_add_neg, BitVec.sub_eq_add_neg, BitVec.setWidth_add _ _ h, BitVec.setWidth_neg_of_le h]

/-- A comparison's result. -/
theorem setWidth_bit (h : w ≤ 64) (c : Prop) [Decidable c] :
    (if c then (1 : DWord) else 0).setWidth w = if c then 1#w else 0#w := by
  split <;> exact BitVec.setWidth_ofNat_of_le h _

theorem toNat_setWidth_readX (s : State) (r : Reg) :
    ((s.readX r).setWidth (xlen s.m64)).toNat = (s.readX r).toNat := by
  rw [BitVec.toNat_setWidth, State.readX, toXlen_toNat, Nat.mod_mod]

theorem toInt_setWidth_readX (s : State) (r : Reg) : ((s.readX r).setWidth (xlen s.m64)).toInt = s.signedX r := by
  unfold State.signedX
  generalize s.readX r = a
  cases s.m64
  · rfl
  · exact congrArg BitVec.toInt (BitVec.setWidth_eq a)

theorem setWidth_atXlen (m64 : Bool) (op : AluOp) (a b : DWord) :
    (atXlen m64 op a b).setWidth (xlen m64) = op (xlen m64) (a.setWidth (xlen m64)) (b.setWidth (xlen m64)) := by
  cases m64
  · exact low32_zext64 _
  · simp [atXlen, xlen]

theorem sameStored_iff : SameStored m64 u v ↔ u.setWidth (xlen m64) = v.setWidth (xlen m64) := by
  cases m64
  · rfl
  · simp [SameStored, xlen]

theorem sext64_eq (v : Word) : sext64 v = .ofInt 64 v.toInt := rfl

/-! ### The families -/

/-- ImmediateArithmetic: the operation at `XLEN` on the source and a second operand `b`. -/
theorem WritesX.of_arithmeticImm (he : exec i s = arithmeticImm op rd rs1 b s)
    (hv : op (xlen s.m64) ((s.readX rs1).setWidth (xlen s.m64)) (b.setWidth (xlen s.m64)) = v.setWidth (xlen s.m64)) :
    WritesX i s rd v noFlags s.nextPc :=
  .of_eq_quiet he (sameStored_iff.2 ((setWidth_atXlen s.m64 op _ _).trans hv)) rfl

/-- Arithmetic: the same on the two sources. -/
theorem WritesX.of_arithmetic (he : exec i s = arithmetic op rd rs1 rs2 s)
    (hv : op (xlen s.m64) ((s.readX rs1).setWidth (xlen s.m64)) ((s.readX rs2).setWidth (xlen s.m64)) =
      v.setWidth (xlen s.m64)) : WritesX i s rd v noFlags s.nextPc :=
  .of_arithmeticImm (b := s.readX rs2) he hv

/-- The `*W` immediates: the operation at 32 bits, sign-extended. -/
theorem WritesX.of_arithmeticImmW (he : exec i s = arithmeticImmW op rd rs1 b s)
    (hv : sext64 (op 32 (s.readXw rs1) (low32 b)) = v) : WritesX i s rd v noFlags s.nextPc :=
  .of_eq_quiet he (hv ▸ .refl) rfl

/-- ArithmeticW: the same on the two sources. -/
theorem WritesX.of_arithmeticW (he : exec i s = arithmeticW op rd rs1 rs2 s)
    (hv : sext64 (op 32 (s.readXw rs1) (s.readXw rs2)) = v) : WritesX i s rd v noFlags s.nextPc :=
  .of_arithmeticImmW (b := s.stored rs2) he hv

/-- `LUI`, `AUIPC`. -/
theorem WritesX.of_writeAndAdvance (he : exec i s = writeAndAdvance rd v s) : WritesX i s rd v noFlags s.nextPc :=
  .of_eq_quiet he .refl rfl

/-! ### Sums, bitwise operations and comparisons -/

theorem aluSlt_readX {y : BitVec (xlen s.m64)} {z : Int} (hy : y.toInt = z) :
    aluSlt (xlen s.m64) ((s.readX rs1).setWidth (xlen s.m64)) y =
      (if s.signedX rs1 < z then (1 : DWord) else 0).setWidth (xlen s.m64) := by
  rw [setWidth_bit (xlen_le _), aluSlt, toInt_setWidth_readX, hy]

theorem aluSltu_readX {y : BitVec (xlen s.m64)} {n : Nat} (hy : y.toNat = n) :
    aluSltu (xlen s.m64) ((s.readX rs1).setWidth (xlen s.m64)) y =
      (if (s.readX rs1).toNat < n then (1 : DWord) else 0).setWidth (xlen s.m64) := by
  rw [setWidth_bit (xlen_le _), aluSltu, toNat_setWidth_readX, hy]

/-- Settles O25: each operation commutes with reading at `XLEN`. -/
theorem addLogicCompare : Obligations.AddLogicCompare := by
  intro s rd rs1 rs2
  exact ⟨.of_arithmetic rfl (BitVec.setWidth_add _ _ (xlen_le _)).symm,
    .of_arithmetic rfl (setWidth_sub (xlen_le _)).symm,
    .of_arithmetic rfl BitVec.setWidth_xor.symm,
    .of_arithmetic rfl BitVec.setWidth_or.symm,
    .of_arithmetic rfl BitVec.setWidth_and.symm,
    .of_arithmetic rfl (aluSlt_readX (toInt_setWidth_readX s rs2)),
    .of_arithmetic rfl (aluSltu_readX (toNat_setWidth_readX s rs2))⟩

/-! ### Shifts -/

/-- A sign-propagating shift is the quotient rounded down. -/
theorem toInt_aluSra (x y : BitVec w) : (aluSra w x y).toInt = x.toInt / 2 ^ (y.toNat % w) := by
  rw [aluSra, BitVec.toInt_sshiftRight, Int.shiftRight_eq_div_pow]
  push_cast
  rfl

section Amount
variable {y : BitVec (xlen s.m64)} (hk : y.toNat % xlen s.m64 = k)
include hk

theorem aluSll_readX :
    aluSll (xlen s.m64) ((s.readX rs1).setWidth (xlen s.m64)) y = (s.readX rs1 <<< k).setWidth (xlen s.m64) := by
  rw [aluSll, hk, BitVec.setWidth_shiftLeft_of_le (xlen_le _)]

theorem aluSrl_readX :
    aluSrl (xlen s.m64) ((s.readX rs1).setWidth (xlen s.m64)) y = (s.readX rs1 >>> k).setWidth (xlen s.m64) := by
  apply BitVec.eq_of_toNat_eq
  have hlt : (s.readX rs1).toNat >>> k < 2 ^ xlen s.m64 :=
    Nat.lt_of_le_of_lt (Nat.shiftRight_le _ _) (toNat_setWidth_readX s rs1 ▸ BitVec.isLt _)
  rw [aluSrl, hk, BitVec.toNat_ushiftRight, toNat_setWidth_readX, BitVec.toNat_setWidth, BitVec.toNat_ushiftRight,
    Nat.mod_eq_of_lt hlt]

theorem aluSra_readX :
    aluSra (xlen s.m64) ((s.readX rs1).setWidth (xlen s.m64)) y =
      (BitVec.ofInt 64 (s.signedX rs1 / 2 ^ k)).setWidth (xlen s.m64) := by
  rw [setWidth_ofInt (xlen_le _), ← hk, ← toInt_setWidth_readX, ← toInt_aluSra, BitVec.ofInt_toInt]

end Amount

/-- Settles O26: the amount is the second source modulo `XLEN`. -/
theorem shifts : Obligations.Shifts := by
  intro s rd rs1 rs2 k hk
  have hamount : ((s.readX rs2).setWidth (xlen s.m64)).toNat % xlen s.m64 = k := by
    rw [toNat_setWidth_readX, hk]
  exact ⟨.of_arithmetic rfl (aluSll_readX hamount), .of_arithmetic rfl (aluSrl_readX hamount),
    .of_arithmetic rfl (aluSra_readX hamount)⟩

/-! ### Products -/

theorem aluMul_eq (x y : BitVec w) : aluMul w x y = .ofInt w (x.toInt * y.toInt) := by
  rw [BitVec.ofInt_mul, BitVec.ofInt_toInt, BitVec.ofInt_toInt, aluMul]

theorem highHalf_eq (p : Int) : highHalf w p = .ofInt w (p / 2 ^ w) := by
  rw [highHalf]; push_cast; rfl

/-- The high half of the unsigned product. -/
theorem aluMulhu_eq (x y : BitVec w) : aluMulhu w x y = .ofNat w (x.toNat * y.toNat / 2 ^ w) := by
  rw [aluMulhu, highHalf_eq, ← BitVec.ofInt_natCast]; push_cast; rfl

/-- Settles O27: the halves of the product of the sources as they are read at `XLEN`. -/
theorem multiply : Obligations.Multiply := by
  intro s rd rs1 rs2
  refine ⟨.of_arithmetic rfl ?mul, .of_arithmetic rfl ?mulh, .of_arithmetic rfl ?mulhsu, .of_arithmetic rfl ?mulhu⟩
  case mul => rw [setWidth_ofInt (xlen_le _), aluMul_eq, toInt_setWidth_readX, toInt_setWidth_readX]
  case mulh => rw [setWidth_ofInt (xlen_le _), aluMulh, highHalf_eq, toInt_setWidth_readX, toInt_setWidth_readX]
  case mulhsu => rw [setWidth_ofInt (xlen_le _), aluMulhsu, highHalf_eq, toInt_setWidth_readX, toNat_setWidth_readX]
  case mulhu =>
    rw [BitVec.setWidth_ofNat_of_le (xlen_le _), aluMulhu_eq, toNat_setWidth_readX, toNat_setWidth_readX]

end Sys2Proof.Machine
end

section
/-! Division and remainder with the corner cases of R177 (43_arithmetic.md R194 to R197, R204 to R207). -/

namespace Sys2Proof.Machine

variable {w : Nat}

theorem toInt_eq_zero_iff {x : BitVec w} : x.toInt = 0 ↔ x = 0#w := by
  rw [← BitVec.toInt_inj, BitVec.toInt_zero]

theorem toNat_eq_zero_iff {x : BitVec w} : x.toNat = 0 ↔ x = 0#w := by
  rw [BitVec.toNat_eq, BitVec.toNat_zero]

theorem toInt_eq_neg_one_iff (hw : 0 < w) {x : BitVec w} : x.toInt = -1 ↔ x = .allOnes w := by
  rw [← BitVec.toInt_inj, BitVec.toInt_allOnes, if_pos hw]

theorem toInt_eq_min_iff (hw : 0 < w) {x : BitVec w} : x.toInt = -2 ^ (w - 1) ↔ x = .intMin w := by
  rw [← BitVec.toInt_inj, BitVec.toInt_intMin_of_pos hw]

/-- The quotient as a signed number is the table's entry: but for the overflow, it is within the width. -/
theorem toInt_aluDiv (hw : 0 < w) (x y : BitVec w) :
    (aluDiv w x y).toInt = Claims.divS w x.toInt y.toInt := by
  simp only [Claims.divS, toInt_eq_zero_iff, toInt_eq_min_iff hw, toInt_eq_neg_one_iff hw, aluDiv]
  split
  next => rw [BitVec.toInt_allOnes, if_pos hw]
  next =>
    split
    next hover => rw [hover.1, BitVec.toInt_intMin_of_pos hw]
    next hover =>
      have hne : x ≠ .intMin w ∨ y ≠ -1#w := by
        rw [BitVec.neg_one_eq_allOnes]
        exact Classical.not_and_iff_not_or_not.1 hover
      rw [← BitVec.toInt_sdiv_of_ne_or_ne x y hne, BitVec.ofInt_toInt]

/-- In every case of the table the signed remainder is the one of truncated division: by zero it is the dividend, and
at the overflow it is zero. -/
theorem remS_eq_tmod (a b : Int) : Claims.remS w a b = a.tmod b := by
  simp only [Claims.remS, Claims.divS]
  split
  next hb => rw [hb, Int.tmod_zero]
  next hb =>
    split
    next hover => rw [hover.2, Int.tmod_neg, Int.tmod_one]
    next => rw [Int.tmod_def]

theorem toInt_aluRem (hw : 0 < w) (x y : BitVec w) : (aluRem w x y).toInt = Claims.remS w x.toInt y.toInt := by
  rw [remS_eq_tmod, aluRem]
  split
  next hy => rw [hy, BitVec.toInt_zero, Int.tmod_zero]
  next =>
    split
    next hover =>
      rw [hover.2, BitVec.toInt_allOnes, if_pos hw, Int.tmod_neg, Int.tmod_one, BitVec.toInt_zero]
    next => rw [← Int.tmod_def, ← BitVec.toInt_srem, BitVec.ofInt_toInt]

theorem aluDiv_eq (hw : 0 < w) (x y : BitVec w) : aluDiv w x y = .ofInt w (Claims.divS w x.toInt y.toInt) := by
  rw [← toInt_aluDiv hw, BitVec.ofInt_toInt]

theorem aluRem_eq (hw : 0 < w) (x y : BitVec w) : aluRem w x y = .ofInt w (Claims.remS w x.toInt y.toInt) := by
  rw [← toInt_aluRem hw, BitVec.ofInt_toInt]

theorem toNat_aluDivu (x y : BitVec w) : (aluDivu w x y).toNat = Claims.divU w x.toNat y.toNat := by
  simp only [aluDivu, Claims.divU, toNat_eq_zero_iff]
  split
  next => exact BitVec.toNat_allOnes
  next => rw [BitVec.toNat_ofNat, Nat.mod_eq_of_lt (Nat.lt_of_le_of_lt (Nat.div_le_self _ _) x.isLt)]

theorem toNat_aluRemu (x y : BitVec w) : (aluRemu w x y).toNat = Claims.remU x.toNat y.toNat := by
  simp only [aluRemu, Claims.remU, toNat_eq_zero_iff]
  split
  next => rfl
  next => rw [BitVec.toNat_ofNat, Nat.mod_eq_of_lt (Nat.lt_of_le_of_lt (Nat.mod_le _ _) x.isLt)]

theorem aluDivu_eq (x y : BitVec w) : aluDivu w x y = .ofNat w (Claims.divU w x.toNat y.toNat) := by
  rw [← toNat_aluDivu, BitVec.ofNat_toNat, BitVec.setWidth_eq]

theorem aluRemu_eq (x y : BitVec w) : aluRemu w x y = .ofNat w (Claims.remU x.toNat y.toNat) := by
  rw [← toNat_aluRemu, BitVec.ofNat_toNat, BitVec.setWidth_eq]

/-- Settles O28: each operation is its column of the table at every width, and a `*W` result is the sign extension of
the entry at 32 bits. -/
theorem divideAndRemainder : Obligations.DivideAndRemainder := by
  intro s rd rs1 rs2
  have hpos := xlen_pos s.m64
  refine ⟨.of_arithmetic rfl ?div, .of_arithmetic rfl ?divu, .of_arithmetic rfl ?rem, .of_arithmetic rfl ?remu,
    fun _ => ⟨.of_arithmeticW rfl ?divw, .of_arithmeticW rfl ?divuw, .of_arithmeticW rfl ?remw,
      .of_arithmeticW rfl ?remuw⟩⟩
  case div => rw [setWidth_ofInt (xlen_le _), aluDiv_eq hpos, toInt_setWidth_readX, toInt_setWidth_readX]
  case divu =>
    rw [BitVec.setWidth_ofNat_of_le (xlen_le _), aluDivu_eq, toNat_setWidth_readX, toNat_setWidth_readX]
  case rem => rw [setWidth_ofInt (xlen_le _), aluRem_eq hpos, toInt_setWidth_readX, toInt_setWidth_readX]
  case remu =>
    rw [BitVec.setWidth_ofNat_of_le (xlen_le _), aluRemu_eq, toNat_setWidth_readX, toNat_setWidth_readX]
  case divw => rw [sext64_eq, toInt_aluDiv (by decide)]
  case divuw => rw [aluDivu_eq, sext64]
  case remw => rw [sext64_eq, toInt_aluRem (by decide)]
  case remuw => rw [aluRemu_eq, sext64]

end Sys2Proof.Machine
end

section
/-! The `*W` instructions, immediates, constant shifts and upper immediates (43_arithmetic.md R172, R175, R176). -/

namespace Sys2Proof.Machine

variable {s : State} {rs1 : Reg} {w : Nat}

/-! ### Second operands -/

/-- The 12-bit immediate at a width (R175). -/
theorem setWidth_immI (h : w ≤ 64) (imm : Imm12) : (immI imm).setWidth w = imm.signExtend w := setWidth_ofInt h _

theorem toNat_shamtLow (sh : Shamt) : (shamtLow sh).toNat = sh.toNat := by
  rw [shamtLow, BitVec.toNat_setWidth]; omega

theorem toNat_shamtHigh (sh : Shamt) : (shamtHigh sh).toNat = 32 + sh.toNat := by
  rw [shamtHigh, BitVec.toNat_add, BitVec.toNat_setWidth, show (32 : DWord).toNat = 32 from rfl]; omega

/-- An amount below the width is taken whole. -/
theorem toNat_setWidth_mod {b : DWord} (h : b.toNat < w) : (b.setWidth w).toNat % w = b.toNat := by
  rw [BitVec.toNat_setWidth, Nat.mod_eq_of_lt (Nat.lt_trans h Nat.lt_two_pow_self), Nat.mod_eq_of_lt h]

theorem shamtLow_amount (h : 32 ≤ w) (sh : Shamt) : ((shamtLow sh).setWidth w).toNat % w = sh.toNat := by
  have hlt : (shamtLow sh).toNat < w := by rw [toNat_shamtLow]; omega
  rw [toNat_setWidth_mod hlt, toNat_shamtLow]

theorem shamtHigh_amount (h : w = 64) (sh : Shamt) : ((shamtHigh sh).setWidth w).toNat % w = 32 + sh.toNat := by
  have hlt : (shamtHigh sh).toNat < w := by rw [toNat_shamtHigh]; omega
  rw [toNat_setWidth_mod hlt, toNat_shamtHigh]

/-- The 20-bit immediate weighs 4096 (R106). -/
theorem immU_eq (imm : Imm20) : immU imm = .ofInt 64 (imm.toInt * 4096) := by
  rw [immU, BitVec.signExtend, BitVec.toInt_append_zero, Int.mul_comm]; rfl

theorem aluSltu_immI {imm : Imm12} :
    aluSltu (xlen s.m64) ((s.readX rs1).setWidth (xlen s.m64)) ((immI imm).setWidth (xlen s.m64)) =
      (if ((s.readX rs1).toNat : Int) < imm.toInt % 2 ^ xlen s.m64 then (1 : DWord) else 0).setWidth (xlen s.m64) := by
  have hy : ((immI imm).setWidth (xlen s.m64)).toNat = (imm.toInt % 2 ^ xlen s.m64).toNat := by
    rw [setWidth_immI (xlen_le _), BitVec.signExtend, BitVec.toNat_ofInt]; push_cast; rfl
  rw [aluSltu_readX hy]
  simp only [Int.lt_toNat]

/-- Settles O29: the operation at 32 bits on the low halves; the quotient of `SRAW` and `SRAIW` is rounded down. -/
theorem wordArithmetic : Obligations.WordArithmetic := by
  intro s rd rs1 rs2 imm sh a b _ ha hb
  obtain rfl : a = s.readXw rs1 := ha.trans (low32_readX s rs1)
  obtain rfl : b = s.readXw rs2 := hb.trans (low32_readX s rs2)
  have hsh : (low32 (shamtLow sh)).toNat % 32 = sh.toNat := shamtLow_amount (by decide) sh
  refine ⟨.of_arithmeticW rfl rfl, .of_arithmeticW rfl rfl, .of_arithmeticW rfl rfl, .of_arithmeticW rfl rfl,
    .of_arithmeticW rfl ?sraw, .of_arithmeticW rfl rfl, .of_arithmeticImmW rfl ?addiw, .of_arithmeticImmW rfl ?slliw,
    .of_arithmeticImmW rfl ?srliw, .of_arithmeticImmW rfl ?sraiw⟩
  case sraw => rw [sext64_eq, toInt_aluSra]
  case addiw => rw [low32, setWidth_immI (by decide), aluAdd, sext64]
  case slliw => rw [aluSll, hsh, sext64]
  case srliw => rw [aluSrl, hsh, sext64]
  case sraiw => rw [sext64_eq, toInt_aluSra, hsh]

/-- Settles O30: as the register instructions, with the immediate or the constant amount at `XLEN`. -/
theorem immediates : Obligations.Immediates := by
  intro s rd rs1 imm sh upper
  have himm : ((immI imm).setWidth (xlen s.m64)).toInt = imm.toInt := by
    rw [setWidth_immI (xlen_le _), BitVec.toInt_signExtend_of_le (Nat.le_trans (by decide) (le_xlen s.m64))]
  have hlow := shamtLow_amount (le_xlen s.m64) sh
  have hhigh (hm : s.m64 = true) := shamtHigh_amount (w := xlen s.m64) (by rw [hm, xlen, if_pos rfl]) sh
  refine ⟨.of_arithmeticImm rfl (BitVec.setWidth_add _ _ (xlen_le _)).symm,
    .of_arithmeticImm rfl BitVec.setWidth_xor.symm, .of_arithmeticImm rfl BitVec.setWidth_or.symm,
    .of_arithmeticImm rfl BitVec.setWidth_and.symm, .of_arithmeticImm rfl (aluSlt_readX himm),
    .of_arithmeticImm rfl aluSltu_immI, .of_arithmeticImm rfl (aluSll_readX hlow),
    .of_arithmeticImm rfl (aluSrl_readX hlow), .of_arithmeticImm rfl (aluSra_readX hlow), ?lui, ?auipc,
    fun hm => ⟨.of_arithmeticImm rfl (aluSll_readX (hhigh hm)), .of_arithmeticImm rfl (aluSrl_readX (hhigh hm)),
      .of_arithmeticImm rfl (aluSra_readX (hhigh hm))⟩⟩
  case lui => rw [← immU_eq]; exact .of_writeAndAdvance rfl
  case auipc => rw [← immU_eq]; exact .of_writeAndAdvance rfl

end Sys2Proof.Machine
end

section
/-! The audit of R173: which operations commute with truncating the 64-bit one on sign-extended inputs. -/

namespace Sys2Proof.Machine

variable {op : AluOp} {f : Int → Int → Int}

theorem toInt_sext64 (v : Word) : (sext64 v).toInt = v.toInt := BitVec.toInt_signExtend_of_le (by decide)

/-- An operation that is one function of the signed values at every width commutes with truncation. -/
theorem low32_op_sext64 (h : ∀ w, 0 < w → ∀ x y : BitVec w, op w x y = .ofInt w (f x.toInt y.toInt))
    (a b : Word) : low32 (op 64 (sext64 a) (sext64 b)) = op 32 a b := by
  rw [h 64 (by decide), h 32 (by decide), toInt_sext64, toInt_sext64]
  exact setWidth_ofInt (by decide) _

/-- An operation that commutes with truncation on all inputs does so on sign-extended ones. -/
theorem low32_op_sext64_of_low32 (h : ∀ x y : DWord, low32 (op 64 x y) = op 32 (low32 x) (low32 y)) (a b : Word) :
    low32 (op 64 (sext64 a) (sext64 b)) = op 32 a b := by
  rw [h, low32_sext64, low32_sext64]

theorem aluSlt_eq {w : Nat} (x y : BitVec w) : aluSlt w x y = .ofInt w (if x.toInt < y.toInt then 1 else 0) := by
  rw [aluSlt]; split <;> rfl

theorem ofInt_tdiv {w : Nat} (x y : BitVec w) : BitVec.ofInt w (x.toInt.tdiv y.toInt) = x.sdiv y := by
  apply BitVec.eq_of_toInt_eq
  rw [BitVec.toInt_ofInt, BitVec.toInt_sdiv]

/-- At the overflow the quotient wraps to the table's entry, at every width. -/
theorem aluDiv_eq_tdiv {w : Nat} (x y : BitVec w) :
    aluDiv w x y = .ofInt w (if y.toInt = 0 then -1 else x.toInt.tdiv y.toInt) := by
  simp only [aluDiv, toInt_eq_zero_iff]
  split
  next => rw [BitVec.ofInt_neg, ← BitVec.neg_one_eq_allOnes]; rfl
  next =>
    rw [ofInt_tdiv]
    split
    next hover => rw [hover.1, hover.2, ← BitVec.neg_one_eq_allOnes, BitVec.intMin_sdiv_neg_one]
    next => rfl

/-- Sign extension keeps the unsigned order. -/
theorem toNat_sext64_lt (a b : Word) : (sext64 a).toNat < (sext64 b).toNat ↔ a.toNat < b.toNat := by
  simp only [sext64, BitVec.toNat_signExtend, BitVec.toNat_setWidth, BitVec.msb_eq_decide, decide_eq_true_eq]
  split <;> split <;> omega

theorem low32_aluSltu_sext64 (a b : Word) : low32 (aluSltu 64 (sext64 a) (sext64 b)) = aluSltu 32 a b := by
  simp only [aluSltu, toNat_sext64_lt]
  exact setWidth_bit (by decide) _

/-- Settles O31: what is one function of the signed values, or works bit by bit, commutes; the others have a
counterexample in a shift amount of 32, a product with bit 32 set, or a negative dividend read as unsigned. -/
theorem defaultTruncationAudit : Obligations.DefaultTruncationAudit := by
  unfold Obligations.DefaultTruncationAudit
  simp only [List.forall_mem_cons, List.not_mem_nil, false_implies, implies_true, and_true]
  refine ⟨⟨?add, ?sub, ?xor, ?or, ?and, ?mul, ?slt, ?sltu, ?div, ?rem⟩,
    ⟨?sll, ?srl, ?sra, ?mulh, ?mulhsu, ?mulhu, ?divu, ?remu⟩⟩
  case add => exact low32_op_sext64_of_low32 fun x y => BitVec.setWidth_add x y (by decide)
  case sub => exact low32_op_sext64_of_low32 fun _ _ => setWidth_sub (by decide)
  case xor => exact low32_op_sext64_of_low32 fun _ _ => BitVec.setWidth_xor
  case or => exact low32_op_sext64_of_low32 fun _ _ => BitVec.setWidth_or
  case and => exact low32_op_sext64_of_low32 fun _ _ => BitVec.setWidth_and
  case mul => exact low32_op_sext64_of_low32 fun x y => BitVec.setWidth_mul x y (by decide)
  case slt => exact low32_op_sext64 (f := fun p q => if p < q then 1 else 0) fun _ _ => aluSlt_eq
  case sltu => exact low32_aluSltu_sext64
  case div => exact low32_op_sext64 (f := fun p q => if q = 0 then -1 else p.tdiv q) fun _ _ => aluDiv_eq_tdiv
  case rem => exact low32_op_sext64 (f := Int.tmod) fun _ hw x y => (aluRem_eq hw x y).trans (by rw [remS_eq_tmod])
  case sll => exact ⟨1, 32, by decide⟩
  case srl => exact ⟨1, 32, by decide⟩
  case sra => exact ⟨1, 32, by decide⟩
  case mulh => exact ⟨0x10000, 0x10000, by decide⟩
  case mulhsu => exact ⟨0x10000, 0x10000, by decide⟩
  case mulhu => exact ⟨0x10000, 0x10000, by decide⟩
  case divu => exact ⟨-1, 2, by decide⟩
  case remu => exact ⟨-1, 7, by decide⟩

end Sys2Proof.Machine
end

section
/-! O32 to O34: the loads and stores (44_load_store.md R260 to R275, 47_float.md R354, R355, 48_double.md R393, R394).
Each makes one access, at its effective address: it moves the bytes there if the check passes, and raises AddressError
if not. -/

namespace Sys2Proof.Machine

variable {s : State} {i : Instr} {k : AccessKind} {r : Result} {rd rs1 : Reg} {imm : Imm12} {a v : DWord} {n : Nat}

/-! ### An access that passes its check -/

/-- An unsigned load takes the little-endian value as it is: `n` bytes hold no more than `8 * n` bits (R261). -/
theorem extendLoad_false_readMem (s : State) (a : DWord) (n : Nat) :
    extendLoad false (s.readMem a n) = .ofNat 64 (s.mem.readLe a.toNat n) := by
  have hlt : s.mem.readLe a.toNat n < 2 ^ (8 * n) := by
    rw [Nat.pow_mul]
    exact s.mem.readLe_lt a.toNat n
  apply BitVec.eq_of_toNat_eq
  rw [extendLoad, if_neg Bool.false_ne_true, State.readMem, BitVec.toNat_setWidth, BitVec.toNat_ofNat,
    BitVec.toNat_ofNat, Nat.mod_eq_of_lt hlt]

/-- Family Load (R262): the bytes at an aligned valid address, extended. -/
theorem WritesX.of_load {signed : Bool} (he : exec i s = load n signed i rd rs1 imm s)
    (ha : (s.effAddr rs1 imm).toNat % n = 0) (hm : s.memValid .load (s.effAddr rs1 imm).toNat n = true)
    (hv : extendLoad signed (s.readMem (s.effAddr rs1 imm) n) = v) : WritesX i s rd v noFlags s.nextPc :=
  .of_eq_quiet (he.trans (load_next.2 ⟨State.accessOk_iff.2 ⟨ha, hm⟩, rfl⟩)) (hv ▸ .refl) rfl

/-- The stores (R263, R355, R394): the low `n` bytes of a register's 64 bits, at an aligned valid address. -/
theorem StoresTo.of_storeAt (he : exec i s = storeAt n i a v s) (hw : s.mem.wf) (ha : a.toNat % n = 0)
    (hm : s.memValid .store a.toNat n = true) : StoresTo i s a.toNat n v.toNat :=
  .of_eq hw (he.trans (storeAt_next.2 ⟨State.accessOk_iff.2 ⟨ha, hm⟩, rfl⟩))
    (by rw [BitVec.toNat_setWidth, Nat.pow_mul])

/-- Settles O32: an unsigned load takes the value read as it is, a signed one extends it, and the sign extension of
`LD`, of 64 bits to 64, changes nothing. -/
theorem loads : Obligations.Loads := by
  rintro s rd rs1 imm _ rfl
  have hunsigned := extendLoad_false_readMem s (s.effAddr rs1 imm)
  refine ⟨fun hm => ?byte, fun ha hm => ?half, fun ha hm => ?word, fun ha hm => ?double⟩
  case byte => exact ⟨.of_load rfl (Nat.mod_one _) hm rfl, .of_load rfl (Nat.mod_one _) hm (hunsigned 1)⟩
  case half => exact ⟨.of_load rfl ha hm rfl, .of_load rfl ha hm (hunsigned 2)⟩
  case word =>
    exact ⟨.of_load rfl ha hm rfl, fun _ => .of_load rfl ha hm (hunsigned 4),
      .of_eq_quiet (loadSingle_next.2 ⟨State.accessOk_iff.2 ⟨ha, hm⟩, rfl⟩)⟩
  case double =>
    exact ⟨fun _ => .of_load rfl ha hm (BitVec.signExtend_eq _),
      .of_eq_quiet (loadDouble_next.2 ⟨State.accessOk_iff.2 ⟨ha, hm⟩, rfl⟩)⟩

/-- Settles O33: each of the six stores the low bytes of an integer or a floating-point register. -/
theorem stores : Obligations.Stores := by
  rintro s rs1 rs2 imm _ hw rfl
  refine ⟨fun hm => ?byte, fun ha hm => ?half, fun ha hm => ?word, fun ha hm => ?double⟩
  case byte => exact .of_storeAt rfl hw (Nat.mod_one _) hm
  case half => exact .of_storeAt rfl hw ha hm
  case word => exact ⟨.of_storeAt rfl hw ha hm, .of_storeAt rfl hw ha hm⟩
  case double => exact ⟨fun _ => .of_storeAt rfl hw ha hm, .of_storeAt rfl hw ha hm⟩

/-! ### An access that fails its check -/

/-- An instruction whose meaning begins with the check of an access raises where the access is misaligned or not valid,
whatever would follow (R63, R64, R68). -/
theorem exec_addressError_of_checked (he : exec i s = s.checked i k a n r)
    (hbad : a.toNat % n ≠ 0 ∨ s.memValid k a.toNat n = false) :
    exec i s = .fault (.addressError k a (some (s.statement i))) := by
  have hnot : s.accessOk k a n = false := by
    rw [← Bool.not_eq_true, State.accessOk_iff, not_and_or, Bool.not_eq_true]
    exact hbad
  exact he.trans (State.checked_of_not hnot)

/-- Settles O34: each of the fifteen begins with the check of its access. -/
theorem loadStoreRaises : Obligations.LoadStoreRaises := by
  rintro s r rs1 imm _ rfl
  simp only [List.forall_mem_cons, List.not_mem_nil, false_implies, implies_true, and_true]
  refine ⟨⟨?lb, ?lbu, ?lh, ?lhu, ?lw, ?lwu, ?ld, ?flw, ?fld⟩, ?sb, ?sh, ?sw, ?sd, ?fsw, ?fsd⟩ <;>
    exact exec_addressError_of_checked rfl

end Sys2Proof.Machine
end

section
/-! O39, O40: the branches and jumps (45_branch_jump.md R280 to R291). The assembled offset is the number of the spec,
and a branch compares its sources as they are read at the width of the mode, `xlen`. -/

namespace Sys2Proof.Machine

variable {s : State} {i : Instr} {rd rs1 rs2 : Reg} {imm : Imm12} {target v : DWord} {w k : Nat}

/-! ### Offsets -/

/-- A field of one bit at the top of an offset. -/
theorem toInt_extractBit (x : BitVec w) (k : Nat) : (x.extractLsb' k 1).toInt = if x.getLsbD k then -1 else 0 := by
  rw [BitVec.getLsbD_eq_extractLsb']
  generalize x.extractLsb' k 1 = b
  revert b
  decide

/-- A field of one bit further down. -/
theorem toNat_extractBit (x : BitVec w) (k : Nat) : (x.extractLsb' k 1).toNat = if x.getLsbD k then 1 else 0 := by
  rw [BitVec.getLsbD_eq_extractLsb']
  generalize x.extractLsb' k 1 = b
  revert b
  decide

/-- Fields side by side: the upper one holds the sign. -/
theorem toInt_append_of_pos (h : 0 < w) (x : BitVec w) (y : BitVec k) :
    (x ++ y).toInt = 2 ^ k * x.toInt + y.toNat := by
  rw [BitVec.toInt_append, if_neg (by simpa using h.ne')]

/-- The B-immediate (R105) is `boffset` (R281). -/
theorem immB_eq (e : Imm12) : immB e = .ofInt 64 (Claims.branchOffset e) := by
  rw [immB, BitVec.signExtend, BitVec.toInt_append_zero, toInt_append_of_pos (by decide),
    toInt_append_of_pos (by decide), toInt_append_of_pos (by decide), toInt_extractBit, toNat_extractBit,
    Claims.branchOffset]
  congr 1
  split <;> split <;> omega

/-- The J-immediate (R107) is `joffset` (R290). -/
theorem immJ_eq (e : Imm20) : immJ e = .ofInt 64 (Claims.jumpOffset e) := by
  rw [immJ, BitVec.signExtend, BitVec.toInt_append_zero, toInt_append_of_pos (by decide),
    toInt_append_of_pos (by decide), toInt_append_of_pos (by decide), toInt_extractBit, toNat_extractBit,
    Claims.jumpOffset]
  congr 1
  split <;> split <;> omega

/-! ### Branches -/

/-- A comparison given at every width is made at the width of the mode (R280). -/
theorem willBranch_eq_xlen (will : (w : Nat) → BitVec w → BitVec w → Bool) :
    (if s.m64 then will 64 (s.readX rs1) (s.readX rs2) else will 32 (s.readXw rs1) (s.readXw rs2)) =
      will (xlen s.m64) ((s.readX rs1).setWidth (xlen s.m64)) ((s.readX rs2).setWidth (xlen s.m64)) := by
  rw [← low32_readX, ← low32_readX]
  generalize s.readX rs1 = a, s.readX rs2 = b
  cases s.m64
  · rfl
  · simp [xlen]

theorem setWidth_readX_inj :
    (s.readX rs1).setWidth (xlen s.m64) = (s.readX rs2).setWidth (xlen s.m64) ↔ s.readX rs1 = s.readX rs2 := by
  rw [BitVec.toNat_eq, toNat_setWidth_readX, toNat_setWidth_readX, ← BitVec.toNat_eq]

/-- Family Branch (R280, R281): to the branch's address plus the offset when the comparison is `c` and `c` holds, on to
the next instruction when it does not. -/
theorem GoesTo.of_branch {will : (w : Nat) → BitVec w → BitVec w → Bool} {c : Prop} [Decidable c]
    (he : exec i s = branch will rs1 rs2 imm s)
    (ht : target = toXlen s.m64 (s.running.pc + .ofInt 64 (Claims.branchOffset imm)))
    (hc : will (xlen s.m64) ((s.readX rs1).setWidth (xlen s.m64)) ((s.readX rs2).setWidth (xlen s.m64)) = decide c) :
    GoesTo i s (if c then target else s.nextPc) := by
  have hexec := he.trans (branch_next.2 rfl)
  simp only [willBranch_eq_xlen, hc, immB_eq, decide_eq_true_eq] at hexec
  by_cases h : c
  · rw [if_pos h] at hexec ⊢
    exact .of_eq hexec ht.symm
  · rw [if_neg h] at hexec ⊢
    exact .of_eq hexec rfl

/-- Settles O39: at `XLEN` each of the six comparisons is the one on the values read. -/
theorem branches : Obligations.Branches := by
  intro s rs1 rs2 imm target ht
  refine ⟨.of_branch (will := fun _ a b => a == b) rfl ht ?beq,
    .of_branch (will := fun _ a b => a != b) rfl ht ?bne,
    .of_branch (will := fun _ a b => decide (a.toInt < b.toInt)) rfl ht ?blt,
    .of_branch (will := fun _ a b => decide (b.toInt ≤ a.toInt)) rfl ht ?bge,
    .of_branch (will := fun _ a b => decide (a.toNat < b.toNat)) rfl ht ?bltu,
    .of_branch (will := fun _ a b => decide (b.toNat ≤ a.toNat)) rfl ht ?bgeu⟩
  case beq => rw [beq_eq_decide, decide_eq_decide.2 setWidth_readX_inj]
  case bne => rw [bne, beq_eq_decide, decide_eq_decide.2 setWidth_readX_inj, decide_not]
  case blt => rw [toInt_setWidth_readX, toInt_setWidth_readX]
  case bge => rw [toInt_setWidth_readX, toInt_setWidth_readX]
  case bltu => rw [toNat_setWidth_readX, toNat_setWidth_readX]
  case bgeu => rw [toNat_setWidth_readX, toNat_setWidth_readX]

/-! ### Jumps -/

theorem low32_and (a b : DWord) : low32 (a &&& b) = low32 a &&& low32 b := BitVec.setWidth_and

/-- Clearing bit 0 commutes with reading modulo 2^XLEN (R291). -/
theorem toXlen_clearBit0 (m64 : Bool) (v : DWord) : toXlen m64 (v &&& ~~~1) = toXlen m64 v &&& ~~~1 :=
  calc toXlen m64 (v &&& ~~~1)
    _ = toXlen m64 (toXlen m64 v &&& ~~~1) := by
      cases m64
      · rw [toXlen_false, toXlen_false, low32_and, low32_and, low32_toXlen]
      · rfl
    _ = toXlen m64 v &&& ~~~1 := fitsXlen_clearBit0 (fitsXlen_toXlen m64 v)

/-- Family Jump (R282): the link is the address of the next instruction, the target is not checked (R283). -/
theorem WritesX.of_jump (he : exec i s = jump rd v s) (hv : toXlen s.m64 v = target) :
    WritesX i s rd s.nextPc noFlags target :=
  .of_eq_quiet (he.trans (jump_next.2 rfl)) .refl hv

/-- Settles O40: the target is `joffset` from the jump's own address, or the sum with bit 0 cleared; both are computed
from the state before the link is written. -/
theorem jumps : Obligations.Jumps := by
  intro s rd rs1 imm e
  exact ⟨.of_jump rfl (by rw [immJ_eq]), .of_jump rfl (toXlen_clearBit0 _ _)⟩

end Sys2Proof.Machine
end

section
/-! O35 to O38: load-reserved, store-conditional and the atomic memory operations (46_atomic.md R301 to R329). Each is
its family at one width: a word, or in 64-bit mode a doubleword. -/

namespace Sys2Proof.Machine

variable {s t u : State} {i : Instr} {w : ResWidth} {op : AluOp} {rd rs1 rs2 : Reg} {xs fs : List Reg} {a : DWord}
  {n k : Nat}

/-! ### What an atomic leaves unchanged -/

theorem Frame.refl (s : State) : Frame xs fs s s :=
  ⟨fun _ _ => rfl, fun _ _ => rfl, rfl, rfl, rfl, rfl, rfl, rfl, rfl, rfl, rfl, rfl⟩

theorem Frame.setRes (h : Frame xs fs s t) (r : Option Reservation) : Frame xs fs s (t.setRes r) :=
  ⟨h.x, h.f, h.id, h.frm, h.ustatus, h.uepc, h.extra, h.signal, h.m64, h.catalog, h.regions, h.moves⟩

theorem Frame.writeMem (h : Frame xs fs s t) (a : DWord) (v : BitVec (8 * n)) : Frame xs fs s (t.writeMem a n v) :=
  ⟨h.x, h.f, h.id, h.frm, h.ustatus, h.uepc, h.extra, h.signal, h.m64, h.catalog, h.regions, h.moves⟩

theorem Frame.advance (h : Frame xs fs s t) : Frame xs fs s t.advance :=
  ⟨h.x, h.f, h.id, h.frm, h.ustatus, h.uepc, h.extra, h.signal, h.m64, h.catalog, h.regions, h.moves⟩

theorem Frame.writeX (h : Frame xs fs s t) (hr : rd ∈ xs) (v : DWord) : Frame xs fs s (t.writeX rd v) :=
  ⟨fun q hq => (State.stored_writeX_ne t v (ne_of_mem_of_not_mem hr hq).symm).trans (h.x q hq),
    h.f, h.id, h.frm, h.ustatus, h.uepc, h.extra, h.signal, h.m64, h.catalog, h.regions, h.moves⟩

/-! ### Widths and the value read -/

/-- A doubleword is as wide as `XLEN` in 64-bit mode. -/
theorem double_le_xlen {m64 : Bool} (hm : m64 = true) : 8 * 8 ≤ xlen m64 := by rw [hm]; decide

/-- In both modes a register stores a 64-bit value that is the sign extension of its low half as it is (R28). -/
theorem stored_writeX_extended {v : DWord} (hv : sext64 (low32 v) = v) :
    (u.writeX rd v).stored rd = if rd = 0 then 0 else v := by
  rw [State.stored_writeX_self, hv, ite_self]

/-- The sign extension of a narrow value is such a value. -/
theorem sext64_low32_signExtend (hk : k ≤ 32) (v : BitVec k) : sext64 (low32 (v.signExtend 64)) = v.signExtend 64 := by
  have hlow : low32 (v.signExtend 64) = v.signExtend 32 := setWidth_ofInt (by decide) v.toInt
  rw [hlow, sext64_eq, BitVec.toInt_signExtend_of_le hk]
  rfl

/-- The destination of a sign-extending read no wider than `XLEN`. -/
theorem stored_writeX_extendLoad_true (hn : 8 * n ≤ xlen u.m64) (v : BitVec (8 * n)) :
    (u.writeX rd (extendLoad true v)).stored rd = if rd = 0 then 0 else v.signExtend 64 := by
  rw [extendLoad, if_pos rfl]
  cases hm : u.m64 with
  | true => rw [State.stored_writeX_self, if_pos hm]
  | false =>
    rw [hm] at hn
    exact stored_writeX_extended (sext64_low32_signExtend hn v)

/-! ### Load-reserved -/

/-- Family LoadReserved (R303): its one access is the read. -/
theorem loadReservedClaim_of_exec (he : exec i s = loadReserved w i rd rs1 s) (hw : 8 * w.bytes ≤ xlen s.m64) :
    Claims.loadReserved i w s rd rs1 := by
  refine ⟨fun ha hm => ?completes, exec_addressError_of_checked he⟩
  case completes =>
    exact ⟨_, he.trans (loadReserved_next.2 ⟨State.accessOk_iff.2 ⟨ha, hm⟩, rfl⟩),
      stored_writeX_extendLoad_true hw _, rfl, rfl, rfl,
      (((Frame.refl s).setRes _).writeX (List.mem_singleton_self rd) _).advance, fun _ => rfl, rfl⟩

/-! ### Store-conditional -/

theorem reservationCovers_iff :
    s.reservationCovers a n = true ↔ ∃ r, s.running.res = some r ∧ Claims.covers r a.toNat n := by
  unfold State.reservationCovers
  cases s.running.res with
  | none => simp
  | some r => simp [covers_iff, Claims.covers]

theorem reservationCovers_eq_false (h : ∀ r, s.running.res = some r → ¬Claims.covers r a.toNat n) :
    s.reservationCovers a n = false := by
  rw [← Bool.not_eq_true, reservationCovers_iff]
  exact fun ⟨r, hr, hcov⟩ => h r hr hcov

section
variable (he : exec i s = storeConditional n i rd rs1 rs2 s)
include he

/-- Under a covering reservation, at a good address (R304). -/
theorem storeConditional_stores {r : Reservation} (hr : s.running.res = some r)
    (hcov : Claims.covers r (s.readX rs1).toNat n) (ha : (s.readX rs1).toNat % n = 0)
    (hm : s.memValid .store (s.readX rs1).toNat n = true) (hw : s.mem.wf) :
    ∃ t, exec i s = .next t ∧ t.stored rd = 0 ∧ t.running.res = none ∧
      StoredAt (s.readX rs1).toNat n (s.stored rs2).toNat s t ∧ ParkedAfterWrite (s.readX rs1).toNat n s t ∧
      t.running.pc = s.nextPc ∧ t.running.fflags = s.running.fflags ∧ Frame [rd] [] s t := by
  have hcovers := reservationCovers_iff.2 ⟨r, hr, hcov⟩
  exact ⟨_, he.trans (storeConditional_next.2 (.inl ⟨hcovers, State.accessOk_iff.2 ⟨ha, hm⟩, rfl⟩)),
    (stored_writeX_extended rfl).trans (ite_self 0), rfl,
    .of_writeLe hw rfl (by rw [BitVec.toNat_setWidth, Nat.pow_mul]), parkedAfterWrite_map rfl, rfl, rfl,
    ((((Frame.refl s).writeMem _ _).setRes _).writeX (List.mem_singleton_self rd) _).advance⟩

/-- Under a covering reservation the access is checked (R304, R302). -/
theorem storeConditional_raises {r : Reservation} (hr : s.running.res = some r)
    (hcov : Claims.covers r (s.readX rs1).toNat n)
    (hbad : (s.readX rs1).toNat % n ≠ 0 ∨ s.memValid .store (s.readX rs1).toNat n = false) :
    exec i s = .fault (.addressError .store (s.readX rs1) (some (s.statement i))) :=
  exec_addressError_of_checked (he.trans (if_pos (reservationCovers_iff.2 ⟨r, hr, hcov⟩))) hbad

/-- Without one no access is made (R304, R306). -/
theorem storeConditional_fails (hnone : ∀ r, s.running.res = some r → ¬Claims.covers r (s.readX rs1).toNat n) :
    ∃ t, exec i s = .next t ∧ t.stored rd = (if rd = 0 then 0 else 1) ∧ t.running.res = none ∧
      (∀ a, t.mem.read a = s.mem.read a) ∧ t.parked = s.parked ∧
      t.running.pc = s.nextPc ∧ t.running.fflags = s.running.fflags ∧ Frame [rd] [] s t :=
  ⟨_, he.trans (storeConditional_next.2 (.inr ⟨reservationCovers_eq_false hnone, rfl⟩)),
    stored_writeX_extended rfl, rfl, fun _ => rfl, rfl, rfl, rfl,
    (((Frame.refl s).setRes _).writeX (List.mem_singleton_self rd) _).advance⟩

theorem storeConditionalClaim_of_exec : Claims.storeConditional i n s rd rs1 rs2 :=
  ⟨fun _ hr hcov => ⟨storeConditional_stores he hr hcov, storeConditional_raises he hr hcov⟩,
    storeConditional_fails he⟩

end

/-! ### The two together -/

/-- What an `LR` leaves for an `SC` after it: the same address in the register, and a reservation of these bytes. -/
theorem loadReserved_reserves (h : loadReserved w i rd rs1 s = .next t) (hr : rd = rs1 → rd = 0) :
    t.readX rs1 = s.readX rs1 ∧ t.running.res = some { addr := s.readX rs1, width := w } ∧ t.mem = s.mem ∧
      (s.readX rs1).toNat % w.bytes = 0 ∧ ∀ k a n, t.memValid k a n = s.memValid k a n := by
  obtain ⟨hok, rfl⟩ := loadReserved_next.1 h
  obtain ⟨ha, -⟩ := State.accessOk_iff.1 hok
  refine ⟨congrArg (toXlen s.m64) ?address, rfl, rfl, ha, fun _ _ _ => rfl⟩
  case address =>
    rw [State.advance_eq, State.setPc_stored, State.stored_writeX, if_neg fun ⟨heq, hne⟩ => hne (hr heq.symm),
      State.setRes_stored]

theorem covers_self (a : DWord) (w : ResWidth) :
    Claims.covers { addr := a, width := w } a.toNat w.bytes := ⟨Nat.le_refl _, Nat.le_refl _⟩

section
variable {j : Instr} {re : Reg} (hsc : ∀ t, exec j t = storeConditional w.bytes j re rs1 rs2 t)
  (hlr : loadReserved w i rd rs1 s = .next t) (hr : rd = rs1 → rd = 0)
include hsc hlr hr

theorem storeConditional_stores_after_loadReserved (hw : s.mem.wf)
    (hm : s.memValid .store (s.readX rs1).toNat w.bytes = true) :
    ∃ u, exec j t = .next u ∧ u.stored re = 0 ∧
      StoredAt (s.readX rs1).toNat w.bytes (t.stored rs2).toNat t u := by
  obtain ⟨haddr, hres, hmem, ha, hvalid⟩ := loadReserved_reserves hlr hr
  rw [← haddr] at hres ha hm ⊢
  obtain ⟨u, hu, hzero, -, hstored, -⟩ :=
    storeConditional_stores (hsc t) hres (covers_self _ w) ha ((hvalid _ _ _).trans hm) (hmem ▸ hw)
  exact ⟨u, hu, hzero, hstored⟩

/-- A write that shares a byte with the reserved ones, by any hart, has cleared the reservation. -/
theorem storeConditional_fails_after_overlap (m : Memory) (hlo : (s.readX rs1).toNat < a.toNat + n)
    (hhi : a.toNat < (s.readX rs1).toNat + w.bytes) :
    ∃ u, exec j { t with mem := m, running := t.running.invalidate a.toNat n } = .next u ∧
      u.stored re = (if re = 0 then 0 else 1) ∧ (∀ b, u.mem.read b = m.read b) := by
  obtain ⟨-, hres, -⟩ := loadReserved_reserves hlr hr
  have hcleared : (t.running.invalidate a.toNat n).res = none := by
    rw [Hart.invalidate, hres, surviving_some, if_pos ⟨hlo, hhi⟩]
  obtain ⟨u, hu, hone, -, hmem, -⟩ :=
    storeConditional_fails (hsc { t with mem := m, running := t.running.invalidate a.toNat n })
      fun _ h => nomatch hcleared.symm.trans h
  exact ⟨u, hu, hone, hmem⟩

end

/-- Settles O37: for each width the two lemmas above. -/
theorem reservationProtocol : Obligations.ReservationProtocol := by
  intro s t rd re rs1 rs2 aq rl aq' rl'
  simp only [List.forall_mem_cons, List.not_mem_nil, false_implies, implies_true, and_true]
  refine ⟨fun _ hr hw hlr => ?word, fun _ hr hw hlr => ?double⟩
  case word =>
    exact ⟨storeConditional_stores_after_loadReserved (w := .word) (fun _ => rfl) hlr hr hw,
      fun a n m => storeConditional_fails_after_overlap (w := .word) (fun _ => rfl) hlr hr m⟩
  case double =>
    exact ⟨storeConditional_stores_after_loadReserved (w := .double) (fun _ => rfl) hlr hr hw,
      fun a n m => storeConditional_fails_after_overlap (w := .double) (fun _ => rfl) hlr hr m⟩

/-! ### Atomic memory operations -/

/-- A value of `n` bytes. -/
theorem toNat_mod_bytes (v : BitVec (8 * n)) : v.toNat % 256 ^ n = v.toNat := by
  have hlt := v.isLt
  rw [Nat.pow_mul] at hlt
  exact Nat.mod_eq_of_lt hlt

/-- Family AtomicMemoryOperation (R301): the read is checked, then the write. -/
theorem amoClaim_of_exec {new : BitVec (8 * n) → BitVec (8 * n) → BitVec (8 * n)}
    (hn : 8 * n ≤ xlen s.m64) (he : exec i s = amo n op i rd rs1 rs2 s)
    (hop : ∀ old v, op (8 * n) old v = new old v := by exact fun _ _ => rfl) : Claims.amo i n s rd rs1 rs2 new := by
  refine ⟨fun ha hl hs hw => ?completes, exec_addressError_of_checked he, fun ha hl hs => ?storeBad⟩
  case completes =>
    have hload := State.accessOk_iff.2 ⟨ha, hl⟩
    have hstore := State.accessOk_iff.2 ⟨ha, hs⟩
    exact ⟨_, he.trans (amo_next.2 ⟨hload, hstore, rfl⟩), stored_writeX_extendLoad_true hn _,
      .of_writeLe hw rfl ((congrArg _ (hop _ _)).trans (toNat_mod_bytes _).symm), clearedByWrite_surviving _ _ _,
      parkedAfterWrite_map rfl, rfl, rfl,
      (((Frame.refl s).writeMem _ _).writeX (List.mem_singleton_self rd) _).advance⟩
  case storeBad =>
    have hload := State.accessOk_iff.2 ⟨ha, hl⟩
    exact exec_addressError_of_checked (he.trans (State.checked_of_ok hload)) (.inr hs)

/-! The minima and maxima (R315 to R318): the operand chosen is the one whose value is the lesser or the greater. -/

theorem amoMin_eq (old v : BitVec k) : amoMin k old v = .ofInt k (min old.toInt v.toInt) := by
  rw [amoMin, Int.min_def]
  split <;> exact BitVec.ofInt_toInt.symm

theorem amoMax_eq (old v : BitVec k) : amoMax k old v = .ofInt k (max old.toInt v.toInt) := by
  rw [amoMax, Int.max_comm, Int.max_def]
  split <;> exact BitVec.ofInt_toInt.symm

theorem amoMinu_eq (old v : BitVec k) : amoMinu k old v = .ofNat k (min old.toNat v.toNat) := by
  rw [amoMinu, Nat.min_def]
  split <;> rw [BitVec.ofNat_toNat, BitVec.setWidth_eq]

theorem amoMaxu_eq (old v : BitVec k) : amoMaxu k old v = .ofNat k (max old.toNat v.toNat) := by
  rw [amoMaxu, Nat.max_comm, Nat.max_def]
  split <;> rw [BitVec.ofNat_toNat, BitVec.setWidth_eq]

/-- Settles O38: swap, sum and the bitwise operations are the model's own at the width of the access. -/
theorem atomicMemoryOperations : Obligations.AtomicMemoryOperations := by
  intro s rd rs1 rs2 aq rl
  have hword : 8 * 4 ≤ xlen s.m64 := le_xlen s.m64
  refine ⟨amoClaim_of_exec hword rfl, amoClaim_of_exec hword rfl, amoClaim_of_exec hword rfl,
    amoClaim_of_exec hword rfl, amoClaim_of_exec hword rfl, amoClaim_of_exec hword rfl amoMin_eq,
    amoClaim_of_exec hword rfl amoMax_eq, amoClaim_of_exec hword rfl amoMinu_eq,
    amoClaim_of_exec hword rfl amoMaxu_eq, fun hm => ?double⟩
  case double =>
    have hdouble := double_le_xlen hm
    exact ⟨amoClaim_of_exec hdouble rfl, amoClaim_of_exec hdouble rfl, amoClaim_of_exec hdouble rfl,
      amoClaim_of_exec hdouble rfl, amoClaim_of_exec hdouble rfl, amoClaim_of_exec hdouble rfl amoMin_eq,
      amoClaim_of_exec hdouble rfl amoMax_eq, amoClaim_of_exec hdouble rfl amoMinu_eq,
      amoClaim_of_exec hdouble rfl amoMaxu_eq⟩

end Sys2Proof.Machine
end

section
/-! O35, O36, outside the namespace of the model's `loadReserved` and `storeConditional`, whose names they share. -/

namespace Sys2Proof
open Sys2Proof.Machine

/-- Settles O35: `LR.W` and `LR.D` are the family at the two widths; `aq` and `rl` are no arguments of it. -/
theorem loadReserved : Obligations.LoadReserved := by
  intro s rd rs1 aq rl
  exact ⟨loadReservedClaim_of_exec rfl (le_xlen s.m64), fun hm => loadReservedClaim_of_exec rfl (double_le_xlen hm)⟩

/-- Settles O36: `SC.W` and `SC.D` are the family at the two widths; what it writes to `rd` fits either mode. -/
theorem storeConditional : Obligations.StoreConditional := by
  intro s rd rs1 rs2 aq rl
  exact ⟨storeConditionalClaim_of_exec rfl, fun _ => storeConditionalClaim_of_exec rfl⟩

end Sys2Proof
end

section
/-! O41, O42, O47, O48 and O43: what a floating-point instruction writes is what its primitive gives
(47_float.md R341 to R343, 48_double.md R390). A family of instructions is one lemma about the equation of `exec`. -/

namespace Sys2Proof.Machine

variable {s : State} {i : Instr} {p : Rm} {rd : Reg} {w : Nat}

/-! ### Computations under a resolved rounding mode (R341, R342) -/

theorem roundsS_of_exec {r : RoundingMode → FResult 32}
    (he : exec i s = s.withRounding i p fun m => finishFs rd (r m) s) : Claims.roundsS i p s rd r :=
  fun _ hm => .of_eq (he.trans (State.withRounding_of_some hm))

theorem roundsD_of_exec {r : RoundingMode → FResult 64}
    (he : exec i s = s.withRounding i p fun m => finishF rd (r m) s) : Claims.roundsD i p s rd r :=
  fun _ hm => .of_eq (he.trans (State.withRounding_of_some hm))

theorem roundsX_of_exec {r : RoundingMode → DWord × Flags}
    (he : exec i s = s.withRounding i p fun m => finishX rd (r m) s) : Claims.roundsX i p s rd r :=
  fun _ hm => .of_eq (he.trans (State.withRounding_of_some hm)) .refl rfl

/-- Settles O41: five instructions of the family with a boxed result, five with a whole one. -/
theorem floatArithmetic : Obligations.FloatArithmetic := by
  intro s rd rs1 rs2 p
  exact ⟨roundsS_of_exec rfl, roundsS_of_exec rfl, roundsS_of_exec rfl, roundsS_of_exec rfl, roundsS_of_exec rfl,
    roundsD_of_exec rfl, roundsD_of_exec rfl, roundsD_of_exec rfl, roundsD_of_exec rfl, roundsD_of_exec rfl⟩

/-- Settles O42: the four sign patterns in either format. -/
theorem fusedMultiplyAdd : Obligations.FusedMultiplyAdd := by
  intro s rd rs1 rs2 rs3 p
  exact ⟨roundsS_of_exec rfl, roundsS_of_exec rfl, roundsS_of_exec rfl, roundsS_of_exec rfl,
    roundsD_of_exec rfl, roundsD_of_exec rfl, roundsD_of_exec rfl, roundsD_of_exec rfl⟩

/-- Settles O47: all eight end in an integer register. -/
theorem floatToInteger : Obligations.FloatToInteger := by
  intro s rd rs1 p
  exact ⟨roundsX_of_exec rfl, roundsX_of_exec rfl, roundsX_of_exec rfl, roundsX_of_exec rfl,
    fun _ => ⟨roundsX_of_exec rfl, roundsX_of_exec rfl, roundsX_of_exec rfl, roundsX_of_exec rfl⟩⟩

/-- Settles O48: a single is written boxed, a double whole. -/
theorem toFloatConversions : Obligations.ToFloatConversions := by
  intro s rd rs1 p
  exact ⟨roundsS_of_exec rfl, roundsS_of_exec rfl, roundsD_of_exec rfl, roundsD_of_exec rfl, roundsS_of_exec rfl,
    roundsD_of_exec rfl,
    fun _ => ⟨roundsS_of_exec rfl, roundsS_of_exec rfl, roundsD_of_exec rfl, roundsD_of_exec rfl⟩⟩

/-! ### Raw bits (R353, R382, R383, R423, R424) -/

/-- Sign injection replaces the top bit: below it stand the magnitude bits of the first source. -/
theorem injectSign_eq_append (sign : Bool → Bool → Bool) (a b : BitVec (1 + w)) :
    injectSign sign a b = BitVec.ofBool (sign a.msb b.msb) ++ a.extractLsb' 0 w := by
  have htop : 1 + w - 1 = w := Nat.add_sub_cancel_left 1 w
  have hmask (k : Nat) : (if sign a.msb b.msb then BitVec.twoPow (1 + w) w else 0#(1 + w)).getLsbD k =
      (sign a.msb b.msb && (BitVec.twoPow (1 + w) w).getLsbD k) := by
    cases sign a.msb b.msb
    · exact BitVec.getLsbD_zero
    · exact (Bool.true_and _).symm
  ext k hk
  rw [← BitVec.getLsbD_eq_getElem, ← BitVec.getLsbD_eq_getElem, injectSign, htop, BitVec.getLsbD_or,
    BitVec.getLsbD_and, BitVec.getLsbD_not, hmask, BitVec.getLsbD_twoPow, BitVec.getLsbD_append,
    BitVec.getLsbD_extractLsb', Nat.zero_add]
  by_cases hw : k < w
  · have hne : w ≠ k := Nat.ne_of_gt hw
    simp [hw, hne, hk]
  · obtain rfl : w = k := by omega
    simp

/-- Settles O43: no mover raises a flag, and the sign of an injection is a bit above the magnitude. -/
theorem rawBitMoves : Obligations.RawBitMoves := by
  rintro s rd rs1 rs2 _ _ _ _ rfl rfl rfl rfl
  have hsingle (sign) := injectSign_eq_append (w := 31) sign (s.readFs rs1) (s.readFs rs2)
  have hdouble (sign) := injectSign_eq_append (w := 63) sign (s.readF rs1) (s.readF rs2)
  refine ⟨?sgnjS, ?sgnjnS, ?sgnjxS, ?sgnjD, ?sgnjnD, ?sgnjxD, .of_writeAndAdvance rfl, ?wx, fun _ =>
    ⟨.of_writeAndAdvance rfl, .of_eq_quiet rfl⟩⟩
  case sgnjS => exact hsingle (fun _ b => b) ▸ .of_eq_quiet rfl
  case sgnjnS => exact hsingle (fun _ b => !b) ▸ .of_eq_quiet rfl
  case sgnjxS => exact hsingle (fun a b => a ^^ b) ▸ .of_eq_quiet rfl
  case sgnjD => exact hdouble (fun _ b => b) ▸ .of_eq_quiet rfl
  case sgnjnD => exact hdouble (fun _ b => !b) ▸ .of_eq_quiet rfl
  case sgnjxD => exact hdouble (fun a b => a ^^ b) ▸ .of_eq_quiet rfl
  case wx =>
    have hlow : (s.readX rs1).setWidth 32 = s.readXw rs1 := low32_readX s rs1
    rw [hlow]
    exact .of_eq_quiet rfl

end Sys2Proof.Machine
end

section
/-! O49: rounding (47_float.md R346) on rational numbers. The integer powers, quotients and remainders the model
computes with (log 18) are read as the rational numbers they stand for; then `round_F` is the rule of R346. -/

namespace Sys2Proof.Machine

variable {F : FloatFormat} {num den n : Nat} {k e q t : Int} {a x : ℚ} {neg : Bool} {rm : RoundingMode}

/-! ### Powers of two and binades -/

theorem two_zpow_pos (k : Int) : (0 : ℚ) < 2 ^ k := zpow_pos two_pos k

theorem two_zpow_add (j k : Int) : (2 : ℚ) ^ (j + k) = 2 ^ j * 2 ^ k := zpow_add₀ two_ne_zero j k

theorem two_zpow_sub (j k : Int) : (2 : ℚ) ^ (j - k) = 2 ^ j / 2 ^ k := zpow_sub₀ two_ne_zero j k

theorem two_zpow_lt_iff {j k : Int} : (2 : ℚ) ^ j < 2 ^ k ↔ j < k := zpow_lt_zpow_iff_right₀ one_lt_two

theorem two_zpow_le_iff {j k : Int} : (2 : ℚ) ^ j ≤ 2 ^ k ↔ j ≤ k := zpow_le_zpow_iff_right₀ one_lt_two

theorem pow2Den_pos (k : Int) : (0 : ℚ) < pow2Den k := by
  rw [pow2Den, Nat.cast_pow]
  exact pow_pos two_pos _

/-- The two halves of a power stand for it. -/
theorem pow2Num_div_pow2Den (k : Int) : (pow2Num k : ℚ) / pow2Den k = 2 ^ k := by
  rcases le_total 0 k with hk | hk
  · obtain ⟨j, rfl⟩ := Int.eq_ofNat_of_zero_le hk
    simp [pow2Num, pow2Den]
  · obtain ⟨j, hj⟩ := Int.eq_ofNat_of_zero_le (Int.neg_nonneg.2 hk)
    obtain rfl : k = -(j : Int) := by omega
    simp [pow2Num, pow2Den]

theorem pow2Num_eq_mul (k : Int) : (pow2Num k : ℚ) = 2 ^ k * pow2Den k :=
  (div_eq_iff (pow2Den_pos k).ne').1 (pow2Num_div_pow2Den k)

/-- A power that is no fraction. -/
theorem pow2Den_of_nonneg (hk : 0 ≤ k) : pow2Den k = 1 := by
  rw [pow2Den, Int.toNat_of_nonpos (by omega), pow_zero]

theorem pow2Num_of_nonneg (hk : 0 ≤ k) : (pow2Num k : ℚ) = 2 ^ k := by
  rw [pow2Num_eq_mul, pow2Den_of_nonneg hk, Nat.cast_one, mul_one]

theorem belowPow2_iff : belowPow2 n k t = true ↔ (n : ℚ) * 2 ^ k < 2 ^ t := by
  have hden := pow2Den_pos (k - t)
  rw [belowPow2, decide_eq_true_eq, ← Nat.cast_lt (α := ℚ), Nat.cast_mul, pow2Num_eq_mul, ← mul_assoc,
    mul_lt_iff_lt_one_left hden, two_zpow_sub, ← mul_div_assoc, div_lt_one (two_zpow_pos t)]

/-- A number lies in one binade. -/
theorem binade_unique {d : Int} (hle : (2 : ℚ) ^ e ≤ a) (hlt : a < 2 ^ (e + 1)) (hle' : (2 : ℚ) ^ d ≤ a)
    (hlt' : a < 2 ^ (d + 1)) : d = e := by
  have h1 := two_zpow_lt_iff.1 (hle.trans_lt hlt')
  have h2 := two_zpow_lt_iff.1 (hle'.trans_lt hlt)
  omega

/-- `floor(log2(num / den))` is the binade of the quotient. -/
theorem log2Ratio_binade (hnum : 0 < num) (hden : 0 < den) :
    (2 : ℚ) ^ log2Ratio num den ≤ num / den ∧ (num : ℚ) / den < 2 ^ (log2Ratio num den + 1) := by
  have hden' : (0 : ℚ) < den := Nat.cast_pos.2 hden
  have hnumLe : (2 : ℚ) ^ (num.log2 : Int) ≤ num := by exact_mod_cast Nat.log2_self_le hnum.ne'
  have hnumLt : (num : ℚ) < 2 ^ ((num.log2 : Int) + 1) := by exact_mod_cast Nat.lt_log2_self
  have hdenLe : (2 : ℚ) ^ (den.log2 : Int) ≤ den := by exact_mod_cast Nat.log2_self_le hden.ne'
  have hdenLt : (den : ℚ) < 2 ^ ((den.log2 : Int) + 1) := by exact_mod_cast Nat.lt_log2_self
  set d : Int := (num.log2 : Int) - den.log2 with hd
  have htest : den * pow2Num d ≤ num * pow2Den d ↔ (2 : ℚ) ^ d ≤ num / den := by
    rw [← Nat.cast_le (α := ℚ), Nat.cast_mul, Nat.cast_mul, pow2Num_eq_mul, ← mul_assoc,
      mul_le_mul_iff_left₀ (pow2Den_pos d), le_div_iff₀ hden', mul_comm]
  rw [log2Ratio]
  simp only [← hd, htest]
  split
  next hle =>
    refine ⟨hle, (div_lt_iff₀ hden').2 ?_⟩
    calc (num : ℚ) < 2 ^ ((num.log2 : Int) + 1) := hnumLt
      _ = 2 ^ (d + 1) * 2 ^ (den.log2 : Int) := by rw [← two_zpow_add]; congr 1; omega
      _ ≤ 2 ^ (d + 1) * den := mul_le_mul_of_nonneg_left hdenLe (two_zpow_pos _).le
  next hlt =>
    rw [Int.sub_add_cancel]
    refine ⟨(le_div_iff₀ hden').2 ?_, not_le.1 hlt⟩
    calc (2 : ℚ) ^ (d - 1) * den ≤ 2 ^ (d - 1) * 2 ^ ((den.log2 : Int) + 1) :=
          mul_le_mul_of_nonneg_left hdenLt.le (two_zpow_pos _).le
      _ = 2 ^ (num.log2 : Int) := by rw [← two_zpow_add]; congr 1; omega
      _ ≤ num := hnumLe

theorem log2Ratio_add_binade (hnum : 0 < num) (hden : 0 < den) (k : Int) :
    (2 : ℚ) ^ (log2Ratio num den + k) ≤ num / den * 2 ^ k ∧
      (num : ℚ) / den * 2 ^ k < 2 ^ (log2Ratio num den + k + 1) := by
  obtain ⟨hle, hlt⟩ := log2Ratio_binade hnum hden
  rw [Int.add_right_comm, two_zpow_add, two_zpow_add]
  exact ⟨mul_le_mul_of_nonneg_right hle (two_zpow_pos k).le, mul_lt_mul_of_pos_right hlt (two_zpow_pos k)⟩

theorem Magnitude.log2_ratio (hnum : 0 < num) (hden : 0 < den) (hle : (2 : ℚ) ^ e ≤ num / den * 2 ^ k)
    (hlt : (num : ℚ) / den * 2 ^ k < 2 ^ (e + 1)) : (Magnitude.ratio num den k).log2 = e :=
  have ⟨hle', hlt'⟩ := log2Ratio_add_binade hnum hden k
  binade_unique hle hlt hle' hlt'

/-! ### A rational number as an integer part and a rest -/

/-- Where a fractional part stands against one half. -/
def Rest.ofFract (r : ℚ) : Rest :=
  if r = 0 then .exact else if r < 1 / 2 then .belowHalf else if r = 1 / 2 then .half else .aboveHalf

/-- The cut of a non-negative rational number. -/
def Cut.ofRat (x : ℚ) : Cut := { n := ⌊x⌋.toNat, rest := .ofFract (Int.fract x) }

theorem Rest.ofFract_eq_exact {r : ℚ} : Rest.ofFract r = .exact ↔ r = 0 := by
  unfold Rest.ofFract
  split
  next h => exact iff_of_true rfl h
  next h => split_ifs <;> exact iff_of_false (by decide) h

theorem restOf_eq_ofFract {y d : Nat} (hy : 0 < y) (hd : 0 < d) : restOf (2 * y) d = .ofFract ((y : ℚ) / d) := by
  have hd' : (0 : ℚ) < d := Nat.cast_pos.2 hd
  have hne : (y : ℚ) / d ≠ 0 := (div_pos (Nat.cast_pos.2 hy) hd').ne'
  have hbelow : 2 * y < d ↔ (y : ℚ) / d < 1 / 2 := by
    rw [div_lt_div_iff₀ hd' two_pos, mul_comm, one_mul]; exact_mod_cast Iff.rfl
  have hhalf : 2 * y = d ↔ (y : ℚ) / d = 1 / 2 := by
    rw [div_eq_div_iff hd'.ne' two_ne_zero, mul_comm, one_mul]; exact_mod_cast Iff.rfl
  simp only [restOf, Rest.ofFract, if_neg hne, hbelow, hhalf]

theorem cutRatio_eq_ofRat (hden : 0 < den) : cutRatio num den = .ofRat ((num : ℚ) / den) := by
  have hden' : (0 : ℚ) < den := Nat.cast_pos.2 hden
  have hfloor : ⌊(num : ℚ) / den⌋.toNat = num / den := by rw [Rat.floor_natCast_div_natCast]; rfl
  rw [cutRatio, Cut.ofRat, hfloor, Int.fract_div_natCast_eq_div_natCast_mod]
  congr 1
  split
  next h => rw [h, Nat.cast_zero, zero_div]; rfl
  next h => exact restOf_eq_ofFract (Nat.pos_of_ne_zero h) hden

/-- A rational magnitude in units of `2^q`. -/
theorem Magnitude.cut_ratio (hden : 0 < den) (q : Int) :
    (Magnitude.ratio num den k).cut q = .ofRat ((num : ℚ) / den * 2 ^ k / 2 ^ q) := by
  have hpos : 0 < den * pow2Den (k - q) := Nat.mul_pos hden (Nat.cast_pos.1 (pow2Den_pos _))
  rw [Magnitude.cut, cutRatio_eq_ofRat hpos, Nat.cast_mul, Nat.cast_mul, mul_div_mul_comm, pow2Num_div_pow2Den,
    two_zpow_sub, mul_div_assoc]

/-- `rint` of R346 is the rule on rational numbers. -/
theorem rint_ofRat (hx : 0 ≤ x) (neg : Bool) (rm : RoundingMode) :
    (rint (.ofRat x) neg rm : Int) = Claims.rint x neg rm := by
  obtain ⟨n, hn⟩ := Int.eq_ofNat_of_zero_le (Int.floor_nonneg.2 hx)
  have hodd : (n % 2 == 1) = decide ((n : Int) % 2 = 1) := by
    rw [beq_eq_decide, decide_eq_decide]; omega
  have hfract : x - ((n : Int) : ℚ) = Int.fract x := by rw [← hn, Int.self_sub_floor]
  simp only [Claims.rint, Cut.ofRat, hn, hfract, Int.toNat_natCast]
  generalize Int.fract x = r
  by_cases hzero : r = 0
  · simp [rint, Rest.ofFract, hzero]
  · rcases lt_trichotomy r 2⁻¹ with hlt | rfl | hgt
    · have hrest : Rest.ofFract r = .belowHalf := by rw [Rest.ofFract, one_div, if_neg hzero, if_pos hlt]
      cases rm <;> cases neg <;> simp [rint, hrest, hzero, hlt.not_ge, hlt.ne, hlt.not_gt]
    · have hrest : Rest.ofFract 2⁻¹ = .half := by norm_num [Rest.ofFract]
      cases rm <;> cases neg <;> simp [rint, hrest, hodd]
    · have hrest : Rest.ofFract r = .aboveHalf := by
        rw [Rest.ofFract, one_div, if_neg hzero, if_neg hgt.not_gt, if_neg hgt.ne']
      cases rm <;> cases neg <;> simp [rint, hrest, hzero, hgt, hgt.le]

/-- Rounding changes what has a fractional part, and nothing else. -/
theorem rint_eq_self_iff : (Claims.rint x neg rm : ℚ) = x ↔ Int.fract x = 0 := by
  constructor
  · intro h
    rw [← h, Int.fract_intCast]
  · intro h
    rw [Claims.rint.eq_def]
    simp only [Int.self_sub_floor, h, if_true]
    rw [← Int.self_sub_fract, h, sub_zero]

theorem ofRat_rest_ne_exact_iff : (Cut.ofRat x).rest ≠ .exact ↔ (Claims.rint x neg rm : ℚ) ≠ x := by
  rw [ne_eq, ne_eq, rint_eq_self_iff]
  exact not_congr Rest.ofFract_eq_exact

/-! ### Flags -/

theorem or_noFlags (fl : Flags) : fl ||| noFlags = fl := BitVec.or_zero

theorem noFlags_or (fl : Flags) : noFlags ||| fl = fl := BitVec.zero_or

theorem flagIf_eq_ite {c : Bool} {P : Prop} [Decidable P] (h : c = true ↔ P) (fl : Flags) :
    flagIf c fl = if P then fl else noFlags := by
  simp only [flagIf, h]

/-! ### `round_F` -/

/-- `round_F` of a magnitude in the binade `e`, with its comparisons on rational numbers. -/
theorem FloatFormat.round_of_log2 {m : Magnitude} {n u : Int} (he : m.log2 = e) (hq : q = max e F.emin - F.prec + 1)
    (hn : (rint (m.cut q) neg rm : Int) = n) (hu : (rint (m.cut (e - F.prec + 1)) neg rm : Int) = u) :
    F.round neg m rm =
      if (n : ℚ) * 2 ^ q < 2 ^ (F.emax + 1) then
        (F.signed neg (F.encode n.toNat q),
          (if (m.cut q).rest ≠ .exact then flagNX else noFlags) |||
            if (u : ℚ) * 2 ^ (e - F.prec + 1) < 2 ^ F.emin ∧ (m.cut q).rest ≠ .exact then flagUF else noFlags)
      else (F.signed neg (if overflowsToInf neg rm then F.infPattern else F.maxPattern), flagOF ||| flagNX) := by
  subst hn hu hq he
  have hrest (c : Cut) : (c.rest != .exact) = true ↔ c.rest ≠ .exact := bne_iff_ne
  simp only [FloatFormat.round, belowPow2_iff, Int.cast_natCast, Int.toNat_natCast, flagIf_eq_ite (hrest _)]
  rw [flagIf_eq_ite (P := _ ∧ _) (by rw [Bool.and_eq_true, belowPow2_iff, hrest])]

theorem overflowsToInf_iff : overflowsToInf neg rm = true ↔
    rm = .rne ∨ rm = .rmm ∨ (rm = .rdn ∧ neg = true) ∨ (rm = .rup ∧ neg = false) := by
  cases rm <;> simp [overflowsToInf]

/-- Settles O49: both cuts of the magnitude, at the spacing and at the unbounded one that tells tininess, are those of
rational numbers. -/
theorem roundRule : Obligations.RoundRule := by
  intro F num den k e a neg rm q r ru hnum hden ha hle hlt hq hr hru
  have ha0 : 0 ≤ a := (two_zpow_pos e).le.trans hle
  have hcut (t : Int) : (Magnitude.ratio num den k).cut t = .ofRat (a / 2 ^ t) := ha ▸ Magnitude.cut_ratio hden t
  have hrint (t : Int) : (rint ((Magnitude.ratio num den k).cut t) neg rm : Int) = Claims.rint (a / 2 ^ t) neg rm :=
    hcut t ▸ rint_ofRat (div_nonneg ha0 (two_zpow_pos t).le) neg rm
  have hchanged : ((Magnitude.ratio num den k).cut q).rest ≠ .exact ↔ r ≠ a := by
    rw [hcut, ofRat_rest_ne_exact_iff (neg := neg) (rm := rm), hr, ne_eq, ne_eq, eq_div_iff (two_zpow_pos q).ne']
  subst ha
  rw [FloatFormat.round_of_log2 (Magnitude.log2_ratio hnum hden hle hlt) hq (hrint _) (hrint _), ← hr, ← hru]
  simp only [hchanged, overflowsToInf_iff]

end Sys2Proof.Machine
end

section
/-! O55: conversion to an integer (47_float.md R351), a rounding in units of 1. -/

namespace Sys2Proof.Machine

theorem intMinOf_eq (n : Nat) (signed : Bool) : intMinOf n signed = if signed then -2 ^ (n - 1) else 0 := by
  simp [intMinOf]

theorem intMaxOf_eq (n : Nat) (signed : Bool) :
    intMaxOf n signed = if signed then 2 ^ (n - 1) - 1 else 2 ^ n - 1 := by
  simp [intMaxOf]

/-- Settles O55: the value is rounded as R346 rounds a rational number, and what rounding changed is inexact. -/
theorem toIntegerRule : Obligations.ToIntegerRule := by
  intro F w n signed a rm lo hi hlo hhi
  obtain rfl : intMinOf n signed = lo := (intMinOf_eq n signed).trans hlo.symm
  obtain rfl : intMaxOf n signed = hi := (intMaxOf_eq n signed).trans hhi.symm
  refine ⟨fun q h => ?nan, fun h => ?plusInf, fun h => ?minusInf, fun neg h => ?zero, fun neg m k r h hr => ?finite⟩
  case nan => simp only [FloatFormat.toInt, h]
  case plusInf => simp only [FloatFormat.toInt, h, Bool.false_eq_true, if_false]
  case minusInf => simp only [FloatFormat.toInt, h, if_true]
  case zero => simp only [FloatFormat.toInt, h]; rfl
  case finite =>
    have hx : (0 : ℚ) ≤ m * 2 ^ k := mul_nonneg m.cast_nonneg (two_zpow_pos k).le
    have hcut : (Magnitude.ratio m 1 k).cut 0 = .ofRat (m * 2 ^ k) := by
      rw [Magnitude.cut_ratio one_pos, Nat.cast_one, div_one, zpow_zero, div_one]
    have hinexact : ((Cut.ofRat (m * 2 ^ k)).rest != .exact) = true ↔
        ¬(r : ℚ) = (if neg then -1 else 1) * (m : ℚ) * 2 ^ k := by
      rw [bne_iff_ne, ofRat_rest_ne_exact_iff (neg := neg) (rm := rm), hr, mul_assoc]
      cases neg <;> simp
    simp only [FloatFormat.toInt, h, hcut, rint_ofRat hx, ← hr, flagIf_eq_ite hinexact, ite_not]

end Sys2Proof.Machine
end

section
/-! O52, O53: what the arithmetic operations round is the exact value (47_float.md R346, R347, R352). Every sum is taken
in units of the finer exponent, and a signed magnitude that is rounded stands for a rational number. -/

namespace Sys2Proof.Machine

variable {F : FloatFormat} {w : Nat} {rm : RoundingMode} {x y v : FVal} {p r u : ℚ} {q : Int}

/-! ### Values and the rational numbers they stand for -/

/-- A sign as a factor. -/
def signFactor (neg : Bool) : ℚ := if neg then -1 else 1

theorem signFactor_xor (s t : Bool) : signFactor (s ^^ t) = signFactor s * signFactor t := by
  cases s <;> cases t <;> simp [signFactor]

theorem abs_signFactor_mul (neg : Bool) (a : ℚ) : |signFactor neg * a| = |a| := by
  cases neg <;> simp [signFactor]

theorem signFactor_mul_neg_iff (neg : Bool) {a : ℚ} (ha : 0 < a) : signFactor neg * a < 0 ↔ neg = true := by
  cases neg <;> simp [signFactor, ha, ha.le]

theorem signFactor_ne_zero (neg : Bool) : signFactor neg ≠ 0 := by
  cases neg <;> simp [signFactor]

/-- The magnitude of a finite value is positive, as `FVal.finite` says. -/
def FVal.Proper : FVal → Prop
  | .finite _ m _ => 0 < m
  | _ => True

theorem FloatFormat.value_proper (F : FloatFormat) (b : BitVec w) : (F.value b).Proper := by
  unfold FloatFormat.value
  dsimp only
  split_ifs with _ _ _ hfrac
  · trivial
  · trivial
  · trivial
  · exact Nat.pos_of_ne_zero hfrac
  · exact Nat.add_pos_left (Nat.two_pow_pos _) _

theorem realOf_finite (neg : Bool) (m : Nat) (k : Int) :
    Claims.realOf (.finite neg m k) = .rat (signFactor neg * (m * 2 ^ k)) := by
  rw [Claims.realOf, mul_assoc, signFactor]

/-- Which values stand for a rational number. -/
theorem zero_or_finite_of_rat (h : Claims.realOf v = .rat r) :
    (∃ neg, v = .zero neg ∧ r = 0) ∨ ∃ neg m k, v = .finite neg m k ∧ r = signFactor neg * (m * 2 ^ k) := by
  cases v with
  | nan => cases h
  | inf neg => cases neg <;> cases h
  | zero neg => exact .inl ⟨neg, rfl, (Claims.Real.rat.inj h).symm⟩
  | finite neg m k => exact .inr ⟨neg, m, k, rfl, (Claims.Real.rat.inj ((realOf_finite neg m k).symm.trans h)).symm⟩

theorem signFactor_mul_magnitude_ne_zero {neg : Bool} {m : Nat} {k : Int} (hm : 0 < m) :
    signFactor neg * ((m : ℚ) * 2 ^ k) ≠ 0 :=
  mul_ne_zero (signFactor_ne_zero neg) (mul_pos (Nat.cast_pos.2 hm) (two_zpow_pos k)).ne'

theorem eq_zero_of_rat (hv : v.Proper) (h : Claims.realOf v = .rat 0) : ∃ neg, v = .zero neg := by
  obtain ⟨neg, rfl, -⟩ | ⟨neg, m, k, rfl, h0⟩ := zero_or_finite_of_rat h
  · exact ⟨neg, rfl⟩
  · exact absurd h0.symm (signFactor_mul_magnitude_ne_zero hv)

theorem eq_finite_of_rat (hv : v.Proper) (h : Claims.realOf v = .rat r) (hr : r ≠ 0) :
    ∃ neg m k, v = .finite neg m k ∧ 0 < m ∧ r = signFactor neg * (m * 2 ^ k) := by
  obtain ⟨neg, rfl, h0⟩ | ⟨neg, m, k, rfl, hval⟩ := zero_or_finite_of_rat h
  · exact absurd h0 hr
  · exact ⟨neg, m, k, rfl, hv, hval⟩

theorem isNaN_of_rat (h : Claims.realOf v = .rat r) : v.isNaN = false := by
  obtain ⟨neg, rfl, -⟩ | ⟨neg, m, k, rfl, -⟩ := zero_or_finite_of_rat h <;> rfl

theorem isSignaling_of_not_isNaN (h : v.isNaN = false) : v.isSignaling = false := by
  cases v with
  | nan => cases h
  | _ => rfl

theorem isInf_of_rat (h : Claims.realOf v = .rat r) : v.isInf = false := by
  obtain ⟨neg, rfl, -⟩ | ⟨neg, m, k, rfl, -⟩ := zero_or_finite_of_rat h <;> rfl

/-- No exponent is that of zero. -/
theorem exponent?_isNone_iff (hv : v.Proper) (h : Claims.realOf v = .rat r) : v.exponent?.isNone = true ↔ r = 0 := by
  obtain ⟨neg, rfl, h0⟩ | ⟨neg, m, k, rfl, hval⟩ := zero_or_finite_of_rat h
  · exact iff_of_true rfl h0
  · exact iff_of_false Bool.false_ne_true (hval ▸ signFactor_mul_magnitude_ne_zero hv)

/-! ### Units of the finer exponent -/

theorem commonExponent_le_left {k : Int} (h : x.exponent? = some k) : commonExponent x y ≤ k := by
  unfold commonExponent
  rw [h]
  cases y.exponent? with
  | none => exact le_rfl
  | some j => exact min_le_left k j

theorem commonExponent_le_right {k : Int} (h : y.exponent? = some k) : commonExponent x y ≤ k := by
  unfold commonExponent
  rw [h]
  cases x.exponent? with
  | none => exact le_rfl
  | some j => exact min_le_right j k

theorem units_mul_zpow (h : Claims.realOf v = .rat r) (hq : ∀ k, v.exponent? = some k → q ≤ k) :
    (v.units q : ℚ) * 2 ^ q = r := by
  obtain ⟨neg, rfl, rfl⟩ | ⟨neg, m, k, rfl, rfl⟩ := zero_or_finite_of_rat h
  · simp [FVal.units]
  · have hpow : (pow2Num (k - q) : ℚ) * 2 ^ q = 2 ^ k := by
      rw [pow2Num_of_nonneg (sub_nonneg.2 (hq k rfl)), ← two_zpow_add, sub_add_cancel]
    rw [FVal.units, signFactor]
    push_cast
    rw [mul_assoc, mul_assoc, hpow]

theorem left_units_mul_zpow (hx : Claims.realOf x = .rat p) :
    (x.units (commonExponent x y) : ℚ) * 2 ^ commonExponent x y = p :=
  units_mul_zpow hx fun _ => commonExponent_le_left

theorem right_units_mul_zpow (hy : Claims.realOf y = .rat r) :
    (y.units (commonExponent x y) : ℚ) * 2 ^ commonExponent x y = r :=
  units_mul_zpow hy fun _ => commonExponent_le_right

/-! ### Rounding the exact value -/

/-- The result is the rational number `v`, rounded once. -/
def FloatFormat.RoundsValue (F : FloatFormat) (w : Nat) (v : ℚ) (rm : RoundingMode) (res : FResult w) : Prop :=
  ∃ (num den : Nat) (k : Int), 0 < num ∧ 0 < den ∧ (num : ℚ) / den * 2 ^ k = |v| ∧
    res = F.rounded w (decide (v < 0)) (.ratio num den k) rm

theorem roundsValue_rounded {num den : Nat} {k : Int} {neg : Bool} (hnum : 0 < num) (hden : 0 < den)
    (hr : r = signFactor neg * ((num : ℚ) / den * 2 ^ k)) :
    F.RoundsValue w r rm (F.rounded w neg (.ratio num den k) rm) := by
  have hpos : (0 : ℚ) < num / den * 2 ^ k :=
    mul_pos (div_pos (Nat.cast_pos.2 hnum) (Nat.cast_pos.2 hden)) (two_zpow_pos k)
  refine ⟨num, den, k, hnum, hden, ?_, ?_⟩
  · rw [hr, abs_signFactor_mul, abs_of_pos hpos]
  · rw [hr]
    simp only [signFactor_mul_neg_iff neg hpos, Bool.decide_eq_true]

/-- A whole number of units, rounded with its sign. -/
theorem roundsValue_int {n : Int} (hn : n ≠ 0) (hr : r = n * 2 ^ q) :
    F.RoundsValue w r rm (F.rounded w (decide (n < 0)) (.ratio n.natAbs 1 q) rm) := by
  have hsign : (n : ℚ) = signFactor (decide (n < 0)) * n.natAbs := by
    rw [signFactor, Nat.cast_natAbs, Int.cast_abs]
    by_cases hneg : n < 0
    · have hneg' : (n : ℚ) < 0 := by exact_mod_cast hneg
      simp [hneg, abs_of_neg hneg']
    · have hpos : (0 : ℚ) ≤ n := by exact_mod_cast not_lt.1 hneg
      simp [hneg, abs_of_nonneg hpos]
  refine roundsValue_rounded (Int.natAbs_pos.2 hn) one_pos ?_
  rw [hr, Nat.cast_one, div_one, ← mul_assoc, ← hsign]

/-- The sum of two values that are finite or zero (R346). -/
theorem FloatFormat.sum_spec (F : FloatFormat) (w : Nat) (rm : RoundingMode) (hx : x.Proper) (hy : y.Proper)
    (hp : Claims.realOf x = .rat p) (hr : Claims.realOf y = .rat r) :
    (p + r ≠ 0 → F.RoundsValue w (p + r) rm (F.sum w x y rm)) ∧
      (p + r = 0 → F.sum w x y rm =
        (F.zero w (if p = 0 ∧ x.sign = y.sign then x.sign else decide (rm = .rdn)), noFlags)) := by
  have hval : p + r = ((x.units (commonExponent x y) + y.units (commonExponent x y) : Int) : ℚ) *
      2 ^ commonExponent x y := by
    rw [Int.cast_add, add_mul, left_units_mul_zpow hp, right_units_mul_zpow hr]
  have hzero : x.units (commonExponent x y) + y.units (commonExponent x y) = 0 ↔ p + r = 0 := by
    rw [hval, mul_eq_zero, Int.cast_eq_zero, or_iff_left (two_zpow_pos _).ne']
  unfold FloatFormat.sum
  simp only [hzero]
  refine ⟨fun h => ?_, fun h => ?_⟩
  · rw [if_neg h]
    exact roundsValue_int (mt hzero.1 h) hval
  · have hboth : (x.exponent?.isNone && y.exponent?.isNone && x.sign == y.sign) = true ↔
        p = 0 ∧ x.sign = y.sign := by
      rw [Bool.and_eq_true, Bool.and_eq_true, exponent?_isNone_iff hx hp, exponent?_isNone_iff hy hr, beq_iff_eq]
      exact and_congr_left fun _ => and_iff_left_of_imp fun h0 => by rwa [h0, zero_add] at h
    rw [if_pos h]
    simp only [hboth]
    simp only [beq_eq_decide]

theorem FloatFormat.addValues_of_rat (hp : Claims.realOf x = .rat p) (hr : Claims.realOf y = .rat r) :
    F.addValues w x y rm = F.sum w x y rm := by
  obtain ⟨_, rfl, -⟩ | ⟨_, _, _, rfl, -⟩ := zero_or_finite_of_rat hp <;>
    obtain ⟨_, rfl, -⟩ | ⟨_, _, _, rfl, -⟩ := zero_or_finite_of_rat hr <;> rfl

/-! ### Changing a sign -/

theorem negateIf_proper (flip : Bool) (hv : v.Proper) : (v.negateIf flip).Proper := by
  cases v <;> exact hv

theorem realOf_negateIf (flip : Bool) (h : Claims.realOf v = .rat r) :
    Claims.realOf (v.negateIf flip) = .rat (signFactor flip * r) := by
  obtain ⟨neg, rfl, rfl⟩ | ⟨neg, m, k, rfl, rfl⟩ := zero_or_finite_of_rat h
  · rw [mul_zero]; rfl
  · rw [FVal.negateIf, realOf_finite, signFactor_xor, mul_comm (signFactor neg), mul_assoc]

theorem sign_negateIf (flip : Bool) (h : v.isNaN = false) : (v.negateIf flip).sign = (v.sign ^^ flip) := by
  cases v with
  | nan => cases h
  | _ => rfl

/-! ### Add and subtract -/

section
variable {a b : BitVec w} (hp : Claims.realOf (F.value a) = .rat p) (hr : Claims.realOf (F.value b) = .rat r)
include hp hr

theorem FloatFormat.add_of_rat : F.add a b rm = F.sum w (F.value a) (F.value b) rm := by
  simp only [FloatFormat.add, isNaN_of_rat hp, isNaN_of_rat hr, Bool.or_false, Bool.false_eq_true, if_false,
    FloatFormat.addValues_of_rat hp hr]

theorem FloatFormat.sub_of_rat : F.sub a b rm = F.sum w (F.value a) ((F.value b).negateIf true) rm := by
  simp only [FloatFormat.sub, isNaN_of_rat hp, isNaN_of_rat hr, Bool.or_false, Bool.false_eq_true, if_false,
    FloatFormat.addValues_of_rat hp (realOf_negateIf true hr)]

theorem FloatFormat.add_spec :
    (p + r ≠ 0 → F.RoundsValue w (p + r) rm (F.add a b rm)) ∧
      (p + r = 0 → F.add a b rm = (F.zero w (if p = 0 ∧ (F.value a).sign = (F.value b).sign then (F.value a).sign
        else decide (rm = .rdn)), noFlags)) := by
  rw [FloatFormat.add_of_rat hp hr]
  exact F.sum_spec w rm (F.value_proper a) (F.value_proper b) hp hr

theorem FloatFormat.sub_spec :
    (p - r ≠ 0 → F.RoundsValue w (p - r) rm (F.sub a b rm)) ∧
      (p - r = 0 → F.sub a b rm = (F.zero w (if p = 0 ∧ (F.value a).sign ≠ (F.value b).sign then (F.value a).sign
        else decide (rm = .rdn)), noFlags)) := by
  have hneg : p - r = p + signFactor true * r := by rw [signFactor, if_pos rfl, neg_one_mul, sub_eq_add_neg]
  have hsign : (F.value a).sign = ((F.value b).negateIf true).sign ↔ (F.value a).sign ≠ (F.value b).sign := by
    rw [sign_negateIf true (isNaN_of_rat hr), Bool.xor_true, Bool.eq_not]
  have hsum := F.sum_spec w rm (F.value_proper a) (negateIf_proper true (F.value_proper b)) hp (realOf_negateIf true hr)
  rw [FloatFormat.sub_of_rat hp hr, hneg]
  simpa only [hsign] using hsum

/-! ### Multiply and divide -/

theorem FloatFormat.mul_roundsValue (h : p * r ≠ 0) : F.RoundsValue w (p * r) rm (F.mul a b rm) := by
  obtain ⟨s, m, j, ha, hm, rfl⟩ := eq_finite_of_rat (F.value_proper a) hp (left_ne_zero_of_mul h)
  obtain ⟨t, n, k, hb, hn, rfl⟩ := eq_finite_of_rat (F.value_proper b) hr (right_ne_zero_of_mul h)
  simp only [FloatFormat.mul, ha, hb]
  refine roundsValue_rounded (Nat.mul_pos hm hn) one_pos ?_
  simp only [FVal.sign, signFactor_xor, two_zpow_add, Nat.cast_mul, Nat.cast_one]
  ring

theorem FloatFormat.mul_of_eq_zero (h : p * r = 0) :
    F.mul a b rm = (F.zero w ((F.value a).sign ^^ (F.value b).sign), noFlags) := by
  rcases mul_eq_zero.1 h with rfl | rfl
  · obtain ⟨s, ha⟩ := eq_zero_of_rat (F.value_proper a) hp
    obtain ⟨t, hb, -⟩ | ⟨t, n, k, hb, -⟩ := zero_or_finite_of_rat hr <;> simp only [FloatFormat.mul, ha, hb]
  · obtain ⟨t, hb⟩ := eq_zero_of_rat (F.value_proper b) hr
    obtain ⟨s, ha, -⟩ | ⟨s, m, j, ha, -⟩ := zero_or_finite_of_rat hp <;> simp only [FloatFormat.mul, ha, hb]

theorem FloatFormat.div_roundsValue (h : p ≠ 0) (h' : r ≠ 0) : F.RoundsValue w (p / r) rm (F.div a b rm) := by
  obtain ⟨s, m, j, ha, hm, rfl⟩ := eq_finite_of_rat (F.value_proper a) hp h
  obtain ⟨t, n, k, hb, hn, rfl⟩ := eq_finite_of_rat (F.value_proper b) hr h'
  have hinv : (signFactor t)⁻¹ = signFactor t := by cases t <;> norm_num [signFactor]
  simp only [FloatFormat.div, ha, hb]
  refine roundsValue_rounded hm hn ?_
  rw [FVal.sign, FVal.sign, signFactor_xor, two_zpow_sub, mul_div_mul_comm, mul_div_mul_comm, div_eq_mul_inv _
    (signFactor t), hinv]

theorem FloatFormat.div_of_zero (h : p = 0) (h' : r ≠ 0) :
    F.div a b rm = (F.zero w ((F.value a).sign ^^ (F.value b).sign), noFlags) := by
  obtain ⟨s, ha⟩ := eq_zero_of_rat (F.value_proper a) (h ▸ hp)
  obtain ⟨t, n, k, hb, -⟩ := eq_finite_of_rat (F.value_proper b) hr h'
  simp only [FloatFormat.div, ha, hb]

theorem FloatFormat.div_by_zero (h : p ≠ 0) (h' : r = 0) :
    F.div a b rm = (F.inf w ((F.value a).sign ^^ (F.value b).sign), flagDZ) := by
  obtain ⟨s, m, j, ha, -⟩ := eq_finite_of_rat (F.value_proper a) hp h
  obtain ⟨t, hb⟩ := eq_zero_of_rat (F.value_proper b) (h' ▸ hr)
  simp only [FloatFormat.div, ha, hb]

theorem FloatFormat.div_zero_by_zero (h : p = 0) (h' : r = 0) : F.div a b rm = (F.nan w, flagNV) := by
  obtain ⟨s, ha⟩ := eq_zero_of_rat (F.value_proper a) (h ▸ hp)
  obtain ⟨t, hb⟩ := eq_zero_of_rat (F.value_proper b) (h' ▸ hr)
  simp only [FloatFormat.div, ha, hb]

end

/-! ### Conversions -/

theorem FloatFormat.convert_roundsValue {a : BitVec w} (hp : Claims.realOf (F.value a) = .rat p) (h : p ≠ 0)
    (G : FloatFormat) (n : Nat) : G.RoundsValue n p rm (F.convert G n a rm) := by
  obtain ⟨s, m, k, ha, hm, rfl⟩ := eq_finite_of_rat (F.value_proper a) hp h
  simp only [FloatFormat.convert, ha]
  exact roundsValue_rounded hm one_pos (by rw [Nat.cast_one, div_one])

theorem FloatFormat.ofInt_roundsValue {n : Int} (h : n ≠ 0) : F.RoundsValue w (n : ℚ) rm (F.ofInt w n rm) := by
  have hval : (n : ℚ) = n * 2 ^ (0 : Int) := by rw [zpow_zero, mul_one]
  rw [FloatFormat.ofInt, if_neg h]
  exact roundsValue_int h hval

/-- Settles O52: each operation by its own lemma. -/
theorem exactOperations : Obligations.ExactOperations := by
  intro F w a b rm p q hp hq
  obtain ⟨haddNe, haddZero⟩ := FloatFormat.add_spec (rm := rm) hp hq
  obtain ⟨hsubNe, hsubZero⟩ := FloatFormat.sub_spec (rm := rm) hp hq
  refine ⟨haddNe, haddZero, hsubNe, FloatFormat.mul_roundsValue hp hq, FloatFormat.div_roundsValue hp hq, hsubZero,
    FloatFormat.mul_of_eq_zero hp hq, FloatFormat.div_of_zero hp hq, FloatFormat.div_by_zero hp hq,
    FloatFormat.div_zero_by_zero hp hq, FloatFormat.convert_roundsValue hp, fun n hn => ?_, rfl⟩
  obtain ⟨num, den, k, hnum, hden, habs, heq⟩ := FloatFormat.ofInt_roundsValue (F := F) (w := w) (rm := rm) hn
  exact ⟨num, den, k, hnum, hden, habs, by simpa only [Int.cast_lt_zero] using heq⟩

/-! ### Fused multiply-add -/

theorem exactProduct_proper {neg : Bool} (hx : x.Proper) (hy : y.Proper) : (exactProduct x y neg).Proper := by
  cases x <;> cases y
  case finite.finite => exact Nat.mul_pos hx hy
  all_goals trivial

theorem sign_exactProduct {neg : Bool} : (exactProduct x y neg).sign = neg := by
  cases x <;> cases y <;> rfl

/-- The product before rounding, negated when `np`. -/
theorem realOf_exactProduct (np : Bool) (hp : Claims.realOf x = .rat p) (hr : Claims.realOf y = .rat r) :
    Claims.realOf (exactProduct x y (x.sign ^^ y.sign ^^ np)) = .rat (signFactor np * (p * r)) := by
  obtain ⟨s, rfl, rfl⟩ | ⟨s, m, j, rfl, rfl⟩ := zero_or_finite_of_rat hp
  · rw [zero_mul, mul_zero]; rfl
  · obtain ⟨t, rfl, rfl⟩ | ⟨t, n, k, rfl, rfl⟩ := zero_or_finite_of_rat hr
    · rw [mul_zero, mul_zero]; rfl
    · rw [exactProduct, realOf_finite, FVal.sign, FVal.sign, signFactor_xor, signFactor_xor, two_zpow_add,
        Nat.cast_mul]
      congr 1
      ring

theorem infTimesZero_of_rat (hp : Claims.realOf x = .rat p) (hr : Claims.realOf y = .rat r) :
    infTimesZero x y = false := by
  obtain ⟨_, rfl, -⟩ | ⟨_, _, _, rfl, -⟩ := zero_or_finite_of_rat hp <;>
    obtain ⟨_, rfl, -⟩ | ⟨_, _, _, rfl, -⟩ := zero_or_finite_of_rat hr <;> rfl

theorem isInf_negateIf (flip : Bool) : (v.negateIf flip).isInf = v.isInf := by
  cases v <;> rfl

theorem signalingFlag_of_not_isNaN {vs : List FVal} (h : ∀ v ∈ vs, v.isNaN = false) : signalingFlag vs = noFlags := by
  have hany : vs.any FVal.isSignaling = false :=
    List.any_eq_false.2 fun v hv => Bool.eq_false_iff.1 (isSignaling_of_not_isNaN (h v hv))
  rw [signalingFlag, hany]
  rfl

section
variable {a b c : BitVec w} (np nc : Bool) (ha : (F.value a).isNaN = false) (hb : (F.value b).isNaN = false)
  (hc : (F.value c).isNaN = false) (hinf : infTimesZero (F.value a) (F.value b) = false)
include ha hb hc hinf

/-- The fused operation without NaN, its product in sign `ps` (R347). -/
theorem FloatFormat.fma_of_not_isNaN {ps : Bool} (hps : ps = ((F.value a).sign ^^ (F.value b).sign ^^ np)) :
    F.fma a b c np nc rm =
      if ((F.value a).isInf || (F.value b).isInf) = true then
        if ((F.value c).isInf && ((F.value c).sign ^^ nc) != ps) = true then (F.nan w, flagNV)
        else (F.inf w ps, noFlags)
      else if (F.value c).isInf = true then (F.inf w ((F.value c).sign ^^ nc), noFlags)
      else F.sum w (exactProduct (F.value a) (F.value b) ps) ((F.value c).negateIf nc) rm := by
  have hquiet : signalingFlag [F.value a, F.value b, F.value c] = noFlags :=
    signalingFlag_of_not_isNaN (by simp [ha, hb, hc])
  simp only [FloatFormat.fma, ha, hb, hc, hinf, hquiet, noFlags_or, isInf_negateIf, sign_negateIf nc hc, ← hps,
    Bool.or_false, Bool.false_eq_true, if_false]

end

/-- Settles O53: without NaN the operation is the sum of the exact product and the addend, unless one is infinite. -/
theorem fusedRule : Obligations.FusedRule := by
  intro F w a b c np nc ps cs rm hps hcs
  refine ⟨fun p q u v hp hq hu hv => ?finite, fun ha hb hc hinf => ?infinite⟩
  case finite =>
    have hval : v = signFactor np * (p * q) + signFactor nc * u := hv
    have hsum := F.sum_spec w rm (exactProduct_proper (F.value_proper a) (F.value_proper b))
      (negateIf_proper nc (F.value_proper c)) (realOf_exactProduct np hp hq) (realOf_negateIf nc hu)
    rw [← hps, sign_exactProduct, sign_negateIf nc (isNaN_of_rat hu), ← hcs, ← hval] at hsum
    rw [FloatFormat.fma_of_not_isNaN np nc (isNaN_of_rat hp) (isNaN_of_rat hq) (isNaN_of_rat hu)
      (infTimesZero_of_rat hp hq) hps, isInf_of_rat hp, isInf_of_rat hq, isInf_of_rat hu]
    refine ⟨hsum.1, fun h0 => (hsum.2 h0).trans ?_⟩
    have hzeros : signFactor np * (p * q) = 0 ∧ ps = cs ↔ p * q = 0 ∧ u = 0 ∧ ps = cs := by
      rw [mul_eq_zero, or_iff_right (signFactor_ne_zero np)]
      refine and_congr_right fun hprod => (and_iff_right ?_).symm
      rw [hval, hprod, mul_zero, zero_add, mul_eq_zero] at h0
      exact h0.resolve_left (signFactor_ne_zero nc)
    simp only [hzeros]
  case infinite =>
    have hfma := FloatFormat.fma_of_not_isNaN (rm := rm) np nc ha hb hc hinf hps
    rw [← hcs] at hfma
    refine ⟨fun h => ?_, fun ha' hb' hc' => ?_⟩
    · rw [hfma, if_pos (by simpa using h)]
      simp
    · rw [hfma, if_neg (by simp [ha', hb']), if_pos hc']

end Sys2Proof.Machine
end

section
/-! O54: NaN and infinite inputs (47_float.md R344, R346, R347). -/

namespace Sys2Proof.Machine

variable {F : FloatFormat} {w : Nat} {rm : RoundingMode} {x y v : FVal} {a b c : BitVec w} {neg : Bool}

/-! ### NaN inputs (R344) -/

theorem eq_nan_of_isNaN (h : v.isNaN = true) : ∃ signaling, v = .nan signaling := by
  cases v with
  | nan signaling => exact ⟨signaling, rfl⟩
  | _ => cases h

theorem signalingFlag_pair (x y : FVal) :
    signalingFlag [x, y] = if x.isSignaling = true ∨ y.isSignaling = true then flagNV else noFlags := by
  simp [signalingFlag, flagIf]

theorem signalingFlag_triple (x y z : FVal) : signalingFlag [x, y, z] =
    if x.isSignaling = true ∨ y.isSignaling = true ∨ z.isSignaling = true then flagNV else noFlags := by
  simp [signalingFlag, flagIf]

theorem signalingFlag_or_flagNV (vs : List FVal) : signalingFlag vs ||| flagNV = flagNV := by
  unfold signalingFlag flagIf
  split <;> rfl

section
variable (h : (F.value a).isNaN = true ∨ (F.value b).isNaN = true)
include h

theorem FloatFormat.add_of_isNaN : F.add a b rm = (F.nan w, signalingFlag [F.value a, F.value b]) :=
  if_pos (Bool.or_eq_true _ _ ▸ h)

theorem FloatFormat.sub_of_isNaN : F.sub a b rm = (F.nan w, signalingFlag [F.value a, F.value b]) :=
  if_pos (Bool.or_eq_true _ _ ▸ h)

theorem FloatFormat.mul_of_isNaN : F.mul a b rm = (F.nan w, signalingFlag [F.value a, F.value b]) := by
  rcases h with h | h <;> obtain ⟨s, hs⟩ := eq_nan_of_isNaN h
  · simp only [FloatFormat.mul, hs]
  · cases ha : F.value a <;> simp only [FloatFormat.mul, ha, hs]

theorem FloatFormat.div_of_isNaN : F.div a b rm = (F.nan w, signalingFlag [F.value a, F.value b]) := by
  rcases h with h | h <;> obtain ⟨s, hs⟩ := eq_nan_of_isNaN h
  · simp only [FloatFormat.div, hs]
  · cases ha : F.value a <;> simp only [FloatFormat.div, ha, hs]

end

theorem FloatFormat.sqrt_of_isNaN (h : (F.value a).isNaN = true) :
    F.sqrt a rm = (F.nan w, if (F.value a).isSignaling = true then flagNV else noFlags) := by
  obtain ⟨s, hs⟩ := eq_nan_of_isNaN h
  simp only [FloatFormat.sqrt, hs]
  rfl

theorem FloatFormat.convert_of_isNaN (h : (F.value a).isNaN = true) (G : FloatFormat) (n : Nat) :
    F.convert G n a rm = (G.nan n, if (F.value a).isSignaling = true then flagNV else noFlags) := by
  obtain ⟨s, hs⟩ := eq_nan_of_isNaN h
  simp only [FloatFormat.convert, hs]
  rfl

theorem FloatFormat.fma_of_infTimesZero (np nc : Bool) (h : infTimesZero (F.value a) (F.value b) = true) :
    F.fma a b c np nc rm = (F.nan w, flagNV) := by
  simp only [FloatFormat.fma, h, if_true, signalingFlag_or_flagNV]

theorem FloatFormat.fma_of_isNaN (np nc : Bool)
    (h : (F.value a).isNaN = true ∨ (F.value b).isNaN = true ∨ (F.value c).isNaN = true)
    (hinf : infTimesZero (F.value a) (F.value b) = false) :
    F.fma a b c np nc rm = (F.nan w, signalingFlag [F.value a, F.value b, F.value c]) := by
  have hnan : ((F.value a).isNaN || (F.value b).isNaN || (F.value c).isNaN) = true := by simpa [or_assoc] using h
  simp only [FloatFormat.fma, hinf, Bool.false_eq_true, if_false, hnan, if_true]

/-! ### Infinite inputs (R346) -/

theorem addValues_inf_left (hy : y.isNaN = false) :
    F.addValues w (.inf neg) y rm = if y = .inf (!neg) then (F.nan w, flagNV) else (F.inf w neg, noFlags) := by
  cases y with
  | nan => cases hy
  | inf t => cases neg <;> cases t <;> rfl
  | _ => rfl

theorem addValues_inf_right (hx : x.isNaN = false) :
    F.addValues w x (.inf neg) rm = if x = .inf (!neg) then (F.nan w, flagNV) else (F.inf w neg, noFlags) := by
  cases x with
  | nan => cases hx
  | inf s => cases neg <;> cases s <;> rfl
  | _ => rfl

theorem isNaN_negateIf (flip : Bool) : (v.negateIf flip).isNaN = v.isNaN := by
  cases v <;> rfl

theorem negateIf_eq_inf_iff : v.negateIf true = .inf (!neg) ↔ v = .inf neg := by
  cases v <;> simp [FVal.negateIf]

section
variable (ha : F.value a = .inf neg) (hb : (F.value b).isNaN = false)
include ha hb

theorem FloatFormat.add_inf_left : F.add a b rm =
    if F.value b = .inf (!neg) then (F.nan w, flagNV) else (F.inf w neg, noFlags) := by
  have hnan : ((F.value a).isNaN || (F.value b).isNaN) = false := by rw [ha, hb]; rfl
  rw [FloatFormat.add, hnan, ha]
  exact addValues_inf_left hb

theorem FloatFormat.add_inf_right : F.add b a rm =
    if F.value b = .inf (!neg) then (F.nan w, flagNV) else (F.inf w neg, noFlags) := by
  have hnan : ((F.value b).isNaN || (F.value a).isNaN) = false := by rw [ha, hb]; rfl
  rw [FloatFormat.add, hnan, ha]
  exact addValues_inf_right hb

theorem FloatFormat.sub_inf_left : F.sub a b rm =
    if F.value b = .inf neg then (F.nan w, flagNV) else (F.inf w neg, noFlags) := by
  have hnan : ((F.value a).isNaN || (F.value b).isNaN) = false := by rw [ha, hb]; rfl
  rw [FloatFormat.sub, hnan, ha]
  refine (addValues_inf_left ((isNaN_negateIf true).trans hb)).trans ?_
  simp only [negateIf_eq_inf_iff]

theorem FloatFormat.sub_inf_right : F.sub b a rm =
    if F.value b = .inf neg then (F.nan w, flagNV) else (F.inf w (!neg), noFlags) := by
  have hnan : ((F.value b).isNaN || (F.value a).isNaN) = false := by rw [ha, hb]; rfl
  have hneg : (FVal.inf neg).negateIf true = .inf (!neg) := by rw [FVal.negateIf, Bool.xor_true]
  rw [FloatFormat.sub, hnan, ha, hneg]
  refine (addValues_inf_right hb).trans ?_
  rw [Bool.not_not]

theorem FloatFormat.mul_inf_left (hinf : infTimesZero (F.value a) (F.value b) = false) :
    F.mul a b rm = (F.inf w (neg ^^ (F.value b).sign), noFlags) := by
  rw [ha] at hinf
  cases hv : F.value b with
  | nan => rw [hv] at hb; cases hb
  | zero => rw [hv] at hinf; cases hinf
  | _ => simp only [FloatFormat.mul, ha, hv, FVal.sign]

theorem FloatFormat.mul_inf_comm : F.mul b a rm = F.mul a b rm := by
  cases hv : F.value b with
  | nan => rw [hv] at hb; cases hb
  | _ => simp only [FloatFormat.mul, ha, hv, Bool.xor_comm]

theorem FloatFormat.div_inf_left : F.div a b rm =
    if (F.value b).isInf = true then (F.nan w, flagNV) else (F.inf w (neg ^^ (F.value b).sign), noFlags) := by
  cases hv : F.value b with
  | nan => rw [hv] at hb; cases hb
  | inf t => simp only [FloatFormat.div, ha, hv, FVal.isInf, if_true]
  | _ => simp only [FloatFormat.div, ha, hv, FVal.isInf, FVal.sign, Bool.false_eq_true, if_false]

theorem FloatFormat.div_inf_right (hinf : (F.value b).isInf = false) :
    F.div b a rm = (F.zero w (neg ^^ (F.value b).sign), noFlags) := by
  cases hv : F.value b with
  | nan => rw [hv] at hb; cases hb
  | inf => rw [hv] at hinf; cases hinf
  | _ => simp only [FloatFormat.div, ha, hv, FVal.sign, Bool.xor_comm]

end

theorem FloatFormat.mul_of_infTimesZero (h : infTimesZero (F.value a) (F.value b) = true) :
    F.mul a b rm = (F.nan w, flagNV) := by
  cases ha : F.value a <;> cases hb : F.value b <;> rw [ha, hb] at h
  case inf.zero | zero.inf => simp only [FloatFormat.mul, ha, hb]
  all_goals cases h

/-- Settles O54: NaN, infinity times zero, and infinity, by the lemma of each operation. -/
theorem specialInputs : Obligations.SpecialInputs := by
  intro F w a b c rm np nc neg
  refine ⟨fun h => ?nan, FloatFormat.sqrt_of_isNaN, fun h => ?fusedNan, fun G n => ⟨fun h => F.convert_of_isNaN h G n,
      fun h => ?convertInf, fun h => ?convertZero⟩,
    fun h => ⟨FloatFormat.mul_of_infTimesZero h, FloatFormat.fma_of_infTimesZero np nc h⟩,
    fun ha hb => ⟨FloatFormat.add_inf_left ha hb,
      (FloatFormat.add_inf_right ha hb).trans (FloatFormat.add_inf_left ha hb).symm, FloatFormat.sub_inf_left ha hb,
      FloatFormat.sub_inf_right ha hb, FloatFormat.mul_inf_left ha hb, FloatFormat.mul_inf_comm ha hb,
      FloatFormat.div_inf_left ha hb, FloatFormat.div_inf_right ha hb⟩⟩
  case nan =>
    rw [← signalingFlag_pair]
    simp only [FloatFormat.add_of_isNaN h, FloatFormat.sub_of_isNaN h, FloatFormat.mul_of_isNaN h,
      FloatFormat.div_of_isNaN h, List.forall_mem_cons, List.not_mem_nil, false_implies, implies_true, and_true]
  case fusedNan =>
    cases hinf : infTimesZero (F.value a) (F.value b)
    · rw [FloatFormat.fma_of_isNaN np nc h hinf, signalingFlag_triple]
      simp only [Bool.false_eq_true, or_false]
    · rw [FloatFormat.fma_of_infTimesZero np nc hinf, if_pos (.inr (.inr (.inr rfl)))]
  case convertInf => simp only [FloatFormat.convert, h]
  case convertZero => simp only [FloatFormat.convert, h]

end Sys2Proof.Machine
end

section
/-! O45: the comparisons compare real values (47_float.md R349). -/

namespace Sys2Proof.Machine

variable {s : State} {i : Instr} {rd : Reg} {F : FloatFormat} {w : Nat} {x y v : FVal} {p r : ℚ} {a b : BitVec w}

/-! ### The order of the real values -/

theorem real_less_irrefl (u : Claims.Real) : ¬Claims.less u u := by
  cases u with
  | rat q => exact lt_irrefl q
  | _ => exact id

/-- Away from NaN the order is total. -/
theorem real_not_less_iff {u v : Claims.Real} (hu : u ≠ .nan) (hv : v ≠ .nan) :
    ¬Claims.less v u ↔ Claims.less u v ∨ u = v := by
  cases u with
  | nan => exact absurd rfl hu
  | rat p =>
    cases v with
    | rat r => simpa [Claims.less] using le_iff_lt_or_eq
    | _ => simp_all [Claims.less]
  | _ => cases v <;> simp_all [Claims.less]

theorem real_not_less_of_nan {u v : Claims.Real} (h : u = .nan ∨ v = .nan) : ¬Claims.less u v := by
  rcases h with rfl | rfl
  · exact id
  · cases u <;> exact id

theorem realOf_eq_nan_iff : Claims.realOf v = .nan ↔ v.isNaN = true := by
  cases v with
  | inf neg => cases neg <;> exact iff_of_false nofun nofun
  | nan => exact iff_of_true rfl rfl
  | _ => exact iff_of_false nofun nofun

theorem realOf_ne_nan (h : v.isNaN = false) : Claims.realOf v ≠ .nan :=
  mt realOf_eq_nan_iff.1 (Bool.eq_false_iff.1 h)

/-! ### The model's order is that of the real values -/

theorem less_of_rat (hp : Claims.realOf x = .rat p) (hr : Claims.realOf y = .rat r) : x.less y = true ↔ p < r := by
  have hunits : x.less y = decide (x.units (commonExponent x y) < y.units (commonExponent x y)) := by
    obtain ⟨_, rfl, -⟩ | ⟨_, _, _, rfl, -⟩ := zero_or_finite_of_rat hp <;>
      obtain ⟨_, rfl, -⟩ | ⟨_, _, _, rfl, -⟩ := zero_or_finite_of_rat hr <;> rfl
  rw [hunits, decide_eq_true_eq, ← Int.cast_lt (R := ℚ), ← mul_lt_mul_iff_left₀ (two_zpow_pos (commonExponent x y)),
    left_units_mul_zpow hp, right_units_mul_zpow hr]

theorem inf_or_rat (h : v.isNaN = false) : (∃ neg, v = .inf neg) ∨ ∃ r, Claims.realOf v = .rat r ∧ v.isInf = false := by
  cases v with
  | nan => cases h
  | inf neg => exact .inl ⟨neg, rfl⟩
  | _ => exact .inr ⟨_, rfl, rfl⟩

theorem inf_less_of_not_isInf {neg : Bool} (h : y.isInf = false) : (FVal.inf neg).less y = neg := by
  cases y with
  | inf => cases h
  | _ => rfl

theorem less_inf_of_not_isInf {neg : Bool} (h : x.isInf = false) : x.less (.inf neg) = !neg := by
  cases x with
  | inf => cases h
  | _ => rfl

/-- Infinities stand at the ends. -/
theorem less_iff (hx : x.isNaN = false) (hy : y.isNaN = false) :
    x.less y = true ↔ Claims.less (Claims.realOf x) (Claims.realOf y) := by
  obtain ⟨s, rfl⟩ | ⟨p, hp, hx'⟩ := inf_or_rat hx <;> obtain ⟨t, rfl⟩ | ⟨r, hr, hy'⟩ := inf_or_rat hy
  · cases s <;> cases t <;> simp [FVal.less, Claims.realOf, Claims.less]
  · rw [inf_less_of_not_isInf hy', hr]
    cases s <;> simp [Claims.realOf, Claims.less]
  · rw [less_inf_of_not_isInf hx', hp]
    cases t <;> simp [Claims.realOf, Claims.less]
  · rw [less_of_rat hp hr, hp, hr]
    rfl

theorem not_less_both_iff (hx : x.isNaN = false) (hy : y.isNaN = false) :
    (x.less y = false ∧ y.less x = false) ↔ Claims.realOf x = Claims.realOf y := by
  rw [← Bool.not_eq_true, ← Bool.not_eq_true, less_iff hx hy, less_iff hy hx,
    real_not_less_iff (realOf_ne_nan hx) (realOf_ne_nan hy)]
  constructor
  · rintro ⟨hnot, hless | heq⟩
    · exact absurd hless hnot
    · exact heq
  · intro heq
    exact ⟨heq ▸ real_less_irrefl _, .inr heq⟩

/-! ### `feq`, `flt`, `fle` -/

section
variable (h : (F.value a).isNaN = true ∨ (F.value b).isNaN = true)
include h

theorem FloatFormat.eq_of_isNaN : F.eq a b = (false, signalingFlag [F.value a, F.value b]) :=
  if_pos (Bool.or_eq_true _ _ ▸ h)

theorem FloatFormat.lt_of_isNaN : F.lt a b = (false, flagNV) := if_pos (Bool.or_eq_true _ _ ▸ h)

theorem FloatFormat.le_of_isNaN : F.le a b = (false, flagNV) := if_pos (Bool.or_eq_true _ _ ▸ h)

end

section
variable (h : ¬((F.value a).isNaN = true ∨ (F.value b).isNaN = true))
include h

theorem FloatFormat.eq_of_not_isNaN :
    F.eq a b = (!(F.value a).less (F.value b) && !(F.value b).less (F.value a), noFlags) :=
  if_neg (Bool.or_eq_true _ _ ▸ h)

theorem FloatFormat.lt_of_not_isNaN : F.lt a b = ((F.value a).less (F.value b), noFlags) :=
  if_neg (Bool.or_eq_true _ _ ▸ h)

theorem FloatFormat.le_of_not_isNaN : F.le a b = (!(F.value b).less (F.value a), noFlags) :=
  if_neg (Bool.or_eq_true _ _ ▸ h)

end

theorem FloatFormat.lt_iff :
    (F.lt a b).1 = true ↔ Claims.less (Claims.realOf (F.value a)) (Claims.realOf (F.value b)) := by
  by_cases h : (F.value a).isNaN = true ∨ (F.value b).isNaN = true
  · rw [FloatFormat.lt_of_isNaN h]
    exact iff_of_false Bool.false_ne_true
      (real_not_less_of_nan (h.imp realOf_eq_nan_iff.2 realOf_eq_nan_iff.2))
  · obtain ⟨ha, hb⟩ := not_or.1 h
    rw [FloatFormat.lt_of_not_isNaN h, less_iff (Bool.eq_false_iff.2 ha) (Bool.eq_false_iff.2 hb)]

theorem FloatFormat.eq_iff :
    (F.eq a b).1 = true ↔ Claims.realOf (F.value a) ≠ .nan ∧ Claims.realOf (F.value a) = Claims.realOf (F.value b) := by
  by_cases h : (F.value a).isNaN = true ∨ (F.value b).isNaN = true
  · rw [FloatFormat.eq_of_isNaN h]
    refine iff_of_false Bool.false_ne_true fun ⟨hne, heq⟩ => ?_
    rcases h with h | h
    · exact hne (realOf_eq_nan_iff.2 h)
    · exact hne (heq.trans (realOf_eq_nan_iff.2 h))
  · obtain ⟨ha, hb⟩ := not_or.1 h
    rw [FloatFormat.eq_of_not_isNaN h, Bool.and_eq_true, Bool.not_eq_true', Bool.not_eq_true',
      not_less_both_iff (Bool.eq_false_iff.2 ha) (Bool.eq_false_iff.2 hb)]
    exact (and_iff_right (mt realOf_eq_nan_iff.1 ha)).symm

theorem FloatFormat.le_iff : (F.le a b).1 = true ↔ (F.lt a b).1 = true ∨ (F.eq a b).1 = true := by
  rw [FloatFormat.lt_iff, FloatFormat.eq_iff]
  by_cases h : (F.value a).isNaN = true ∨ (F.value b).isNaN = true
  · rw [FloatFormat.le_of_isNaN h]
    have hnan := h.imp realOf_eq_nan_iff.2 realOf_eq_nan_iff.2
    refine iff_of_false Bool.false_ne_true (not_or.2 ⟨real_not_less_of_nan hnan, fun ⟨hne, heq⟩ => ?_⟩)
    exact hnan.elim hne fun hb => hne (heq.trans hb)
  · obtain ⟨ha, hb⟩ := not_or.1 h
    have ha' := mt realOf_eq_nan_iff.1 ha
    rw [FloatFormat.le_of_not_isNaN h, Bool.not_eq_true', ← Bool.not_eq_true,
      less_iff (Bool.eq_false_iff.2 hb) (Bool.eq_false_iff.2 ha),
      real_not_less_iff ha' (mt realOf_eq_nan_iff.1 hb), and_iff_right ha']

theorem FloatFormat.lt_flags :
    (F.lt a b).2 = if (F.value a).isNaN = true ∨ (F.value b).isNaN = true then flagNV else noFlags := by
  split
  next h => rw [FloatFormat.lt_of_isNaN h]
  next h => rw [FloatFormat.lt_of_not_isNaN h]

theorem FloatFormat.le_flags : (F.le a b).2 = (F.lt a b).2 := by
  by_cases h : (F.value a).isNaN = true ∨ (F.value b).isNaN = true
  · rw [FloatFormat.le_of_isNaN h, FloatFormat.lt_of_isNaN h]
  · rw [FloatFormat.le_of_not_isNaN h, FloatFormat.lt_of_not_isNaN h]

theorem FloatFormat.eq_flags : (F.eq a b).2 =
    if (F.value a).isSignaling = true ∨ (F.value b).isSignaling = true then flagNV else noFlags := by
  rw [← signalingFlag_pair]
  by_cases h : (F.value a).isNaN = true ∨ (F.value b).isNaN = true
  · rw [FloatFormat.eq_of_isNaN h]
  · have hquiet : signalingFlag [F.value a, F.value b] = noFlags :=
      signalingFlag_of_not_isNaN (by simpa [not_or] using h)
    rw [FloatFormat.eq_of_not_isNaN h, hquiet]

/-- A comparison writes its truth value to an integer register. -/
theorem WritesX.of_compare {c : Bool × Flags} (he : exec i s = finishX rd (boolResult c) s) :
    WritesX i s rd (if c.1 then 1 else 0) c.2 s.nextPc := .of_eq he .refl rfl

/-- Settles O45: truth and flags of each comparison, then the six instructions. -/
theorem comparisons : Obligations.Comparisons := by
  refine ⟨fun F w a b => ⟨FloatFormat.lt_iff, FloatFormat.eq_iff, FloatFormat.le_iff, FloatFormat.lt_flags,
    FloatFormat.le_flags, FloatFormat.eq_flags⟩, ?_⟩
  rintro s rd rs1 rs2 _ _ _ _ rfl rfl rfl rfl
  exact ⟨.of_compare rfl, .of_compare rfl, .of_compare rfl, .of_compare rfl, .of_compare rfl, .of_compare rfl⟩

end Sys2Proof.Machine
end

section
/-! O46, O50: patterns and their fields (47_float.md R345, R350, 48_double.md R391). A pattern is its sign, exponent
field and fraction field; the table of R345 is a function of these. -/

namespace Sys2Proof.Machine

variable {F : FloatFormat} {w E T n : Nat} {q : Int} {neg : Bool}

/-! ### Fields of a pattern -/

/-- The table of R345 on the fields. -/
def FloatFormat.ofFields (F : FloatFormat) (neg : Bool) (E T : Nat) : FVal :=
  if E = 2 ^ F.expBits - 1 then
    if T = 0 then .inf neg else .nan (!T.testBit (F.fracBits - 1))
  else if E = 0 then
    if T = 0 then .zero neg else .finite neg T F.qmin
  else .finite neg (2 ^ F.fracBits + T) (F.qmin + (E - 1 : Nat))

theorem FloatFormat.value_eq_ofFields (F : FloatFormat) (b : BitVec w) :
    F.value b = F.ofFields (b.toNat.testBit F.signBit) (b.toNat / 2 ^ F.fracBits % 2 ^ F.expBits)
      (b.toNat % 2 ^ F.fracBits) := rfl

section
variable (hE : E < 2 ^ F.expBits) (hT : T < 2 ^ F.fracBits)
include hE hT

theorem fields_lt : E * 2 ^ F.fracBits + T < 2 ^ F.signBit := by
  calc E * 2 ^ F.fracBits + T < E * 2 ^ F.fracBits + 2 ^ F.fracBits := Nat.add_lt_add_left hT _
    _ = (E + 1) * 2 ^ F.fracBits := (Nat.succ_mul _ _).symm
    _ ≤ 2 ^ F.expBits * 2 ^ F.fracBits := Nat.mul_le_mul_right _ hE
    _ = 2 ^ F.signBit := (Nat.pow_add _ _ _).symm

theorem signed_fields_lt (neg : Bool) :
    F.signed neg (E * 2 ^ F.fracBits + T) < 2 ^ (1 + F.expBits + F.fracBits) := by
  have hlt := fields_lt hE hT
  have hpow : 2 ^ (1 + F.expBits + F.fracBits) = 2 * 2 ^ F.signBit := by
    rw [Nat.add_assoc, Nat.pow_add, Nat.pow_one, FloatFormat.signBit]
  unfold FloatFormat.signed
  split <;> omega

/-- The pattern with these fields stands for what the table says. -/
theorem value_signed_fields (neg : Bool) :
    F.value (BitVec.ofNat (1 + F.expBits + F.fracBits) (F.signed neg (E * 2 ^ F.fracBits + T))) =
      F.ofFields neg E T := by
  have hlt := fields_lt hE hT
  have hfrac : 0 < 2 ^ F.fracBits := Nat.two_pow_pos _
  have hsigned : F.signed neg (E * 2 ^ F.fracBits + T) =
      (neg.toNat * 2 ^ F.expBits + E) * 2 ^ F.fracBits + T := by
    cases neg <;> simp [FloatFormat.signed, FloatFormat.signBit, Nat.pow_add, Nat.add_mul, Nat.add_assoc]
  have hbit : (F.signed neg (E * 2 ^ F.fracBits + T)).testBit F.signBit = neg := by
    cases neg
    · simpa [FloatFormat.signed] using Nat.testBit_lt_two_pow hlt
    · simpa [FloatFormat.signed, Nat.testBit_two_pow_add_eq] using Nat.testBit_lt_two_pow hlt
  rw [FloatFormat.value_eq_ofFields, BitVec.toNat_ofNat, Nat.mod_eq_of_lt (signed_fields_lt hE hT neg), hbit, hsigned]
  congr 1
  · rw [Nat.add_comm (_ * _), Nat.add_mul_div_right _ _ hfrac, Nat.div_eq_of_lt hT, Nat.zero_add,
      Nat.mul_add_mod', Nat.mod_eq_of_lt hE]
  · rw [Nat.mul_add_mod', Nat.mod_eq_of_lt hT]

end

theorem ofFields_subnormal (hF : 0 < F.expBits) (hT : 0 < T) : F.ofFields neg 0 T = .finite neg T F.qmin := by
  have htop : 0 ≠ 2 ^ F.expBits - 1 := (Nat.sub_pos_of_lt (Nat.one_lt_two_pow hF.ne')).ne
  rw [FloatFormat.ofFields, if_neg htop, if_pos rfl, if_neg hT.ne']

theorem ofFields_zero (hF : 0 < F.expBits) : F.ofFields neg 0 0 = .zero neg := by
  have htop : 0 ≠ 2 ^ F.expBits - 1 := (Nat.sub_pos_of_lt (Nat.one_lt_two_pow hF.ne')).ne
  rw [FloatFormat.ofFields, if_neg htop, if_pos rfl, if_pos rfl]

/-- The exponent field 0 stands for a zero or a subnormal. -/
theorem realOf_ofFields_zero (hF : 0 < F.expBits) :
    Claims.realOf (F.ofFields neg 0 T) = .rat (signFactor neg * (T * 2 ^ F.qmin)) := by
  rcases Nat.eq_zero_or_pos T with rfl | hT
  · rw [ofFields_zero hF, Nat.cast_zero, zero_mul, mul_zero]
    rfl
  · rw [ofFields_subnormal hF hT, realOf_finite]

theorem ofFields_normal (hE : 0 < E) (htop : E < 2 ^ F.expBits - 1) :
    F.ofFields neg E T = .finite neg (2 ^ F.fracBits + T) (F.qmin + (E - 1 : Nat)) := by
  rw [FloatFormat.ofFields, if_neg htop.ne, if_neg hE.ne']

/-! ### `encode` (R346) -/

theorem two_mul_emax (hF : 0 < F.expBits) : 2 * F.emax + 2 = 2 ^ F.expBits := by
  obtain ⟨j, hj⟩ := Nat.exists_eq_add_one_of_ne_zero hF.ne'
  rw [FloatFormat.emax, hj, Nat.add_sub_cancel, pow_succ]
  ring

/-- The fields of an encoded magnitude. The leading bit of a normalised one counts in the exponent field, and a carry to
`2^p` once more. -/
theorem encode_fields (hq : F.qmin ≤ q) (hn : n ≤ 2 ^ F.prec) (hnorm : 2 ^ F.fracBits ≤ n ∨ q = F.qmin) :
    ∃ E T, F.encode n q = E * 2 ^ F.fracBits + T ∧ T < 2 ^ F.fracBits ∧
      (E = 0 ∧ T = n ∧ q = F.qmin ∨
        0 < E ∧ ((2 ^ F.fracBits + T : Nat) : ℚ) * 2 ^ (F.qmin + (E - 1 : Nat)) = n * 2 ^ q) := by
  obtain ⟨d, hd⟩ := Int.eq_ofNat_of_zero_le (sub_nonneg.2 hq)
  obtain rfl : q = F.qmin + d := by omega
  have hencode : F.encode n (F.qmin + d) = d * 2 ^ F.fracBits + n := by
    rw [FloatFormat.encode, add_sub_cancel_left, Int.toNat_natCast]
  rw [hencode]
  rw [FloatFormat.prec, Nat.pow_succ] at hn
  have hfrac : 0 < 2 ^ F.fracBits := Nat.two_pow_pos _
  rcases Nat.lt_or_ge n (2 ^ F.fracBits) with hlt | hge
  case inl =>
    obtain rfl : d = 0 := by omega
    exact ⟨0, n, rfl, hlt, .inl ⟨rfl, rfl, Int.add_zero _⟩⟩
  case inr =>
    obtain ⟨T, rfl⟩ := Nat.exists_eq_add_of_le hge
    rcases Nat.lt_or_ge T (2 ^ F.fracBits) with hT | hT
    case inl => exact ⟨d + 1, T, by ring, hT, .inr ⟨Nat.succ_pos d, rfl⟩⟩
    case inr =>
      obtain rfl : T = 2 ^ F.fracBits := by omega
      refine ⟨d + 2, 0, by ring, hfrac, .inr ⟨Nat.succ_pos _, ?_⟩⟩
      have hexp : F.qmin + ((d + 2 - 1 : Nat) : Int) = F.qmin + d + 1 := by push_cast; omega
      rw [hexp, two_zpow_add, zpow_one]
      push_cast
      ring

/-- Below the overflow bound the exponent field is not all ones. -/
theorem exponentField_lt_top (hF : 0 < F.expBits)
    (hlt : ((2 ^ F.fracBits + T : Nat) : ℚ) * 2 ^ (F.qmin + (E - 1 : Nat)) < 2 ^ (F.emax + 1)) :
    E < 2 ^ F.expBits - 1 := by
  have hlead : (2 : ℚ) ^ (F.fracBits + (F.qmin + (E - 1 : Nat))) < 2 ^ (F.emax + 1) := by
    refine lt_of_le_of_lt ?_ hlt
    rw [two_zpow_add]
    refine mul_le_mul_of_nonneg_right ?_ (two_zpow_pos _).le
    rw [zpow_natCast]
    exact_mod_cast Nat.le_add_right _ _
  have hexp := two_zpow_lt_iff.1 hlead
  have htop := two_mul_emax hF
  have hcast : ((2 ^ F.expBits : Nat) : Int) = 2 ^ F.expBits := by push_cast; rfl
  rw [FloatFormat.qmin, FloatFormat.emin] at hexp
  omega

/-- Settles O50: the encoded magnitude has the fields of its value, a subnormal or a zero in the exponent field 0. -/
theorem encodeRule : Obligations.EncodeRule := by
  intro F hFs neg n q hq hn hnorm hlt
  have hF : 0 < F.expBits := by
    simp only [List.mem_cons, List.not_mem_nil, or_false] at hFs
    rcases hFs with rfl | rfl <;> decide
  have hvalue : (if neg then -1 else 1) * (n : ℚ) * 2 ^ q = signFactor neg * (n * 2 ^ q) := mul_assoc _ _ _
  obtain ⟨E, T, hencode, hT, ⟨rfl, rfl, rfl⟩ | ⟨hpos, hval⟩⟩ := encode_fields hq hn hnorm
  case inl =>
    have hE : 0 < 2 ^ F.expBits := Nat.two_pow_pos _
    rw [hencode, value_signed_fields hE hT, hvalue, realOf_ofFields_zero hF]
    exact ⟨signed_fields_lt hE hT neg, rfl, fun h => by subst h; exact ofFields_zero hF⟩
  case inr =>
    have htop := exponentField_lt_top hF (hval ▸ hlt)
    have hE : E < 2 ^ F.expBits := Nat.lt_of_lt_of_le htop (Nat.sub_le _ _)
    have hnpos : n ≠ 0 := by
      rintro rfl
      rw [Nat.cast_zero, zero_mul, mul_eq_zero, Nat.cast_eq_zero] at hval
      have := Nat.two_pow_pos F.fracBits
      exact hval.elim (by omega) (two_zpow_pos _).ne'
    rw [hencode, value_signed_fields hE hT, hvalue, ofFields_normal hpos htop, realOf_finite, hval]
    exact ⟨signed_fields_lt hE hT neg, rfl, fun h => absurd h hnpos⟩

/-! ### Classification (R350) -/

/-- The quiet bit is the leading bit of the fraction. -/
theorem quietBit_eq_false_iff (hT : T < 2 ^ (n + 1)) : T.testBit n = false ↔ T < 2 ^ n := by
  rw [Nat.testBit_eq_decide_div_mod_eq, decide_eq_false_iff_not, ← Nat.div_eq_zero_iff_lt (Nat.two_pow_pos n)]
  have hlt : T / 2 ^ n < 2 := Nat.div_lt_of_lt_mul (by rwa [← Nat.pow_succ])
  generalize T / 2 ^ n = lead at hlt ⊢
  omega

theorem classify_eq_classMask (hF : 0 < F.fracBits) (a : BitVec w) :
    F.classify a = Claims.classMask (a.toNat.testBit F.signBit) (a.toNat / 2 ^ F.fracBits % 2 ^ F.expBits)
      (a.toNat % 2 ^ F.fracBits) (2 ^ F.expBits - 1) (2 ^ (F.fracBits - 1)) := by
  have hT : a.toNat % 2 ^ F.fracBits < 2 ^ F.fracBits := Nat.mod_lt _ (Nat.two_pow_pos _)
  rw [FloatFormat.classify, FloatFormat.value_eq_ofFields]
  generalize a.toNat.testBit F.signBit = neg, a.toNat / 2 ^ F.fracBits % 2 ^ F.expBits = E,
    a.toNat % 2 ^ F.fracBits = T at *
  rw [← Nat.sub_add_cancel hF] at hT
  have hquiet := quietBit_eq_false_iff hT
  rw [Nat.sub_add_cancel hF] at hT
  unfold FloatFormat.ofFields Claims.classMask
  by_cases htop : E = 2 ^ F.expBits - 1
  · by_cases hfrac : T = 0
    · simp only [if_pos htop, if_pos hfrac]
    · simp only [if_pos htop, if_neg hfrac, Bool.not_eq_true', hquiet]
  · by_cases hsub : E = 0
    · by_cases hfrac : T = 0
      · simp only [if_neg htop, if_pos hsub, if_pos hfrac]
      · simp only [if_neg htop, if_pos hsub, if_neg hfrac, if_neg (not_le.2 hT)]
    · simp only [if_neg htop, if_neg hsub, if_pos (Nat.le_add_right _ _)]

theorem testBit_top_eq_msb (b : BitVec (n + 1)) : b.toNat.testBit n = b.msb := by
  rw [BitVec.msb_eq_getLsbD_last, BitVec.testBit_toNat, Nat.add_sub_cancel]

theorem toNat_slice (b : BitVec w) (lo len : Nat) : b.toNat / 2 ^ lo % 2 ^ len = (b.extractLsb' lo len).toNat := by
  rw [BitVec.extractLsb'_toNat, Nat.shiftRight_eq_div_pow]

theorem toNat_lowSlice (b : BitVec w) (len : Nat) : b.toNat % 2 ^ len = (b.extractLsb' 0 len).toNat := by
  rw [← toNat_slice, Nat.pow_zero, Nat.div_one]

theorem binary32_classify (a : Word) : binary32.classify a =
    Claims.classMask a.msb (a.extractLsb' 23 8).toNat (a.extractLsb' 0 23).toNat 255 (2 ^ 22) := by
  rw [classify_eq_classMask (by decide), ← testBit_top_eq_msb, ← toNat_slice, ← toNat_lowSlice]
  rfl

theorem binary64_classify (a : DWord) : binary64.classify a =
    Claims.classMask a.msb (a.extractLsb' 52 11).toNat (a.extractLsb' 0 52).toNat 2047 (2 ^ 51) := by
  rw [classify_eq_classMask (by decide), ← testBit_top_eq_msb, ← toNat_slice, ← toNat_lowSlice]
  rfl

/-- Settles O46: the fields of a register's pattern are slices of it. -/
theorem classify : Obligations.Classify := by
  rintro s rd rs1 _ _ rfl rfl
  rw [← binary32_classify, ← binary64_classify]
  exact ⟨.of_writeAndAdvance rfl, .of_writeAndAdvance rfl⟩

end Sys2Proof.Machine
end

section
/-! O44: minimum and maximum (47_float.md R348). Where neither input is below the other they are one pattern: a pattern
is the encoding of the value it stands for. -/

namespace Sys2Proof.Machine

variable {s : State} {i : Instr} {rd : Reg} {F : FloatFormat} {w E T : Nat} {x y : FVal} {a b : BitVec w} {neg : Bool}

/-! ### The pattern of a value -/

/-- The pattern of a value; for a NaN, which has several, the canonical one. -/
def FloatFormat.pattern (F : FloatFormat) : FVal → Nat
  | .nan _ => F.nanPattern
  | .inf neg => F.signed neg F.infPattern
  | .zero neg => F.signed neg 0
  | .finite neg m k => F.signed neg (F.encode m k)

theorem pattern_ofFields (h : (F.ofFields neg E T).isNaN = false) :
    F.pattern (F.ofFields neg E T) = F.signed neg (E * 2 ^ F.fracBits + T) := by
  unfold FloatFormat.ofFields at h ⊢
  split_ifs at h ⊢ with htop hfrac hsub hfrac
  · rw [htop, hfrac, Nat.add_zero]; rfl
  · cases h
  · rw [hsub, hfrac, Nat.zero_mul]; rfl
  · rw [hsub, FloatFormat.pattern, FloatFormat.encode, sub_self, Int.toNat_zero]
  · obtain ⟨d, rfl⟩ := Nat.exists_eq_add_one_of_ne_zero hsub
    rw [FloatFormat.pattern, FloatFormat.encode, add_sub_cancel_left, Int.toNat_natCast, Nat.add_sub_cancel]
    congr 1
    ring

theorem signed_fields_eq {N : Nat} (h : N < 2 ^ (1 + F.expBits + F.fracBits)) :
    F.signed (N.testBit F.signBit) (N / 2 ^ F.fracBits % 2 ^ F.expBits * 2 ^ F.fracBits + N % 2 ^ F.fracBits) = N := by
  have htop : (if N.testBit F.signBit then 2 ^ F.signBit else 0) = 2 ^ F.signBit * (N / 2 ^ F.signBit) := by
    have hlt : N / 2 ^ F.signBit < 2 := by
      refine Nat.div_lt_of_lt_mul ?_
      rwa [← Nat.pow_succ, FloatFormat.signBit, Nat.succ_eq_one_add, ← Nat.add_assoc]
    rw [Nat.testBit_eq_decide_div_mod_eq, Nat.mod_eq_of_lt hlt]
    generalize N / 2 ^ F.signBit = lead at hlt ⊢
    interval_cases lead <;> simp
  have hlow : N / 2 ^ F.fracBits % 2 ^ F.expBits * 2 ^ F.fracBits + N % 2 ^ F.fracBits = N % 2 ^ F.signBit := by
    rw [FloatFormat.signBit, Nat.add_comm F.expBits, Nat.pow_add, Nat.mod_mul, Nat.mul_comm, Nat.add_comm]
  rw [FloatFormat.signed, htop, hlow, Nat.div_add_mod]

theorem pattern_value (hw : w = 1 + F.expBits + F.fracBits) (h : (F.value a).isNaN = false) :
    F.pattern (F.value a) = a.toNat := by
  rw [FloatFormat.value_eq_ofFields] at h ⊢
  rw [pattern_ofFields h, signed_fields_eq (hw ▸ a.isLt)]

/-! ### Values of patterns with the same real value -/

/-- The magnitude of a finite value is normalised, or in units of the smallest spacing. -/
def FVal.Normalised (F : FloatFormat) : FVal → Prop
  | .finite _ m k => F.qmin ≤ k ∧ m < 2 ^ F.prec ∧ (2 ^ F.fracBits ≤ m ∨ k = F.qmin)
  | _ => True

theorem value_normalised (F : FloatFormat) (a : BitVec w) : (F.value a).Normalised F := by
  have hT : a.toNat % 2 ^ F.fracBits < 2 ^ F.fracBits := Nat.mod_lt _ (Nat.two_pow_pos _)
  have hprec : 2 ^ F.prec = 2 ^ F.fracBits + 2 ^ F.fracBits := by rw [FloatFormat.prec, Nat.pow_succ, Nat.mul_two]
  rw [FloatFormat.value_eq_ofFields]
  unfold FloatFormat.ofFields
  split_ifs
  · trivial
  · trivial
  · trivial
  · exact ⟨le_rfl, by omega, .inr rfl⟩
  · exact ⟨by omega, by omega, .inl (Nat.le_add_right _ _)⟩

theorem exponent_le_of_magnitude_le {m n : Nat} {j k : Int} (hx : (FVal.finite neg m j).Normalised F)
    (hn : n < 2 ^ F.prec) (hk : F.qmin ≤ k) (h : (m : ℚ) * 2 ^ j = n * 2 ^ k) : j ≤ k := by
  obtain ⟨-, -, hnorm⟩ := hx
  by_contra hlt
  have hm : (2 : ℚ) ^ F.fracBits ≤ m := by exact_mod_cast hnorm.resolve_right (by omega)
  have hn' : (n : ℚ) < 2 ^ F.fracBits * 2 := by rw [← pow_succ]; exact_mod_cast hn
  have hstep : (2 : ℚ) * 2 ^ k ≤ 2 ^ j := by
    rw [mul_comm, ← zpow_add_one₀ two_ne_zero, two_zpow_le_iff]
    omega
  have : (n : ℚ) * 2 ^ k < n * 2 ^ k := calc
    (n : ℚ) * 2 ^ k < 2 ^ F.fracBits * 2 * 2 ^ k := mul_lt_mul_of_pos_right hn' (two_zpow_pos k)
    _ = 2 ^ F.fracBits * (2 * 2 ^ k) := mul_assoc _ _ _
    _ ≤ m * 2 ^ j := mul_le_mul hm hstep (mul_pos two_pos (two_zpow_pos k)).le m.cast_nonneg
    _ = n * 2 ^ k := h
  exact lt_irrefl _ this

/-- A real value has one normalised magnitude. -/
theorem eq_of_realOf_finite {neg' : Bool} {m n : Nat} {j k : Int} (hx : (FVal.finite neg m j).Normalised F)
    (hy : (FVal.finite neg' n k).Normalised F) (hm : 0 < m) (hn : 0 < n)
    (h : Claims.realOf (.finite neg m j) = Claims.realOf (.finite neg' n k)) :
    FVal.finite neg m j = .finite neg' n k := by
  rw [realOf_finite, realOf_finite] at h
  have hval := Claims.Real.rat.inj h
  have hmpos : (0 : ℚ) < m * 2 ^ j := mul_pos (Nat.cast_pos.2 hm) (two_zpow_pos j)
  have hnpos : (0 : ℚ) < n * 2 ^ k := mul_pos (Nat.cast_pos.2 hn) (two_zpow_pos k)
  obtain rfl : neg = neg' := by
    rw [Bool.eq_iff_iff, ← signFactor_mul_neg_iff neg hmpos, hval, signFactor_mul_neg_iff neg' hnpos]
  have hmag : (m : ℚ) * 2 ^ j = n * 2 ^ k := mul_left_cancel₀ (signFactor_ne_zero neg) hval
  obtain ⟨hj, hmlt, -⟩ := id hx
  obtain ⟨hk, hnlt, -⟩ := id hy
  obtain rfl : j = k := le_antisymm (exponent_le_of_magnitude_le hx hnlt hk hmag)
    (exponent_le_of_magnitude_le hy hmlt hj hmag.symm)
  obtain rfl : m = n := by exact_mod_cast mul_right_cancel₀ (two_zpow_pos j).ne' hmag
  rfl

/-! ### The order of R348 -/

theorem below_eq (x y : FVal) : x.below y = (x.less y || (x == .zero true && y == .zero false)) := by
  cases x with
  | zero s =>
    cases y with
    | zero t => cases s <;> cases t <;> decide
    | _ => simp [FVal.below]
  | _ => simp [FVal.below]

theorem less_asymm (hx : x.isNaN = false) (hy : y.isNaN = false) (h : x.less y = true) : y.less x = false := by
  rw [← Bool.not_eq_true, less_iff hy hx, real_not_less_iff (realOf_ne_nan hx) (realOf_ne_nan hy)]
  exact .inl ((less_iff hx hy).1 h)

theorem below_asymm (hx : x.isNaN = false) (hy : y.isNaN = false) (h : x.below y = true) : y.below x = false := by
  rw [below_eq, Bool.or_eq_true, Bool.and_eq_true, beq_iff_eq, beq_iff_eq] at h
  rcases h with hless | ⟨rfl, rfl⟩
  · rw [below_eq, less_asymm hx hy hless, Bool.false_or, ← Bool.not_eq_true, Bool.and_eq_true, beq_iff_eq, beq_iff_eq]
    rintro ⟨rfl, rfl⟩
    exact absurd hless (by decide)
  · decide

theorem not_less_of_not_below (h : x.below y = false) : x.less y = false := by
  rw [below_eq, Bool.or_eq_false_iff] at h
  exact h.1

/-- Two values of which neither is below the other are equal. -/
theorem value_eq_of_not_below (hx : x.isNaN = false) (hy : y.isNaN = false) (hpx : x.Proper) (hpy : y.Proper)
    (hnx : x.Normalised F) (hny : y.Normalised F) (hxy : x.below y = false) (hyx : y.below x = false) : x = y := by
  have hreal := (not_less_both_iff hx hy).1 ⟨not_less_of_not_below hxy, not_less_of_not_below hyx⟩
  cases x with
  | nan => cases hx
  | inf s =>
    cases y with
    | inf t => exact congrArg FVal.inf (by revert hreal; cases s <;> cases t <;> simp [Claims.realOf])
    | _ => cases s <;> cases hreal
  | zero s =>
    obtain ⟨t, rfl⟩ := eq_zero_of_rat hpy hreal.symm
    exact congrArg FVal.zero (by revert hxy hyx; clear * -; cases s <;> cases t <;> decide)
  | finite s m j =>
    have hval := realOf_finite s m j
    obtain ⟨t, n, k, rfl, hn, -⟩ :=
      eq_finite_of_rat hpy (hreal.symm.trans hval) (signFactor_mul_magnitude_ne_zero hpx)
    exact eq_of_realOf_finite hnx hny hpx hn hreal

theorem eq_of_not_below (hw : w = 1 + F.expBits + F.fracBits) (ha : (F.value a).isNaN = false)
    (hb : (F.value b).isNaN = false) (hab : (F.value a).below (F.value b) = false)
    (hba : (F.value b).below (F.value a) = false) : a = b := by
  have hval := value_eq_of_not_below ha hb (F.value_proper a) (F.value_proper b) (value_normalised F a)
    (value_normalised F b) hab hba
  apply BitVec.eq_of_toNat_eq
  rw [← pattern_value hw ha, hval, pattern_value hw hb]

/-! ### `fmin` and `fmax` -/

theorem minMax_eq (hw : w = 1 + F.expBits + F.fracBits) (max : Bool) (a b : BitVec w) :
    F.minMax max a b = Claims.minMax F max a b := by
  simp only [FloatFormat.minMax, Claims.minMax, ← below_eq, ← signalingFlag_pair]
  cases ha : (F.value a).isNaN <;> cases hb : (F.value b).isNaN
  case false.false =>
    have hasymm := below_asymm ha hb
    cases hab : (F.value a).below (F.value b) <;> cases hba : (F.value b).below (F.value a)
    case false.false =>
      obtain rfl := eq_of_not_below hw ha hb hab hba
      simp
    case true.true => exact absurd (hasymm hab) (by rw [hba]; decide)
    all_goals cases max <;> simp
  all_goals simp [FloatFormat.nan]

theorem WritesF.of_finishFs {res : FResult 32} (he : exec i s = finishFs rd res s) :
    WritesF i s rd (boxed res.1) res.2 := .of_eq he

theorem WritesF.of_finishF {res : FResult 64} (he : exec i s = finishF rd res s) :
    WritesF i s rd res.1 res.2 := .of_eq he

/-- Settles O44: a register is as wide as its format. -/
theorem minMax : Obligations.MinMax := by
  rintro s rd rs1 rs2 _ _ _ _ rfl rfl rfl rfl
  have hsingle (max : Bool) := minMax_eq (F := binary32) (w := 32) rfl max (s.readFs rs1) (s.readFs rs2)
  have hdouble (max : Bool) := minMax_eq (F := binary64) (w := 64) rfl max (s.readF rs1) (s.readF rs2)
  rw [← hsingle, ← hsingle, ← hdouble, ← hdouble]
  exact ⟨.of_finishFs rfl, .of_finishFs rfl, .of_finishF rfl, .of_finishF rfl⟩

end Sys2Proof.Machine
end

section
/-! O51: the square root (47_float.md R346, R364, R403). The integer root is found by comparing squares, and the root of
a finite value of either format lies in the normal range and is no tie. -/

namespace Sys2Proof.Machine

variable {F : FloatFormat} {w m n N : Nat} {k e q : Int} {rm : RoundingMode} {a : BitVec w} {neg : Bool}

/-! ### The integer root -/

/-- From a root at most `2^b` too small, the digits from bit `b - 1` down give the integer root. -/
theorem isqrtFrom_eq_sqrt (n : Nat) (b root : Nat) (hle : root * root ≤ n) (hlt : n < (root + 2 ^ b) * (root + 2 ^ b)) :
    isqrtFrom n b root = Nat.sqrt n := by
  induction b generalizing root with
  | zero => exact Nat.eq_sqrt.2 ⟨hle, hlt⟩
  | succ b ih =>
    rw [isqrtFrom]
    split
    next hnext =>
      refine ih (root + 2 ^ b) hnext ?_
      rwa [Nat.add_assoc, ← Nat.mul_two, ← Nat.pow_succ]
    next hnext => exact ih root hle (not_le.1 hnext)

theorem isqrt_eq_sqrt (n : Nat) : isqrt n = Nat.sqrt n := by
  refine isqrtFrom_eq_sqrt n _ 0 (Nat.zero_le n) ?_
  calc n < 2 ^ (n.log2 + 1) := Nat.lt_log2_self
    _ ≤ 2 ^ (n.log2 / 2 + 1 + (n.log2 / 2 + 1)) := Nat.pow_le_pow_right two_pos (by omega)
    _ = (0 + 2 ^ (n.log2 / 2 + 1)) * (0 + 2 ^ (n.log2 / 2 + 1)) := by rw [Nat.pow_add, Nat.zero_add]

/-! ### The cut of a root -/

/-- The rest of the root of a whole number `N` whose integer part is `n`; a root is never a tie. -/
def Rest.ofRoot (N n : Nat) : Rest :=
  if n * n = N then .exact else if 4 * N < (2 * n + 1) * (2 * n + 1) then .belowHalf else .aboveHalf

theorem four_mul_ne_odd_square (N n : Nat) : 4 * N ≠ (2 * n + 1) * (2 * n + 1) := by
  intro h
  have hodd : (2 * n + 1) * (2 * n + 1) = 4 * (n * n + n) + 1 := by ring
  omega

theorem cutRoot_one (hle : n * n ≤ N) (hlt : N < (n + 1) * (n + 1)) :
    cutRoot N 1 = { n := n, rest := .ofRoot N n } := by
  have hroot : isqrt N = n := (isqrt_eq_sqrt N).trans (Nat.eq_sqrt.2 ⟨hle, hlt⟩).symm
  simp only [cutRoot, Nat.div_one, hroot, Nat.mul_one, restOf, if_neg (four_mul_ne_odd_square N n)]
  rfl

/-- The integer R346 rounds a root to, as `SquareRootRule` words it: `y` is the radicand in units of the spacing. -/
def roundedRoot (n : Nat) (y : ℚ) (rm : RoundingMode) : Nat :=
  if y = (n : ℚ) ^ 2 then n
  else
    match rm with
    | .rne => if ((n : ℚ) + 1 / 2) ^ 2 < y then n + 1 else n
    | .rtz => n
    | .rdn => n
    | .rup => n + 1
    | .rmm => if ((n : ℚ) + 1 / 2) ^ 2 < y then n + 1 else n

theorem ofRoot_ne_exact_iff : Rest.ofRoot N n ≠ .exact ↔ (N : ℚ) ≠ (n : ℚ) ^ 2 := by
  have hsquare : (N : ℚ) = (n : ℚ) ^ 2 ↔ n * n = N := by
    rw [eq_comm, sq]; exact_mod_cast Iff.rfl
  rw [ne_eq, ne_eq, hsquare, Rest.ofRoot]
  split
  next h => exact iff_of_false (by simp) (by simpa using h)
  next h => split <;> exact iff_of_true (by simp) h

theorem rint_ofRoot (N n : Nat) (rm : RoundingMode) :
    rint { n := n, rest := .ofRoot N n } false rm = roundedRoot n N rm := by
  have hsquare : (N : ℚ) = (n : ℚ) ^ 2 ↔ n * n = N := by
    rw [eq_comm, sq]; exact_mod_cast Iff.rfl
  have hhalf : ((n : ℚ) + 1 / 2) ^ 2 < N ↔ ¬4 * N < (2 * n + 1) * (2 * n + 1) := by
    have hne := four_mul_ne_odd_square N n
    have hlt : ((n : ℚ) + 1 / 2) ^ 2 < N ↔ (2 * n + 1) * (2 * n + 1) < 4 * N := by
      rw [← Nat.cast_lt (α := ℚ)]
      push_cast
      constructor <;> intro h <;> linarith
    rw [hlt]
    omega
  simp only [roundedRoot, hsquare, hhalf, Rest.ofRoot]
  by_cases hexact : n * n = N
  · simp [rint, hexact]
  · by_cases hbelow : 4 * N < (2 * n + 1) * (2 * n + 1)
    · cases rm <;> simp [rint, hexact, hbelow]
    · cases rm <;> simp [rint, hexact, hbelow]

/-! ### The root of a finite value -/

/-- The binade of the root is half that of the radicand. -/
theorem Magnitude.log2_root (hm : 0 < m) (hle : (2 : ℚ) ^ (2 * e) ≤ m * 2 ^ k)
    (hlt : (m : ℚ) * 2 ^ k < 2 ^ (2 * (e + 1))) : (Magnitude.root m k).log2 = e := by
  have hbinade := log2Ratio_add_binade hm one_pos k
  rw [Nat.cast_one, div_one] at hbinade
  obtain ⟨hle', hlt'⟩ := hbinade
  have h1 := two_zpow_lt_iff.1 (hle.trans_lt hlt')
  have h2 := two_zpow_lt_iff.1 (hle'.trans_lt hlt)
  rw [Magnitude.log2]
  omega

theorem rint_bounds (c : Cut) (neg : Bool) (rm : RoundingMode) : c.n ≤ rint c neg rm ∧ rint c neg rm ≤ c.n + 1 := by
  have hstep (up : Bool) : c.n ≤ (if up then c.n + 1 else c.n) ∧ (if up then c.n + 1 else c.n) ≤ c.n + 1 := by
    cases up <;> simp
  unfold rint
  split
  · exact ⟨le_rfl, Nat.le_succ _⟩
  · exact hstep _

/-- A magnitude in the normal range whose carry does not overflow is rounded to `p` bits, and is not tiny. -/
theorem FloatFormat.round_normal {x : Magnitude} {c : Cut} (he : x.log2 = e) (hmin : F.emin ≤ e) (hmax : e < F.emax)
    (hq : q = e - F.prec + 1) (hcut : x.cut q = c) (hlo : 2 ^ F.fracBits ≤ c.n) (hhi : c.n < 2 ^ F.prec) :
    F.round neg x rm = (F.signed neg (F.encode (rint c neg rm) q), if c.rest ≠ .exact then flagNX else noFlags) := by
  obtain ⟨hrintLo, hrintHi⟩ := rint_bounds c neg rm
  have hlow : (2 : ℚ) ^ F.emin ≤ (rint c neg rm : Int) * 2 ^ q := calc
    (2 : ℚ) ^ F.emin ≤ 2 ^ e := two_zpow_le_iff.2 hmin
    _ = 2 ^ (F.fracBits : Int) * 2 ^ q := by
      rw [← two_zpow_add, hq, FloatFormat.prec]; congr 1; push_cast; omega
    _ ≤ (rint c neg rm : Int) * 2 ^ q := by
      refine mul_le_mul_of_nonneg_right ?_ (two_zpow_pos q).le
      rw [zpow_natCast, Int.cast_natCast]
      exact_mod_cast hlo.trans hrintLo
  have hhigh : ((rint c neg rm : Int) : ℚ) * 2 ^ q < 2 ^ (F.emax + 1) := calc
    ((rint c neg rm : Int) : ℚ) * 2 ^ q ≤ 2 ^ (F.prec : Int) * 2 ^ q := by
      refine mul_le_mul_of_nonneg_right ?_ (two_zpow_pos q).le
      rw [zpow_natCast, Int.cast_natCast]
      exact_mod_cast hrintHi.trans hhi
    _ = 2 ^ (e + 1) := by rw [← two_zpow_add, hq]; congr 1; omega
    _ < 2 ^ (F.emax + 1) := two_zpow_lt_iff.2 (by omega)
  have hnormal : ¬(((rint c neg rm : Int) : ℚ) * 2 ^ q < 2 ^ F.emin ∧ c.rest ≠ .exact) := fun h => hlow.not_gt h.1
  subst hcut
  rw [FloatFormat.round_of_log2 he (hq.trans (by rw [max_eq_left hmin])) rfl rfl, ← hq, if_pos hhigh, if_neg hnormal,
    Int.toNat_natCast, or_noFlags]

/-- The exponent of a finite value, at most that of the largest. -/
theorem value_exponent_le (hF : 1 < F.expBits) (h : F.value a = .finite neg m k) : k + F.fracBits ≤ F.emax := by
  have hE : a.toNat / 2 ^ F.fracBits % 2 ^ F.expBits < 2 ^ F.expBits := Nat.mod_lt _ (Nat.two_pow_pos _)
  have htop := two_mul_emax (Nat.lt_of_succ_lt hF)
  have hcast : ((2 ^ F.expBits : Nat) : Int) = 2 ^ F.expBits := by push_cast; rfl
  have hfour : 2 ^ 2 ≤ 2 ^ F.expBits := Nat.pow_le_pow_right two_pos hF
  rw [FloatFormat.value_eq_ofFields] at h
  generalize a.toNat / 2 ^ F.fracBits % 2 ^ F.expBits = E at h hE
  unfold FloatFormat.ofFields at h
  split_ifs at h
  · obtain ⟨-, -, rfl⟩ := FVal.finite.inj h
    rw [FloatFormat.qmin, FloatFormat.emin]
    omega
  · obtain ⟨-, -, rfl⟩ := FVal.finite.inj h
    rw [FloatFormat.qmin, FloatFormat.emin]
    omega

theorem two_zpow_le_magnitude (hm : 0 < m) : (2 : ℚ) ^ k ≤ m * 2 ^ k :=
  le_mul_of_one_le_left (two_zpow_pos k).le (by exact_mod_cast hm)

theorem magnitude_lt {p : Nat} (hm : m < 2 ^ p) : (m : ℚ) * 2 ^ k < 2 ^ (p + k) := by
  rw [two_zpow_add, zpow_natCast]
  exact mul_lt_mul_of_pos_right (by exact_mod_cast hm) (two_zpow_pos k)

/-- The radicand in units of the squared spacing, a whole number. -/
theorem radicand_mul_zpow (hshift : 0 ≤ k - 2 * q) (hN : N = m * pow2Num (k - 2 * q)) :
    (N : ℚ) * 2 ^ (2 * q) = m * 2 ^ k := by
  rw [hN, Nat.cast_mul, pow2Num_of_nonneg hshift, mul_assoc, ← two_zpow_add, sub_add_cancel]

/-- The integer root of a radicand in the binade of `2^(2 * e)` has `p` bits, the leading one set. -/
theorem root_normalised {f : Nat} (hq : q = e - f) (hle : (2 : ℚ) ^ (2 * e) ≤ N * 2 ^ (2 * q))
    (hlt : (N : ℚ) * 2 ^ (2 * q) < 2 ^ (2 * (e + 1))) (hn : n * n ≤ N) (hn' : N < (n + 1) * (n + 1)) :
    2 ^ f ≤ n ∧ n < 2 ^ (f + 1) := by
  have hpower (j : Nat) : (2 : ℚ) ^ (2 * (e - f + j)) = ((2 ^ j * 2 ^ j : Nat) : ℚ) * 2 ^ (2 * q) := by
    push_cast
    rw [← zpow_natCast, ← two_zpow_add, ← two_zpow_add, hq]
    congr 1
    omega
  have hlow : 2 ^ f * 2 ^ f ≤ N := by
    rw [← sub_add_cancel e (f : Int), hpower] at hle
    exact Nat.cast_le.1 (le_of_mul_le_mul_right hle (two_zpow_pos _))
  have hhigh : N < 2 ^ (f + 1) * 2 ^ (f + 1) := by
    have hexp : e + 1 = e - f + (f + 1 : Nat) := by push_cast; omega
    rw [hexp, hpower] at hlt
    exact Nat.cast_lt.1 (lt_of_mul_lt_mul_right hlt (two_zpow_pos _).le)
  exact ⟨Nat.le_of_lt_succ (Nat.mul_self_lt_mul_self_iff.1 (hlow.trans_lt hn')),
    Nat.mul_self_lt_mul_self_iff.1 (hn.trans_lt hhigh)⟩

/-- Where the exponents of a finite value and of its root lie, in a format whose exponent range is wide against its
precision. -/
theorem root_exponents (hF : 1 < F.expBits) (hwide : (F.fracBits : Int) + 2 ≤ F.emax) (ha : F.value a = .finite neg m k)
    (hle : (2 : ℚ) ^ (2 * e) ≤ m * 2 ^ k) (hlt : (m : ℚ) * 2 ^ k < 2 ^ (2 * (e + 1))) (hq : q = e - F.prec + 1) :
    0 < m ∧ F.emin ≤ e ∧ e < F.emax ∧ 0 ≤ k - 2 * q := by
  have hproper := F.value_proper a
  have hnormalised := value_normalised F a
  rw [ha] at hproper hnormalised
  have hm : 0 < m := hproper
  obtain ⟨hkmin, hmlt, -⟩ := hnormalised
  have hkmax := value_exponent_le hF ha
  have hvalueLow : k < 2 * (e + 1) := two_zpow_lt_iff.1 ((two_zpow_le_magnitude hm).trans_lt hlt)
  have hvalueHigh : 2 * e < F.prec + k := two_zpow_lt_iff.1 (hle.trans_lt (magnitude_lt hmlt))
  simp only [FloatFormat.qmin, FloatFormat.emin, FloatFormat.prec] at *
  omega

/-- The root of a positive finite value. -/
theorem FloatFormat.sqrt_of_finite {y : ℚ} (hF : 1 < F.expBits) (hwide : (F.fracBits : Int) + 2 ≤ F.emax)
    (ha : F.value a = .finite false m k) (hle : (2 : ℚ) ^ (2 * e) ≤ m * 2 ^ k)
    (hlt : (m : ℚ) * 2 ^ k < 2 ^ (2 * (e + 1))) (hq : q = e - F.prec + 1) (hy : y = m * 2 ^ (k - 2 * q))
    (hn : (n : ℚ) ^ 2 ≤ y) (hn' : y < ((n : ℚ) + 1) ^ 2) :
    F.sqrt a rm = (BitVec.ofNat w (F.encode (roundedRoot n y rm) q), if y = (n : ℚ) ^ 2 then noFlags else flagNX) := by
  obtain ⟨hm, hemin, hemax, hshift⟩ := root_exponents hF hwide ha hle hlt hq
  have hprec : q = e - F.fracBits := by rw [hq, FloatFormat.prec]; push_cast; omega
  obtain ⟨N, hN⟩ : ∃ N, N = m * pow2Num (k - 2 * q) := ⟨_, rfl⟩
  have hradicand := radicand_mul_zpow hshift hN
  obtain rfl : (N : ℚ) = y := by rw [hN, hy, Nat.cast_mul, pow2Num_of_nonneg hshift]
  have hsquare : n * n ≤ N := by rw [sq] at hn; exact_mod_cast hn
  have hsquare' : N < (n + 1) * (n + 1) := by rw [sq] at hn'; exact_mod_cast hn'
  obtain ⟨hlo, hhi⟩ := root_normalised hprec (hradicand ▸ hle) (hradicand ▸ hlt) hsquare hsquare'
  have hcut : (Magnitude.root m k).cut q = { n := n, rest := .ofRoot N n } := by
    rw [Magnitude.cut, pow2Den_of_nonneg hshift, ← hN]
    exact cutRoot_one hsquare hsquare'
  simp only [FloatFormat.sqrt, ha, FloatFormat.rounded]
  rw [FloatFormat.round_normal (Magnitude.log2_root hm hle hlt) hemin hemax hq hcut hlo hhi]
  simp only [ofRoot_ne_exact_iff, rint_ofRoot, ne_eq, ite_not, FloatFormat.signed, Bool.false_eq_true, if_false,
    Nat.zero_add]

/-- Settles O51: both formats are wide enough. -/
theorem squareRootRule : Obligations.SquareRootRule := by
  intro F hFs w a rm
  have hF : 1 < F.expBits ∧ (F.fracBits : Int) + 2 ≤ F.emax := by
    simp only [List.mem_cons, List.not_mem_nil, or_false] at hFs
    rcases hFs with rfl | rfl <;> decide
  obtain ⟨hexp, hwide⟩ := hF
  refine ⟨?unchanged, ?negative, fun m n k e q y ha hle hlt hq hy hn hn' =>
    FloatFormat.sqrt_of_finite hexp hwide ha hle hlt hq hy hn hn'⟩
  case unchanged => rintro (⟨neg, ha⟩ | ha) <;> simp only [FloatFormat.sqrt, ha]
  case negative => rintro (ha | ⟨m, k, ha⟩) <;> simp only [FloatFormat.sqrt, ha]

end Sys2Proof.Machine
end

section
/-! O56 to O58: the system instructions that take no control register address (49_system.md R440 to R446). -/

namespace Sys2Proof.Machine

/-- Settles O56: all three are the default step of the pc. -/
theorem noOperations : Obligations.NoOperations :=
  fun _ _ _ _ _ _ _ => ⟨.of_eq rfl rfl, .of_eq rfl rfl, .of_eq rfl rfl⟩

/-- Settles O57: both record their signal and do nothing else. -/
theorem signals : Obligations.Signals := fun _ => ⟨rfl, rfl⟩

/-- `ustatus` after `URET`, bit by bit (R446, R472). -/
theorem State.getLsbD_trapReturn_ustatus (s : State) (b : Nat) :
    s.trapReturn.running.ustatus.getLsbD b =
      if b = 0 then s.running.ustatus.getLsbD 4 else if b = 4 then true else s.running.ustatus.getLsbD b := by
  have huie : (if s.running.ustatus.getLsbD 4 then 1#64 else 0#64).getLsbD b =
      (decide (b = 0) && s.running.ustatus.getLsbD 4) := by
    cases s.running.ustatus.getLsbD 4 <;> simp [BitVec.getLsbD_one]
  have hupie : (0x10 : DWord).getLsbD b = decide (b = 4) := by
    rw [show (0x10 : DWord) = .twoPow 64 4 by rfl, BitVec.getLsbD_twoPow]
    simp [eq_comm]
  have hmask : (0x11 : DWord).getLsbD b = (decide (b = 0) || decide (b = 4)) := by
    rw [show (0x11 : DWord) = 1#64 ||| 0x10 by rfl, BitVec.getLsbD_or, hupie]
    simp [BitVec.getLsbD_one]
  rw [State.trapReturn_ustatus, BitVec.getLsbD_or, BitVec.getLsbD_or, BitVec.getLsbD_and, BitVec.getLsbD_not, huie,
    hupie, hmask]
  by_cases h0 : b = 0
  · simp [h0]
  · by_cases h4 : b = 4
    · simp [h4]
    · have : s.running.ustatus.getLsbD b = true → b < 64 := BitVec.lt_of_getLsbD
      simpa [h0, h4] using this

/-- Settles O58, from the bits of `ustatus`. -/
theorem trapReturn : Obligations.TrapReturn := by
  intro s
  have hbit := s.getLsbD_trapReturn_ustatus
  exact ⟨s.trapReturn, rfl, hbit 0, hbit 4, fun b h0 h4 => by rw [hbit, if_neg h0, if_neg h4], rfl, rfl⟩

end Sys2Proof.Machine
end

section
/-! O22, O59, O60: the control registers (49_system.md R445, R447 to R454, 10_state.md R36 to R41). Five have an address
of their own; at any other address stands the first register of `CSR_SET` with it, or none. -/

namespace Sys2Proof.Machine

variable {s : State} {i : Instr} {r : Refusal} {rd : Reg} {c : CsrAddr} {v : DWord} {writes : Bool}
  {new : DWord → DWord} {e : ExtraCsr} {before after : List ExtraCsr}

/-! ### Values cut to a width -/

theorem getLsbD_toXlen (m64 : Bool) (v : DWord) (b : Nat) :
    (toXlen m64 v).getLsbD b = (decide (b < xlen m64) && v.getLsbD b) := by
  cases m64 with
  | true => simpa [xlen] using fun h : v.getLsbD b = true => BitVec.lt_of_getLsbD h
  | false =>
    simp only [toXlen_false, zext64, low32, xlen, BitVec.getLsbD_setWidth]
    by_cases h : b < 32
    · simp [h, Nat.lt_trans h]
    · simp [h]

theorem getLsbD_keepLow (k : Nat) (v : DWord) (b : Nat) :
    (keepLow k v).getLsbD b = (decide (b < k) && v.getLsbD b) := by
  rw [keepLow, BitVec.getLsbD_and, BitVec.getLsbD_ofNat, Nat.testBit_two_pow_sub_one]
  by_cases h : b < 64
  · simp [h, Bool.and_comm]
  · simp [BitVec.getLsbD_of_ge v b (by omega)]

/-- A field of `k` bits reads as the low bits of what was written to it. -/
theorem setWidth_setWidth_eq_keepLow (k : Nat) (v : DWord) : (v.setWidth k).setWidth 64 = keepLow k v := by
  apply BitVec.eq_of_getLsbD_eq
  intro b hb
  rw [getLsbD_keepLow, BitVec.getLsbD_setWidth, BitVec.getLsbD_setWidth, decide_eq_true hb, Bool.true_and]

/-! ### Which addresses name a register (R447) -/

theorem mem_namedCsrs_iff :
    c ∈ ([0x000, 0x001, 0x002, 0x003, 0x041] : List CsrAddr) ↔
      c = csrUstatus ∨ c = csrFflags ∨ c = csrFrm ∨ c = csrFcsr ∨ c = csrUepc := by
  simp only [List.mem_cons, List.not_mem_nil, or_false]
  rfl

theorem State.csrRead_of_unnamed (h : c ∉ ([0x000, 0x001, 0x002, 0x003, 0x041] : List CsrAddr)) :
    s.csrRead c = (readExtra c s.running.extra).map (toXlen s.m64) := by
  simp only [mem_namedCsrs_iff, not_or] at h
  obtain ⟨hustatus, hfflags, hfrm, hfcsr, huepc⟩ := h
  rw [State.csrRead, if_neg hustatus, if_neg hfflags, if_neg hfrm, if_neg hfcsr, if_neg huepc]

theorem State.csrWrite_of_unnamed (h : c ∉ ([0x000, 0x001, 0x002, 0x003, 0x041] : List CsrAddr)) :
    s.csrWrite c v =
      { s with running := { s.running with extra := writeExtra c (toXlen s.m64 v) s.running.extra } } := by
  simp only [mem_namedCsrs_iff, not_or] at h
  obtain ⟨hustatus, hfflags, hfrm, hfcsr, huepc⟩ := h
  simp only [State.csrWrite, hustatus, hfflags, hfrm, hfcsr, huepc, or_self, if_false]

theorem readExtra_eq_none_iff {es : List ExtraCsr} : readExtra c es = none ↔ ∀ e ∈ es, e.spec.addr ≠ c := by
  induction es with
  | nil => simp [readExtra]
  | cons d rest ih =>
    rw [readExtra, List.forall_mem_cons, ← ih]
    by_cases hd : d.spec.addr = c <;> simp [hd]

/-- An address names no register when it is none of the five and none of `CSR_SET` (R447). -/
theorem State.csrRead_eq_none_iff :
    s.csrRead c = none ↔ c ∉ ([0x000, 0x001, 0x002, 0x003, 0x041] : List CsrAddr) ∧
      ∀ e ∈ s.running.extra, e.spec.addr ≠ c := by
  by_cases hc : c ∈ ([0x000, 0x001, 0x002, 0x003, 0x041] : List CsrAddr)
  · have hsome : s.csrRead c ≠ none := by
      rcases mem_namedCsrs_iff.1 hc with rfl | rfl | rfl | rfl | rfl <;> exact Option.some_ne_none _
    exact ⟨fun h => absurd h hsome, fun h => absurd hc h.1⟩
  · rw [State.csrRead_of_unnamed hc, Option.map_eq_none_iff, readExtra_eq_none_iff]
    exact (and_iff_right hc).symm

/-! ### The CSR instructions (R445) -/

/-- The six CSR instructions are one operation, at the address in the field `c`. -/
theorem exec_of_isCsr (h : isCsr i = true) (s : State) :
    ∃ c rd writes new, exec i s = csrAccess c rd writes new s ∧ operandOf 'c' i = some c.toNat := by
  cases i with
  | csrrw | csrrs | csrrc | csrrwi | csrrsi | csrrci => exact ⟨_, _, _, _, rfl, rfl⟩
  | _ => cases h

/-- A CSR instruction at an address that names a register: the old value to `rd`, the new one to the register. -/
theorem csrClaim_of_exec {w : Prop} (he : exec i s = csrAccess c rd writes new s) (hw : writes = true ↔ w) :
    Claims.csr i s rd c w new := by
  intro old hold
  refine ⟨_, he.trans (csrAccess_next.2 ⟨old, hold, rfl⟩), ?_⟩
  cases writes with
  | true =>
    exact ⟨State.stored_writeX_self _ rd old, fun _ hq => State.stored_writeX_ne _ old hq, rfl, fun _ => rfl,
      fun hnot => absurd (hw.1 rfl) hnot, rfl⟩
  | false =>
    exact ⟨State.stored_writeX_self s rd old, fun _ hq => State.stored_writeX_ne s old hq, rfl,
      fun h => absurd (hw.2 h) Bool.false_ne_true, fun _ => rfl, rfl⟩

/-- Settles O59: each of the six is the one operation, with its own condition to write. -/
theorem csrInstructions : Obligations.CsrInstructions := by
  intro s rd rs1 c z
  rw [BitVec.ofNat_toNat]
  exact ⟨csrClaim_of_exec rfl (iff_of_true rfl trivial), csrClaim_of_exec rfl bne_iff_ne,
    csrClaim_of_exec rfl bne_iff_ne, csrClaim_of_exec rfl (iff_of_true rfl trivial), csrClaim_of_exec rfl bne_iff_ne,
    csrClaim_of_exec rfl bne_iff_ne⟩

/-! ### Which instructions are refused (R447) -/

theorem csrAccess_eq_refused_iff :
    csrAccess c rd writes new s = .refused r ↔ s.csrRead c = none ∧ r = .unknownCsr c := by
  cases h : s.csrRead c with
  | none => rw [csrAccess_refused h]; simp [eq_comm]
  | some old => rw [csrAccess_next.2 ⟨old, h, rfl⟩]; simp

/-- The outcome is a next state or a fault. -/
def NotRefused (o : Result) : Prop := ∀ r, o ≠ .refused r

theorem notRefused_next (t : State) : NotRefused (.next t) := fun _ h => by cases h

theorem NotRefused.checked {k : AccessKind} {a : DWord} {n : Nat} {o : Result} (h : NotRefused o) :
    NotRefused (s.checked i k a n o) := by
  cases ha : s.accessOk k a n with
  | true => rwa [State.checked_of_ok ha]
  | false => rw [State.checked_of_not ha]; exact fun _ h => by cases h

theorem NotRefused.withRounding {p : Rm} {k : RoundingMode → Result} (h : ∀ m, NotRefused (k m)) :
    NotRefused (s.withRounding i p k) := by
  cases hp : s.resolveRm p with
  | some m => rw [State.withRounding_of_some hp]; exact h m
  | none => rw [State.withRounding_of_none hp]; exact fun _ h => by cases h

theorem notRefused_storeConditional {n : Nat} {rs1 rs2 : Reg} : NotRefused (storeConditional n i rd rs1 rs2 s) := by
  unfold storeConditional
  dsimp only
  split
  · exact (notRefused_next _).checked
  · exact notRefused_next _

/-- No other instruction refuses: where one stops, it raises. -/
theorem exec_notRefused (h : isCsr i = false) : NotRefused (exec i s) := by
  cases i with
  | csrrw | csrrs | csrrc | csrrwi | csrrsi | csrrci => cases h
  | lb | lh | lw | lbu | lhu | lwu | ld | sb | sh | sw | sd | flw | fsw | fld | fsd | lrW | lrD =>
    exact (notRefused_next _).checked
  | scW | scD => exact notRefused_storeConditional
  | amoswapW | amoaddW | amoxorW | amoandW | amoorW | amominW | amomaxW | amominuW | amomaxuW
  | amoswapD | amoaddD | amoxorD | amoandD | amoorD | amominD | amomaxD | amominuD | amomaxuD =>
    exact (notRefused_next _).checked.checked
  | fmaddS | fmsubS | fnmsubS | fnmaddS | faddS | fsubS | fmulS | fdivS | fsqrtS
  | fmaddD | fmsubD | fnmsubD | fnmaddD | faddD | fsubD | fmulD | fdivD | fsqrtD
  | fcvtWS | fcvtWuS | fcvtLS | fcvtLuS | fcvtSW | fcvtSWu | fcvtSL | fcvtSLu
  | fcvtWD | fcvtWuD | fcvtLD | fcvtLuD | fcvtDW | fcvtDWu | fcvtDL | fcvtDLu | fcvtSD | fcvtDS =>
    exact .withRounding fun _ => notRefused_next _
  -- The others complete in every state.
  | _ => exact notRefused_next _

/-- Settles O22: a CSR instruction is refused where the read of its register is, and no other instruction is. -/
theorem refusedExactly : Obligations.RefusedExactly := by
  intro i s r
  cases hi : isCsr i with
  | false => exact iff_of_false (exec_notRefused hi r) fun h => Bool.false_ne_true h.1
  | true =>
    obtain ⟨c, rd, writes, new, hexec, hc⟩ := exec_of_isCsr hi s
    rw [hexec, csrAccess_eq_refused_iff, State.csrRead_eq_none_iff, hc]
    constructor
    · rintro ⟨⟨hnamed, hextra⟩, rfl⟩
      exact ⟨rfl, c, rfl, rfl, hnamed, hextra⟩
    · rintro ⟨-, d, hd, rfl, hnamed, hextra⟩
      obtain rfl : c = d := BitVec.eq_of_toNat_eq (Option.some.inj hd)
      exact ⟨⟨hnamed, hextra⟩, rfl⟩

/-! ### What a register stores (R454) -/

/-- A write of `fcsr` stores its two parts side by side. -/
theorem fcsr_parts (v : DWord) : (v.extractLsb' 5 3 ++ v.setWidth 5).setWidth 64 = keepLow 8 v := by
  have hparts : v.extractLsb' 5 3 ++ v.setWidth 5 = v.setWidth 8 := by
    rw [BitVec.setWidth_eq_extractLsb' (by decide), BitVec.setWidth_eq_extractLsb' (by decide)]
    exact BitVec.extractLsb'_append_extractLsb'_eq_extractLsb' rfl
  rw [hparts, setWidth_setWidth_eq_keepLow]

/-- The value a register of `CSR_SET` holds after `v` was written to it (R41; log 14). -/
def ExtraCsr.written (e : ExtraCsr) (v : DWord) : DWord :=
  keepLow e.spec.width ((e.value &&& ~~~e.spec.mask) ||| (v &&& e.spec.mask))

theorem ExtraCsr.getLsbD_written (e : ExtraCsr) (v : DWord) {b : Nat} (hb : b < 64) :
    (e.written v).getLsbD b =
      (decide (b < e.spec.width) && if e.spec.mask.getLsbD b then v.getLsbD b else e.value.getLsbD b) := by
  rw [ExtraCsr.written, getLsbD_keepLow, BitVec.getLsbD_or, BitVec.getLsbD_and, BitVec.getLsbD_and, BitVec.getLsbD_not,
    decide_eq_true hb]
  cases e.spec.mask.getLsbD b <;> simp

theorem writeExtra_first (h : ∀ q ∈ before, q.spec.addr ≠ e.spec.addr) :
    writeExtra e.spec.addr v (before ++ e :: after) = before ++ { e with value := e.written v } :: after := by
  induction before with
  | nil => exact if_pos rfl
  | cons d rest ih =>
    obtain ⟨hd, hrest⟩ := List.forall_mem_cons.1 h
    rw [List.cons_append, writeExtra, if_neg hd, ih hrest, List.cons_append]

theorem readExtra_first (h : ∀ q ∈ before, q.spec.addr ≠ e.spec.addr) :
    readExtra e.spec.addr (before ++ e :: after) = some (keepLow e.spec.width e.value) := by
  induction before with
  | nil => exact if_pos rfl
  | cons d rest ih =>
    obtain ⟨hd, hrest⟩ := List.forall_mem_cons.1 h
    rw [List.cons_append, readExtra, if_neg hd, ih hrest]

/-- The first register of `CSR_SET` at an address takes what is written there, and nothing else changes. -/
theorem State.csrWrite_extra_first (hextra : s.running.extra = before ++ e :: after)
    (hfirst : ∀ q ∈ before, q.spec.addr ≠ e.spec.addr)
    (haddr : e.spec.addr ∉ ([0x000, 0x001, 0x002, 0x003, 0x041] : List CsrAddr)) :
    s.csrWrite e.spec.addr v =
      { s with running := { s.running with
          extra := before ++ { e with value := e.written (toXlen s.m64 v) } :: after } } := by
  rw [State.csrWrite_of_unnamed haddr, hextra, writeExtra_first hfirst]

/-- It reads back what it stored, at `XLEN` bits. -/
theorem State.csrRead_csrWrite_extra_first (hextra : s.running.extra = before ++ e :: after)
    (hfirst : ∀ q ∈ before, q.spec.addr ≠ e.spec.addr)
    (haddr : e.spec.addr ∉ ([0x000, 0x001, 0x002, 0x003, 0x041] : List CsrAddr)) :
    (s.csrWrite e.spec.addr v).csrRead e.spec.addr = some (toXlen s.m64 (e.written (toXlen s.m64 v))) := by
  have hread := readExtra_first (e := { e with value := e.written (toXlen s.m64 v) }) (after := after) hfirst
  rw [State.csrWrite_extra_first hextra hfirst haddr, State.csrRead_of_unnamed haddr, hread, ExtraCsr.written,
    keepLow_keepLow]
  rfl

/-- Settles O60: the fields a write sets are the fields a read finds, cut to the width of the register. -/
theorem csrWriteMasks : Obligations.CsrWriteMasks := by
  intro s v hv
  have hfield (k : Nat) (u : DWord) : some ((u.setWidth k).setWidth 64) = some (keepLow k u) :=
    congrArg some (setWidth_setWidth_eq_keepLow k u)
  simp only [List.forall_mem_cons, List.not_mem_nil, false_implies, implies_true, and_true]
  refine ⟨?ustatus, hfield 5 v, hfield 3 v, congrArg some (fcsr_parts v), hfield 5 v, hfield 3 (v >>> 5), ?uepc,
    ⟨rfl, rfl, rfl, rfl⟩, ⟨rfl, rfl, rfl⟩, ⟨rfl, rfl, rfl⟩, ⟨rfl, rfl⟩, ⟨rfl, rfl, rfl, rfl⟩,
    ⟨rfl, rfl, rfl, rfl, rfl⟩, fun before after e hextra hfirst haddr => ?added, ?frame⟩
  case ustatus =>
    have hstored : v &&& 0x11 &&& 0x11 = v &&& 0x11 := by rw [BitVec.and_assoc, BitVec.and_self]
    exact congrArg some hstored
  case uepc =>
    have hstored : toXlen s.m64 (toXlen s.m64 v &&& ~~~1) &&& ~~~1 = v &&& ~~~1 := by
      rw [toXlen_clearBit0, toXlen_toXlen, hv, BitVec.and_assoc, BitVec.and_self]
    exact congrArg some hstored
  case added =>
    have hwrite := State.csrWrite_extra_first (v := v) hextra hfirst haddr
    refine ⟨_, _, congrArg (·.running.extra) hwrite, State.csrRead_csrWrite_extra_first hextra hfirst haddr,
      fun b hb => ?inside, fun b hb => ?outside, hwrite⟩
    case inside =>
      have hb64 : b < 64 := hb.trans_le (by unfold xlen; split <;> omega)
      rw [getLsbD_toXlen, decide_eq_true hb, Bool.true_and, hv, ExtraCsr.getLsbD_written e v hb64]
    case outside => rw [getLsbD_toXlen, decide_eq_false (Nat.not_lt.2 hb), Bool.false_and]
  case frame => rintro c _ rfl; rfl

end Sys2Proof.Machine
end

section
/-! O20 and O21: what an instruction can raise (60_exceptions.md R463, R464). A fault of `exec` comes from a check of
its own access or from its own rounding-mode field, and carries its statement. -/

namespace Sys2Proof.Machine

variable {s : State} {i : Instr} {rd rs1 rs2 : Reg} {p : Rm} {n : Nat} {a : DWord} {reads writes : Bool} {o : Result}

/-! ### The causes of a fault -/

/-- Why `exec i s` can end in a fault: a read or a write of the access of `i` that fails its check (R63, R64), a write
after the read only (R461), or a rounding-mode field of `i` that does not resolve (R341). -/
inductive FaultCause (i : Instr) (s : State) : Fault → Prop where
  | load {a : DWord} {n : Nat} {writes : Bool} (own : s.dataAccess i = some ⟨true, writes, a, n⟩)
      (bad : s.accessOk .load a n = false) : FaultCause i s (.addressError .load a (some (s.statement i)))
  | store {a : DWord} {n : Nat} {reads : Bool} (own : s.dataAccess i = some ⟨reads, true, a, n⟩)
      (readOk : reads = true → s.accessOk .load a n = true) (bad : s.accessOk .store a n = false) :
      FaultCause i s (.addressError .store a (some (s.statement i)))
  | rounding {p : Rm} (field : operandOf 'p' i = some p.toNat) (unresolved : s.resolveRm p = none) :
      FaultCause i s (.invalidRoundingMode (s.statement i))

/-- The outcome is no fault but one with a cause. -/
def FaultsCaused (i : Instr) (s : State) (o : Result) : Prop := ∀ f, o = .fault f → FaultCause i s f

theorem faultsCaused_next (t : State) : FaultsCaused i s (.next t) := fun _ h => by cases h

theorem faultsCaused_csrAccess {c : CsrAddr} {new : DWord → DWord} :
    FaultsCaused i s (csrAccess c rd writes new s) := by
  cases h : s.csrRead c with
  | none => rw [csrAccess_refused h]; exact fun _ h => by cases h
  | some old => rw [csrAccess_next.2 ⟨old, h, rfl⟩]; exact faultsCaused_next _

/-- A checked read, then what follows once its check has passed. -/
theorem FaultsCaused.checkedLoad (own : s.dataAccess i = some ⟨true, writes, a, n⟩)
    (h : s.accessOk .load a n = true → FaultsCaused i s o) : FaultsCaused i s (s.checked i .load a n o) := by
  cases ha : s.accessOk .load a n with
  | true => rw [State.checked_of_ok ha]; exact h ha
  | false => rw [State.checked_of_not ha]; rintro _ ⟨⟩; exact .load own ha

/-- A checked write that completes the instruction. -/
theorem faultsCaused_checkedStore {t : State} (own : s.dataAccess i = some ⟨reads, true, a, n⟩)
    (readOk : reads = true → s.accessOk .load a n = true) :
    FaultsCaused i s (s.checked i .store a n (.next t)) := by
  cases ha : s.accessOk .store a n with
  | true => rw [State.checked_of_ok ha]; exact faultsCaused_next t
  | false => rw [State.checked_of_not ha]; rintro _ ⟨⟩; exact .store own readOk ha

theorem faultsCaused_storeConditional (own : s.dataAccess i = some ⟨false, true, s.readX rs1, n⟩) :
    FaultsCaused i s (storeConditional n i rd rs1 rs2 s) := by
  unfold storeConditional
  dsimp only
  split
  · exact faultsCaused_checkedStore own nofun
  · exact faultsCaused_next _

theorem FaultsCaused.withRounding {k : RoundingMode → Result} (field : operandOf 'p' i = some p.toNat)
    (h : ∀ m, FaultsCaused i s (k m)) : FaultsCaused i s (s.withRounding i p k) := by
  cases hp : s.resolveRm p with
  | some m => rw [State.withRounding_of_some hp]; exact h m
  | none => rw [State.withRounding_of_none hp]; rintro _ ⟨⟩; exact .rounding field hp

/-- The inversion of `exec` for faults. -/
theorem exec_faultsCaused : FaultsCaused i s (exec i s) := by
  cases i with
  | csrrw | csrrs | csrrc | csrrwi | csrrsi | csrrci => exact faultsCaused_csrAccess
  | lb | lh | lw | lbu | lhu | lwu | ld | flw | fld | lrW | lrD =>
    exact .checkedLoad rfl fun _ => faultsCaused_next _
  | sb | sh | sw | sd | fsw | fsd => exact faultsCaused_checkedStore rfl nofun
  | scW | scD => exact faultsCaused_storeConditional rfl
  | amoswapW | amoaddW | amoxorW | amoandW | amoorW | amominW | amomaxW | amominuW | amomaxuW
  | amoswapD | amoaddD | amoxorD | amoandD | amoorD | amominD | amomaxD | amominuD | amomaxuD =>
    exact .checkedLoad rfl fun hload => faultsCaused_checkedStore rfl fun _ => hload
  | fmaddS | fmsubS | fnmsubS | fnmaddS | faddS | fsubS | fmulS | fdivS | fsqrtS
  | fmaddD | fmsubD | fnmsubD | fnmaddD | faddD | fsubD | fmulD | fdivD | fsqrtD
  | fcvtWS | fcvtWuS | fcvtLS | fcvtLuS | fcvtSW | fcvtSWu | fcvtSL | fcvtSLu
  | fcvtWD | fcvtWuD | fcvtLD | fcvtLuD | fcvtDW | fcvtDWu | fcvtDL | fcvtDLu | fcvtSD | fcvtDS =>
    exact .withRounding rfl fun _ => faultsCaused_next _
  -- The others complete in every state.
  | _ => exact faultsCaused_next _

/-- A check that fails is a misaligned address or one that is not valid for the kind (R63, R64). -/
theorem State.accessOk_eq_false_iff {k : AccessKind} :
    s.accessOk k a n = false ↔ a.toNat % n ≠ 0 ∨ s.memValid k a.toNat n = false := by
  rw [← Bool.not_eq_true, State.accessOk_iff, not_and_or, Bool.not_eq_true]

/-- Settles O21: an AddressError has a failed check of the instruction's own access as its cause. -/
theorem addressErrorCause : Obligations.AddressErrorCause := by
  intro i s k a st h
  cases exec_faultsCaused _ h with
  | load own bad => exact ⟨rfl, _, own, rfl, .inl ⟨rfl, rfl⟩, State.accessOk_eq_false_iff.1 bad⟩
  | store own readOk bad => exact ⟨rfl, _, own, rfl, .inr ⟨rfl, rfl, readOk⟩, State.accessOk_eq_false_iff.1 bad⟩

/-! ### Rounding modes (R340, R341) -/

/-- A code names the mode whose number it is. -/
theorem roundingMode_eq_some_iff (c : Rm) (m : RoundingMode) : roundingMode c = some m ↔ c.toNat = m.ctorIdx := by
  cases m <;> revert c <;> decide

theorem State.resolveRm_eq_some_iff {m : RoundingMode} :
    s.resolveRm p = some m ↔ (if p = 7 then s.running.frm.toNat else p.toNat) = m.ctorIdx := by
  rw [State.resolveRm, roundingMode_eq_some_iff, apply_ite BitVec.toNat]

/-- The selectors that do not resolve. -/
theorem State.resolveRm_eq_none_iff :
    s.resolveRm p = none ↔ p.toNat = 5 ∨ p.toNat = 6 ∨ (p.toNat = 7 ∧ 5 ≤ s.running.frm.toNat) := by
  rw [← Option.not_isSome_iff_eq_none, State.resolveRm_isSome]
  have hp := p.isLt
  by_cases h7 : p = 7
  · rw [if_pos h7, h7]
    simp [Nat.lt_iff_add_one_le]
  · have hne : p.toNat ≠ 7 := fun h => h7 (BitVec.eq_of_toNat_eq h)
    rw [if_neg h7]
    omega

/-- An instruction with a rounding-mode field runs under the mode the field resolves to, or raises. -/
theorem exec_of_roundingField {q : Nat} (h : operandOf 'p' i = some q) (s : State) :
    ∃ (p : Rm) (k : RoundingMode → Result), p.toNat = q ∧ exec i s = s.withRounding i p k := by
  cases i with
  | fmaddS | fmsubS | fnmsubS | fnmaddS | faddS | fsubS | fmulS | fdivS | fsqrtS
  | fmaddD | fmsubD | fnmsubD | fnmaddD | faddD | fsubD | fmulD | fdivD | fsqrtD
  | fcvtWS | fcvtWuS | fcvtLS | fcvtLuS | fcvtSW | fcvtSWu | fcvtSL | fcvtSLu
  | fcvtWD | fcvtWuD | fcvtLD | fcvtLuD | fcvtDW | fcvtDWu | fcvtDL | fcvtDLu | fcvtSD | fcvtDS =>
    exact ⟨_, _, Option.some.inj h, rfl⟩
  -- The others have no such field.
  | _ => cases h

/-- Settles O20: the fault has an unresolved field as its cause, and an unresolved field raises before all else. -/
theorem invalidRoundingExactly : Obligations.InvalidRoundingExactly := by
  refine ⟨fun s p m => ?resolve, ?fields, fun i s st => ⟨fun h => ?cause, ?raises⟩⟩
  case resolve =>
    rw [State.resolveRm_eq_some_iff]
    cases m <;> rfl
  case fields => decide +kernel
  case cause =>
    cases exec_faultsCaused _ h with
    | rounding field unresolved => exact ⟨rfl, _, field, State.resolveRm_eq_none_iff.1 unresolved⟩
  case raises =>
    rintro ⟨rfl, q, hq, hbad⟩
    obtain ⟨p, k, rfl, hexec⟩ := exec_of_roundingField hq s
    exact hexec.trans (State.withRounding_of_none (State.resolveRm_eq_none_iff.2 hbad))

end Sys2Proof.Machine
end

section
/-! O17: a step leaves the parameters of the launch as they are (00_scope.md R5, 70_reset_and_hazards.md R490). -/

namespace Sys2Proof.Machine

variable {s t u : State}

/-- The width mode, the catalog and the valid addresses of two states are the same. -/
def SameParameters (s t : State) : Prop := t.m64 = s.m64 ∧ t.catalog = s.catalog ∧ t.regions = s.regions

theorem SameParameters.trans (h : SameParameters s t) (h' : SameParameters t u) : SameParameters s u := by
  obtain ⟨hm64, hcatalog, hregions⟩ := h
  obtain ⟨hm64', hcatalog', hregions'⟩ := h'
  exact ⟨hm64'.trans hm64, hcatalog'.trans hcatalog, hregions'.trans hregions⟩

theorem sameParameters_exec {i : Instr} (h : exec i s = .next t) : SameParameters s t := by
  cases exec_effect h <;> exact ⟨rfl, rfl, rfl⟩

/-- A custom handler changes none of them, whatever it answers (R159). -/
theorem sameParameters_finish {o : HandlerOutcome} {st : Statement} (h : s.finish st o = .next t) :
    SameParameters s t := by
  rcases State.finish_next.1 h with ⟨writes, -, -, rfl⟩ | ⟨g, -, rfl⟩
  · exact HandlerWrite.foldl_induction (P := SameParameters s) ⟨rfl, rfl, rfl⟩ fun u e _ hu =>
      hu.trans ⟨e.run_m64 u, e.run_catalog u, e.run_regions u⟩
  · exact ⟨rfl, rfl, rfl⟩

theorem sameParameters_select {a : HartId} (h : s.select a = some t) : SameParameters s t := by
  obtain ⟨-, -, -, hm64, hcatalog, hregions, -⟩ := State.select_some h
  exact ⟨hm64, hcatalog, hregions⟩

theorem sameParameters_takeTurn_run (h : s.takeTurn = .run t) : SameParameters s t := by
  rcases State.takeTurn_run h with ⟨-, rfl⟩ | ⟨a, rest, v, -, hv, rfl⟩
  · exact ⟨rfl, rfl, rfl⟩
  · exact (sameParameters_select hv).trans (t := v) ⟨rfl, rfl, rfl⟩

/-- Settles O17: neither the host's move nor the instruction or handler it leads to writes one of them. -/
theorem modeAndMapConstant : Obligations.ModeAndMapConstant := by
  intro s t h
  rcases step_next h with ⟨u, hu, ⟨i, hi⟩ | ⟨k, st, hk⟩⟩ | hd
  · exact (sameParameters_takeTurn_run hu).trans (sameParameters_exec hi)
  · exact (sameParameters_takeTurn_run hu).trans (sameParameters_finish hk)
  · obtain ⟨a, rest, v, g, -, hv, -, rfl⟩ := State.takeTurn_done hd
    exact (sameParameters_select hv).trans (t := v) ⟨rfl, rfl, rfl⟩

end Sys2Proof.Machine
end

section
/-! O18: what a hart can do to the others: clear a reservation its own write overlaps (20_memory.md R69,
60_exceptions.md R480). -/

namespace Sys2Proof.Machine

variable {s t : State} {i : Instr}

/-- The effect of an instruction on the other harts: none where its access writes nothing; that of its own write, once
the check has passed, where it writes; or it is a store-conditional that fails (R304). -/
theorem exec_parked (h : exec i s = .next t) :
    (NoWrite i s ∧ t.parked = s.parked) ∨
    (∃ d, s.dataAccess i = some d ∧ d.writes = true ∧ s.accessOk .store d.addr d.width = true ∧
      t.parked = s.parked.map (Hart.invalidate d.addr.toNat d.width)) ∨
    (isSc i = true ∧ t.running.res = none ∧ t.mem = s.mem ∧ t.parked = s.parked) := by
  cases exec_effect h with
  | store a n v _ own ok => exact .inr (.inl ⟨_, own, rfl, ok, rfl⟩)
  | condStore a n v rd w _ own ok => exact .inr (.inl ⟨_, own, rfl, ok, rfl⟩)
  | atomic a n v rd w _ own ok => exact .inr (.inl ⟨_, own, rfl, ok, rfl⟩)
  | condFail hsc => exact .inr (.inr ⟨hsc, rfl, rfl, rfl⟩)
  | toX quiet | goto quiet | toF quiet | moveF quiet | flagsToX quiet | reserve quiet | csr quiet | trapReturn quiet
  | signal quiet => exact .inl ⟨quiet, rfl⟩

theorem exec_id (h : exec i s = .next t) : t.running.id = s.running.id := by
  cases exec_effect h <;> rfl

/-! ### Custom handlers (log 24) -/

/-- The hart afterwards is as before but for its reservation, which is kept or cleared. -/
def LosesAtMostReservation (h h' : Hart) : Prop := h' = { h with res := h'.res } ∧ (h'.res = h.res ∨ h'.res = none)

theorem losesAtMostReservation_invalidate (a n : Nat) (h : Hart) : LosesAtMostReservation h (h.invalidate a n) := by
  refine ⟨rfl, ?_⟩
  cases hr : (h.invalidate a n).res with
  | none => exact .inr rfl
  | some r => exact .inl (surviving_eq_some hr).symm

theorem LosesAtMostReservation.trans {h h' h'' : Hart} (hl : LosesAtMostReservation h h')
    (hl' : LosesAtMostReservation h' h'') : LosesAtMostReservation h h'' := by
  obtain ⟨heq, hres⟩ := hl
  obtain ⟨heq', hres'⟩ := hl'
  refine ⟨by rw [heq', heq], hres'.elim (fun e => ?_) .inr⟩
  rw [e]
  exact hres

/-- Every other hart of `t` is the one of `s` at its place, but for a lost reservation. -/
def ParkedLoseReservations (s t : State) : Prop :=
  ∃ g : Hart → Hart, (∀ h, LosesAtMostReservation h (g h)) ∧ t.parked = s.parked.map g

theorem parkedLoseReservations_of_eq (h : t.parked = s.parked) : ParkedLoseReservations s t :=
  ⟨id, fun _ => ⟨rfl, .inl rfl⟩, h.trans (List.map_id _).symm⟩

/-- A write of memory clears reservations; no other write of a handler reaches another hart. -/
theorem ParkedLoseReservations.run (h : ParkedLoseReservations s t) (e : HandlerWrite) :
    ParkedLoseReservations s (e.run t) := by
  obtain ⟨g, hg, ht⟩ := h
  cases e with
  | mem a k v =>
    refine ⟨fun p => (g p).invalidate a.toNat (2 ^ k.val), fun p =>
      (hg p).trans (losesAtMostReservation_invalidate _ _ _), ?_⟩
    show t.parked.map _ = _
    rw [ht, List.map_map]
    rfl
  | _ => exact ⟨g, hg, ht⟩

theorem parkedLoseReservations_finish {o : HandlerOutcome} {st : Statement} (h : s.finish st o = .next t) :
    ParkedLoseReservations s t := by
  rcases State.finish_next.1 h with ⟨writes, -, -, rfl⟩ | ⟨g, -, rfl⟩
  · exact HandlerWrite.foldl_induction (P := ParkedLoseReservations s) (parkedLoseReservations_of_eq rfl)
      fun _ e _ hu => hu.run e
  · exact parkedLoseReservations_of_eq rfl

theorem finish_id {o : HandlerOutcome} {st : Statement} (h : s.finish st o = .next t) :
    t.running.id = s.running.id := by
  rcases State.finish_next.1 h with ⟨writes, -, -, rfl⟩ | ⟨g, -, rfl⟩
  · exact HandlerWrite.foldl_induction (P := fun u => u.running.id = s.running.id) rfl fun u e _ hu =>
      (e.run_id u).trans hu
  · rfl

/-- An answer that writes no memory leaves memory and the other harts as they are. -/
theorem finish_ok_of_no_mem {ws : List HandlerWrite} {st : Statement} (h : s.finish st (.ok ws) = .next t)
    (hws : ∀ a n v, HandlerWrite.mem a n v ∉ ws) : t.parked = s.parked ∧ t.mem = s.mem := by
  rcases State.finish_next.1 h with ⟨_, ⟨⟩, -, rfl⟩ | ⟨_, ⟨⟩, -⟩
  refine HandlerWrite.foldl_induction (P := fun u => u.parked = s.parked ∧ u.mem = s.mem) ⟨rfl, rfl⟩
    fun u e he hu => ?_
  cases e with
  | mem a k v => exact absurd he (hws a k v)
  | _ => exact hu

/-- Settles O18, from what an instruction and what a handler's answer do to the other harts. -/
theorem otherHartsOnlyLoseReservations : Obligations.OtherHartsOnlyLoseReservations := by
  refine ⟨fun i s t h => ⟨exec_id h, fun quiet => ?quiet, fun d hd hw => ?writes⟩,
    fun o st s t h => ⟨finish_id h, ?handlerLength, fun k p p' hp hp' => ?handlerParked, ?handlerNoMem⟩⟩
  case quiet =>
    rcases exec_parked h with ⟨-, hp⟩ | ⟨d, hd, hw, -⟩ | ⟨-, -, -, hp⟩
    · exact hp
    · exact absurd hw (by rw [quiet d hd]; decide)
    · exact hp
  case writes =>
    rcases exec_parked h with ⟨quiet, -⟩ | ⟨e, he, -, ok, hp⟩ | hfailed
    · exact absurd hw (by rw [quiet d hd]; decide)
    · obtain rfl : d = e := Option.some.inj (hd.symm.trans he)
      exact .inl ⟨ok, parkedAfterWrite_map hp⟩
    · exact .inr hfailed
  case handlerLength =>
    obtain ⟨g, -, hp⟩ := parkedLoseReservations_finish h
    rw [hp, List.length_map]
  case handlerParked =>
    obtain ⟨g, hg, heq⟩ := parkedLoseReservations_finish h
    rw [heq, List.getElem?_map, hp] at hp'
    cases hp'
    exact hg p
  case handlerNoMem =>
    rintro ws rfl hws
    exact finish_ok_of_no_mem h hws

end Sys2Proof.Machine
end

section
/-! O13: the host's moves (60_exceptions.md R474, R481, 42_dispatch.md R161). -/

namespace Sys2Proof.Machine

variable {s t : State} {a : HartId} {rest : List HostMove}

/-- A hart cannot be chosen exactly when the machine has none of that identifier. -/
theorem State.select_eq_none_iff : s.select a = none ↔ a ∉ s.hartIds := by
  rw [State.hartIds, State.harts, List.map_cons, List.mem_cons, not_or, List.mem_map]
  unfold State.select
  by_cases h : s.running.id = a
  · simp [h]
  · rw [if_neg h, Option.map_eq_none_iff, swapHart_none, eq_comm (a := a)]
    simp [h]

/-! ### A step by its move -/

theorem step_of_step_move (hm : s.moves = .step a :: rest)
    (hs : State.select { s with moves := rest } a = some t) : step s = t.beginStep.runOne := by
  simp only [step, State.takeTurn, hm, hs]

theorem step_of_resume_move {g : Signal} (hm : s.moves = .resume a :: rest)
    (hs : State.select { s with moves := rest } a = some t) (hg : t.running.signal = some g) :
    step s = .next t.resume := by
  simp only [step, State.takeTurn, hm, hs, hg]

theorem step_of_resume_without_signal (hm : s.moves = .resume a :: rest)
    (hs : State.select { s with moves := rest } a = some t) (hg : t.running.signal = none) :
    step s = .refused (.nothingToResume a) := by
  simp only [step, State.takeTurn, hm, hs, hg]

theorem step_of_no_such_hart (hm : s.moves = .step a :: rest ∨ s.moves = .resume a :: rest)
    (hs : State.select { s with moves := rest } a = none) : step s = .refused (.noSuchHart a) := by
  rcases hm with hm | hm <;> simp only [step, State.takeTurn, hm, hs]

/-- Settles O13: what choosing a hart gives, and the step of each move. -/
theorem hostMoves : Obligations.HostMoves := fun _ _ =>
  ⟨State.select_eq_none_iff, fun _ => State.select_some, fun _ _ => step_of_step_move,
    fun _ _ _ => step_of_resume_move, fun _ hm hid => step_of_no_such_hart hm (State.select_eq_none_iff.2 hid),
    fun _ _ => step_of_resume_without_signal⟩

end Sys2Proof.Machine
end

section
/-! O9: words of 95_test_vectors.md. -/

namespace Sys2Proof

/-- Settles O9, word by word: the arbiter's walk over the 161 rows is evaluated. -/
theorem sampleWordsDecode : Obligations.SampleWordsDecode :=
  ⟨rfl, rfl, rfl, rfl, rfl, rfl, rfl, rfl, rfl, rfl, rfl, rfl, rfl, rfl, rfl, rfl, rfl⟩

end Sys2Proof
end

section
/-! O10: which words are illegal, and that only the decode of a fetched word raises IllegalInstruction
(42_dispatch.md R153, 30_encoding.md R113, 60_exceptions.md R462). -/

namespace Sys2Proof

open Machine (Catalog.selectFrom_of_illegal Catalog.decodeInstr_custom)

variable {c : Catalog} {m64 : Bool} {w : Word} {d : Descriptor}

/-! ### Illegal words -/

/-- A word is illegal exactly when no enabled descriptor accepts it (R153). -/
theorem Catalog.decodeInstr_illegal_iff :
    c.decodeInstr m64 w = .error .illegalInstruction ↔ ∀ d ∈ c, d.enabled m64 = true → d.accepts w = false := by
  refine ⟨fun h => selectFrom_none.1 (Catalog.selectFrom_of_illegal h), fun h => ?_⟩
  unfold Catalog.decodeInstr
  rw [selectFrom_none.2 h]

/-- A word is illegal, decodes to an instruction, or decodes to a custom handler; it is never too short. -/
theorem Catalog.decodeInstr_cases (c : Catalog) (m64 : Bool) (w : Word) :
    c.decodeInstr m64 w = .error .illegalInstruction ∨ (∃ i, c.decodeInstr m64 w = .ok i) ∨
      ∃ k, c.decodeInstr m64 w = .error (.customHandler k) := by
  unfold Catalog.decodeInstr
  cases c.selectFrom m64 w 0 with
  | none => exact .inl rfl
  | some nd =>
    cases hd : nd.2.handler with
    | spec h => exact .inr (.inl ⟨_, by simp only [hd]; rfl⟩)
    | custom k => exact .inr (.inr ⟨k, by simp only [hd]⟩)

/-! ### The reference catalog -/

/-- No word decodes to a custom handler, since no row names one. -/
theorem decode_ne_customHandler (m64 : Bool) (w : Word) (k : Nat) : decode m64 w ≠ .error (.customHandler k) := by
  intro h
  obtain ⟨n, d, hs, hk, -⟩ := Catalog.decodeInstr_custom h
  obtain ⟨-, hn, -, -⟩ := selectFrom_some hs
  obtain ⟨g, hg⟩ := refCatalog_spec d (List.mem_of_getElem? hn)
  rw [hk] at hg
  cases hg

/-- Every row fixes bits 1 and 0 at 1 (R113). -/
theorem refCatalog_lowBits : ∀ d ∈ refCatalog, d.mask.extractLsb' 0 2 = 3#2 ∧ d.value.extractLsb' 0 2 = 3#2 := by
  decide +kernel

/-- No row accepts the word of ones (R113). -/
theorem refCatalog_rejects_ones : ∀ d ∈ refCatalog, d.accepts 0xFFFFFFFF = false := by decide +kernel

theorem lowBits_of_accepts (hd : d ∈ refCatalog) (h : d.accepts w = true) : w.extractLsb' 0 2 = 3#2 := by
  obtain ⟨hmask, hvalue⟩ := refCatalog_lowBits d hd
  have hlow := congrArg (BitVec.extractLsb' 0 2) (Descriptor.accepts_iff.1 h)
  rw [BitVec.extractLsb'_and, hmask, hvalue] at hlow
  revert hlow
  generalize w.extractLsb' 0 2 = b
  revert b
  decide

/-- The inference of R113: the words with other low bits, all zeros among them, and all ones. -/
theorem decode_illegal_of_lowBits (h : w.extractLsb' 0 2 ≠ 3#2 ∨ w = 0#32 ∨ w = 0xFFFFFFFF#32) :
    decode m64 w = .error .illegalInstruction := by
  refine Catalog.decodeInstr_illegal_iff.2 fun d hd _ => ?_
  rw [← Bool.not_eq_true]
  intro ha
  rcases h with hlow | rfl | rfl
  · exact hlow (lowBits_of_accepts hd ha)
  · exact absurd (lowBits_of_accepts hd ha) (by decide)
  · exact Bool.false_ne_true ((refCatalog_rejects_ones d hd).symm.trans ha)

end Sys2Proof

namespace Sys2Proof.Machine

variable {s : State} {w : Word} {a : DWord}

/-! ### What raises IllegalInstruction (R462) -/

theorem exec_ne_illegal (i : Instr) (s : State) (w : Word) (a : DWord) :
    exec i s ≠ .fault (.illegalInstruction w a) :=
  fun h => nomatch exec_faultsCaused _ h

/-- IllegalInstruction is no answer of a custom handler (R160; log 24). -/
theorem finish_ne_illegal (s : State) (st : Statement) (o : HandlerOutcome) (w : Word) (a : DWord) :
    s.finish st o ≠ .fault (.illegalInstruction w a) := by
  cases o with
  | ok writes =>
    intro h
    unfold State.finish at h
    dsimp only at h
    split at h
    · rename_i r hr
      obtain ⟨e, -, he⟩ := List.exists_of_findSome?_eq_some hr
      rcases HandlerWrite.stop_some he with ⟨k, b, -, rfl⟩ | ⟨c, rfl⟩ <;> cases h
    · cases h
  | _ => intro h; cases h

theorem State.fetch_ne_illegal (s : State) (w : Word) (a : DWord) : s.fetch ≠ .error (.illegalInstruction w a) := by
  cases h : s.accessOk .fetch s.running.pc 4 with
  | true => rw [State.fetch_of_ok h]; exact nofun
  | false => rw [State.fetch_of_not h]; exact nofun

/-- Fetch, decode, execute raises it where the fetched word is illegal and nowhere else. -/
theorem State.runOne_illegal_iff :
    s.runOne = .fault (.illegalInstruction w a) ↔
      s.fetch = .ok w ∧ a = s.running.pc ∧ s.catalog.decodeInstr s.m64 w = .error .illegalInstruction := by
  refine ⟨fun h => ?_, fun ⟨hf, ha, hd⟩ => ha ▸ State.runOne_of_illegal hf hd⟩
  cases hf : s.fetch with
  | error e =>
    rw [State.runOne_of_fetch_error hf] at h
    cases h
    exact absurd hf (s.fetch_ne_illegal w a)
  | ok v =>
    rcases s.catalog.decodeInstr_cases s.m64 v with hd | ⟨i, hd⟩ | ⟨k, hd⟩
    · rw [State.runOne_of_illegal hf hd] at h
      cases h
      exact ⟨rfl, rfl, hd⟩
    · obtain ⟨n, d, _, _, _, _, hs⟩ := Catalog.decodeInstr_ok hd
      rw [State.runOne_of_decode hf hs hd, carrying_fault] at h
      obtain ⟨f, hexec, hcarry⟩ := h
      exact absurd (Fault.carrying_illegal.1 hcarry ▸ hexec) (exec_ne_illegal i s w a)
    · obtain ⟨n, d, _, _, hs⟩ := Catalog.decodeInstr_custom hd
      rw [State.runOne_of_custom hf hs hd] at h
      exact absurd h (finish_ne_illegal s _ _ w a)

/-- Settles O10: the arbiter selects nothing, and only then does a step raise IllegalInstruction. -/
theorem illegalExactly : Obligations.IllegalExactly := by
  refine ⟨fun c m64 w => ⟨Catalog.decodeInstr_illegal_iff, c.decodeInstr_cases m64 w⟩, fun m64 w => ?reference,
    fun _ _ => decode_illegal_of_lowBits, exec_ne_illegal, fun k st s => finish_ne_illegal s st _,
    fun s w a hm => ?step⟩
  case reference =>
    exact (refCatalog.decodeInstr_cases m64 w).imp_right fun h =>
      h.resolve_right fun ⟨k, hk⟩ => decode_ne_customHandler m64 w k hk
  case step =>
    rw [step_of_no_moves hm]
    exact State.runOne_illegal_iff

end Sys2Proof.Machine
end
